-- ==== Sys2Proof/Word.lean ====
section
/-!
DEFINITION. The word types of the Z9 (R2, R17, R163).  Bit 0 is the least significant bit everywhere.
-/

namespace Sys2Proof

/-- A byte of memory. -/
abbrev Byte := BitVec 8

/-- A scalar register, an address, a program counter. -/
abbrev Word := BitVec 64

/-- A vector register: 256 lanes of 32 bits, lane 0 in the lowest bits, so that element `e` of width `w` lies at
bits `e * w` upward (R163). -/
abbrev VReg := BitVec 8192

/-- A mask register: bit `i` serves lane `i` (R163). -/
abbrev Mask := BitVec 256

end Sys2Proof
end

