-- ==== Sys2Proof/Syntax.lean ====
section
/-!
DEFINITION. The instructions and events of the Z9: one constructor per row of spec/opcode_table.json, in the
table's order.  Rows with a word carry the fields of their format (04, R71, R76, R80, R82); rows without a word
are the machine's other steps (95, R279 onward) and carry what names the thing they act on, or what the outside
world supplies.  A number n names the n-th element of the list of State that holds such things in flight.
-/

namespace Sys2Proof

/-- The four engines of a core, numbered as in TRAPCAUSE (R14, R69). -/
inductive Engine where
  | s | v | m | c
  deriving DecidableEq, Repr, Inhabited

/-- The targets that keep an access table (R324).  Controllers and handler engines are numbered as in R278. -/
inductive Target where
  /-- GDDR 7 controller `n` = 12 x die + controller of the die -/
  | gddr (n : Nat)
  /-- LPDDR 6 controller `n` of the hub -/
  | lpddr (n : Nat)
  /-- the handler engine of GDDR 7 controller `n` -/
  | gddrHandler (n : Nat)
  /-- the handler engine of LPDDR 6 controller `n` -/
  | lpddrHandler (n : Nat)
  /-- vault `n`, 0 to 63 -/
  | vault (n : Nat)
  /-- the fabric ingress of the hub -/
  | ingress
  /-- the UCIe host port -/
  | hostPort
  deriving DecidableEq, Repr, Inhabited

/-- What a host request asks for (R388).  A host atomic names a standard slot and brings h4 and h5. -/
inductive HostKind where
  | read | write
  | atomic (slot : BitVec 5) (h4 h5 : BitVec 64)
  deriving DecidableEq, Repr, Inhabited

/-- The two command queues of the management controller (R397). -/
inductive MgmtSource where
  | host | supervisor
  deriving DecidableEq, Repr, Inhabited

/-- The instructions of the four engines, then the machine's other steps. -/
inductive Instr where
  /-- ADD: Sets d to a plus b modulo 2^64 (R113) -/
  | add (d : BitVec 6) (a : BitVec 6) (b : BitVec 6)
  /-- SUB: Sets d to a minus b modulo 2^64 (R113) -/
  | sub (d : BitVec 6) (a : BitVec 6) (b : BitVec 6)
  /-- AND: Sets d to a AND b (R113) -/
  | and (d : BitVec 6) (a : BitVec 6) (b : BitVec 6)
  /-- OR: Sets d to a OR b (R113) -/
  | or (d : BitVec 6) (a : BitVec 6) (b : BitVec 6)
  /-- XOR: Sets d to a XOR b (R113) -/
  | xor (d : BitVec 6) (a : BitVec 6) (b : BitVec 6)
  /-- ANDN: Sets d to a AND NOT b (R113) -/
  | andn (d : BitVec 6) (a : BitVec 6) (b : BitVec 6)
  /-- ORN: Sets d to a OR NOT b (R113) -/
  | orn (d : BitVec 6) (a : BitVec 6) (b : BitVec 6)
  /-- SHL: Shifts a left by b[5:0] (R113) -/
  | shl (d : BitVec 6) (a : BitVec 6) (b : BitVec 6)
  /-- SHR: Shifts a right logically by b[5:0] (R113) -/
  | shr (d : BitVec 6) (a : BitVec 6) (b : BitVec 6)
  /-- SRA: Shifts a right arithmetically by b[5:0] (R113) -/
  | sra (d : BitVec 6) (a : BitVec 6) (b : BitVec 6)
  /-- SLT: Sets d to 1 if a is less than b signed (R113) -/
  | slt (d : BitVec 6) (a : BitVec 6) (b : BitVec 6)
  /-- SLTN: Sets d to 1 if a is less than b unsigned (R113) -/
  | sltn (d : BitVec 6) (a : BitVec 6) (b : BitVec 6)
  /-- SEQ: Sets d to 1 if a equals b (R113) -/
  | seq (d : BitVec 6) (a : BitVec 6) (b : BitVec 6)
  /-- SNE: Sets d to 1 if a differs from b (R113) -/
  | sne (d : BitVec 6) (a : BitVec 6) (b : BitVec 6)
  /-- MIN: Sets d to the signed minimum of a and b (R113) -/
  | min (d : BitVec 6) (a : BitVec 6) (b : BitVec 6)
  /-- MAX: Sets d to the signed maximum of a and b (R113) -/
  | max (d : BitVec 6) (a : BitVec 6) (b : BitVec 6)
  /-- MINN: Sets d to the unsigned minimum of a and b (R113) -/
  | minn (d : BitVec 6) (a : BitVec 6) (b : BitVec 6)
  /-- MAXN: Sets d to the unsigned maximum of a and b (R113) -/
  | maxn (d : BitVec 6) (a : BitVec 6) (b : BitVec 6)
  /-- MUL: Sets d to the low 64 bits of a times b (R113) -/
  | mul (d : BitVec 6) (a : BitVec 6) (b : BitVec 6)
  /-- MULH: Sets d to the high 64 bits of the signed product (R113) -/
  | mulh (d : BitVec 6) (a : BitVec 6) (b : BitVec 6)
  /-- MULHN: Sets d to the high 64 bits of the unsigned product (R113) -/
  | mulhn (d : BitVec 6) (a : BitVec 6) (b : BitVec 6)
  /-- DIV: Signed division truncated toward zero, with defined results for zero divisors (R114) -/
  | div (d : BitVec 6) (a : BitVec 6) (b : BitVec 6)
  /-- DIVN: Unsigned division, all ones on a zero divisor (R114) -/
  | divn (d : BitVec 6) (a : BitVec 6) (b : BitVec 6)
  /-- REM: Signed remainder with the sign of a (R114) -/
  | rem (d : BitVec 6) (a : BitVec 6) (b : BitVec 6)
  /-- REMN: Unsigned remainder (R114) -/
  | remn (d : BitVec 6) (a : BitVec 6) (b : BitVec 6)
  /-- CLZ: Counts leading zeros of a (R113) -/
  | clz (d : BitVec 6) (a : BitVec 6)
  /-- CTZ: Counts trailing zeros of a (R113) -/
  | ctz (d : BitVec 6) (a : BitVec 6)
  /-- POP: Counts set bits of a (R113) -/
  | pop (d : BitVec 6) (a : BitVec 6)
  /-- PADD: Position add of b to a, raising PADD on overflow of the position field (R116) -/
  | padd (d : BitVec 6) (a : BitVec 6) (b : BitVec 6)
  /-- PLANE: Replaces the plane field of a with b[3:0] (R113) -/
  | planeOf (d : BitVec 6) (a : BitVec 6) (b : BitVec 6)
  /-- PATH: Replaces the path field of a with b[2:0] (R113) -/
  | pathOf (d : BitVec 6) (a : BitVec 6) (b : BitVec 6)
  /-- ADDI: Adds a sign-extended 14-bit immediate (R115) -/
  | addi (d : BitVec 6) (a : BitVec 6) (imm : BitVec 14)
  /-- ANDI: ANDs a with a sign-extended immediate (R115) -/
  | andi (d : BitVec 6) (a : BitVec 6) (imm : BitVec 14)
  /-- ORI: ORs a with a sign-extended immediate (R115) -/
  | ori (d : BitVec 6) (a : BitVec 6) (imm : BitVec 14)
  /-- XORI: XORs a with a sign-extended immediate (R115) -/
  | xori (d : BitVec 6) (a : BitVec 6) (imm : BitVec 14)
  /-- SHLI: Shifts a left by imm[5:0] (R115) -/
  | shli (d : BitVec 6) (a : BitVec 6) (imm : BitVec 6)
  /-- SHRI: Shifts a right logically by imm[5:0] (R115) -/
  | shri (d : BitVec 6) (a : BitVec 6) (imm : BitVec 6)
  /-- SRAI: Shifts a right arithmetically by imm[5:0] (R115) -/
  | srai (d : BitVec 6) (a : BitVec 6) (imm : BitVec 6)
  /-- SLTI: Sets d to 1 if a is below the immediate, signed (R115) -/
  | slti (d : BitVec 6) (a : BitVec 6) (imm : BitVec 14)
  /-- SLTNI: Sets d to 1 if a is below the immediate, unsigned (R115) -/
  | sltni (d : BitVec 6) (a : BitVec 6) (imm : BitVec 14)
  /-- PADDI: Position add of a sign-extended immediate (R116) -/
  | paddi (d : BitVec 6) (a : BitVec 6) (imm : BitVec 14)
  /-- PLANEI: Replaces the plane field of a with imm[3:0] (R115) -/
  | planei (d : BitVec 6) (a : BitVec 6) (imm : BitVec 4)
  /-- HI: Sets d to the sign-extended immediate shifted left by 12 (R117) -/
  | hi (d : BitVec 6) (imm : BitVec 20)
  /-- TOP: Replaces bits [63:44] of d with the immediate (R117) -/
  | top (d : BitVec 6) (imm : BitVec 20)
  /-- PCREL: Sets d to PC plus four times the sign-extended immediate (R117) -/
  | pcrel (d : BitVec 6) (imm : BitVec 20)
  /-- BEQ: Branches when a equals b (R118) -/
  | beq (a : BitVec 6) (b : BitVec 6) (off : BitVec 14)
  /-- BNE: Branches when a differs from b (R118) -/
  | bne (a : BitVec 6) (b : BitVec 6) (off : BitVec 14)
  /-- BLT: Branches when a is below b, signed (R118) -/
  | blt (a : BitVec 6) (b : BitVec 6) (off : BitVec 14)
  /-- BGE: Branches when a is at least b, signed (R118) -/
  | bge (a : BitVec 6) (b : BitVec 6) (off : BitVec 14)
  /-- BLTN: Branches when a is below b, unsigned (R118) -/
  | bltn (a : BitVec 6) (b : BitVec 6) (off : BitVec 14)
  /-- BGEN: Branches when a is at least b, unsigned (R118) -/
  | bgen (a : BitVec 6) (b : BitVec 6) (off : BitVec 14)
  /-- JAL: Links PC+4 in d and jumps by a word offset (R119) -/
  | jal (d : BitVec 6) (off : BitVec 20)
  /-- JALR: Links PC+4 in d and jumps to a register plus immediate (R119) -/
  | jalr (d : BitVec 6) (a : BitVec 6) (imm : BitVec 14)
  /-- LD: Loads one element or sized datum into a scalar register (R120) -/
  | ld (d : BitVec 6) (a : BitVec 6) (sz : BitVec 3) (off : BitVec 11)
  /-- ST: Posts a store of one element or sized datum from a scalar register (R120) -/
  | st (d : BitVec 6) (a : BitVec 6) (sz : BitVec 3) (off : BitVec 11)
  /-- RST: Stores a datum and increments a flag word once the data is visible at DOM scope (R123) -/
  | rst (d : BitVec 6) (a : BitVec 6) (b : BitVec 6) (f : BitVec 3)
  /-- AMO: Sends an atomic to a handler slot and waits for its return value (R124) -/
  | amo (d : BitVec 6) (a : BitVec 6) (b : BitVec 6) (slot : BitVec 5)
  /-- AMO_POSTED: Sends a posted atomic to a handler slot without a return value (R124) -/
  | amoPosted (a : BitVec 6) (b : BitVec 6) (slot : BitVec 5)
  /-- WAITA: Waits on a memory word through a monitor entry, with optional timeout, and writes a status (R126) -/
  | waita (d : BitVec 6) (a : BitVec 6) (b : BitVec 6) (f : BitVec 2)
  /-- FENCE: Holds the scalar engine until the named earlier accesses are performed at the scope (R128) -/
  | fence (sub : BitVec 4) (sc : BitVec 4)
  /-- ACQ: Loads a sync word and orders later accesses after it at the scope (R129) -/
  | acq (d : BitVec 6) (a : BitVec 6) (sc : BitVec 4)
  /-- REL: Stores a sync word after earlier accesses are performed at the scope (R129) -/
  | rel (a : BitVec 6) (b : BitVec 6) (sc : BitVec 4)
  /-- REL_ADD: Adds to a sync word as a posted atomic after earlier accesses are performed at the scope (R129) -/
  | relAdd (a : BitVec 6) (b : BitVec 6) (sc : BitVec 4)
  /-- BIND: Reads a binding descriptor into a binding-table slot (R130) -/
  | bind (d : BitVec 6) (a : BitVec 6) (slot : BitVec 4)
  /-- UNBIND: Empties a binding-table slot (R130) -/
  | unbind (d : BitVec 6) (a : BitVec 6) (slot : BitVec 4)
  /-- TK_WAIT: Takes one token from each named queue (R131) -/
  | tkWait (m : BitVec 3)
  /-- TK_GIVE: Gives one token to each named queue after earlier stores are performed at TSK scope (R131) -/
  | tkGive (m : BitVec 3)
  /-- KW: Waits for the named scoreboard tokens, returns their error bits and optionally clears them (R132) -/
  | kw (d : BitVec 6) (clear : BitVec 1) (mask : BitVec 8)
  /-- BAR_ARRIVE: Arrives at a barrier as a release and merges TFLAGS into its flag field (R133) -/
  | barArrive (d : BitVec 6) (a : BitVec 6) (b : BitVec 6) (sc : BitVec 4)
  /-- BAR_WAIT: Holds until the barrier phase differs from b, then acts as an acquire (R133) -/
  | barWait (d : BitVec 6) (a : BitVec 6) (b : BitVec 6) (sc : BitVec 4)
  /-- BAR_SYNC: Arrives at a barrier and waits on the phase arrived in (R133) -/
  | barSync (d : BitVec 6) (a : BitVec 6) (b : BitVec 6) (sc : BitVec 4)
  /-- BAR_INIT: Sets a barrier's expected count and clears its arrivals and flags (R133) -/
  | barInit (d : BitVec 6) (a : BitVec 6) (b : BitVec 6) (sc : BitVec 4)
  /-- BAR_FLAGS: Returns the flag field of the barrier's most recently completed phase (R133) -/
  | barFlags (d : BitVec 6) (a : BitVec 6) (b : BitVec 6) (sc : BitVec 4)
  /-- BAR_TEST1: Returns bit 0 of the barrier phase, kept for the Z7 (R135) -/
  | barTest1 (d : BitVec 6) (a : BitVec 6) (b : BitVec 6) (sc : BitVec 4)
  /-- QM_POST: Places quiesce markers in the named engines and clears the phase-end flag (R136) -/
  | qmPost (m : BitVec 3)
  /-- QM_WAIT: Holds until the phase-end flag is set, then clears it (R136) -/
  | qmWait
  /-- LAUNCH: Offers a launch record to the die's launch controller and returns a handle or refusal reason (R137) -/
  | launch (d : BitVec 6) (a : BitVec 6)
  /-- ST_BASE: Sets a stream's base and extent and zeroes its cursor (R138) -/
  | stBase (q : BitVec 4) (a : BitVec 6) (b : BitVec 6)
  /-- ST_LAY: Sets a stream's layout word (R138) -/
  | stLay (q : BitVec 4) (a : BitVec 6)
  /-- ST_FMT: Sets a stream's format word (R138) -/
  | stFmt (q : BitVec 4) (a : BitVec 6)
  /-- ST_SCL: Sets a stream's tensor scale (R138) -/
  | stScl (q : BitVec 4) (a : BitVec 6)
  /-- ST_FLAG: Sets a stream's flag address (R138) -/
  | stFlag (q : BitVec 4) (a : BitVec 6)
  /-- ST_LINK: Links a stream to a leader's cached translation, or unlinks it (R139) -/
  | stLink (q : BitVec 4) (b : BitVec 6)
  /-- ST_POS: Sets a stream's cursor (R138) -/
  | stPos (q : BitVec 4) (a : BitVec 6)
  /-- ST_FILL: Sets a stream's fill value (R138) -/
  | stFill (q : BitVec 4) (a : BitVec 6)
  /-- RTSET: Sets a routing register (R141) -/
  | rtset (r : BitVec 2) (a : BitVec 6)
  /-- XSET: Sets an x register from the low 32 bits of a (R141) -/
  | xset (x : BitVec 4) (a : BitVec 6)
  /-- SGET: Reads a system register into d (R142) -/
  | sget (d : BitVec 6) (sys : BitVec 12)
  /-- SSET: Writes a system register from a (R142) -/
  | sset (a : BitVec 6) (sys : BitVec 12)
  /-- TRAP: Raises SWTRAP and counts as completed (R144) -/
  | trap (imm : BitVec 14)
  /-- ERET: Hands the frame at RESUME to the die's launch controller for restore (R147) -/
  | eret
  /-- SEAL: Sets the sealed bit of one plane of one object for a tenant (R148) -/
  | seal (a : BitVec 6) (b : BitVec 6)
  /-- UNSEAL: Clears the sealed bit of one plane and discards its replicas (R148) -/
  | unseal (a : BitVec 6) (b : BitVec 6)
  /-- TLBI_ALL: Invalidates every cached translation on every core of the device (R149) -/
  | tlbiAll
  /-- TLBI_TENANT: Invalidates every cached translation of one tenant (R149) -/
  | tlbiTenant (a : BitVec 6)
  /-- TLBI_POSITION_PAGE: Invalidates position TLB entries for one page (R149) -/
  | tlbiPositionPage (a : BitVec 6)
  /-- TLBI_PLANE_FRAME: Invalidates plane-frame cache words for one page and plane (R149) -/
  | tlbiPlaneFrame (a : BitVec 6)
  /-- YIELD: Offers the core group to a waiting higher-or-equal head item, saving it if that lets the item be placed (R145) -/
  | yield
  /-- END: Ends the scalar engine (R146) -/
  | endS
  /-- VADD: Float add in active lanes (R171) -/
  | vadd (d : BitVec 6) (a : BitVec 6) (b : BitVec 6) (m : BitVec 3) (nf : BitVec 1) (ty : BitVec 4)
  /-- VSUB: Float subtract in active lanes (R171) -/
  | vsub (d : BitVec 6) (a : BitVec 6) (b : BitVec 6) (m : BitVec 3) (nf : BitVec 1) (ty : BitVec 4)
  /-- VMUL: Float multiply in active lanes (R171) -/
  | vmul (d : BitVec 6) (a : BitVec 6) (b : BitVec 6) (m : BitVec 3) (nf : BitVec 1) (ty : BitVec 4)
  /-- VFMA: Fused d plus a times b with one rounding (R171) -/
  | vfma (d : BitVec 6) (a : BitVec 6) (b : BitVec 6) (m : BitVec 3) (nf : BitVec 1) (ty : BitVec 4)
  /-- VFMS: Fused d minus a times b with one rounding (R171) -/
  | vfms (d : BitVec 6) (a : BitVec 6) (b : BitVec 6) (m : BitVec 3) (nf : BitVec 1) (ty : BitVec 4)
  /-- VNFMA: Fused a times b minus d with one rounding (R171) -/
  | vnfma (d : BitVec 6) (a : BitVec 6) (b : BitVec 6) (m : BitVec 3) (nf : BitVec 1) (ty : BitVec 4)
  /-- VMIN: Float minimum in active lanes (R171) -/
  | vmin (d : BitVec 6) (a : BitVec 6) (b : BitVec 6) (m : BitVec 3) (nf : BitVec 1) (ty : BitVec 4)
  /-- VMAX: Float maximum in active lanes (R171) -/
  | vmax (d : BitVec 6) (a : BitVec 6) (b : BitVec 6) (m : BitVec 3) (nf : BitVec 1) (ty : BitVec 4)
  /-- VDIV: Correctly rounded float division (R171) -/
  | vdiv (d : BitVec 6) (a : BitVec 6) (b : BitVec 6) (m : BitVec 3) (nf : BitVec 1) (ty : BitVec 4)
  /-- VSQRT: Correctly rounded float square root (R171) -/
  | vsqrt (d : BitVec 6) (a : BitVec 6) (m : BitVec 3) (nf : BitVec 1) (ty : BitVec 4)
  /-- VABS: Clears the sign bit of each element (R171) -/
  | vabs (d : BitVec 6) (a : BitVec 6) (m : BitVec 3) (nf : BitVec 1) (ty : BitVec 4)
  /-- VNEG: Inverts the sign bit of each element (R171) -/
  | vneg (d : BitVec 6) (a : BitVec 6) (m : BitVec 3) (nf : BitVec 1) (ty : BitVec 4)
  /-- VRND: Rounds each element to an integral value in the VCTL mode (R171) -/
  | vrnd (d : BitVec 6) (a : BitVec 6) (m : BitVec 3) (nf : BitVec 1) (ty : BitVec 4)
  /-- VIADD: Integer add modulo 2^w (R172) -/
  | viadd (d : BitVec 6) (a : BitVec 6) (b : BitVec 6) (m : BitVec 3) (ty : BitVec 4)
  /-- VISUB: Integer subtract modulo 2^w (R172) -/
  | visub (d : BitVec 6) (a : BitVec 6) (b : BitVec 6) (m : BitVec 3) (ty : BitVec 4)
  /-- VIMUL: Integer multiply modulo 2^w (R172) -/
  | vimul (d : BitVec 6) (a : BitVec 6) (b : BitVec 6) (m : BitVec 3) (ty : BitVec 4)
  /-- VIMULH: High half of the integer product (R172) -/
  | vimulh (d : BitVec 6) (a : BitVec 6) (b : BitVec 6) (m : BitVec 3) (ty : BitVec 4)
  /-- VAND: Bitwise AND of elements (R172) -/
  | vand (d : BitVec 6) (a : BitVec 6) (b : BitVec 6) (m : BitVec 3) (ty : BitVec 4)
  /-- VOR: Bitwise OR of elements (R172) -/
  | vor (d : BitVec 6) (a : BitVec 6) (b : BitVec 6) (m : BitVec 3) (ty : BitVec 4)
  /-- VXOR: Bitwise XOR of elements (R172) -/
  | vxor (d : BitVec 6) (a : BitVec 6) (b : BitVec 6) (m : BitVec 3) (ty : BitVec 4)
  /-- VSHL: Shifts elements left by b mod w (R172) -/
  | vshl (d : BitVec 6) (a : BitVec 6) (b : BitVec 6) (m : BitVec 3) (ty : BitVec 4)
  /-- VSHR: Shifts elements right logically (R172) -/
  | vshr (d : BitVec 6) (a : BitVec 6) (b : BitVec 6) (m : BitVec 3) (ty : BitVec 4)
  /-- VSRA: Shifts elements right arithmetically (R172) -/
  | vsra (d : BitVec 6) (a : BitVec 6) (b : BitVec 6) (m : BitVec 3) (ty : BitVec 4)
  /-- VIMIN: Integer minimum, signed or unsigned by T (R172) -/
  | vimin (d : BitVec 6) (a : BitVec 6) (b : BitVec 6) (m : BitVec 3) (ty : BitVec 4)
  /-- VIMAX: Integer maximum, signed or unsigned by T (R172) -/
  | vimax (d : BitVec 6) (a : BitVec 6) (b : BitVec 6) (m : BitVec 3) (ty : BitVec 4)
  /-- VIABS: Integer absolute value modulo 2^w (R172) -/
  | viabs (d : BitVec 6) (a : BitVec 6) (m : BitVec 3) (ty : BitVec 4)
  /-- VCMP: Writes a mask register from an element comparison (R173) -/
  | vcmp (md : BitVec 3) (pr : BitVec 3) (a : BitVec 6) (b : BitVec 6) (m : BitVec 3) (nf : BitVec 1) (ty : BitVec 4)
  /-- VCVT: Converts elements from the source type to a target type (R175) -/
  | vcvt (d : BitVec 6) (a : BitVec 6) (target : BitVec 4) (sat : BitVec 1) (m : BitVec 3) (nf : BitVec 1) (ty : BitVec 4)
  /-- VCBE: Encodes float elements into 4-bit codes of a codebook slot (R177) -/
  | vcbe (d : BitVec 6) (a : BitVec 6) (cb : BitVec 3) (m : BitVec 3) (nf : BitVec 1) (ty : BitVec 4)
  /-- VCBD: Decodes 4-bit codes through a codebook slot (R178) -/
  | vcbd (d : BitVec 6) (a : BitVec 6) (cb : BitVec 3) (m : BitVec 3) (ty : BitVec 4)
  /-- VMOV: Copies elements in active lanes (R179) -/
  | vmov (d : BitVec 6) (a : BitVec 6) (m : BitVec 3) (ty : BitVec 4)
  /-- VSEL: Chooses a or b per lane by the mask (R179) -/
  | vsel (d : BitVec 6) (a : BitVec 6) (b : BitVec 6) (m : BitVec 3) (ty : BitVec 4)
  /-- VPERM: Permutes lanes of a by the indices in b (R179) -/
  | vperm (d : BitVec 6) (a : BitVec 6) (b : BitVec 6) (m : BitVec 3) (ty : BitVec 4)
  /-- VROT: Rotates lanes by an immediate (R180) -/
  | vrot (d : BitVec 6) (a : BitVec 6) (imm : BitVec 8)
  /-- VBCL: Broadcasts one lane to every lane (R180) -/
  | vbcl (d : BitVec 6) (a : BitVec 6) (imm : BitVec 8)
  /-- VBCX: Broadcasts an x register to every lane (R180) -/
  | vbcx (d : BitVec 6) (x : BitVec 4)
  /-- VRED: Reduces active elements by a fixed tree into element 0 (R182) -/
  | vred (d : BitVec 6) (a : BitVec 6) (op : BitVec 3) (m : BitVec 3) (nf : BitVec 1) (ty : BitVec 4)
  /-- VIDX: Sets each element to its index (R181) -/
  | vidx (d : BitVec 6) (m : BitVec 3) (ty : BitVec 4)
  /-- VIMM: Sets every element to a constant built from a 10-bit immediate (R181) -/
  | vimm (d : BitVec 6) (ty : BitVec 4) (v : BitVec 10)
  /-- MOPS_AND: ANDs two mask registers (R174) -/
  | mopsAnd (d : BitVec 6) (a : BitVec 6) (b : BitVec 6)
  /-- MOPS_OR: ORs two mask registers (R174) -/
  | mopsOr (d : BitVec 6) (a : BitVec 6) (b : BitVec 6)
  /-- MOPS_XOR: XORs two mask registers (R174) -/
  | mopsXor (d : BitVec 6) (a : BitVec 6) (b : BitVec 6)
  /-- MOPS_ANDN: Sets d to a AND NOT b for masks (R174) -/
  | mopsAndn (d : BitVec 6) (a : BitVec 6) (b : BitVec 6)
  /-- MOPS_NOT: Inverts a mask register (R174) -/
  | mopsNot (d : BitVec 6) (a : BitVec 6)
  /-- MOPS_FIRSTN: Sets the first k mask bits from an x register (R174) -/
  | mopsFirstn (d : BitVec 6) (a : BitVec 6)
  /-- MOPS_ONES: Sets a mask register to all ones (R174) -/
  | mopsOnes (d : BitVec 6)
  /-- VLD: Loads elements from a stream, converting under R184 (R188) -/
  | vld (d : BitVec 6) (q : BitVec 4) (adv : BitVec 2) (m : BitVec 3) (ty : BitVec 4)
  /-- VST: Posts a store of elements to a stream, converting under R184 (R188) -/
  | vst (d : BitVec 6) (q : BitVec 4) (adv : BitVec 2) (m : BitVec 3) (ty : BitVec 4)
  /-- VGTH: Gathers one element per active lane at cursor plus an index (R189) -/
  | vgth (d : BitVec 6) (q : BitVec 4) (adv : BitVec 2) (b : BitVec 6) (m : BitVec 3) (ty : BitVec 4)
  /-- VSCT: Scatters one element per active lane at cursor plus an index (R189) -/
  | vsct (d : BitVec 6) (q : BitVec 4) (adv : BitVec 2) (b : BitVec 6) (m : BitVec 3) (ty : BitVec 4)
  /-- VRST: Stores as vst and then increments the stream's flag word (R190) -/
  | vrst (d : BitVec 6) (q : BitVec 4) (adv : BitVec 2) (m : BitVec 3) (ty : BitVec 4)
  /-- VTLD: Loads four tile rows into a register (R191) -/
  | vtld (d : BitVec 6) (a : BitVec 6) (r : BitVec 7)
  /-- VTST: Stores a register into four tile rows (R191) -/
  | vtst (d : BitVec 6) (a : BitVec 6) (r : BitVec 7)
  /-- VFL_GET: Reads lane flags into a register (R192) -/
  | vflGet (d : BitVec 6) (m : BitVec 3)
  /-- VFL_CLEAR: Clears the lane flags of active lanes (R192) -/
  | vflClear (m : BitVec 3)
  /-- VFL_COLLECT: ORs active lanes' flags into TFLAGS[4:0] (R161) -/
  | vflCollect (m : BitVec 3)
  /-- VTK_WAIT: Takes one token from each named queue (R193) -/
  | vtkWait (e : BitVec 3)
  /-- VTK_GIVE: Gives one token to each named queue after earlier vector stores are performed (R193) -/
  | vtkGive (e : BitVec 3)
  /-- VRGN: Drains the task and sets the vector latency mode (R170) -/
  | vrgn (e : BitVec 1)
  /-- VPARK: Copies a register into a free 1 KiB block recorded in the spill map (R194) -/
  | vpark (d : BitVec 6) (e : BitVec 6)
  /-- VUNPARK: Writes a parked block back into a register and frees the entry (R194) -/
  | vunpark (d : BitVec 6) (e : BitVec 6)
  /-- VEND: Ends the vector engine once in-flight results have landed (R195) -/
  | vend
  /-- MMA: Multiplies two operand streams into an accumulator tile over ks K-slices (R238) -/
  | mma (qa : BitVec 4) (qb : BitVec 4) (acc : BitVec 4) (mode : BitVec 2) (w : BitVec 3) (g : BitVec 3) (ks : BitVec 6)
  /-- MZERO: Sets an accumulator tile to +0 (R240) -/
  | mzero (a : BitVec 4) (w : BitVec 3) (g : BitVec 3)
  /-- MDRAIN: Writes an accumulator tile through an epilogue set to a stream (R241) -/
  | mdrain (acc : BitVec 4) (qd : BitVec 4) (ep : BitVec 4) (w : BitVec 3) (g : BitVec 3)
  /-- MDRR: Sends an accumulator tile through an epilogue set to a collective peer (R244) -/
  | mdrr (acc : BitVec 4) (rt : BitVec 2) (ep : BitVec 4) (fl : BitVec 1) (w : BitVec 3) (g : BitVec 3)
  /-- MLEASE_GET: Holds the matrix engine until the task holds the lease (R245) -/
  | mleaseGet (w : BitVec 3) (g : BitVec 3)
  /-- MLEASE_RELEASE: Passes the held lease to the next waiting task (R245) -/
  | mleaseRelease (w : BitVec 3) (g : BitVec 3)
  /-- MLEASE_RENEW: Restarts the lease count, or passes the lease if another task waits (R28) -/
  | mleaseRenew (w : BitVec 3) (g : BitVec 3)
  /-- MCBL: Loads a codebook slot from 32 bytes of a stream and records narrowness (R246) -/
  | mcbl (a : BitVec 4) (b : BitVec 4) (w : BitVec 3) (g : BitVec 3)
  /-- MEPI: Loads an epilogue set from 16 bytes of a stream (R246) -/
  | mepi (a : BitVec 4) (b : BitVec 4) (w : BitVec 3) (g : BitVec 3)
  /-- MACC: Adds a 128-element stream row into every row of an accumulator tile (R240) -/
  | macc (a : BitVec 4) (b : BitVec 4) (w : BitVec 3) (g : BitVec 3)
  /-- MTK: Takes and gives tokens only (R248) -/
  | mtk (w : BitVec 3) (g : BitVec 3)
  /-- MEND: Ends the matrix engine (R249) -/
  | mend
  /-- CP: Copies elements as is from one stream to another (R296) -/
  | cp (qs : BitVec 4) (qd : BitVec 4) (kr : BitVec 3) (kv : BitVec 3) (w : BitVec 3) (g : BitVec 3) (sc : BitVec 3)
  /-- CP_CONVERT: Copies elements converting them with one rounding (R298) -/
  | cpConvert (qs : BitVec 4) (qd : BitVec 4) (kr : BitVec 3) (kv : BitVec 3) (w : BitVec 3) (g : BitVec 3) (sc : BitVec 3)
  /-- CPADD: Adds elements into an accumulator tile through the add port (R299) -/
  | cpadd (qs : BitVec 4) (qd : BitVec 4) (kr : BitVec 3) (kv : BitVec 3) (w : BitVec 3) (g : BitVec 3) (sc : BitVec 3) (fn : BitVec 1)
  /-- CPG: Gathers source elements by an index stream (R300) -/
  | cpg (qs : BitVec 4) (qd : BitVec 4) (kr : BitVec 3) (kv : BitVec 3) (w : BitVec 3) (g : BitVec 3) (sc : BitVec 3)
  /-- CPS: Scatters elements to destination indices from an index stream (R300) -/
  | cps (qs : BitVec 4) (qd : BitVec 4) (kr : BitVec 3) (kv : BitVec 3) (w : BitVec 3) (g : BitVec 3) (sc : BitVec 3)
  /-- CPZ: Writes zero or the fill value to every destination element (R301) -/
  | cpz (qd : BitVec 4) (kv : BitVec 3) (w : BitVec 3) (g : BitVec 3) (sc : BitVec 3) (fn : BitVec 1)
  /-- CPF: Copies as is and then increments the destination's flag word (R296) -/
  | cpf (qs : BitVec 4) (qd : BitVec 4) (kr : BitVec 3) (kv : BitVec 3) (w : BitVec 3) (g : BitVec 3) (sc : BitVec 3)
  /-- CPRE: Copies as is into a vault through its staging port (R296) -/
  | cpre (qs : BitVec 4) (qd : BitVec 4) (kr : BitVec 3) (kv : BitVec 3) (w : BitVec 3) (g : BitVec 3) (sc : BitVec 3)
  /-- CTILE: Sets a tile register's state once no write is in flight (R302) -/
  | ctile (t : BitVec 6) (state : BitVec 2) (w : BitVec 3) (g : BitVec 3)
  /-- CHL: Reads a chain record and sends a chained-load packet (R303) -/
  | chl (qs : BitVec 4) (qd : BitVec 4) (kr : BitVec 3) (kv : BitVec 3) (w : BitVec 3) (g : BitVec 3)
  /-- CPOST: Posts a collective record into the posted-collective table (R333) -/
  | cpost (qs : BitVec 4) (kr : BitVec 3) (kv : BitVec 3) (w : BitVec 3) (g : BitVec 3)
  /-- CABORT: Sends an abort of a collective to its coordinator (R348) -/
  | cabort (qs : BitVec 4) (kv : BitVec 3) (w : BitVec 3) (g : BitVec 3)
  /-- CMIG: Starts migrating one plane's frame of one page to a new frame (R304) -/
  | cmig (qs : BitVec 4) (qd : BitVec 4) (kr : BitVec 3) (kv : BitVec 3) (w : BitVec 3) (g : BitVec 3)
  /-- CKEY: Loads a link key and salt into a port's idle key slot (R305) -/
  | ckey (qs : BitVec 4) (qd : BitVec 4) (kr : BitVec 3) (kv : BitVec 3) (w : BitVec 3) (g : BitVec 3)
  /-- CTK: Takes and gives tokens only (R306) -/
  | ctk (w : BitVec 3) (g : BitVec 3)
  /-- CEND: Ends the copy engine (R306) -/
  | cend
  /-- ATOMIC: A handler engine takes the next atomic, reads the granule, runs the slot's program and writes it back (R279) -/
  | atomic (n : Nat)
  /-- MEMORY_REQUEST: A target takes a load, store, merge or copy access, checks its access table and applies it (R325) -/
  | memoryRequest (n : Nat)
  /-- RESPONSE: A target's answer reaches a waiting instruction, which completes or traps (R111) -/
  | response (n : Nat)
  /-- WRITE_ACK: A target's acknowledgement lowers the task's unacknowledged-write count (R111) -/
  | writeAck (n : Nat)
  /-- POSTED_REFUSAL: A refusal of a posted write returns and is raised at the next instruction boundary or held (R111) -/
  | postedRefusal (n : Nat)
  /-- INSTRUCTION_FINISH: An M or C instruction finishes, gives its G tokens and completes its tile transitions (R20) -/
  | instructionFinish (core slot : Nat) (eng : Engine)
  /-- MMA_SLICE: The array applies one K-slice of an mma to the accumulator (R229) -/
  | mmaSlice (core slot : Nat)
  /-- LEASE_IDLE: A holder idle for 4,096 clocks with a waiter loses the lease (R28) -/
  | leaseIdle (core : Nat)
  /-- COPY_CHUNK: The copy engine checks and applies one 4 KiB chunk of a copy (R292) -/
  | copyChunk (core slot n : Nat) (clash : Bool)
  /-- COPY_READS_PERFORMED: Every read of a copy is performed, so its kr token is updated (R260) -/
  | copyReadsPerformed (core slot n : Nat)
  /-- COPY_WRITES_PERFORMED: Every write of a copy is performed at its scope, so its kv token is updated (R260) -/
  | copyWritesPerformed (core slot n : Nat)
  /-- VECTOR_RESULT_LAND: An exposed-mode result lands when the issue count reaches c+L (R167) -/
  | vectorResultLand (core slot : Nat)
  /-- MONITOR_WAKE: A write or other event wakes a monitor entry and the task rereads its word (R275) -/
  | monitorWake (core n : Nat)
  /-- WAITA_TIMEOUT: A waita timeout expires and the wait completes with status 2 (R126) -/
  | waitaTimeout (core n : Nat)
  /-- PHASE_END: Markers retire and writes drain, setting the phase-end flag (R136) -/
  | phaseEnd (core slot : Nat)
  /-- BARRIER_ARRIVAL: A barrier serves an arrival, counting it and merging its flags (R271) -/
  | barrierArrival (n : Nat)
  /-- SWAP_ON_WAIT: A task waiting 50 µs on a swap barrier is saved and its slot freed (R273) -/
  | swapOnWait (core slot : Nat)
  /-- WATCHDOG: A task stalled for the watchdog limit raises WATCHDOG (R380) -/
  | watchdog (core slot : Nat)
  /-- LAUNCH_HANDOVER: A listed device's launch controller receives a kernel and takes a shadow entry (R32) -/
  | launchHandover (n : Nat)
  /-- SCOREBOARD_EXAMINE: The launch controller examines a posted entry, moving it to waiting (R350) -/
  | scoreboardExamine (die : Nat)
  /-- DEPENDENCE_MET: An answer that every dependence is met moves the kernel to staging, or fails it (R351) -/
  | dependenceMet (die entry : Nat) (remoteMet remoteFailed : Bool)
  /-- STAGING: A declared-resident entry's copy completes or faults (R352) -/
  | staging (die entry : Nat)
  /-- AGING: An item waiting 2 ms moves to the next higher queue (R353) -/
  | aging (n : Nat)
  /-- PLACE: Die 0's controller places the head item, pre-empting victims when needed (R354) -/
  | place
  /-- TASK_SAVE: A task is stopped, its engines drained, and its context frame written (R358) -/
  | taskSave (core slot : Nat)
  /-- RESTORE: A saved group's frames are read back and its tasks return to the ready set (R362) -/
  | restore (n : Nat)
  /-- TASK_RETIRE: A task whose engines ended and writes drained retires and arrives at the done barrier (R37) -/
  | taskRetire (core slot : Nat)
  /-- SHADOW_DONE: A shadow entry reports done to the launching die (R350) -/
  | shadowDone (n : Nat)
  /-- CORE_ACKNOWLEDGE: A core acknowledges an invalidation once its accesses under the old entry complete (R99) -/
  | coreAcknowledge (core n : Nat)
  /-- MIGRATION_CHUNK: One 4 KiB chunk of a migrating frame is copied at the source controller (R104) -/
  | migrationChunk (n : Nat)
  /-- MIGRATION_STABLE: Once every core acknowledges, the word returns to stable and the source frame is released (R103) -/
  | migrationStable (n : Nat)
  /-- HANDLER_SLOT_LOAD: A tenant handler program is installed in a slot of every handler engine (R287) -/
  | handlerSlotLoad (slot : BitVec 5) (tenant : BitVec 6) (program : List (BitVec 16))
  /-- COLLECTIVE_POST: A coordinator receives a member's post and, when all are held, requests a ticket or aborts (R336) -/
  | collectivePost (n : Nat)
  /-- TICKET_ISSUE: The sequencer issues the next ticket to every member of a group (R337) -/
  | ticketIssue (n : Nat)
  /-- TICKET_ARRIVAL: A ticket reaches a member and its entry becomes ticketed (R334) -/
  | ticketArrival (n : Nat)
  /-- TICKET_START: The head ticket starts once its resources are reserved, or is skipped (R337) -/
  | ticketStart
  /-- CHUNK_ARRIVAL: A collective data chunk arrives and is applied, dropped or refused (R340) -/
  | chunkArrival (n : Nat)
  /-- CHUNK_RESEND: A chunk refused as not yet is sent again after 1 µs (R340) -/
  | chunkResend (n : Nat)
  /-- WALKER_TRANSFER: The loop walker emits the transfer of one iteration (R342) -/
  | walkerTransfer (entry : Nat)
  /-- LOCAL_COMPLETE: The coordinator receives a local-complete report and commits once all are held (R345) -/
  | localComplete (n : Nat)
  /-- COMMIT: A member receives the commit, writes results, releases reservations and writes its completion word (R345) -/
  | commit (n : Nat)
  /-- ABORT_REQUEST: The coordinator receives an abort and sends it to every posted member unless committed (R347) -/
  | abortRequest (n : Nat)
  /-- ABORT_ARRIVAL: A member receives an abort, its entry becomes aborted and its completion word is written (R347) -/
  | abortArrival (n : Nat)
  /-- CHAIN_PACKET: A chained-load packet arrives at a device, which reads its step or forwards it (R370) -/
  | chainPacket (n : Nat)
  /-- CHAIN_RETURN: The returning packet writes the fetched bytes and completion block and sets kv (R374) -/
  | chainReturn (n : Nat)
  /-- FLIT_TRANSMIT: A port sends a new flit, encrypting it and keeping it in the replay buffer (R316) -/
  | flitTransmit (port : Nat) (vc : BitVec 3) (words : List (BitVec 128)) (compress : Bool)
  /-- FLIT_RECEIVE: A port checks a received flit and accepts it in sequence or requests a retry (R316) -/
  | flitReceive (port : Nat) (flit : BitVec 2048)
  /-- RETRY_REQUEST: The sender receives a retry request and resends from the named flit (R316) -/
  | retryRequest (port : Nat) (seq : BitVec 16)
  /-- REKEYAT: The transmit counter reaches REKEYAT and a key switch begins or the link stops (R321) -/
  | rekeyat (port : Nat)
  /-- RAMP_INTERVAL: A ramp interval expires and one row group comes on or steps down (R228) -/
  | rampInterval (core : Nat)
  /-- POWER_TICK: Every 1 µs the power controller adjusts throttle steps and updates energy counts (R395) -/
  | powerTick (watts nanojoules : Nat) (charges : List Nat)
  /-- SCRUB: Idle storage is read and corrected by the daily scrub (R384) -/
  | scrub (unit : Nat) (found : Bool)
  /-- RESET: The device leaves reset and the boot ROM starts LPDDR training and the host port (R389) -/
  | reset
  /-- LPDDR_READY: LPDDR 6 training completes and tier 1 opens to the host (R389) -/
  | lpddrReady (ok : Bool)
  /-- BOOT: A write of the boot register starts verification of the firmware image (R389) -/
  | boot
  /-- HOST_REGISTER_WRITE: The host writes a host register that has no row of its own (R388) -/
  | hostRegisterWrite (offset : BitVec 40) (value : BitVec 64)
  /-- HOST_REQUEST: A host request arrives at the UCIe port and is checked and served (R388) -/
  | hostRequest (kind : HostKind) (tenant : BitVec 6) (offset : BitVec 42) (length : Nat) (data : List (BitVec 8))
  /-- CORE_WAVE: A wave of 8 cores comes up every 10 µs (R390) -/
  | coreWave
  /-- GDDR_TRAINED: GDDR 7 training completes or fails (R390) -/
  | gddrTrained (ok : Bool)
  /-- LEASEMAX: A write of LEASEMAX takes only values 1 to 256 (R28) -/
  | leasemax (core : Nat) (value : BitVec 64)
  /-- RAMPCFG: A write of RAMPCFG takes only intervals 1 to 256 (R395) -/
  | rampcfg (core : Nat) (value : BitVec 64)
  /-- TFLAGS: A write of TFLAGS merges with bits set by setters in the same clock (R161) -/
  | tflags (core slot : Nat) (value : BitVec 64) (setters : BitVec 8)
  /-- FRAME: A write of FRAME sets the save area and releases a held save (R361) -/
  | frame (core : Nat) (value : BitVec 64) (tenant : BitVec 6)
  /-- TENANT: Management command setting a tenant translation entry (R397) -/
  | tenant (src : MgmtSource) (tenant : BitVec 6) (q0 q1 q2 q3 : BitVec 64)
  /-- WINDOW: Management command setting an access-table window (R327) -/
  | window (src : MgmtSource) (target : Target) (tenant : BitVec 6) (index : BitVec 3) (q0 q1 : BitVec 64)
  /-- BARRIER: Management command setting a barrier's owner and swap bit (R269) -/
  | barrier (src : MgmtSource) (level : BitVec 3) (unit number : Nat) (owner : Option (BitVec 6)) (swap : Bool)
  /-- MONITORS: Management command setting the supervisor's monitor reservation (R274) -/
  | monitors (src : MgmtSource) (count : Nat)
  /-- SLOT: Management command emptying a tenant handler slot (R286) -/
  | slot (src : MgmtSource) (tenant : BitVec 6) (slot : BitVec 5)
  /-- PORT_STATUS: Management port command returning a port's status word (R323) -/
  | portStatus (src : MgmtSource) (port : Nat)
  /-- PORT_REKEYAT: Management port command setting REKEYAT (R321) -/
  | portRekeyat (src : MgmtSource) (port value : Nat)
  /-- PORT_KEY_SWITCH: Management port command requesting a key switch (R320) -/
  | portKeySwitch (src : MgmtSource) (port : Nat)
  /-- PORT_BRING_UP: Management port command bringing a link up with fresh rings (R318) -/
  | portBringUp (src : MgmtSource) (port : Nat)
  /-- WATCHDOG_LIMIT: Management command setting the watchdog limit (R380) -/
  | watchdogLimit (src : MgmtSource) (limit : Nat)
  /-- ERRORS: Management command reading and clearing corrected-error counts (R385) -/
  | errors (src : MgmtSource) (counter : Nat)
  /-- POWER: Management command setting the module power limit (R395) -/
  | power (src : MgmtSource) (watts : Nat)
  /-- ATTEST: Management command returning a signed attestation report and certificates (R394) -/
  | attest (src : MgmtSource) (nonce : BitVec 256)
  /-- FUSE: Management command raising the fused security version (R397) -/
  | fuse (src : MgmtSource)
  /-- DOMAIN: Management command setting the domain shape, DOMID and the sequencer and barrier hubs (R397) -/
  | domain (src : MgmtSource) (rows cols : Nat) (domid : BitVec 16) (sequencer barrierHub : BitVec 8)
  /-- ILLEGAL_WORD: An engine decodes a word at the head of its queue that is not an instruction and traps with ILLEGAL, RESERVED or PRIVILEGED (R66) -/
  | illegalWord (eng : Engine) (word : BitVec 32)
  /-- FETCH_FAULT: An engine's fetch at its program counter fails, by misalignment or by the walk, and raises its trap when the word would reach the head (R64) -/
  | fetchFault (eng : Engine)
  /-- VERIFICATION: The boot ROM's verification of the firmware image ends, either setting the status error code or bringing up the hub and waking die 0 (R389) -/
  | verification
  /-- TASK_ENDED: The supervisor ends a trapped task, which aborts its collectives, frees its resources, discards its frame and later retires and arrives at the done barrier (R383) -/
  | taskEnded (n : Nat)
  deriving DecidableEq, Repr, Inhabited

end Sys2Proof
end

