-- ==== Sys2Proof/WellFormed.lean ====
section
/-!
DEFINITION. Which instructions the formats admit.  `selOk` is test 2 of R66 (a field that selects holds a
listed value); `rsvOk` is the part of test 3 that depends on another field (the value of `vimm`, R181);
`Instr.wf` is both.  Reserved bits outside the fields have no place in `Instr`; the decoder tests them.
-/

namespace Sys2Proof

/-- The format code names F32, BF16 or F16 (R44, R164). -/
def isFloatTy (t : BitVec 4) : Bool := decide (t.toNat ≤ 2)

/-- The format code names I8, N8, I16, N16, I32 or N32 (R44, R164). -/
def isIntTy (t : BitVec 4) : Bool := decide (6 ≤ t.toNat ∧ t.toNat ≤ 11)

/-- The codes accepted by vcvt, vmov, vsel, vimm, vld, vst and vrst (R164). -/
def isMoveTy (t : BitVec 4) : Bool := decide (t.toNat ≤ 4) || isIntTy t

/-- The codes accepted by vperm, vgth and vsct (R164). -/
def isWordTy (t : BitVec 4) : Bool := t == 0 || t == 10 || t == 11

/-- The 8-bit codes accepted by vimm (R181). -/
def isByteTy (t : BitVec 4) : Bool := t == 3 || t == 4 || t == 6 || t == 7

/-- The system register numbers that R142 assigns. -/
def sysKnown (n : BitVec 12) : Bool :=
  decide (n.toNat ≤ 0x006) || n == 0x010 || n == 0x020 || n == 0x021 ||
  decide (0x030 ≤ n.toNat ∧ n.toNat ≤ 0x032) || decide (0x040 ≤ n.toNat ∧ n.toNat ≤ 0x044) ||
  decide (0x050 ≤ n.toNat ∧ n.toNat ≤ 0x055)

/-- Every field that selects an operation or a code holds a value its table lists (R66 test 2, R72 to R83). -/
def selOk : Instr → Bool
  | .add _ _ _ => true
  | .sub _ _ _ => true
  | .and _ _ _ => true
  | .or _ _ _ => true
  | .xor _ _ _ => true
  | .andn _ _ _ => true
  | .orn _ _ _ => true
  | .shl _ _ _ => true
  | .shr _ _ _ => true
  | .sra _ _ _ => true
  | .slt _ _ _ => true
  | .sltn _ _ _ => true
  | .seq _ _ _ => true
  | .sne _ _ _ => true
  | .min _ _ _ => true
  | .max _ _ _ => true
  | .minn _ _ _ => true
  | .maxn _ _ _ => true
  | .mul _ _ _ => true
  | .mulh _ _ _ => true
  | .mulhn _ _ _ => true
  | .div _ _ _ => true
  | .divn _ _ _ => true
  | .rem _ _ _ => true
  | .remn _ _ _ => true
  | .clz _ _ => true
  | .ctz _ _ => true
  | .pop _ _ => true
  | .padd _ _ _ => true
  | .planeOf _ _ _ => true
  | .pathOf _ _ _ => true
  | .addi _ _ _ => true
  | .andi _ _ _ => true
  | .ori _ _ _ => true
  | .xori _ _ _ => true
  | .shli _ _ _ => true
  | .shri _ _ _ => true
  | .srai _ _ _ => true
  | .slti _ _ _ => true
  | .sltni _ _ _ => true
  | .paddi _ _ _ => true
  | .planei _ _ _ => true
  | .hi _ _ => true
  | .top _ _ => true
  | .pcrel _ _ => true
  | .beq _ _ _ => true
  | .bne _ _ _ => true
  | .blt _ _ _ => true
  | .bge _ _ _ => true
  | .bltn _ _ _ => true
  | .bgen _ _ _ => true
  | .jal _ _ => true
  | .jalr _ _ _ => true
  | .ld _ _ sz _ => decide (sz.toNat ≤ 5)
  | .st _ _ sz _ => decide (sz.toNat ≤ 5)
  | .rst _ _ _ f => decide (f.toNat ≤ 5)
  | .amo _ _ b _ => decide (b.toNat ≤ 62)
  | .amoPosted _ b _ => decide (b.toNat ≤ 62)
  | .waita _ _ b f => decide (b.toNat ≤ 62) && decide (f.toNat ≤ 2)
  | .fence sub sc => decide (sub.toNat ≤ 3) && decide (sc.toNat ≤ 5)
  | .acq _ _ sc => decide (sc.toNat ≤ 5)
  | .rel _ _ sc => decide (sc.toNat ≤ 5)
  | .relAdd _ _ sc => decide (sc.toNat ≤ 5)
  | .bind _ _ _ => true
  | .unbind _ _ _ => true
  | .tkWait _ => true
  | .tkGive _ => true
  | .kw _ _ _ => true
  | .barArrive _ _ _ sc => decide (sc.toNat ≤ 5)
  | .barWait _ _ _ sc => decide (sc.toNat ≤ 5)
  | .barSync _ _ _ sc => decide (sc.toNat ≤ 5)
  | .barInit _ _ _ _ => true
  | .barFlags _ _ _ _ => true
  | .barTest1 _ _ _ _ => true
  | .qmPost _ => true
  | .qmWait => true
  | .launch _ _ => true
  | .stBase _ _ _ => true
  | .stLay _ _ => true
  | .stFmt _ _ => true
  | .stScl _ _ => true
  | .stFlag _ _ => true
  | .stLink _ _ => true
  | .stPos _ _ => true
  | .stFill _ _ => true
  | .rtset _ _ => true
  | .xset _ _ => true
  | .sget _ sys => sysKnown sys
  | .sset _ sys => sysKnown sys
  | .trap _ => true
  | .eret => true
  | .seal _ _ => true
  | .unseal _ _ => true
  | .tlbiAll => true
  | .tlbiTenant _ => true
  | .tlbiPositionPage _ => true
  | .tlbiPlaneFrame _ => true
  | .yield => true
  | .endS => true
  | .vadd _ _ _ _ _ ty => isFloatTy ty
  | .vsub _ _ _ _ _ ty => isFloatTy ty
  | .vmul _ _ _ _ _ ty => isFloatTy ty
  | .vfma _ _ _ _ _ ty => isFloatTy ty
  | .vfms _ _ _ _ _ ty => isFloatTy ty
  | .vnfma _ _ _ _ _ ty => isFloatTy ty
  | .vmin _ _ _ _ _ ty => isFloatTy ty
  | .vmax _ _ _ _ _ ty => isFloatTy ty
  | .vdiv _ _ _ _ _ ty => isFloatTy ty
  | .vsqrt _ _ _ _ ty => isFloatTy ty
  | .vabs _ _ _ _ ty => isFloatTy ty
  | .vneg _ _ _ _ ty => isFloatTy ty
  | .vrnd _ _ _ _ ty => isFloatTy ty
  | .viadd _ _ _ _ ty => isIntTy ty
  | .visub _ _ _ _ ty => isIntTy ty
  | .vimul _ _ _ _ ty => isIntTy ty
  | .vimulh _ _ _ _ ty => isIntTy ty
  | .vand _ _ _ _ ty => isIntTy ty
  | .vor _ _ _ _ ty => isIntTy ty
  | .vxor _ _ _ _ ty => isIntTy ty
  | .vshl _ _ _ _ ty => isIntTy ty
  | .vshr _ _ _ _ ty => isIntTy ty
  | .vsra _ _ _ _ ty => isIntTy ty
  | .vimin _ _ _ _ ty => isIntTy ty
  | .vimax _ _ _ _ ty => isIntTy ty
  | .viabs _ _ _ ty => isIntTy ty
  | .vcmp _ pr _ _ _ _ ty => decide (pr.toNat ≤ 6) && (isFloatTy ty || isIntTy ty) && (pr != 6 || isFloatTy ty)
  | .vcvt _ _ target _ _ _ ty => isMoveTy ty && isMoveTy target
  | .vcbe _ _ _ _ _ ty => isFloatTy ty
  | .vcbd _ _ _ _ ty => (ty == 0 || ty == 1)
  | .vmov _ _ _ ty => isMoveTy ty
  | .vsel _ _ _ _ ty => isMoveTy ty
  | .vperm _ _ _ _ ty => isWordTy ty
  | .vrot _ _ _ => true
  | .vbcl _ _ _ => true
  | .vbcx _ _ => true
  | .vred _ _ op _ _ ty => decide (op.toNat ≤ 2) && (isFloatTy ty || isIntTy ty)
  | .vidx _ _ ty => isIntTy ty
  | .vimm _ ty _ => isMoveTy ty
  | .mopsAnd d a b => decide (d.toNat ≤ 7) && decide (a.toNat ≤ 7) && decide (b.toNat ≤ 7)
  | .mopsOr d a b => decide (d.toNat ≤ 7) && decide (a.toNat ≤ 7) && decide (b.toNat ≤ 7)
  | .mopsXor d a b => decide (d.toNat ≤ 7) && decide (a.toNat ≤ 7) && decide (b.toNat ≤ 7)
  | .mopsAndn d a b => decide (d.toNat ≤ 7) && decide (a.toNat ≤ 7) && decide (b.toNat ≤ 7)
  | .mopsNot d a => decide (d.toNat ≤ 7) && decide (a.toNat ≤ 7)
  | .mopsFirstn d a => decide (d.toNat ≤ 7) && decide (a.toNat ≤ 15)
  | .mopsOnes d => decide (d.toNat ≤ 7)
  | .vld _ _ adv _ ty => isMoveTy ty && decide (adv.toNat ≤ 2)
  | .vst _ _ adv _ ty => isMoveTy ty && decide (adv.toNat ≤ 2)
  | .vgth _ _ adv _ _ ty => isWordTy ty && decide (adv.toNat ≤ 2)
  | .vsct _ _ adv _ _ ty => isWordTy ty && decide (adv.toNat ≤ 2)
  | .vrst _ _ adv _ ty => isMoveTy ty && decide (adv.toNat ≤ 2)
  | .vtld _ _ _ => true
  | .vtst _ _ _ => true
  | .vflGet _ _ => true
  | .vflClear _ => true
  | .vflCollect _ => true
  | .vtkWait _ => true
  | .vtkGive _ => true
  | .vrgn _ => true
  | .vpark _ _ => true
  | .vunpark _ _ => true
  | .vend => true
  | .mma _ _ _ mode _ _ ks => decide (mode.toNat ≤ 2) && decide (1 ≤ ks.toNat)
  | .mzero _ _ _ => true
  | .mdrain _ _ _ _ _ => true
  | .mdrr _ _ _ _ _ _ => true
  | .mleaseGet _ _ => true
  | .mleaseRelease _ _ => true
  | .mleaseRenew _ _ => true
  | .mcbl _ b _ _ => decide (b.toNat ≤ 7)
  | .mepi _ _ _ _ => true
  | .macc _ _ _ _ => true
  | .mtk _ _ => true
  | .mend => true
  | .cp _ _ _ _ _ _ sc => decide (sc.toNat ≤ 5)
  | .cpConvert _ _ _ _ _ _ sc => decide (sc.toNat ≤ 5)
  | .cpadd _ _ _ _ _ _ sc _ => decide (sc.toNat ≤ 5)
  | .cpg _ _ _ _ _ _ sc => decide (sc.toNat ≤ 5)
  | .cps _ _ _ _ _ _ sc => decide (sc.toNat ≤ 5)
  | .cpz _ _ _ _ sc _ => decide (sc.toNat ≤ 5)
  | .cpf _ _ _ _ _ _ sc => decide (sc.toNat ≤ 5)
  | .cpre _ _ _ _ _ _ sc => decide (sc.toNat ≤ 5)
  | .ctile _ _ _ _ => true
  | .chl _ _ _ _ _ _ => true
  | .cpost _ _ _ _ _ => true
  | .cabort _ _ _ _ => true
  | .cmig _ _ _ _ _ _ => true
  | .ckey _ _ _ _ _ _ => true
  | .ctk _ _ => true
  | .cend => true
  | .atomic _ => true
  | .memoryRequest _ => true
  | .response _ => true
  | .writeAck _ => true
  | .postedRefusal _ => true
  | .instructionFinish _ _ _ => true
  | .mmaSlice _ _ => true
  | .leaseIdle _ => true
  | .copyChunk _ _ _ _ => true
  | .copyReadsPerformed _ _ _ => true
  | .copyWritesPerformed _ _ _ => true
  | .vectorResultLand _ _ => true
  | .monitorWake _ _ => true
  | .waitaTimeout _ _ => true
  | .phaseEnd _ _ => true
  | .barrierArrival _ => true
  | .swapOnWait _ _ => true
  | .watchdog _ _ => true
  | .launchHandover _ => true
  | .scoreboardExamine _ => true
  | .dependenceMet _ _ _ _ => true
  | .staging _ _ => true
  | .aging _ => true
  | .place => true
  | .taskSave _ _ => true
  | .restore _ => true
  | .taskRetire _ _ => true
  | .shadowDone _ => true
  | .coreAcknowledge _ _ => true
  | .migrationChunk _ => true
  | .migrationStable _ => true
  | .handlerSlotLoad _ _ _ => true
  | .collectivePost _ => true
  | .ticketIssue _ => true
  | .ticketArrival _ => true
  | .ticketStart => true
  | .chunkArrival _ => true
  | .chunkResend _ => true
  | .walkerTransfer _ => true
  | .localComplete _ => true
  | .commit _ => true
  | .abortRequest _ => true
  | .abortArrival _ => true
  | .chainPacket _ => true
  | .chainReturn _ => true
  | .flitTransmit _ _ _ _ => true
  | .flitReceive _ _ => true
  | .retryRequest _ _ => true
  | .rekeyat _ => true
  | .rampInterval _ => true
  | .powerTick _ _ _ => true
  | .scrub _ _ => true
  | .reset => true
  | .lpddrReady _ => true
  | .boot => true
  | .hostRegisterWrite _ _ => true
  | .hostRequest _ _ _ _ _ => true
  | .coreWave => true
  | .gddrTrained _ => true
  | .leasemax _ _ => true
  | .rampcfg _ _ => true
  | .tflags _ _ _ _ => true
  | .frame _ _ _ => true
  | .tenant _ _ _ _ _ _ => true
  | .window _ _ _ _ _ _ => true
  | .barrier _ _ _ _ _ _ => true
  | .monitors _ _ => true
  | .slot _ _ _ => true
  | .portStatus _ _ => true
  | .portRekeyat _ _ _ => true
  | .portKeySwitch _ _ => true
  | .portBringUp _ _ => true
  | .watchdogLimit _ _ => true
  | .errors _ _ => true
  | .power _ _ => true
  | .attest _ _ => true
  | .fuse _ => true
  | .domain _ _ _ _ _ _ => true
  | .illegalWord _ _ => true
  | .fetchFault _ => true
  | .verification => true
  | .taskEnded _ => true

/-- The reserved bits that depend on another field are zero (R66 test 3, R181). -/
def rsvOk : Instr → Bool
  | .add _ _ _ => true
  | .sub _ _ _ => true
  | .and _ _ _ => true
  | .or _ _ _ => true
  | .xor _ _ _ => true
  | .andn _ _ _ => true
  | .orn _ _ _ => true
  | .shl _ _ _ => true
  | .shr _ _ _ => true
  | .sra _ _ _ => true
  | .slt _ _ _ => true
  | .sltn _ _ _ => true
  | .seq _ _ _ => true
  | .sne _ _ _ => true
  | .min _ _ _ => true
  | .max _ _ _ => true
  | .minn _ _ _ => true
  | .maxn _ _ _ => true
  | .mul _ _ _ => true
  | .mulh _ _ _ => true
  | .mulhn _ _ _ => true
  | .div _ _ _ => true
  | .divn _ _ _ => true
  | .rem _ _ _ => true
  | .remn _ _ _ => true
  | .clz _ _ => true
  | .ctz _ _ => true
  | .pop _ _ => true
  | .padd _ _ _ => true
  | .planeOf _ _ _ => true
  | .pathOf _ _ _ => true
  | .addi _ _ _ => true
  | .andi _ _ _ => true
  | .ori _ _ _ => true
  | .xori _ _ _ => true
  | .shli _ _ _ => true
  | .shri _ _ _ => true
  | .srai _ _ _ => true
  | .slti _ _ _ => true
  | .sltni _ _ _ => true
  | .paddi _ _ _ => true
  | .planei _ _ _ => true
  | .hi _ _ => true
  | .top _ _ => true
  | .pcrel _ _ => true
  | .beq _ _ _ => true
  | .bne _ _ _ => true
  | .blt _ _ _ => true
  | .bge _ _ _ => true
  | .bltn _ _ _ => true
  | .bgen _ _ _ => true
  | .jal _ _ => true
  | .jalr _ _ _ => true
  | .ld _ _ _ _ => true
  | .st _ _ _ _ => true
  | .rst _ _ _ _ => true
  | .amo _ _ _ _ => true
  | .amoPosted _ _ _ => true
  | .waita _ _ _ _ => true
  | .fence _ _ => true
  | .acq _ _ _ => true
  | .rel _ _ _ => true
  | .relAdd _ _ _ => true
  | .bind _ _ _ => true
  | .unbind _ _ _ => true
  | .tkWait _ => true
  | .tkGive _ => true
  | .kw _ _ _ => true
  | .barArrive _ _ _ _ => true
  | .barWait _ _ _ _ => true
  | .barSync _ _ _ _ => true
  | .barInit _ _ _ _ => true
  | .barFlags _ _ _ _ => true
  | .barTest1 _ _ _ _ => true
  | .qmPost _ => true
  | .qmWait => true
  | .launch _ _ => true
  | .stBase _ _ _ => true
  | .stLay _ _ => true
  | .stFmt _ _ => true
  | .stScl _ _ => true
  | .stFlag _ _ => true
  | .stLink _ _ => true
  | .stPos _ _ => true
  | .stFill _ _ => true
  | .rtset _ _ => true
  | .xset _ _ => true
  | .sget _ _ => true
  | .sset _ _ => true
  | .trap _ => true
  | .eret => true
  | .seal _ _ => true
  | .unseal _ _ => true
  | .tlbiAll => true
  | .tlbiTenant _ => true
  | .tlbiPositionPage _ => true
  | .tlbiPlaneFrame _ => true
  | .yield => true
  | .endS => true
  | .vadd _ _ _ _ _ _ => true
  | .vsub _ _ _ _ _ _ => true
  | .vmul _ _ _ _ _ _ => true
  | .vfma _ _ _ _ _ _ => true
  | .vfms _ _ _ _ _ _ => true
  | .vnfma _ _ _ _ _ _ => true
  | .vmin _ _ _ _ _ _ => true
  | .vmax _ _ _ _ _ _ => true
  | .vdiv _ _ _ _ _ _ => true
  | .vsqrt _ _ _ _ _ => true
  | .vabs _ _ _ _ _ => true
  | .vneg _ _ _ _ _ => true
  | .vrnd _ _ _ _ _ => true
  | .viadd _ _ _ _ _ => true
  | .visub _ _ _ _ _ => true
  | .vimul _ _ _ _ _ => true
  | .vimulh _ _ _ _ _ => true
  | .vand _ _ _ _ _ => true
  | .vor _ _ _ _ _ => true
  | .vxor _ _ _ _ _ => true
  | .vshl _ _ _ _ _ => true
  | .vshr _ _ _ _ _ => true
  | .vsra _ _ _ _ _ => true
  | .vimin _ _ _ _ _ => true
  | .vimax _ _ _ _ _ => true
  | .viabs _ _ _ _ => true
  | .vcmp _ _ _ _ _ _ _ => true
  | .vcvt _ _ _ _ _ _ _ => true
  | .vcbe _ _ _ _ _ _ => true
  | .vcbd _ _ _ _ _ => true
  | .vmov _ _ _ _ => true
  | .vsel _ _ _ _ _ => true
  | .vperm _ _ _ _ _ => true
  | .vrot _ _ _ => true
  | .vbcl _ _ _ => true
  | .vbcx _ _ => true
  | .vred _ _ _ _ _ _ => true
  | .vidx _ _ _ => true
  | .vimm _ ty v => (!isByteTy ty || decide (v.toNat < 256))
  | .mopsAnd _ _ _ => true
  | .mopsOr _ _ _ => true
  | .mopsXor _ _ _ => true
  | .mopsAndn _ _ _ => true
  | .mopsNot _ _ => true
  | .mopsFirstn _ _ => true
  | .mopsOnes _ => true
  | .vld _ _ _ _ _ => true
  | .vst _ _ _ _ _ => true
  | .vgth _ _ _ _ _ _ => true
  | .vsct _ _ _ _ _ _ => true
  | .vrst _ _ _ _ _ => true
  | .vtld _ _ _ => true
  | .vtst _ _ _ => true
  | .vflGet _ _ => true
  | .vflClear _ => true
  | .vflCollect _ => true
  | .vtkWait _ => true
  | .vtkGive _ => true
  | .vrgn _ => true
  | .vpark _ _ => true
  | .vunpark _ _ => true
  | .vend => true
  | .mma _ _ _ _ _ _ _ => true
  | .mzero _ _ _ => true
  | .mdrain _ _ _ _ _ => true
  | .mdrr _ _ _ _ _ _ => true
  | .mleaseGet _ _ => true
  | .mleaseRelease _ _ => true
  | .mleaseRenew _ _ => true
  | .mcbl _ _ _ _ => true
  | .mepi _ _ _ _ => true
  | .macc _ _ _ _ => true
  | .mtk _ _ => true
  | .mend => true
  | .cp _ _ _ _ _ _ _ => true
  | .cpConvert _ _ _ _ _ _ _ => true
  | .cpadd _ _ _ _ _ _ _ _ => true
  | .cpg _ _ _ _ _ _ _ => true
  | .cps _ _ _ _ _ _ _ => true
  | .cpz _ _ _ _ _ _ => true
  | .cpf _ _ _ _ _ _ _ => true
  | .cpre _ _ _ _ _ _ _ => true
  | .ctile _ _ _ _ => true
  | .chl _ _ _ _ _ _ => true
  | .cpost _ _ _ _ _ => true
  | .cabort _ _ _ _ => true
  | .cmig _ _ _ _ _ _ => true
  | .ckey _ _ _ _ _ _ => true
  | .ctk _ _ => true
  | .cend => true
  | .atomic _ => true
  | .memoryRequest _ => true
  | .response _ => true
  | .writeAck _ => true
  | .postedRefusal _ => true
  | .instructionFinish _ _ _ => true
  | .mmaSlice _ _ => true
  | .leaseIdle _ => true
  | .copyChunk _ _ _ _ => true
  | .copyReadsPerformed _ _ _ => true
  | .copyWritesPerformed _ _ _ => true
  | .vectorResultLand _ _ => true
  | .monitorWake _ _ => true
  | .waitaTimeout _ _ => true
  | .phaseEnd _ _ => true
  | .barrierArrival _ => true
  | .swapOnWait _ _ => true
  | .watchdog _ _ => true
  | .launchHandover _ => true
  | .scoreboardExamine _ => true
  | .dependenceMet _ _ _ _ => true
  | .staging _ _ => true
  | .aging _ => true
  | .place => true
  | .taskSave _ _ => true
  | .restore _ => true
  | .taskRetire _ _ => true
  | .shadowDone _ => true
  | .coreAcknowledge _ _ => true
  | .migrationChunk _ => true
  | .migrationStable _ => true
  | .handlerSlotLoad _ _ _ => true
  | .collectivePost _ => true
  | .ticketIssue _ => true
  | .ticketArrival _ => true
  | .ticketStart => true
  | .chunkArrival _ => true
  | .chunkResend _ => true
  | .walkerTransfer _ => true
  | .localComplete _ => true
  | .commit _ => true
  | .abortRequest _ => true
  | .abortArrival _ => true
  | .chainPacket _ => true
  | .chainReturn _ => true
  | .flitTransmit _ _ _ _ => true
  | .flitReceive _ _ => true
  | .retryRequest _ _ => true
  | .rekeyat _ => true
  | .rampInterval _ => true
  | .powerTick _ _ _ => true
  | .scrub _ _ => true
  | .reset => true
  | .lpddrReady _ => true
  | .boot => true
  | .hostRegisterWrite _ _ => true
  | .hostRequest _ _ _ _ _ => true
  | .coreWave => true
  | .gddrTrained _ => true
  | .leasemax _ _ => true
  | .rampcfg _ _ => true
  | .tflags _ _ _ _ => true
  | .frame _ _ _ => true
  | .tenant _ _ _ _ _ _ => true
  | .window _ _ _ _ _ _ => true
  | .barrier _ _ _ _ _ _ => true
  | .monitors _ _ => true
  | .slot _ _ _ => true
  | .portStatus _ _ => true
  | .portRekeyat _ _ _ => true
  | .portKeySwitch _ _ => true
  | .portBringUp _ _ => true
  | .watchdogLimit _ _ => true
  | .errors _ _ => true
  | .power _ _ => true
  | .attest _ _ => true
  | .fuse _ => true
  | .domain _ _ _ _ _ _ => true
  | .illegalWord _ _ => true
  | .fetchFault _ => true
  | .verification => true
  | .taskEnded _ => true

/-- The instruction is one the formats admit. -/
def Instr.wf (i : Instr) : Bool := selOk i && rsvOk i

end Sys2Proof
end

