-- ==== Sys2Proof/Decode.lean ====
section
/-!
DEFINITION. The decoder of each engine and the encoder, from the opcode maps of 04 (R73, R78, R81, R83).
The tests are those of R66 in its order: OP, selector values, reserved bits.  Privilege and grant (tests 4 and 5)
need the task and are made when the instruction is executed.
-/

namespace Sys2Proof

/-- What becomes of a word (R66): an instruction, or a word refused with cause ILLEGAL or RESERVED. -/
inductive Decoded where
  | ok (i : Instr)
  | illegal
  | reserved
  deriving DecidableEq, Repr

/-- The `n` bits of `w` from bit `lo` up. -/
def fld (w : BitVec 32) (lo n : Nat) : BitVec n := BitVec.ofNat n (w.toNat / 2 ^ lo)

/-- Tests 2 and 3 of R66 for a word whose fields make up `i` and whose reserved bits are `rsv` (low bit, width). -/
def accept (w : BitVec 32) (i : Instr) (rsv : List (Nat × Nat)) : Decoded :=
  if !selOk i then .illegal
  else if rsvOk i && rsv.all (fun f => fld w f.1 f.2 == 0) then .ok i
  else .reserved

/-- OP 1 of the scalar engine (R73 to R75). -/
def decodeS1 (w : BitVec 32) : Decoded :=
  match (fld w 0 8).toNat with
  | 0 => accept w (.add (fld w 20 6) (fld w 14 6) (fld w 8 6)) []
  | 1 => accept w (.sub (fld w 20 6) (fld w 14 6) (fld w 8 6)) []
  | 2 => accept w (.and (fld w 20 6) (fld w 14 6) (fld w 8 6)) []
  | 3 => accept w (.or (fld w 20 6) (fld w 14 6) (fld w 8 6)) []
  | 4 => accept w (.xor (fld w 20 6) (fld w 14 6) (fld w 8 6)) []
  | 5 => accept w (.andn (fld w 20 6) (fld w 14 6) (fld w 8 6)) []
  | 6 => accept w (.orn (fld w 20 6) (fld w 14 6) (fld w 8 6)) []
  | 7 => accept w (.shl (fld w 20 6) (fld w 14 6) (fld w 8 6)) []
  | 8 => accept w (.shr (fld w 20 6) (fld w 14 6) (fld w 8 6)) []
  | 9 => accept w (.sra (fld w 20 6) (fld w 14 6) (fld w 8 6)) []
  | 10 => accept w (.slt (fld w 20 6) (fld w 14 6) (fld w 8 6)) []
  | 11 => accept w (.sltn (fld w 20 6) (fld w 14 6) (fld w 8 6)) []
  | 12 => accept w (.seq (fld w 20 6) (fld w 14 6) (fld w 8 6)) []
  | 13 => accept w (.sne (fld w 20 6) (fld w 14 6) (fld w 8 6)) []
  | 14 => accept w (.min (fld w 20 6) (fld w 14 6) (fld w 8 6)) []
  | 15 => accept w (.max (fld w 20 6) (fld w 14 6) (fld w 8 6)) []
  | 16 => accept w (.minn (fld w 20 6) (fld w 14 6) (fld w 8 6)) []
  | 17 => accept w (.maxn (fld w 20 6) (fld w 14 6) (fld w 8 6)) []
  | 18 => accept w (.mul (fld w 20 6) (fld w 14 6) (fld w 8 6)) []
  | 19 => accept w (.mulh (fld w 20 6) (fld w 14 6) (fld w 8 6)) []
  | 20 => accept w (.mulhn (fld w 20 6) (fld w 14 6) (fld w 8 6)) []
  | 21 => accept w (.div (fld w 20 6) (fld w 14 6) (fld w 8 6)) []
  | 22 => accept w (.divn (fld w 20 6) (fld w 14 6) (fld w 8 6)) []
  | 23 => accept w (.rem (fld w 20 6) (fld w 14 6) (fld w 8 6)) []
  | 24 => accept w (.remn (fld w 20 6) (fld w 14 6) (fld w 8 6)) []
  | 25 => accept w (.clz (fld w 20 6) (fld w 14 6)) [(8, 6)]
  | 26 => accept w (.ctz (fld w 20 6) (fld w 14 6)) [(8, 6)]
  | 27 => accept w (.pop (fld w 20 6) (fld w 14 6)) [(8, 6)]
  | 28 => accept w (.padd (fld w 20 6) (fld w 14 6) (fld w 8 6)) []
  | 29 => accept w (.planeOf (fld w 20 6) (fld w 14 6) (fld w 8 6)) []
  | 30 => accept w (.pathOf (fld w 20 6) (fld w 14 6) (fld w 8 6)) []
  | _ => .illegal

/-- OP 27 of the scalar engine (R73 to R75). -/
def decodeS27 (w : BitVec 32) : Decoded :=
  match (fld w 5 1).toNat with
  | 0 => accept w (.amo (fld w 20 6) (fld w 14 6) (fld w 8 6) (fld w 0 5)) [(6, 2)]
  | _ => accept w (.amoPosted (fld w 14 6) (fld w 8 6) (fld w 0 5)) [(6, 2), (20, 6)]

/-- OP 31 of the scalar engine (R73 to R75). -/
def decodeS31 (w : BitVec 32) : Decoded :=
  match (fld w 4 4).toNat with
  | 0 => accept w (.rel (fld w 14 6) (fld w 8 6) (fld w 0 4)) [(20, 6)]
  | 1 => accept w (.relAdd (fld w 14 6) (fld w 8 6) (fld w 0 4)) [(20, 6)]
  | _ => .illegal

/-- OP 32 of the scalar engine (R73 to R75). -/
def decodeS32 (w : BitVec 32) : Decoded :=
  match (fld w 4 1).toNat with
  | 0 => accept w (.bind (fld w 20 6) (fld w 14 6) (fld w 0 4)) [(5, 9)]
  | _ => accept w (.unbind (fld w 20 6) (fld w 14 6) (fld w 0 4)) [(5, 9)]

/-- OP 33 of the scalar engine (R73 to R75). -/
def decodeS33 (w : BitVec 32) : Decoded :=
  match (fld w 4 4).toNat with
  | 0 => accept w (.tkWait (fld w 0 3)) [(3, 1), (8, 18)]
  | 1 => accept w (.tkGive (fld w 0 3)) [(3, 1), (8, 18)]
  | _ => .illegal

/-- OP 35 of the scalar engine (R73 to R75). -/
def decodeS35 (w : BitVec 32) : Decoded :=
  match (fld w 4 4).toNat with
  | 0 => accept w (.barArrive (fld w 20 6) (fld w 14 6) (fld w 8 6) (fld w 0 4)) []
  | 1 => accept w (.barWait (fld w 20 6) (fld w 14 6) (fld w 8 6) (fld w 0 4)) []
  | 2 => accept w (.barSync (fld w 20 6) (fld w 14 6) (fld w 8 6) (fld w 0 4)) []
  | 3 => accept w (.barInit (fld w 20 6) (fld w 14 6) (fld w 8 6) (fld w 0 4)) []
  | 4 => accept w (.barFlags (fld w 20 6) (fld w 14 6) (fld w 8 6) (fld w 0 4)) []
  | 5 => accept w (.barTest1 (fld w 20 6) (fld w 14 6) (fld w 8 6) (fld w 0 4)) []
  | _ => .illegal

/-- OP 36 of the scalar engine (R73 to R75). -/
def decodeS36 (w : BitVec 32) : Decoded :=
  match (fld w 4 4).toNat with
  | 0 => accept w (.qmPost (fld w 0 3)) [(3, 1), (8, 18)]
  | 1 => accept w (.qmWait) [(0, 4), (8, 18)]
  | _ => .illegal

/-- OP 38 of the scalar engine (R73 to R75). -/
def decodeS38 (w : BitVec 32) : Decoded :=
  match (fld w 0 8).toNat with
  | 0 => accept w (.stBase (fld w 20 4) (fld w 14 6) (fld w 8 6)) [(24, 2)]
  | 1 => accept w (.stLay (fld w 20 4) (fld w 14 6)) [(8, 6), (24, 2)]
  | 2 => accept w (.stFmt (fld w 20 4) (fld w 14 6)) [(8, 6), (24, 2)]
  | 3 => accept w (.stScl (fld w 20 4) (fld w 14 6)) [(8, 6), (24, 2)]
  | 4 => accept w (.stFlag (fld w 20 4) (fld w 14 6)) [(8, 6), (24, 2)]
  | 5 => accept w (.stLink (fld w 20 4) (fld w 8 6)) [(14, 6), (24, 2)]
  | 6 => accept w (.stPos (fld w 20 4) (fld w 14 6)) [(8, 6), (24, 2)]
  | 7 => accept w (.stFill (fld w 20 4) (fld w 14 6)) [(8, 6), (24, 2)]
  | _ => .illegal

/-- OP 45 of the scalar engine (R73 to R75). -/
def decodeS45 (w : BitVec 32) : Decoded :=
  match (fld w 0 8).toNat with
  | 0 => accept w (.seal (fld w 14 6) (fld w 8 6)) [(20, 6)]
  | 1 => accept w (.unseal (fld w 14 6) (fld w 8 6)) [(20, 6)]
  | _ => .illegal

/-- OP 46 of the scalar engine (R73 to R75). -/
def decodeS46 (w : BitVec 32) : Decoded :=
  match (fld w 0 8).toNat with
  | 0 => accept w (.tlbiAll) [(8, 18)]
  | 1 => accept w (.tlbiTenant (fld w 14 6)) [(8, 6), (20, 6)]
  | 2 => accept w (.tlbiPositionPage (fld w 14 6)) [(8, 6), (20, 6)]
  | 3 => accept w (.tlbiPlaneFrame (fld w 14 6)) [(8, 6), (20, 6)]
  | _ => .illegal

/-- The decoder of the scalar engine (R73 to R75). -/
def decodeS (w : BitVec 32) : Decoded :=
  match (fld w 26 6).toNat with
  | 1 => decodeS1 w
  | 2 => accept w (.addi (fld w 20 6) (fld w 14 6) (fld w 0 14)) []
  | 3 => accept w (.andi (fld w 20 6) (fld w 14 6) (fld w 0 14)) []
  | 4 => accept w (.ori (fld w 20 6) (fld w 14 6) (fld w 0 14)) []
  | 5 => accept w (.xori (fld w 20 6) (fld w 14 6) (fld w 0 14)) []
  | 6 => accept w (.shli (fld w 20 6) (fld w 14 6) (fld w 0 6)) [(6, 8)]
  | 7 => accept w (.shri (fld w 20 6) (fld w 14 6) (fld w 0 6)) [(6, 8)]
  | 8 => accept w (.srai (fld w 20 6) (fld w 14 6) (fld w 0 6)) [(6, 8)]
  | 9 => accept w (.slti (fld w 20 6) (fld w 14 6) (fld w 0 14)) []
  | 10 => accept w (.sltni (fld w 20 6) (fld w 14 6) (fld w 0 14)) []
  | 11 => accept w (.paddi (fld w 20 6) (fld w 14 6) (fld w 0 14)) []
  | 12 => accept w (.planei (fld w 20 6) (fld w 14 6) (fld w 0 4)) [(4, 10)]
  | 13 => accept w (.hi (fld w 20 6) (fld w 0 20)) []
  | 14 => accept w (.top (fld w 20 6) (fld w 0 20)) []
  | 15 => accept w (.pcrel (fld w 20 6) (fld w 0 20)) []
  | 16 => accept w (.beq (fld w 20 6) (fld w 14 6) (fld w 0 14)) []
  | 17 => accept w (.bne (fld w 20 6) (fld w 14 6) (fld w 0 14)) []
  | 18 => accept w (.blt (fld w 20 6) (fld w 14 6) (fld w 0 14)) []
  | 19 => accept w (.bge (fld w 20 6) (fld w 14 6) (fld w 0 14)) []
  | 20 => accept w (.bltn (fld w 20 6) (fld w 14 6) (fld w 0 14)) []
  | 21 => accept w (.bgen (fld w 20 6) (fld w 14 6) (fld w 0 14)) []
  | 22 => accept w (.jal (fld w 20 6) (fld w 0 20)) []
  | 23 => accept w (.jalr (fld w 20 6) (fld w 14 6) (fld w 0 14)) []
  | 24 => accept w (.ld (fld w 20 6) (fld w 14 6) (fld w 11 3) (fld w 0 11)) []
  | 25 => accept w (.st (fld w 20 6) (fld w 14 6) (fld w 11 3) (fld w 0 11)) []
  | 26 => accept w (.rst (fld w 20 6) (fld w 14 6) (fld w 8 6) (fld w 0 3)) [(3, 5)]
  | 27 => decodeS27 w
  | 28 => accept w (.waita (fld w 20 6) (fld w 14 6) (fld w 8 6) (fld w 0 2)) [(2, 6)]
  | 29 => accept w (.fence (fld w 4 4) (fld w 0 4)) [(8, 18)]
  | 30 => accept w (.acq (fld w 20 6) (fld w 14 6) (fld w 0 4)) [(4, 10)]
  | 31 => decodeS31 w
  | 32 => decodeS32 w
  | 33 => decodeS33 w
  | 34 => accept w (.kw (fld w 20 6) (fld w 8 1) (fld w 0 8)) [(9, 11)]
  | 35 => decodeS35 w
  | 36 => decodeS36 w
  | 37 => accept w (.launch (fld w 20 6) (fld w 14 6)) [(0, 14)]
  | 38 => decodeS38 w
  | 39 => accept w (.rtset (fld w 20 2) (fld w 14 6)) [(0, 14), (22, 4)]
  | 40 => accept w (.xset (fld w 20 4) (fld w 14 6)) [(0, 14), (24, 2)]
  | 41 => accept w (.sget (fld w 20 6) (fld w 2 12)) [(0, 2), (14, 6)]
  | 42 => accept w (.sset (fld w 14 6) (fld w 2 12)) [(0, 2), (20, 6)]
  | 43 => accept w (.trap (fld w 0 14)) [(14, 12)]
  | 44 => accept w (.eret) [(0, 26)]
  | 45 => decodeS45 w
  | 46 => decodeS46 w
  | 47 => accept w (.yield) [(0, 26)]
  | 48 => accept w (.endS) [(0, 26)]
  | _ => .illegal

/-- OP 46 of the vector engine (R78, R79). -/
def decodeV46 (w : BitVec 32) : Decoded :=
  match (fld w 0 4).toNat with
  | 0 => accept w (.mopsAnd (fld w 20 6) (fld w 14 6) (fld w 8 6)) [(4, 4)]
  | 1 => accept w (.mopsOr (fld w 20 6) (fld w 14 6) (fld w 8 6)) [(4, 4)]
  | 2 => accept w (.mopsXor (fld w 20 6) (fld w 14 6) (fld w 8 6)) [(4, 4)]
  | 3 => accept w (.mopsAndn (fld w 20 6) (fld w 14 6) (fld w 8 6)) [(4, 4)]
  | 4 => accept w (.mopsNot (fld w 20 6) (fld w 14 6)) [(4, 10)]
  | 5 => accept w (.mopsFirstn (fld w 20 6) (fld w 14 6)) [(4, 10)]
  | 6 => accept w (.mopsOnes (fld w 20 6)) [(4, 16)]
  | _ => .illegal

/-- OP 56 of the vector engine (R78, R79). -/
def decodeV56 (w : BitVec 32) : Decoded :=
  match (fld w 0 4).toNat with
  | 0 => accept w (.vflGet (fld w 20 6) (fld w 5 3)) [(4, 1), (8, 12)]
  | 1 => accept w (.vflClear (fld w 5 3)) [(4, 1), (8, 18)]
  | 2 => accept w (.vflCollect (fld w 5 3)) [(4, 1), (8, 18)]
  | _ => .illegal

/-- OP 57 of the vector engine (R78, R79). -/
def decodeV57 (w : BitVec 32) : Decoded :=
  match (fld w 4 1).toNat with
  | 0 => accept w (.vtkWait (fld w 0 3)) [(3, 1), (5, 21)]
  | _ => accept w (.vtkGive (fld w 0 3)) [(3, 1), (5, 21)]

/-- The decoder of the vector engine (R78, R79). -/
def decodeV (w : BitVec 32) : Decoded :=
  match (fld w 26 6).toNat with
  | 1 => accept w (.vadd (fld w 20 6) (fld w 14 6) (fld w 8 6) (fld w 5 3) (fld w 4 1) (fld w 0 4)) []
  | 2 => accept w (.vsub (fld w 20 6) (fld w 14 6) (fld w 8 6) (fld w 5 3) (fld w 4 1) (fld w 0 4)) []
  | 3 => accept w (.vmul (fld w 20 6) (fld w 14 6) (fld w 8 6) (fld w 5 3) (fld w 4 1) (fld w 0 4)) []
  | 4 => accept w (.vfma (fld w 20 6) (fld w 14 6) (fld w 8 6) (fld w 5 3) (fld w 4 1) (fld w 0 4)) []
  | 5 => accept w (.vfms (fld w 20 6) (fld w 14 6) (fld w 8 6) (fld w 5 3) (fld w 4 1) (fld w 0 4)) []
  | 6 => accept w (.vnfma (fld w 20 6) (fld w 14 6) (fld w 8 6) (fld w 5 3) (fld w 4 1) (fld w 0 4)) []
  | 7 => accept w (.vmin (fld w 20 6) (fld w 14 6) (fld w 8 6) (fld w 5 3) (fld w 4 1) (fld w 0 4)) []
  | 8 => accept w (.vmax (fld w 20 6) (fld w 14 6) (fld w 8 6) (fld w 5 3) (fld w 4 1) (fld w 0 4)) []
  | 9 => accept w (.vdiv (fld w 20 6) (fld w 14 6) (fld w 8 6) (fld w 5 3) (fld w 4 1) (fld w 0 4)) []
  | 10 => accept w (.vsqrt (fld w 20 6) (fld w 14 6) (fld w 5 3) (fld w 4 1) (fld w 0 4)) [(8, 6)]
  | 11 => accept w (.vabs (fld w 20 6) (fld w 14 6) (fld w 5 3) (fld w 4 1) (fld w 0 4)) [(8, 6)]
  | 12 => accept w (.vneg (fld w 20 6) (fld w 14 6) (fld w 5 3) (fld w 4 1) (fld w 0 4)) [(8, 6)]
  | 13 => accept w (.vrnd (fld w 20 6) (fld w 14 6) (fld w 5 3) (fld w 4 1) (fld w 0 4)) [(8, 6)]
  | 16 => accept w (.viadd (fld w 20 6) (fld w 14 6) (fld w 8 6) (fld w 5 3) (fld w 0 4)) [(4, 1)]
  | 17 => accept w (.visub (fld w 20 6) (fld w 14 6) (fld w 8 6) (fld w 5 3) (fld w 0 4)) [(4, 1)]
  | 18 => accept w (.vimul (fld w 20 6) (fld w 14 6) (fld w 8 6) (fld w 5 3) (fld w 0 4)) [(4, 1)]
  | 19 => accept w (.vimulh (fld w 20 6) (fld w 14 6) (fld w 8 6) (fld w 5 3) (fld w 0 4)) [(4, 1)]
  | 20 => accept w (.vand (fld w 20 6) (fld w 14 6) (fld w 8 6) (fld w 5 3) (fld w 0 4)) [(4, 1)]
  | 21 => accept w (.vor (fld w 20 6) (fld w 14 6) (fld w 8 6) (fld w 5 3) (fld w 0 4)) [(4, 1)]
  | 22 => accept w (.vxor (fld w 20 6) (fld w 14 6) (fld w 8 6) (fld w 5 3) (fld w 0 4)) [(4, 1)]
  | 23 => accept w (.vshl (fld w 20 6) (fld w 14 6) (fld w 8 6) (fld w 5 3) (fld w 0 4)) [(4, 1)]
  | 24 => accept w (.vshr (fld w 20 6) (fld w 14 6) (fld w 8 6) (fld w 5 3) (fld w 0 4)) [(4, 1)]
  | 25 => accept w (.vsra (fld w 20 6) (fld w 14 6) (fld w 8 6) (fld w 5 3) (fld w 0 4)) [(4, 1)]
  | 26 => accept w (.vimin (fld w 20 6) (fld w 14 6) (fld w 8 6) (fld w 5 3) (fld w 0 4)) [(4, 1)]
  | 27 => accept w (.vimax (fld w 20 6) (fld w 14 6) (fld w 8 6) (fld w 5 3) (fld w 0 4)) [(4, 1)]
  | 28 => accept w (.viabs (fld w 20 6) (fld w 14 6) (fld w 5 3) (fld w 0 4)) [(4, 1), (8, 6)]
  | 30 => accept w (.vcmp (fld w 23 3) (fld w 20 3) (fld w 14 6) (fld w 8 6) (fld w 5 3) (fld w 4 1) (fld w 0 4)) []
  | 31 => accept w (.vcvt (fld w 20 6) (fld w 14 6) (fld w 10 4) (fld w 9 1) (fld w 5 3) (fld w 4 1) (fld w 0 4)) [(8, 1)]
  | 32 => accept w (.vcbe (fld w 20 6) (fld w 14 6) (fld w 11 3) (fld w 5 3) (fld w 4 1) (fld w 0 4)) [(8, 3)]
  | 33 => accept w (.vcbd (fld w 20 6) (fld w 14 6) (fld w 11 3) (fld w 5 3) (fld w 0 4)) [(4, 1), (8, 3)]
  | 36 => accept w (.vmov (fld w 20 6) (fld w 14 6) (fld w 5 3) (fld w 0 4)) [(4, 1), (8, 6)]
  | 37 => accept w (.vsel (fld w 20 6) (fld w 14 6) (fld w 8 6) (fld w 5 3) (fld w 0 4)) [(4, 1)]
  | 38 => accept w (.vperm (fld w 20 6) (fld w 14 6) (fld w 8 6) (fld w 5 3) (fld w 0 4)) [(4, 1)]
  | 39 => accept w (.vrot (fld w 20 6) (fld w 14 6) (fld w 0 8)) [(8, 6)]
  | 40 => accept w (.vbcl (fld w 20 6) (fld w 14 6) (fld w 0 8)) [(8, 6)]
  | 41 => accept w (.vbcx (fld w 20 6) (fld w 0 4)) [(4, 16)]
  | 42 => accept w (.vred (fld w 20 6) (fld w 14 6) (fld w 8 3) (fld w 5 3) (fld w 4 1) (fld w 0 4)) [(11, 3)]
  | 43 => accept w (.vidx (fld w 20 6) (fld w 5 3) (fld w 0 4)) [(4, 1), (8, 12)]
  | 44 => accept w (.vimm (fld w 20 6) (fld w 10 4) (fld w 0 10)) [(14, 6)]
  | 46 => decodeV46 w
  | 48 => accept w (.vld (fld w 20 6) (fld w 16 4) (fld w 14 2) (fld w 5 3) (fld w 0 4)) [(4, 1), (8, 6)]
  | 49 => accept w (.vst (fld w 20 6) (fld w 16 4) (fld w 14 2) (fld w 5 3) (fld w 0 4)) [(4, 1), (8, 6)]
  | 50 => accept w (.vgth (fld w 20 6) (fld w 16 4) (fld w 14 2) (fld w 8 6) (fld w 5 3) (fld w 0 4)) [(4, 1)]
  | 51 => accept w (.vsct (fld w 20 6) (fld w 16 4) (fld w 14 2) (fld w 8 6) (fld w 5 3) (fld w 0 4)) [(4, 1)]
  | 52 => accept w (.vrst (fld w 20 6) (fld w 16 4) (fld w 14 2) (fld w 5 3) (fld w 0 4)) [(4, 1), (8, 6)]
  | 54 => accept w (.vtld (fld w 20 6) (fld w 14 6) (fld w 0 7)) [(7, 7)]
  | 55 => accept w (.vtst (fld w 20 6) (fld w 14 6) (fld w 0 7)) [(7, 7)]
  | 56 => decodeV56 w
  | 57 => decodeV57 w
  | 58 => accept w (.vrgn (fld w 0 1)) [(1, 25)]
  | 59 => accept w (.vpark (fld w 20 6) (fld w 0 6)) [(6, 14)]
  | 60 => accept w (.vunpark (fld w 20 6) (fld w 0 6)) [(6, 14)]
  | 61 => accept w (.vend) [(0, 26)]
  | _ => .illegal

/-- OP 5 of the matrix engine (R81). -/
def decodeM5 (w : BitVec 32) : Decoded :=
  match (fld w 22 4).toNat with
  | 0 => accept w (.mleaseGet (fld w 9 3) (fld w 6 3)) [(0, 6), (12, 10)]
  | 1 => accept w (.mleaseRelease (fld w 9 3) (fld w 6 3)) [(0, 6), (12, 10)]
  | 2 => accept w (.mleaseRenew (fld w 9 3) (fld w 6 3)) [(0, 6), (12, 10)]
  | _ => .illegal

/-- The decoder of the matrix engine (R81). -/
def decodeM (w : BitVec 32) : Decoded :=
  match (fld w 26 6).toNat with
  | 1 => accept w (.mma (fld w 22 4) (fld w 18 4) (fld w 14 4) (fld w 12 2) (fld w 9 3) (fld w 6 3) (fld w 0 6)) []
  | 2 => accept w (.mzero (fld w 18 4) (fld w 9 3) (fld w 6 3)) [(0, 6), (12, 6), (22, 4)]
  | 3 => accept w (.mdrain (fld w 22 4) (fld w 18 4) (fld w 14 4) (fld w 9 3) (fld w 6 3)) [(0, 6), (12, 2)]
  | 4 => accept w (.mdrr (fld w 22 4) (fld w 18 2) (fld w 14 4) (fld w 12 1) (fld w 9 3) (fld w 6 3)) [(0, 6), (13, 1), (20, 2)]
  | 5 => decodeM5 w
  | 6 => accept w (.mcbl (fld w 18 4) (fld w 14 4) (fld w 9 3) (fld w 6 3)) [(0, 6), (12, 2), (22, 4)]
  | 7 => accept w (.mepi (fld w 18 4) (fld w 14 4) (fld w 9 3) (fld w 6 3)) [(0, 6), (12, 2), (22, 4)]
  | 8 => accept w (.macc (fld w 18 4) (fld w 14 4) (fld w 9 3) (fld w 6 3)) [(0, 6), (12, 2), (22, 4)]
  | 9 => accept w (.mtk (fld w 9 3) (fld w 6 3)) [(0, 6), (12, 14)]
  | 10 => accept w (.mend) [(0, 26)]
  | _ => .illegal

/-- OP 1 of the copy engine (R83). -/
def decodeC1 (w : BitVec 32) : Decoded :=
  match (fld w 0 3).toNat with
  | 0 => accept w (.cp (fld w 22 4) (fld w 18 4) (fld w 15 3) (fld w 12 3) (fld w 9 3) (fld w 6 3) (fld w 3 3)) []
  | 1 => accept w (.cpConvert (fld w 22 4) (fld w 18 4) (fld w 15 3) (fld w 12 3) (fld w 9 3) (fld w 6 3) (fld w 3 3)) []
  | _ => .illegal

/-- OP 2 of the copy engine (R83). -/
def decodeC2 (w : BitVec 32) : Decoded :=
  match (fld w 0 3).toNat with
  | 0 => accept w (.cpadd (fld w 22 4) (fld w 18 4) (fld w 15 3) (fld w 12 3) (fld w 9 3) (fld w 6 3) (fld w 3 3) (fld w 0 1)) []
  | 1 => accept w (.cpadd (fld w 22 4) (fld w 18 4) (fld w 15 3) (fld w 12 3) (fld w 9 3) (fld w 6 3) (fld w 3 3) (fld w 0 1)) []
  | _ => .illegal

/-- OP 5 of the copy engine (R83). -/
def decodeC5 (w : BitVec 32) : Decoded :=
  match (fld w 0 3).toNat with
  | 0 => accept w (.cpz (fld w 18 4) (fld w 12 3) (fld w 9 3) (fld w 6 3) (fld w 3 3) (fld w 0 1)) [(15, 3), (22, 4)]
  | 1 => accept w (.cpz (fld w 18 4) (fld w 12 3) (fld w 9 3) (fld w 6 3) (fld w 3 3) (fld w 0 1)) [(15, 3), (22, 4)]
  | _ => .illegal

/-- The decoder of the copy engine (R83). -/
def decodeC (w : BitVec 32) : Decoded :=
  match (fld w 26 6).toNat with
  | 1 => decodeC1 w
  | 2 => decodeC2 w
  | 3 => accept w (.cpg (fld w 22 4) (fld w 18 4) (fld w 15 3) (fld w 12 3) (fld w 9 3) (fld w 6 3) (fld w 3 3)) [(0, 3)]
  | 4 => accept w (.cps (fld w 22 4) (fld w 18 4) (fld w 15 3) (fld w 12 3) (fld w 9 3) (fld w 6 3) (fld w 3 3)) [(0, 3)]
  | 5 => decodeC5 w
  | 6 => accept w (.cpf (fld w 22 4) (fld w 18 4) (fld w 15 3) (fld w 12 3) (fld w 9 3) (fld w 6 3) (fld w 3 3)) [(0, 3)]
  | 7 => accept w (.cpre (fld w 22 4) (fld w 18 4) (fld w 15 3) (fld w 12 3) (fld w 9 3) (fld w 6 3) (fld w 3 3)) [(0, 3)]
  | 8 => accept w (.ctile (fld w 20 6) (fld w 18 2) (fld w 9 3) (fld w 6 3)) [(0, 6), (12, 6)]
  | 9 => accept w (.chl (fld w 22 4) (fld w 18 4) (fld w 15 3) (fld w 12 3) (fld w 9 3) (fld w 6 3)) [(0, 6)]
  | 10 => accept w (.cpost (fld w 22 4) (fld w 15 3) (fld w 12 3) (fld w 9 3) (fld w 6 3)) [(0, 6), (18, 4)]
  | 11 => accept w (.cabort (fld w 22 4) (fld w 12 3) (fld w 9 3) (fld w 6 3)) [(0, 6), (15, 7)]
  | 12 => accept w (.cmig (fld w 22 4) (fld w 18 4) (fld w 15 3) (fld w 12 3) (fld w 9 3) (fld w 6 3)) [(0, 6)]
  | 13 => accept w (.ckey (fld w 22 4) (fld w 18 4) (fld w 15 3) (fld w 12 3) (fld w 9 3) (fld w 6 3)) [(0, 6)]
  | 14 => accept w (.ctk (fld w 9 3) (fld w 6 3)) [(0, 6), (12, 14)]
  | 15 => accept w (.cend) [(0, 26)]
  | _ => .illegal

/-- The decoder of an engine. -/
def decode (e : Engine) (w : BitVec 32) : Decoded :=
  match e with
  | .s => decodeS w
  | .v => decodeV w
  | .m => decodeM w
  | .c => decodeC w

/-- The engine whose opcode map holds an instruction; none for the machine's other steps. -/
def Instr.engine : Instr → Option Engine
  | .add _ _ _ => some .s
  | .sub _ _ _ => some .s
  | .and _ _ _ => some .s
  | .or _ _ _ => some .s
  | .xor _ _ _ => some .s
  | .andn _ _ _ => some .s
  | .orn _ _ _ => some .s
  | .shl _ _ _ => some .s
  | .shr _ _ _ => some .s
  | .sra _ _ _ => some .s
  | .slt _ _ _ => some .s
  | .sltn _ _ _ => some .s
  | .seq _ _ _ => some .s
  | .sne _ _ _ => some .s
  | .min _ _ _ => some .s
  | .max _ _ _ => some .s
  | .minn _ _ _ => some .s
  | .maxn _ _ _ => some .s
  | .mul _ _ _ => some .s
  | .mulh _ _ _ => some .s
  | .mulhn _ _ _ => some .s
  | .div _ _ _ => some .s
  | .divn _ _ _ => some .s
  | .rem _ _ _ => some .s
  | .remn _ _ _ => some .s
  | .clz _ _ => some .s
  | .ctz _ _ => some .s
  | .pop _ _ => some .s
  | .padd _ _ _ => some .s
  | .planeOf _ _ _ => some .s
  | .pathOf _ _ _ => some .s
  | .addi _ _ _ => some .s
  | .andi _ _ _ => some .s
  | .ori _ _ _ => some .s
  | .xori _ _ _ => some .s
  | .shli _ _ _ => some .s
  | .shri _ _ _ => some .s
  | .srai _ _ _ => some .s
  | .slti _ _ _ => some .s
  | .sltni _ _ _ => some .s
  | .paddi _ _ _ => some .s
  | .planei _ _ _ => some .s
  | .hi _ _ => some .s
  | .top _ _ => some .s
  | .pcrel _ _ => some .s
  | .beq _ _ _ => some .s
  | .bne _ _ _ => some .s
  | .blt _ _ _ => some .s
  | .bge _ _ _ => some .s
  | .bltn _ _ _ => some .s
  | .bgen _ _ _ => some .s
  | .jal _ _ => some .s
  | .jalr _ _ _ => some .s
  | .ld _ _ _ _ => some .s
  | .st _ _ _ _ => some .s
  | .rst _ _ _ _ => some .s
  | .amo _ _ _ _ => some .s
  | .amoPosted _ _ _ => some .s
  | .waita _ _ _ _ => some .s
  | .fence _ _ => some .s
  | .acq _ _ _ => some .s
  | .rel _ _ _ => some .s
  | .relAdd _ _ _ => some .s
  | .bind _ _ _ => some .s
  | .unbind _ _ _ => some .s
  | .tkWait _ => some .s
  | .tkGive _ => some .s
  | .kw _ _ _ => some .s
  | .barArrive _ _ _ _ => some .s
  | .barWait _ _ _ _ => some .s
  | .barSync _ _ _ _ => some .s
  | .barInit _ _ _ _ => some .s
  | .barFlags _ _ _ _ => some .s
  | .barTest1 _ _ _ _ => some .s
  | .qmPost _ => some .s
  | .qmWait => some .s
  | .launch _ _ => some .s
  | .stBase _ _ _ => some .s
  | .stLay _ _ => some .s
  | .stFmt _ _ => some .s
  | .stScl _ _ => some .s
  | .stFlag _ _ => some .s
  | .stLink _ _ => some .s
  | .stPos _ _ => some .s
  | .stFill _ _ => some .s
  | .rtset _ _ => some .s
  | .xset _ _ => some .s
  | .sget _ _ => some .s
  | .sset _ _ => some .s
  | .trap _ => some .s
  | .eret => some .s
  | .seal _ _ => some .s
  | .unseal _ _ => some .s
  | .tlbiAll => some .s
  | .tlbiTenant _ => some .s
  | .tlbiPositionPage _ => some .s
  | .tlbiPlaneFrame _ => some .s
  | .yield => some .s
  | .endS => some .s
  | .vadd _ _ _ _ _ _ => some .v
  | .vsub _ _ _ _ _ _ => some .v
  | .vmul _ _ _ _ _ _ => some .v
  | .vfma _ _ _ _ _ _ => some .v
  | .vfms _ _ _ _ _ _ => some .v
  | .vnfma _ _ _ _ _ _ => some .v
  | .vmin _ _ _ _ _ _ => some .v
  | .vmax _ _ _ _ _ _ => some .v
  | .vdiv _ _ _ _ _ _ => some .v
  | .vsqrt _ _ _ _ _ => some .v
  | .vabs _ _ _ _ _ => some .v
  | .vneg _ _ _ _ _ => some .v
  | .vrnd _ _ _ _ _ => some .v
  | .viadd _ _ _ _ _ => some .v
  | .visub _ _ _ _ _ => some .v
  | .vimul _ _ _ _ _ => some .v
  | .vimulh _ _ _ _ _ => some .v
  | .vand _ _ _ _ _ => some .v
  | .vor _ _ _ _ _ => some .v
  | .vxor _ _ _ _ _ => some .v
  | .vshl _ _ _ _ _ => some .v
  | .vshr _ _ _ _ _ => some .v
  | .vsra _ _ _ _ _ => some .v
  | .vimin _ _ _ _ _ => some .v
  | .vimax _ _ _ _ _ => some .v
  | .viabs _ _ _ _ => some .v
  | .vcmp _ _ _ _ _ _ _ => some .v
  | .vcvt _ _ _ _ _ _ _ => some .v
  | .vcbe _ _ _ _ _ _ => some .v
  | .vcbd _ _ _ _ _ => some .v
  | .vmov _ _ _ _ => some .v
  | .vsel _ _ _ _ _ => some .v
  | .vperm _ _ _ _ _ => some .v
  | .vrot _ _ _ => some .v
  | .vbcl _ _ _ => some .v
  | .vbcx _ _ => some .v
  | .vred _ _ _ _ _ _ => some .v
  | .vidx _ _ _ => some .v
  | .vimm _ _ _ => some .v
  | .mopsAnd _ _ _ => some .v
  | .mopsOr _ _ _ => some .v
  | .mopsXor _ _ _ => some .v
  | .mopsAndn _ _ _ => some .v
  | .mopsNot _ _ => some .v
  | .mopsFirstn _ _ => some .v
  | .mopsOnes _ => some .v
  | .vld _ _ _ _ _ => some .v
  | .vst _ _ _ _ _ => some .v
  | .vgth _ _ _ _ _ _ => some .v
  | .vsct _ _ _ _ _ _ => some .v
  | .vrst _ _ _ _ _ => some .v
  | .vtld _ _ _ => some .v
  | .vtst _ _ _ => some .v
  | .vflGet _ _ => some .v
  | .vflClear _ => some .v
  | .vflCollect _ => some .v
  | .vtkWait _ => some .v
  | .vtkGive _ => some .v
  | .vrgn _ => some .v
  | .vpark _ _ => some .v
  | .vunpark _ _ => some .v
  | .vend => some .v
  | .mma _ _ _ _ _ _ _ => some .m
  | .mzero _ _ _ => some .m
  | .mdrain _ _ _ _ _ => some .m
  | .mdrr _ _ _ _ _ _ => some .m
  | .mleaseGet _ _ => some .m
  | .mleaseRelease _ _ => some .m
  | .mleaseRenew _ _ => some .m
  | .mcbl _ _ _ _ => some .m
  | .mepi _ _ _ _ => some .m
  | .macc _ _ _ _ => some .m
  | .mtk _ _ => some .m
  | .mend => some .m
  | .cp _ _ _ _ _ _ _ => some .c
  | .cpConvert _ _ _ _ _ _ _ => some .c
  | .cpadd _ _ _ _ _ _ _ _ => some .c
  | .cpg _ _ _ _ _ _ _ => some .c
  | .cps _ _ _ _ _ _ _ => some .c
  | .cpz _ _ _ _ _ _ => some .c
  | .cpf _ _ _ _ _ _ _ => some .c
  | .cpre _ _ _ _ _ _ _ => some .c
  | .ctile _ _ _ _ => some .c
  | .chl _ _ _ _ _ _ => some .c
  | .cpost _ _ _ _ _ => some .c
  | .cabort _ _ _ _ => some .c
  | .cmig _ _ _ _ _ _ => some .c
  | .ckey _ _ _ _ _ _ => some .c
  | .ctk _ _ => some .c
  | .cend => some .c
  | .atomic _ => none
  | .memoryRequest _ => none
  | .response _ => none
  | .writeAck _ => none
  | .postedRefusal _ => none
  | .instructionFinish _ _ _ => none
  | .mmaSlice _ _ => none
  | .leaseIdle _ => none
  | .copyChunk _ _ _ _ => none
  | .copyReadsPerformed _ _ _ => none
  | .copyWritesPerformed _ _ _ => none
  | .vectorResultLand _ _ => none
  | .monitorWake _ _ => none
  | .waitaTimeout _ _ => none
  | .phaseEnd _ _ => none
  | .barrierArrival _ => none
  | .swapOnWait _ _ => none
  | .watchdog _ _ => none
  | .launchHandover _ => none
  | .scoreboardExamine _ => none
  | .dependenceMet _ _ _ _ => none
  | .staging _ _ => none
  | .aging _ => none
  | .place => none
  | .taskSave _ _ => none
  | .restore _ => none
  | .taskRetire _ _ => none
  | .shadowDone _ => none
  | .coreAcknowledge _ _ => none
  | .migrationChunk _ => none
  | .migrationStable _ => none
  | .handlerSlotLoad _ _ _ => none
  | .collectivePost _ => none
  | .ticketIssue _ => none
  | .ticketArrival _ => none
  | .ticketStart => none
  | .chunkArrival _ => none
  | .chunkResend _ => none
  | .walkerTransfer _ => none
  | .localComplete _ => none
  | .commit _ => none
  | .abortRequest _ => none
  | .abortArrival _ => none
  | .chainPacket _ => none
  | .chainReturn _ => none
  | .flitTransmit _ _ _ _ => none
  | .flitReceive _ _ => none
  | .retryRequest _ _ => none
  | .rekeyat _ => none
  | .rampInterval _ => none
  | .powerTick _ _ _ => none
  | .scrub _ _ => none
  | .reset => none
  | .lpddrReady _ => none
  | .boot => none
  | .hostRegisterWrite _ _ => none
  | .hostRequest _ _ _ _ _ => none
  | .coreWave => none
  | .gddrTrained _ => none
  | .leasemax _ _ => none
  | .rampcfg _ _ => none
  | .tflags _ _ _ _ => none
  | .frame _ _ _ => none
  | .tenant _ _ _ _ _ _ => none
  | .window _ _ _ _ _ _ => none
  | .barrier _ _ _ _ _ _ => none
  | .monitors _ _ => none
  | .slot _ _ _ => none
  | .portStatus _ _ => none
  | .portRekeyat _ _ _ => none
  | .portKeySwitch _ _ => none
  | .portBringUp _ _ => none
  | .watchdogLimit _ _ => none
  | .errors _ _ => none
  | .power _ _ => none
  | .attest _ _ => none
  | .fuse _ => none
  | .domain _ _ _ _ _ _ => none
  | .illegalWord _ _ => none
  | .fetchFault _ => none
  | .verification => none
  | .taskEnded _ => none

/-- A word with the given fixed bits and every field (value, low bit) at its place. -/
def pack (base : Nat) (fields : List (Nat × Nat)) : BitVec 32 :=
  BitVec.ofNat 32 (fields.foldl (fun w f => w + f.1 * 2 ^ f.2) base)

/-- The word of an instruction, every field at the bits of its format (04); 0, which is no instruction, for a step
that has no word. -/
def encode : Instr → BitVec 32
  | .add d a b => pack 0x04000000 [(d.toNat, 20), (a.toNat, 14), (b.toNat, 8)]
  | .sub d a b => pack 0x04000001 [(d.toNat, 20), (a.toNat, 14), (b.toNat, 8)]
  | .and d a b => pack 0x04000002 [(d.toNat, 20), (a.toNat, 14), (b.toNat, 8)]
  | .or d a b => pack 0x04000003 [(d.toNat, 20), (a.toNat, 14), (b.toNat, 8)]
  | .xor d a b => pack 0x04000004 [(d.toNat, 20), (a.toNat, 14), (b.toNat, 8)]
  | .andn d a b => pack 0x04000005 [(d.toNat, 20), (a.toNat, 14), (b.toNat, 8)]
  | .orn d a b => pack 0x04000006 [(d.toNat, 20), (a.toNat, 14), (b.toNat, 8)]
  | .shl d a b => pack 0x04000007 [(d.toNat, 20), (a.toNat, 14), (b.toNat, 8)]
  | .shr d a b => pack 0x04000008 [(d.toNat, 20), (a.toNat, 14), (b.toNat, 8)]
  | .sra d a b => pack 0x04000009 [(d.toNat, 20), (a.toNat, 14), (b.toNat, 8)]
  | .slt d a b => pack 0x0400000A [(d.toNat, 20), (a.toNat, 14), (b.toNat, 8)]
  | .sltn d a b => pack 0x0400000B [(d.toNat, 20), (a.toNat, 14), (b.toNat, 8)]
  | .seq d a b => pack 0x0400000C [(d.toNat, 20), (a.toNat, 14), (b.toNat, 8)]
  | .sne d a b => pack 0x0400000D [(d.toNat, 20), (a.toNat, 14), (b.toNat, 8)]
  | .min d a b => pack 0x0400000E [(d.toNat, 20), (a.toNat, 14), (b.toNat, 8)]
  | .max d a b => pack 0x0400000F [(d.toNat, 20), (a.toNat, 14), (b.toNat, 8)]
  | .minn d a b => pack 0x04000010 [(d.toNat, 20), (a.toNat, 14), (b.toNat, 8)]
  | .maxn d a b => pack 0x04000011 [(d.toNat, 20), (a.toNat, 14), (b.toNat, 8)]
  | .mul d a b => pack 0x04000012 [(d.toNat, 20), (a.toNat, 14), (b.toNat, 8)]
  | .mulh d a b => pack 0x04000013 [(d.toNat, 20), (a.toNat, 14), (b.toNat, 8)]
  | .mulhn d a b => pack 0x04000014 [(d.toNat, 20), (a.toNat, 14), (b.toNat, 8)]
  | .div d a b => pack 0x04000015 [(d.toNat, 20), (a.toNat, 14), (b.toNat, 8)]
  | .divn d a b => pack 0x04000016 [(d.toNat, 20), (a.toNat, 14), (b.toNat, 8)]
  | .rem d a b => pack 0x04000017 [(d.toNat, 20), (a.toNat, 14), (b.toNat, 8)]
  | .remn d a b => pack 0x04000018 [(d.toNat, 20), (a.toNat, 14), (b.toNat, 8)]
  | .clz d a => pack 0x04000019 [(d.toNat, 20), (a.toNat, 14)]
  | .ctz d a => pack 0x0400001A [(d.toNat, 20), (a.toNat, 14)]
  | .pop d a => pack 0x0400001B [(d.toNat, 20), (a.toNat, 14)]
  | .padd d a b => pack 0x0400001C [(d.toNat, 20), (a.toNat, 14), (b.toNat, 8)]
  | .planeOf d a b => pack 0x0400001D [(d.toNat, 20), (a.toNat, 14), (b.toNat, 8)]
  | .pathOf d a b => pack 0x0400001E [(d.toNat, 20), (a.toNat, 14), (b.toNat, 8)]
  | .addi d a imm => pack 0x08000000 [(d.toNat, 20), (a.toNat, 14), (imm.toNat, 0)]
  | .andi d a imm => pack 0x0C000000 [(d.toNat, 20), (a.toNat, 14), (imm.toNat, 0)]
  | .ori d a imm => pack 0x10000000 [(d.toNat, 20), (a.toNat, 14), (imm.toNat, 0)]
  | .xori d a imm => pack 0x14000000 [(d.toNat, 20), (a.toNat, 14), (imm.toNat, 0)]
  | .shli d a imm => pack 0x18000000 [(d.toNat, 20), (a.toNat, 14), (imm.toNat, 0)]
  | .shri d a imm => pack 0x1C000000 [(d.toNat, 20), (a.toNat, 14), (imm.toNat, 0)]
  | .srai d a imm => pack 0x20000000 [(d.toNat, 20), (a.toNat, 14), (imm.toNat, 0)]
  | .slti d a imm => pack 0x24000000 [(d.toNat, 20), (a.toNat, 14), (imm.toNat, 0)]
  | .sltni d a imm => pack 0x28000000 [(d.toNat, 20), (a.toNat, 14), (imm.toNat, 0)]
  | .paddi d a imm => pack 0x2C000000 [(d.toNat, 20), (a.toNat, 14), (imm.toNat, 0)]
  | .planei d a imm => pack 0x30000000 [(d.toNat, 20), (a.toNat, 14), (imm.toNat, 0)]
  | .hi d imm => pack 0x34000000 [(d.toNat, 20), (imm.toNat, 0)]
  | .top d imm => pack 0x38000000 [(d.toNat, 20), (imm.toNat, 0)]
  | .pcrel d imm => pack 0x3C000000 [(d.toNat, 20), (imm.toNat, 0)]
  | .beq a b off => pack 0x40000000 [(a.toNat, 20), (b.toNat, 14), (off.toNat, 0)]
  | .bne a b off => pack 0x44000000 [(a.toNat, 20), (b.toNat, 14), (off.toNat, 0)]
  | .blt a b off => pack 0x48000000 [(a.toNat, 20), (b.toNat, 14), (off.toNat, 0)]
  | .bge a b off => pack 0x4C000000 [(a.toNat, 20), (b.toNat, 14), (off.toNat, 0)]
  | .bltn a b off => pack 0x50000000 [(a.toNat, 20), (b.toNat, 14), (off.toNat, 0)]
  | .bgen a b off => pack 0x54000000 [(a.toNat, 20), (b.toNat, 14), (off.toNat, 0)]
  | .jal d off => pack 0x58000000 [(d.toNat, 20), (off.toNat, 0)]
  | .jalr d a imm => pack 0x5C000000 [(d.toNat, 20), (a.toNat, 14), (imm.toNat, 0)]
  | .ld d a sz off => pack 0x60000000 [(d.toNat, 20), (a.toNat, 14), (sz.toNat, 11), (off.toNat, 0)]
  | .st d a sz off => pack 0x64000000 [(d.toNat, 20), (a.toNat, 14), (sz.toNat, 11), (off.toNat, 0)]
  | .rst d a b f => pack 0x68000000 [(d.toNat, 20), (a.toNat, 14), (b.toNat, 8), (f.toNat, 0)]
  | .amo d a b slot => pack 0x6C000000 [(d.toNat, 20), (a.toNat, 14), (b.toNat, 8), (slot.toNat, 0)]
  | .amoPosted a b slot => pack 0x6C000020 [(a.toNat, 14), (b.toNat, 8), (slot.toNat, 0)]
  | .waita d a b f => pack 0x70000000 [(d.toNat, 20), (a.toNat, 14), (b.toNat, 8), (f.toNat, 0)]
  | .fence sub sc => pack 0x74000000 [(sub.toNat, 4), (sc.toNat, 0)]
  | .acq d a sc => pack 0x78000000 [(d.toNat, 20), (a.toNat, 14), (sc.toNat, 0)]
  | .rel a b sc => pack 0x7C000000 [(a.toNat, 14), (b.toNat, 8), (sc.toNat, 0)]
  | .relAdd a b sc => pack 0x7C000010 [(a.toNat, 14), (b.toNat, 8), (sc.toNat, 0)]
  | .bind d a slot => pack 0x80000000 [(d.toNat, 20), (a.toNat, 14), (slot.toNat, 0)]
  | .unbind d a slot => pack 0x80000010 [(d.toNat, 20), (a.toNat, 14), (slot.toNat, 0)]
  | .tkWait m => pack 0x84000000 [(m.toNat, 0)]
  | .tkGive m => pack 0x84000010 [(m.toNat, 0)]
  | .kw d clear mask => pack 0x88000000 [(d.toNat, 20), (clear.toNat, 8), (mask.toNat, 0)]
  | .barArrive d a b sc => pack 0x8C000000 [(d.toNat, 20), (a.toNat, 14), (b.toNat, 8), (sc.toNat, 0)]
  | .barWait d a b sc => pack 0x8C000010 [(d.toNat, 20), (a.toNat, 14), (b.toNat, 8), (sc.toNat, 0)]
  | .barSync d a b sc => pack 0x8C000020 [(d.toNat, 20), (a.toNat, 14), (b.toNat, 8), (sc.toNat, 0)]
  | .barInit d a b sc => pack 0x8C000030 [(d.toNat, 20), (a.toNat, 14), (b.toNat, 8), (sc.toNat, 0)]
  | .barFlags d a b sc => pack 0x8C000040 [(d.toNat, 20), (a.toNat, 14), (b.toNat, 8), (sc.toNat, 0)]
  | .barTest1 d a b sc => pack 0x8C000050 [(d.toNat, 20), (a.toNat, 14), (b.toNat, 8), (sc.toNat, 0)]
  | .qmPost m => pack 0x90000000 [(m.toNat, 0)]
  | .qmWait => pack 0x90000010 []
  | .launch d a => pack 0x94000000 [(d.toNat, 20), (a.toNat, 14)]
  | .stBase q a b => pack 0x98000000 [(q.toNat, 20), (a.toNat, 14), (b.toNat, 8)]
  | .stLay q a => pack 0x98000001 [(q.toNat, 20), (a.toNat, 14)]
  | .stFmt q a => pack 0x98000002 [(q.toNat, 20), (a.toNat, 14)]
  | .stScl q a => pack 0x98000003 [(q.toNat, 20), (a.toNat, 14)]
  | .stFlag q a => pack 0x98000004 [(q.toNat, 20), (a.toNat, 14)]
  | .stLink q b => pack 0x98000005 [(q.toNat, 20), (b.toNat, 8)]
  | .stPos q a => pack 0x98000006 [(q.toNat, 20), (a.toNat, 14)]
  | .stFill q a => pack 0x98000007 [(q.toNat, 20), (a.toNat, 14)]
  | .rtset r a => pack 0x9C000000 [(r.toNat, 20), (a.toNat, 14)]
  | .xset x a => pack 0xA0000000 [(x.toNat, 20), (a.toNat, 14)]
  | .sget d sys => pack 0xA4000000 [(d.toNat, 20), (sys.toNat, 2)]
  | .sset a sys => pack 0xA8000000 [(a.toNat, 14), (sys.toNat, 2)]
  | .trap imm => pack 0xAC000000 [(imm.toNat, 0)]
  | .eret => pack 0xB0000000 []
  | .seal a b => pack 0xB4000000 [(a.toNat, 14), (b.toNat, 8)]
  | .unseal a b => pack 0xB4000001 [(a.toNat, 14), (b.toNat, 8)]
  | .tlbiAll => pack 0xB8000000 []
  | .tlbiTenant a => pack 0xB8000001 [(a.toNat, 14)]
  | .tlbiPositionPage a => pack 0xB8000002 [(a.toNat, 14)]
  | .tlbiPlaneFrame a => pack 0xB8000003 [(a.toNat, 14)]
  | .yield => pack 0xBC000000 []
  | .endS => pack 0xC0000000 []
  | .vadd d a b m nf ty => pack 0x04000000 [(d.toNat, 20), (a.toNat, 14), (b.toNat, 8), (m.toNat, 5), (nf.toNat, 4), (ty.toNat, 0)]
  | .vsub d a b m nf ty => pack 0x08000000 [(d.toNat, 20), (a.toNat, 14), (b.toNat, 8), (m.toNat, 5), (nf.toNat, 4), (ty.toNat, 0)]
  | .vmul d a b m nf ty => pack 0x0C000000 [(d.toNat, 20), (a.toNat, 14), (b.toNat, 8), (m.toNat, 5), (nf.toNat, 4), (ty.toNat, 0)]
  | .vfma d a b m nf ty => pack 0x10000000 [(d.toNat, 20), (a.toNat, 14), (b.toNat, 8), (m.toNat, 5), (nf.toNat, 4), (ty.toNat, 0)]
  | .vfms d a b m nf ty => pack 0x14000000 [(d.toNat, 20), (a.toNat, 14), (b.toNat, 8), (m.toNat, 5), (nf.toNat, 4), (ty.toNat, 0)]
  | .vnfma d a b m nf ty => pack 0x18000000 [(d.toNat, 20), (a.toNat, 14), (b.toNat, 8), (m.toNat, 5), (nf.toNat, 4), (ty.toNat, 0)]
  | .vmin d a b m nf ty => pack 0x1C000000 [(d.toNat, 20), (a.toNat, 14), (b.toNat, 8), (m.toNat, 5), (nf.toNat, 4), (ty.toNat, 0)]
  | .vmax d a b m nf ty => pack 0x20000000 [(d.toNat, 20), (a.toNat, 14), (b.toNat, 8), (m.toNat, 5), (nf.toNat, 4), (ty.toNat, 0)]
  | .vdiv d a b m nf ty => pack 0x24000000 [(d.toNat, 20), (a.toNat, 14), (b.toNat, 8), (m.toNat, 5), (nf.toNat, 4), (ty.toNat, 0)]
  | .vsqrt d a m nf ty => pack 0x28000000 [(d.toNat, 20), (a.toNat, 14), (m.toNat, 5), (nf.toNat, 4), (ty.toNat, 0)]
  | .vabs d a m nf ty => pack 0x2C000000 [(d.toNat, 20), (a.toNat, 14), (m.toNat, 5), (nf.toNat, 4), (ty.toNat, 0)]
  | .vneg d a m nf ty => pack 0x30000000 [(d.toNat, 20), (a.toNat, 14), (m.toNat, 5), (nf.toNat, 4), (ty.toNat, 0)]
  | .vrnd d a m nf ty => pack 0x34000000 [(d.toNat, 20), (a.toNat, 14), (m.toNat, 5), (nf.toNat, 4), (ty.toNat, 0)]
  | .viadd d a b m ty => pack 0x40000000 [(d.toNat, 20), (a.toNat, 14), (b.toNat, 8), (m.toNat, 5), (ty.toNat, 0)]
  | .visub d a b m ty => pack 0x44000000 [(d.toNat, 20), (a.toNat, 14), (b.toNat, 8), (m.toNat, 5), (ty.toNat, 0)]
  | .vimul d a b m ty => pack 0x48000000 [(d.toNat, 20), (a.toNat, 14), (b.toNat, 8), (m.toNat, 5), (ty.toNat, 0)]
  | .vimulh d a b m ty => pack 0x4C000000 [(d.toNat, 20), (a.toNat, 14), (b.toNat, 8), (m.toNat, 5), (ty.toNat, 0)]
  | .vand d a b m ty => pack 0x50000000 [(d.toNat, 20), (a.toNat, 14), (b.toNat, 8), (m.toNat, 5), (ty.toNat, 0)]
  | .vor d a b m ty => pack 0x54000000 [(d.toNat, 20), (a.toNat, 14), (b.toNat, 8), (m.toNat, 5), (ty.toNat, 0)]
  | .vxor d a b m ty => pack 0x58000000 [(d.toNat, 20), (a.toNat, 14), (b.toNat, 8), (m.toNat, 5), (ty.toNat, 0)]
  | .vshl d a b m ty => pack 0x5C000000 [(d.toNat, 20), (a.toNat, 14), (b.toNat, 8), (m.toNat, 5), (ty.toNat, 0)]
  | .vshr d a b m ty => pack 0x60000000 [(d.toNat, 20), (a.toNat, 14), (b.toNat, 8), (m.toNat, 5), (ty.toNat, 0)]
  | .vsra d a b m ty => pack 0x64000000 [(d.toNat, 20), (a.toNat, 14), (b.toNat, 8), (m.toNat, 5), (ty.toNat, 0)]
  | .vimin d a b m ty => pack 0x68000000 [(d.toNat, 20), (a.toNat, 14), (b.toNat, 8), (m.toNat, 5), (ty.toNat, 0)]
  | .vimax d a b m ty => pack 0x6C000000 [(d.toNat, 20), (a.toNat, 14), (b.toNat, 8), (m.toNat, 5), (ty.toNat, 0)]
  | .viabs d a m ty => pack 0x70000000 [(d.toNat, 20), (a.toNat, 14), (m.toNat, 5), (ty.toNat, 0)]
  | .vcmp md pr a b m nf ty => pack 0x78000000 [(md.toNat, 23), (pr.toNat, 20), (a.toNat, 14), (b.toNat, 8), (m.toNat, 5), (nf.toNat, 4), (ty.toNat, 0)]
  | .vcvt d a target sat m nf ty => pack 0x7C000000 [(d.toNat, 20), (a.toNat, 14), (target.toNat, 10), (sat.toNat, 9), (m.toNat, 5), (nf.toNat, 4), (ty.toNat, 0)]
  | .vcbe d a cb m nf ty => pack 0x80000000 [(d.toNat, 20), (a.toNat, 14), (cb.toNat, 11), (m.toNat, 5), (nf.toNat, 4), (ty.toNat, 0)]
  | .vcbd d a cb m ty => pack 0x84000000 [(d.toNat, 20), (a.toNat, 14), (cb.toNat, 11), (m.toNat, 5), (ty.toNat, 0)]
  | .vmov d a m ty => pack 0x90000000 [(d.toNat, 20), (a.toNat, 14), (m.toNat, 5), (ty.toNat, 0)]
  | .vsel d a b m ty => pack 0x94000000 [(d.toNat, 20), (a.toNat, 14), (b.toNat, 8), (m.toNat, 5), (ty.toNat, 0)]
  | .vperm d a b m ty => pack 0x98000000 [(d.toNat, 20), (a.toNat, 14), (b.toNat, 8), (m.toNat, 5), (ty.toNat, 0)]
  | .vrot d a imm => pack 0x9C000000 [(d.toNat, 20), (a.toNat, 14), (imm.toNat, 0)]
  | .vbcl d a imm => pack 0xA0000000 [(d.toNat, 20), (a.toNat, 14), (imm.toNat, 0)]
  | .vbcx d x => pack 0xA4000000 [(d.toNat, 20), (x.toNat, 0)]
  | .vred d a op m nf ty => pack 0xA8000000 [(d.toNat, 20), (a.toNat, 14), (op.toNat, 8), (m.toNat, 5), (nf.toNat, 4), (ty.toNat, 0)]
  | .vidx d m ty => pack 0xAC000000 [(d.toNat, 20), (m.toNat, 5), (ty.toNat, 0)]
  | .vimm d ty v => pack 0xB0000000 [(d.toNat, 20), (ty.toNat, 10), (v.toNat, 0)]
  | .mopsAnd d a b => pack 0xB8000000 [(d.toNat, 20), (a.toNat, 14), (b.toNat, 8)]
  | .mopsOr d a b => pack 0xB8000001 [(d.toNat, 20), (a.toNat, 14), (b.toNat, 8)]
  | .mopsXor d a b => pack 0xB8000002 [(d.toNat, 20), (a.toNat, 14), (b.toNat, 8)]
  | .mopsAndn d a b => pack 0xB8000003 [(d.toNat, 20), (a.toNat, 14), (b.toNat, 8)]
  | .mopsNot d a => pack 0xB8000004 [(d.toNat, 20), (a.toNat, 14)]
  | .mopsFirstn d a => pack 0xB8000005 [(d.toNat, 20), (a.toNat, 14)]
  | .mopsOnes d => pack 0xB8000006 [(d.toNat, 20)]
  | .vld d q adv m ty => pack 0xC0000000 [(d.toNat, 20), (q.toNat, 16), (adv.toNat, 14), (m.toNat, 5), (ty.toNat, 0)]
  | .vst d q adv m ty => pack 0xC4000000 [(d.toNat, 20), (q.toNat, 16), (adv.toNat, 14), (m.toNat, 5), (ty.toNat, 0)]
  | .vgth d q adv b m ty => pack 0xC8000000 [(d.toNat, 20), (q.toNat, 16), (adv.toNat, 14), (b.toNat, 8), (m.toNat, 5), (ty.toNat, 0)]
  | .vsct d q adv b m ty => pack 0xCC000000 [(d.toNat, 20), (q.toNat, 16), (adv.toNat, 14), (b.toNat, 8), (m.toNat, 5), (ty.toNat, 0)]
  | .vrst d q adv m ty => pack 0xD0000000 [(d.toNat, 20), (q.toNat, 16), (adv.toNat, 14), (m.toNat, 5), (ty.toNat, 0)]
  | .vtld d a r => pack 0xD8000000 [(d.toNat, 20), (a.toNat, 14), (r.toNat, 0)]
  | .vtst d a r => pack 0xDC000000 [(d.toNat, 20), (a.toNat, 14), (r.toNat, 0)]
  | .vflGet d m => pack 0xE0000000 [(d.toNat, 20), (m.toNat, 5)]
  | .vflClear m => pack 0xE0000001 [(m.toNat, 5)]
  | .vflCollect m => pack 0xE0000002 [(m.toNat, 5)]
  | .vtkWait e => pack 0xE4000000 [(e.toNat, 0)]
  | .vtkGive e => pack 0xE4000010 [(e.toNat, 0)]
  | .vrgn e => pack 0xE8000000 [(e.toNat, 0)]
  | .vpark d e => pack 0xEC000000 [(d.toNat, 20), (e.toNat, 0)]
  | .vunpark d e => pack 0xF0000000 [(d.toNat, 20), (e.toNat, 0)]
  | .vend => pack 0xF4000000 []
  | .mma qa qb acc mode w g ks => pack 0x04000000 [(qa.toNat, 22), (qb.toNat, 18), (acc.toNat, 14), (mode.toNat, 12), (w.toNat, 9), (g.toNat, 6), (ks.toNat, 0)]
  | .mzero a w g => pack 0x08000000 [(a.toNat, 18), (w.toNat, 9), (g.toNat, 6)]
  | .mdrain acc qd ep w g => pack 0x0C000000 [(acc.toNat, 22), (qd.toNat, 18), (ep.toNat, 14), (w.toNat, 9), (g.toNat, 6)]
  | .mdrr acc rt ep fl w g => pack 0x10000000 [(acc.toNat, 22), (rt.toNat, 18), (ep.toNat, 14), (fl.toNat, 12), (w.toNat, 9), (g.toNat, 6)]
  | .mleaseGet w g => pack 0x14000000 [(w.toNat, 9), (g.toNat, 6)]
  | .mleaseRelease w g => pack 0x14400000 [(w.toNat, 9), (g.toNat, 6)]
  | .mleaseRenew w g => pack 0x14800000 [(w.toNat, 9), (g.toNat, 6)]
  | .mcbl a b w g => pack 0x18000000 [(a.toNat, 18), (b.toNat, 14), (w.toNat, 9), (g.toNat, 6)]
  | .mepi a b w g => pack 0x1C000000 [(a.toNat, 18), (b.toNat, 14), (w.toNat, 9), (g.toNat, 6)]
  | .macc a b w g => pack 0x20000000 [(a.toNat, 18), (b.toNat, 14), (w.toNat, 9), (g.toNat, 6)]
  | .mtk w g => pack 0x24000000 [(w.toNat, 9), (g.toNat, 6)]
  | .mend => pack 0x28000000 []
  | .cp qs qd kr kv w g sc => pack 0x04000000 [(qs.toNat, 22), (qd.toNat, 18), (kr.toNat, 15), (kv.toNat, 12), (w.toNat, 9), (g.toNat, 6), (sc.toNat, 3)]
  | .cpConvert qs qd kr kv w g sc => pack 0x04000001 [(qs.toNat, 22), (qd.toNat, 18), (kr.toNat, 15), (kv.toNat, 12), (w.toNat, 9), (g.toNat, 6), (sc.toNat, 3)]
  | .cpadd qs qd kr kv w g sc fn => pack 0x08000000 [(qs.toNat, 22), (qd.toNat, 18), (kr.toNat, 15), (kv.toNat, 12), (w.toNat, 9), (g.toNat, 6), (sc.toNat, 3), (fn.toNat, 0)]
  | .cpg qs qd kr kv w g sc => pack 0x0C000000 [(qs.toNat, 22), (qd.toNat, 18), (kr.toNat, 15), (kv.toNat, 12), (w.toNat, 9), (g.toNat, 6), (sc.toNat, 3)]
  | .cps qs qd kr kv w g sc => pack 0x10000000 [(qs.toNat, 22), (qd.toNat, 18), (kr.toNat, 15), (kv.toNat, 12), (w.toNat, 9), (g.toNat, 6), (sc.toNat, 3)]
  | .cpz qd kv w g sc fn => pack 0x14000000 [(qd.toNat, 18), (kv.toNat, 12), (w.toNat, 9), (g.toNat, 6), (sc.toNat, 3), (fn.toNat, 0)]
  | .cpf qs qd kr kv w g sc => pack 0x18000000 [(qs.toNat, 22), (qd.toNat, 18), (kr.toNat, 15), (kv.toNat, 12), (w.toNat, 9), (g.toNat, 6), (sc.toNat, 3)]
  | .cpre qs qd kr kv w g sc => pack 0x1C000000 [(qs.toNat, 22), (qd.toNat, 18), (kr.toNat, 15), (kv.toNat, 12), (w.toNat, 9), (g.toNat, 6), (sc.toNat, 3)]
  | .ctile t state w g => pack 0x20000000 [(t.toNat, 20), (state.toNat, 18), (w.toNat, 9), (g.toNat, 6)]
  | .chl qs qd kr kv w g => pack 0x24000000 [(qs.toNat, 22), (qd.toNat, 18), (kr.toNat, 15), (kv.toNat, 12), (w.toNat, 9), (g.toNat, 6)]
  | .cpost qs kr kv w g => pack 0x28000000 [(qs.toNat, 22), (kr.toNat, 15), (kv.toNat, 12), (w.toNat, 9), (g.toNat, 6)]
  | .cabort qs kv w g => pack 0x2C000000 [(qs.toNat, 22), (kv.toNat, 12), (w.toNat, 9), (g.toNat, 6)]
  | .cmig qs qd kr kv w g => pack 0x30000000 [(qs.toNat, 22), (qd.toNat, 18), (kr.toNat, 15), (kv.toNat, 12), (w.toNat, 9), (g.toNat, 6)]
  | .ckey qs qd kr kv w g => pack 0x34000000 [(qs.toNat, 22), (qd.toNat, 18), (kr.toNat, 15), (kv.toNat, 12), (w.toNat, 9), (g.toNat, 6)]
  | .ctk w g => pack 0x38000000 [(w.toNat, 9), (g.toNat, 6)]
  | .cend => pack 0x3C000000 []
  | .atomic _ => 0
  | .memoryRequest _ => 0
  | .response _ => 0
  | .writeAck _ => 0
  | .postedRefusal _ => 0
  | .instructionFinish _ _ _ => 0
  | .mmaSlice _ _ => 0
  | .leaseIdle _ => 0
  | .copyChunk _ _ _ _ => 0
  | .copyReadsPerformed _ _ _ => 0
  | .copyWritesPerformed _ _ _ => 0
  | .vectorResultLand _ _ => 0
  | .monitorWake _ _ => 0
  | .waitaTimeout _ _ => 0
  | .phaseEnd _ _ => 0
  | .barrierArrival _ => 0
  | .swapOnWait _ _ => 0
  | .watchdog _ _ => 0
  | .launchHandover _ => 0
  | .scoreboardExamine _ => 0
  | .dependenceMet _ _ _ _ => 0
  | .staging _ _ => 0
  | .aging _ => 0
  | .place => 0
  | .taskSave _ _ => 0
  | .restore _ => 0
  | .taskRetire _ _ => 0
  | .shadowDone _ => 0
  | .coreAcknowledge _ _ => 0
  | .migrationChunk _ => 0
  | .migrationStable _ => 0
  | .handlerSlotLoad _ _ _ => 0
  | .collectivePost _ => 0
  | .ticketIssue _ => 0
  | .ticketArrival _ => 0
  | .ticketStart => 0
  | .chunkArrival _ => 0
  | .chunkResend _ => 0
  | .walkerTransfer _ => 0
  | .localComplete _ => 0
  | .commit _ => 0
  | .abortRequest _ => 0
  | .abortArrival _ => 0
  | .chainPacket _ => 0
  | .chainReturn _ => 0
  | .flitTransmit _ _ _ _ => 0
  | .flitReceive _ _ => 0
  | .retryRequest _ _ => 0
  | .rekeyat _ => 0
  | .rampInterval _ => 0
  | .powerTick _ _ _ => 0
  | .scrub _ _ => 0
  | .reset => 0
  | .lpddrReady _ => 0
  | .boot => 0
  | .hostRegisterWrite _ _ => 0
  | .hostRequest _ _ _ _ _ => 0
  | .coreWave => 0
  | .gddrTrained _ => 0
  | .leasemax _ _ => 0
  | .rampcfg _ _ => 0
  | .tflags _ _ _ _ => 0
  | .frame _ _ _ => 0
  | .tenant _ _ _ _ _ _ => 0
  | .window _ _ _ _ _ _ => 0
  | .barrier _ _ _ _ _ _ => 0
  | .monitors _ _ => 0
  | .slot _ _ _ => 0
  | .portStatus _ _ => 0
  | .portRekeyat _ _ _ => 0
  | .portKeySwitch _ _ => 0
  | .portBringUp _ _ => 0
  | .watchdogLimit _ _ => 0
  | .errors _ _ => 0
  | .power _ _ => 0
  | .attest _ _ => 0
  | .fuse _ => 0
  | .domain _ _ _ _ _ _ => 0
  | .illegalWord _ _ => 0
  | .fetchFault _ => 0
  | .verification => 0
  | .taskEnded _ => 0

/-- The bytes of a word as they lie in memory, the lowest address first (R2, R64). -/
def wordBytes (w : BitVec 32) : List (BitVec 8) :=
  [w.extractLsb' 0 8, w.extractLsb' 8 8, w.extractLsb' 16 8, w.extractLsb' 24 8]

/-- The word of four bytes, the lowest address first (R2, R64). -/
def bytesWord (b0 b1 b2 b3 : BitVec 8) : BitVec 32 :=
  BitVec.ofNat 32 (b0.toNat + b1.toNat * 2 ^ 8 + b2.toNat * 2 ^ 16 + b3.toNat * 2 ^ 24)

/-- The engines in the order in which `decodeTableWord` asks them. -/
def engineOrder : List Engine := [.s, .v, .m, .c]

/-- The first engine whose map makes the word an instruction, with that instruction. -/
def decodeAny (w : BitVec 32) : Option (Engine × Instr) :=
  engineOrder.findSome? fun e =>
    match decode e w with
    | .ok i => some (e, i)
    | _ => none

/-- The instruction of the word whose bits spec/opcode_table.json numbers as `w`: the four bytes as they lie in
memory, put together again and decoded.  One word may be an instruction of several engines (each has its own map,
R66); the first of S, V, M, C that takes it is answered (log 5). -/
def decodeTableWord (_nbits w : Nat) : Option Instr :=
  match wordBytes (BitVec.ofNat 32 w) with
  | [b0, b1, b2, b3] => (decodeAny (bytesWord b0 b1 b2 b3)).map Prod.snd
  | _ => none

end Sys2Proof
end

