-- ==== Sys2Proof/Machine/Float.lean ====
section
/-!
DEFINITION. Exact values, the float and narrow formats, rounding, and the float operations with the flags they raise
(R5, R7 to R9, R150 to R157, R199 to R205).  A flag set is five bits in the order of TFLAGS (R143): invalid 0,
divzero 1, overflow 2, underflow 3, inexact 4.
-/

namespace Sys2Proof.Machine

/-- A value: NaN, an infinity, or the exact number `num / den` with a sign (R5).  A zero has `num = 0` and keeps its
sign; `den` is never 0. -/
inductive FVal where
  | nan
  | inf (neg : Bool)
  | fin (neg : Bool) (num den : Nat)
  deriving DecidableEq, Repr, Inhabited

/-- Flags of one lane (R159). -/
abbrev LFlags := BitVec 5

def fInvalid : LFlags := 1
def fDivzero : LFlags := 2
def fOverflow : LFlags := 4
def fUnderflow : LFlags := 8
def fInexact : LFlags := 16

/-- The rounding modes of VCTL (R152). -/
inductive Mode where
  | rne | rtz | rdn | rup
  deriving DecidableEq, Repr, Inhabited

/-- The mode of VCTL[1:0] (R152). -/
def Mode.ofBits (b : BitVec 2) : Mode :=
  match b.toNat with
  | 0 => .rne
  | 1 => .rtz
  | 2 => .rdn
  | _ => .rup

/-- A float format: width, fraction bits, exponent bits, bias, and whether it is E4M3, which has no infinities and one
NaN magnitude (R150, R199). -/
structure FFmt where
  width : Nat
  frac : Nat
  exp : Nat
  bias : Nat
  e4m3 : Bool
  deriving DecidableEq, Repr, Inhabited

def fmtF32 : FFmt := ⟨32, 23, 8, 127, false⟩
def fmtBF16 : FFmt := ⟨16, 7, 8, 127, false⟩
def fmtF16 : FFmt := ⟨16, 10, 5, 15, false⟩
def fmtE4M3 : FFmt := ⟨8, 3, 4, 7, true⟩
def fmtE5M2 : FFmt := ⟨8, 2, 5, 15, false⟩

/-- The float format of a format code (R44). -/
def floatFmt (code : Nat) : Option FFmt :=
  match code with
  | 0 => some fmtF32
  | 1 => some fmtBF16
  | 2 => some fmtF16
  | 3 => some fmtE4M3
  | 4 => some fmtE5M2
  | _ => none

/-- The element width of a format code (R44, R52). -/
def fmtWidth (code : Nat) : Nat :=
  match code with
  | 0 => 32
  | 1 => 16
  | 2 => 16
  | 3 => 8
  | 4 => 8
  | 5 => 4
  | 6 => 8
  | 7 => 8
  | 8 => 16
  | 9 => 16
  | 10 => 32
  | 11 => 32
  | 12 => 8
  | 13 => 1
  | 14 => 64
  | _ => 0

/-- Width and signedness of an integer format code (R44): I8, N8, I16, N16, I32, N32, I64. -/
def intFmt (code : Nat) : Option (Nat × Bool) :=
  match code with
  | 6 => some (8, true)
  | 7 => some (8, false)
  | 8 => some (16, true)
  | 9 => some (16, false)
  | 10 => some (32, true)
  | 11 => some (32, false)
  | 14 => some (64, true)
  | _ => none

/-- `n * 2 ^ e` as a fraction. -/
def scaled (neg : Bool) (n : Nat) (e : Int) : FVal :=
  if 0 ≤ e then .fin neg (n * 2 ^ e.toNat) 1 else .fin neg n (2 ^ (-e).toNat)

/-- The value of the bits of a float element (R150, R199). -/
def decodeFloat (f : FFmt) (bits : Nat) : FVal :=
  let frac := bits % 2 ^ f.frac
  let e := bits / 2 ^ f.frac % 2 ^ f.exp
  let neg := bits / 2 ^ (f.frac + f.exp) % 2 == 1
  if e == 2 ^ f.exp - 1 && !f.e4m3 then (if frac == 0 then .inf neg else .nan)
  else if f.e4m3 && e == 2 ^ f.exp - 1 && frac == 2 ^ f.frac - 1 then .nan
  else if e == 0 then scaled neg frac (1 - (f.bias : Int) - f.frac)
  else scaled neg (2 ^ f.frac + frac) ((e : Int) - f.bias - f.frac)

/-- Whether the bits hold a non-zero subnormal (R150, R199). -/
def isSubnormal (f : FFmt) (bits : Nat) : Bool :=
  bits / 2 ^ f.frac % 2 ^ f.exp == 0 && bits % 2 ^ f.frac != 0

/-- The canonical NaN of a format (R6). -/
def canonNaN (f : FFmt) : Nat :=
  if f.e4m3 then 0x7F else (2 ^ f.exp - 1) * 2 ^ f.frac + 2 ^ (f.frac - 1)

/-- The sign bit of a format, when negative. -/
def signBit (f : FFmt) (neg : Bool) : Nat := if neg then 2 ^ (f.width - 1) else 0

/-- The largest finite magnitude's bits (R150, R200). -/
def maxFinite (f : FFmt) : Nat :=
  if f.e4m3 then 0x7E else (2 ^ f.exp - 1) * 2 ^ f.frac - 1

/-- The infinity of a sign, which is the canonical NaN in E4M3 (R7). -/
def infBits (f : FFmt) (neg : Bool) : Nat :=
  if f.e4m3 then canonNaN f else signBit f neg + (2 ^ f.exp - 1) * 2 ^ f.frac

/-- The largest `k` with `2 ^ k ≤ num / den`, for a positive fraction. -/
def ilog2 (num den : Nat) : Int :=
  let k : Int := (Nat.log2 num : Int) - Nat.log2 den
  let fits := if 0 ≤ k then decide (den * 2 ^ k.toNat ≤ num) else decide (den ≤ num * 2 ^ (-k).toNat)
  if fits then k else k - 1

/-- Quotient, remainder and divisor of `(num / den) / 2 ^ q`. -/
def quantize (num den : Nat) (q : Int) : Nat × Nat × Nat :=
  if 0 ≤ q then
    let d := den * 2 ^ q.toNat
    (num / d, num % d, d)
  else
    let n := num * 2 ^ (-q).toNat
    (n / den, n % den, den)

/-- Whether a quotient with this remainder is rounded up in magnitude (R7, R152). -/
def roundsUp (mode : Mode) (neg : Bool) (quo rem div : Nat) : Bool :=
  match mode with
  | .rne => decide (div < 2 * rem) || (decide (2 * rem = div) && quo % 2 == 1)
  | .rtz => false
  | .rdn => neg && rem != 0
  | .rup => !neg && rem != 0

/-- The result of a rounding: the bits, the flags of R155, and whether it overflowed. -/
structure Rounded where
  bits : Nat
  flags : LFlags
  ovf : Bool
  deriving DecidableEq, Repr, Inhabited

/-- A finite value rounded to a format (R7, R152, R155).  `sat` replaces an overflow by the largest finite value. -/
def roundFinite (f : FFmt) (mode : Mode) (sat : Bool) (neg : Bool) (num den : Nat) : Rounded :=
  if num == 0 then ⟨signBit f neg, 0, false⟩
  else
    let emin : Int := 1 - (f.bias : Int)
    let e := ilog2 num den
    let q : Int := (if e < emin then emin else e) - f.frac
    let (quo, rem, div) := quantize num den q
    let n := if roundsUp mode neg quo rem div then quo + 1 else quo
    -- the bits of n * 2 ^ q: the exponent field counts quanta above the smallest
    let mag := ((q + f.frac - emin).toNat) * 2 ^ f.frac + n
    let inexact := rem != 0
    if maxFinite f < mag then
      let toMax := sat || (match mode with | .rne => false | .rtz => true | .rdn => !neg | .rup => neg)
      ⟨if toMax then signBit f neg + maxFinite f else infBits f neg, fOverflow ||| fInexact, true⟩
    else
      let tiny := decide (e < emin)
      ⟨signBit f neg + mag, (if inexact then fInexact else 0) ||| (if tiny && inexact then fUnderflow else 0), false⟩

/-- Any value rounded to a format; a NaN gives the canonical NaN and an infinity its infinity (R7). -/
def roundTo (f : FFmt) (mode : Mode) (sat : Bool) (v : FVal) : Rounded :=
  match v with
  | .nan => ⟨canonNaN f, 0, false⟩
  | .inf neg => ⟨infBits f neg, 0, false⟩
  | .fin neg num den => roundFinite f mode sat neg num den

/-- RNE(x, fmt) of R7. -/
def rneBits (f : FFmt) (v : FVal) : Nat := (roundTo f .rne false v).bits

namespace FVal

def isZero : FVal → Bool
  | .fin _ n _ => n == 0
  | _ => false

def isNaN : FVal → Bool
  | .nan => true
  | _ => false

def isInf : FVal → Bool
  | .inf _ => true
  | _ => false

def isFinite : FVal → Bool
  | .fin _ _ _ => true
  | _ => false

def negative : FVal → Bool
  | .nan => false
  | .inf n => n
  | .fin n _ _ => n

/-- The value with its sign inverted. -/
def negate : FVal → FVal
  | .nan => .nan
  | .inf n => .inf !n
  | .fin n a b => .fin (!n) a b

end FVal

/-- The zero of a value's sign. -/
def zeroLike (v : FVal) : FVal := .fin v.negative 0 1

/-- An integer as a value; 0 is +0. -/
def intVal (i : Int) : FVal := .fin (decide (i < 0)) i.natAbs 1

/-- The exact product, NaN for 0 x infinity (R154, R157). -/
def mulVal (a b : FVal) : FVal :=
  match a, b with
  | .nan, _ => .nan
  | _, .nan => .nan
  | .inf s, .inf t => .inf (s != t)
  | .inf s, .fin t n _ => if n == 0 then .nan else .inf (s != t)
  | .fin s n _, .inf t => if n == 0 then .nan else .inf (s != t)
  | .fin s n d, .fin t m e => .fin (s != t) (n * m) (d * e)

/-- The exact sum, NaN for infinities of opposite sign; `rdn` makes an exact cancellation negative zero (R154). -/
def addVal (rdn : Bool) (a b : FVal) : FVal :=
  match a, b with
  | .nan, _ => .nan
  | _, .nan => .nan
  | .inf s, .inf t => if s == t then .inf s else .nan
  | .inf s, .fin _ _ _ => .inf s
  | .fin _ _ _, .inf t => .inf t
  | .fin s n d, .fin t m e =>
    if s == t then .fin s (n * e + m * d) (d * e)
    else if m * d < n * e then .fin s (n * e - m * d) (d * e)
    else if n * e < m * d then .fin t (m * d - n * e) (d * e)
    else .fin rdn 0 1

/-- The exact quotient of finite values and infinities; NaN for 0 / 0 and infinity / infinity (R157). -/
def divVal (a b : FVal) : FVal :=
  match a, b with
  | .nan, _ => .nan
  | _, .nan => .nan
  | .inf _, .inf _ => .nan
  | .inf s, .fin t _ _ => .inf (s != t)
  | .fin s _ _, .inf t => .fin (s != t) 0 1
  | .fin s n d, .fin t m e =>
    if m == 0 then (if n == 0 then .nan else .inf (s != t)) else .fin (s != t) (n * e) (d * m)

/-- Whether a is less than b, both not NaN; zeros are equal (R156). -/
def ltVal (a b : FVal) : Bool :=
  match a, b with
  | .nan, _ => false
  | _, .nan => false
  | .inf s, .inf t => s && !t
  | .inf s, .fin _ _ _ => s
  | .fin _ _ _, .inf t => !t
  | .fin s n d, .fin t m e =>
    match s, t with
    | false, false => decide (n * e < m * d)
    | true, true => decide (m * d < n * e)
    | true, false => n != 0 || m != 0
    | false, true => false

/-- Whether a and b are equal numbers (R156, R173). -/
def eqVal (a b : FVal) : Bool :=
  match a, b with
  | .nan, _ => false
  | _, .nan => false
  | _, _ => !ltVal a b && !ltVal b a

/-- The integer part of the square root, by binary digits from `2 ^ k` down. -/
def sqrtDigits (n : Nat) : Nat → Nat → Nat
  | 0, r => r
  | k + 1, r => if (r + 2 ^ k) * (r + 2 ^ k) ≤ n then sqrtDigits n k (r + 2 ^ k) else sqrtDigits n k r

/-- The square root of a positive fraction to so many bits that its rounding in F32 is right: 2 x root, plus 1 when
the root is not exact, over twice the scale (R157). -/
def sqrtFrac (num den : Nat) : Nat × Nat :=
  let n := num * den * 2 ^ 128
  let r := sqrtDigits n (Nat.log2 n / 2 + 1) 0
  (2 * r + (if r * r == n then 0 else 1), 2 * den * 2 ^ 64)

/-- A rounded result of format `f` under VCTL, raising invalid when a NaN was made from operands that are not NaN
(R156, R157). -/
def finish (f : FFmt) (mode : Mode) (anyNaN : Bool) (v : FVal) : Nat × LFlags :=
  match v with
  | .nan => (canonNaN f, if anyNaN then 0 else fInvalid)
  | _ =>
    let r := roundTo f mode false v
    (r.bits, r.flags)

def isRdn (mode : Mode) : Bool := mode == .rdn

/-- The float operations of OP 1 to 13 on one element (R171, R157). -/
inductive FOp where
  | add | sub | mul | fma | fms | nfma | min | max | div | sqrt | abs | neg | rnd
  deriving DecidableEq, Repr, Inhabited

/-- The integral value of a finite value under a mode (R171, R175): its magnitude and whether it changed. -/
def integral (mode : Mode) (neg : Bool) (num den : Nat) : Nat × Bool :=
  let (quo, rem, div) := quantize num den 0
  (if roundsUp mode neg quo rem div then quo + 1 else quo, rem != 0)

/-- The smaller or larger of two values with the zeros of R157. -/
def minMax (larger : Bool) (a b : FVal) : FVal :=
  if a.isZero && b.isZero then
    .fin (if larger then a.negative && b.negative else a.negative || b.negative) 0 1
  else if larger then (if ltVal a b then b else a)
  else (if ltVal b a then b else a)

/-- One element of a float operation: d, a and b are bits of format `f` (R171, R154 to R157). -/
def floatOp (op : FOp) (f : FFmt) (mode : Mode) (d a b : Nat) : Nat × LFlags :=
  let x := decodeFloat f a
  let y := decodeFloat f b
  let z := decodeFloat f d
  let rdn := isRdn mode
  match op with
  | .add => finish f mode (x.isNaN || y.isNaN) (addVal rdn x y)
  | .sub => finish f mode (x.isNaN || y.isNaN) (addVal rdn x y.negate)
  | .mul => finish f mode (x.isNaN || y.isNaN) (mulVal x y)
  | .fma =>
    let p := mulVal x y
    if p.isNaN && !(x.isNaN || y.isNaN) then (canonNaN f, fInvalid)
    else finish f mode (x.isNaN || y.isNaN || z.isNaN) (addVal rdn z p)
  | .fms =>
    let p := mulVal x y
    if p.isNaN && !(x.isNaN || y.isNaN) then (canonNaN f, fInvalid)
    else finish f mode (x.isNaN || y.isNaN || z.isNaN) (addVal rdn z p.negate)
  | .nfma =>
    let p := mulVal x y
    if p.isNaN && !(x.isNaN || y.isNaN) then (canonNaN f, fInvalid)
    else finish f mode (x.isNaN || y.isNaN || z.isNaN) (addVal rdn p z.negate)
  | .min => if x.isNaN || y.isNaN then (canonNaN f, 0) else finish f mode false (minMax false x y)
  | .max => if x.isNaN || y.isNaN then (canonNaN f, 0) else finish f mode false (minMax true x y)
  | .div =>
    let dz := y.isZero && x.isFinite && !x.isZero
    let (r, fl) := finish f mode (x.isNaN || y.isNaN) (divVal x y)
    (r, if dz then fl ||| fDivzero else fl)
  | .sqrt =>
    match x with
    | .nan => (canonNaN f, 0)
    | .inf neg => if neg then (canonNaN f, fInvalid) else (infBits f false, 0)
    | .fin neg num den =>
      if num == 0 then (signBit f neg, 0)
      else if neg then (canonNaN f, fInvalid)
      else
        let (n, m) := sqrtFrac num den
        finish f mode false (.fin false n m)
  | .abs => (a % 2 ^ (f.width - 1), 0)
  | .neg => ((a + 2 ^ (f.width - 1)) % 2 ^ f.width, 0)
  | .rnd =>
    match x with
    | .nan => (canonNaN f, 0)
    | .inf neg => (infBits f neg, 0)
    | .fin neg num den =>
      let (n, changed) := integral mode neg num den
      ((roundFinite f mode false neg n 1).bits, if changed then fInexact else 0)

/-- The range of an integer format: least and greatest value. -/
def intRange (w : Nat) (signed : Bool) : Int × Int :=
  if signed then (-(2 ^ (w - 1) : Nat), (2 ^ (w - 1) : Nat) - 1) else (0, (2 ^ w : Nat) - 1)

/-- The integer that w bits hold. -/
def readInt (w : Nat) (signed : Bool) (bits : Nat) : Int :=
  let b := bits % 2 ^ w
  if signed && decide (2 ^ (w - 1) ≤ b) then (b : Int) - (2 ^ w : Nat) else b

/-- The low w bits of an integer. -/
def intBits (w : Nat) (i : Int) : Nat := (i % (2 ^ w : Nat)).toNat

/-- The nearer end of the range, or the integer itself. -/
def clampInt (lo hi i : Int) : Int := if i < lo then lo else if hi < i then hi else i

/-- A float to an integer format, clamped; NaN gives 0 (R175). -/
def floatToInt (mode : Mode) (w : Nat) (signed : Bool) (v : FVal) : Nat × LFlags :=
  let (lo, hi) := intRange w signed
  match v with
  | .nan => (0, fInvalid)
  | .inf neg => (intBits w (if neg then lo else hi), fInvalid)
  | .fin neg num den =>
    let (n, changed) := integral mode neg num den
    let i : Int := if neg then -(n : Int) else n
    if i < lo ∨ hi < i then (intBits w (clampInt lo hi i), fInvalid)
    else (intBits w i, if changed then fInexact else 0)

/-- One element converted between two element types (R175). -/
def convert (src dst : Nat) (sat : Bool) (mode : Mode) (bits : Nat) : Nat × LFlags :=
  match floatFmt src, floatFmt dst with
  | some f, some g =>
    let v := decodeFloat f bits
    if src == dst then ((if v.isNaN then canonNaN g else bits), 0)
    else
      match v with
      | .nan => (canonNaN g, 0)
      | .inf neg =>
        if g.e4m3 then
          (if sat then (signBit g neg + maxFinite g, 0) else (canonNaN g, fInvalid))
        else (infBits g neg, 0)
      | .fin neg num den =>
        let r := roundFinite g mode sat neg num den
        (r.bits, if g.e4m3 && r.ovf && r.bits == canonNaN g then r.flags ||| fInvalid else r.flags)
  | some f, none =>
    match intFmt dst with
    | some (w, sg) => floatToInt mode w sg (decodeFloat f bits)
    | none => (bits, 0)
  | none, some g =>
    match intFmt src with
    | some (w, sg) =>
      let i := readInt w sg bits
      let r := roundFinite g mode sat (decide (i < 0)) i.natAbs 1
      (r.bits, r.flags)
    | none => (bits, 0)
  | none, none =>
    match intFmt src, intFmt dst with
    | some (w, sg), some (w', sg') =>
      let i := readInt w sg bits
      if sat && decide (w' ≤ w) then
        let (lo, hi) := intRange w' sg'
        (intBits w' (clampInt lo hi i), 0)
      else (intBits w' i, 0)
    | _, _ => (bits, 0)

/-- How far an entry is from a finite value; every infinite entry is equally far (R177). -/
def distance (x e : FVal) : FVal :=
  match addVal false x e.negate with
  | .fin _ n d => .fin false n d
  | _ => .inf false

/-- The better of the code so far and a new one: nearer, or equally near with the rule of R177. -/
def betterCode (x : FVal) (best : Option (Nat × FVal)) (c : Nat) (e : FVal) : Option (Nat × FVal) :=
  match best with
  | none => some (c, e)
  | some (c0, e0) =>
    let d0 := distance x e0
    let d1 := distance x e
    if ltVal d1 d0 then some (c, e)
    else if ltVal d0 d1 then some (c0, e0)
    else if c0 % 2 == 1 && c % 2 == 0 then some (c, e)
    else some (c0, e0)

/-- The greatest or least entry of a list of codes with values, the lower index first (R177). -/
def extremeCode (greatest : Bool) (es : List (Nat × FVal)) : Option (Nat × FVal) :=
  es.foldl (fun best ce =>
    match best with
    | none => some ce
    | some b => if (if greatest then ltVal b.2 ce.2 else ltVal ce.2 b.2) then some ce else some b) none

/-- The code chosen for a value and whether it is inexact, invalid or beyond every entry (R177).  `zeroBits` is the
BF16 pattern a zero source has. -/
structure Coded where
  code : Nat
  flags : LFlags
  beyond : Bool
  deriving DecidableEq, Repr, Inhabited

/-- R177 for one value.  DESIGN CHOICE (log 83): of equal entries that an infinite source may take, or of entries with a zero
source's bits, the lowest index. -/
def encodeBook (entries : List Nat) (x : FVal) : Coded :=
  let all := (List.range entries.length).zip entries
  let vals := (all.map fun p => (p.1, decodeFloat fmtBF16 p.2)).filter fun p => !p.2.isNaN
  match x with
  | .nan => ⟨0, fInvalid, false⟩
  | .inf neg =>
    match vals.find? (fun p => p.2 == .inf neg) with
    | some p => ⟨p.1, 0, false⟩
    | none =>
      match extremeCode (!neg) vals with
      | some p => ⟨p.1, fOverflow ||| fInexact, true⟩
      | none => ⟨0, fInvalid, false⟩
  | .fin neg num den =>
    match vals with
    | [] => ⟨0, fInvalid, false⟩
    | _ =>
      let same := if num == 0 then all.find? (fun p => p.2 == signBit fmtBF16 neg) else none
      match same with
      | some p => ⟨p.1, 0, false⟩
      | none =>
        match vals.foldl (fun b p => betterCode x b p.1 p.2) none with
        | none => ⟨0, fInvalid, false⟩
        | some (c, e) =>
          let x' : FVal := .fin neg num den
          let out := vals.all (fun p => ltVal p.2 x') || vals.all (fun p => ltVal x' p.2)
          ⟨c, if eqVal e x' then 0 else fInexact, out⟩

/-- The exact sum of a list of finite values over one denominator `2 ^ g` after truncation: numerators as integers. -/
def truncTo (g : Int) (v : FVal) : Int :=
  match v with
  | .fin neg num den =>
    let (q, _, _) := quantize num den g
    if neg then -(q : Int) else q
  | _ => 0

/-- The largest exponent among the non-zero values of a list. -/
def maxExp : List FVal → Option Int
  | [] => none
  | v :: vs =>
    match v with
    | .fin _ num den =>
      if num == 0 then maxExp vs
      else
        match maxExp vs with
        | none => some (ilog2 num den)
        | some e => some (max e (ilog2 num den))
    | _ => maxExp vs

/-- SLICESUM of R9. -/
def sliceSum (ps : List FVal) : FVal :=
  if ps.any FVal.isNaN || (ps.contains (.inf true) && ps.contains (.inf false)) then .nan
  else if ps.contains (.inf false) then .inf false
  else if ps.contains (.inf true) then .inf true
  else
    match maxExp ps with
    | none => .fin (ps.all FVal.negative) 0 1
    | some e =>
      let g := e - 48
      let t := (ps.map (truncTo g)).foldl (· + ·) 0
      if t == 0 then .fin false 0 1 else scaled (decide (t < 0)) t.natAbs g

/-- A finite codebook or format value flushed when it is a non-zero subnormal (R8, R206): value and whether it was. -/
def flushed (f : FFmt) (bits : Nat) : FVal × Bool :=
  let v := decodeFloat f bits
  if isSubnormal f bits then (zeroLike v, true) else (v, false)

/-- The value of a stored element for expansion: codebook entry, float, or integer (R201, R206, R218). -/
def elementValue (fmt : Nat) (book : List Nat) (raw : Nat) : FVal × Bool :=
  if fmt == 5 then flushed fmtBF16 (book.getD (raw % 16) 0)
  else
    match floatFmt fmt with
    | some f => flushed f raw
    | none =>
      match intFmt fmt with
      | some (w, sg) => (intVal (readInt w sg raw), false)
      | none => (.fin false raw 1, false)

/-- The value of a block scale, flushed (R205, R206): E8M0, E5M2, E4M3 or BF16. -/
def scaleValue (fmt : Nat) (raw : Nat) : FVal × Bool :=
  if fmt == 12 then
    (if raw % 256 == 255 then .nan else scaled false 1 ((raw % 256 : Nat) - 127 : Int), false)
  else
    match floatFmt fmt with
    | some f => flushed f raw
    | none => (.nan, false)

/-- A stored scale as it stands, not flushed (R205). -/
def scaleExact (fmt : Nat) (raw : Nat) : FVal :=
  if fmt == 12 then (if raw % 256 == 255 then .nan else scaled false 1 ((raw % 256 : Nat) - 127 : Int))
  else
    match floatFmt fmt with
    | some f => decodeFloat f raw
    | none => .nan

/-- Bits of TFLAGS that conversions set (R143): saturated, nanmade, invalid, flushed. -/
def tSaturated : BitVec 8 := 0x20
def tFlushed : BitVec 8 := 0x40
def tNanmade : BitVec 8 := 0x80
def tInvalid : BitVec 8 := 0x01

/-- R208 and R243 for one value: the bits of the destination format and the bits of TFLAGS. -/
def quantOne (fmt : Nat) (book : List Nat) (sat : Bool) (x : FVal) : Nat × BitVec 8 :=
  match floatFmt fmt with
  | some f =>
    match x with
    | .nan => (canonNaN f, 0)
    | .inf neg =>
      if f.e4m3 then
        (if sat then (signBit f neg + maxFinite f, tSaturated) else (canonNaN f, tNanmade))
      else (infBits f neg, 0)
    | .fin neg num den =>
      let r := roundFinite f .rne sat neg num den
      (r.bits, if r.ovf then (if sat then tSaturated else if f.e4m3 then tNanmade else 0) else 0)
  | none =>
    if fmt == 5 then
      let c := encodeBook book x
      (c.code, if !x.isNaN && c.flags == fInvalid then tInvalid else if c.beyond || x.isInf then tSaturated else 0)
    else
      match intFmt fmt with
      | some (w, sg) =>
        let (lo, hi) := intRange w sg
        match x with
        | .nan => (0, tInvalid)
        | .inf neg => (intBits w (if neg then lo else hi), tSaturated)
        | .fin neg num den =>
          let (n, _) := integral .rne neg num den
          let i : Int := if neg then -(n : Int) else n
          (intBits w (clampInt lo hi i), if i < lo ∨ hi < i then tSaturated else 0)
      | none => (0, 0)

/-- The largest finite magnitude of an element format, for a codebook among its finite entries (R209). -/
def elemMax (fmt : Nat) (book : List Nat) : FVal :=
  if fmt == 5 then
    (book.map (decodeFloat fmtBF16)).foldl (fun m v =>
      match v with
      | .fin _ n d => if ltVal m (.fin false n d) then .fin false n d else m
      | _ => m) (.fin false 0 1)
  else
    match floatFmt fmt with
    | some f => decodeFloat f (maxFinite f)
    | none => .fin false 0 1

/-- The largest magnitude among the finite values of a block (R209). -/
def blockMax (xs : List FVal) : FVal :=
  xs.foldl (fun m v =>
    match v with
    | .fin _ n d => if ltVal m (.fin false n d) then .fin false n d else m
    | _ => m) (.fin false 0 1)

/-- The codes of a scale format that are positive normal values, in ascending order of value (R209). -/
def scaleCodes (fmt : Nat) : Nat × Nat :=
  match fmt with
  | 12 => (0, 254)
  | 3 => (0x08, 0x7E)
  | 4 => (0x04, 0x7B)
  | _ => (0x0080, 0x7F7F)

/-- The smallest code from `lo` with M ≤ E x s, by bisection over codes, which ascend with their values (R209). -/
def searchScale (fmt : Nat) (m e : FVal) : Nat → Nat → Nat → Nat
  | 0, _, hi => hi
  | k + 1, lo, hi =>
    if hi ≤ lo then hi
    else
      let mid := (lo + hi) / 2
      if ltVal (mulVal e (scaleExact fmt mid)) m then searchScale fmt m e k (mid + 1) hi
      else searchScale fmt m e k lo mid

/-- The code of the scale value 1 (R209, zero block). -/
def scaleOne (fmt : Nat) : Nat :=
  match fmt with
  | 12 => 127
  | 3 => 0x38
  | 4 => 0x3C
  | _ => 0x3F80

/-- The scale of a block (R209): its code, and whether no finite scale is large enough. -/
def chooseScale (fmt : Nat) (m e : FVal) : Nat × Bool :=
  if m.isZero || e.isZero then (scaleOne fmt, false)
  else
    let (lo, hi) := scaleCodes fmt
    let c := searchScale fmt m e 17 lo hi
    (c, ltVal (mulVal e (scaleExact fmt c)) m)

/-- The code of one value of a block under a scale (R210, R211).  A finite quotient beyond every codebook entry is an
overflow only where the scale was capped. -/
def blockCode (fmt : Nat) (book : List Nat) (sat capped : Bool) (s x : FVal) : Nat × BitVec 8 :=
  match x with
  | .nan =>
    match floatFmt fmt with
    | some f => (canonNaN f, 0)
    | none => (0, 0)
  | .inf _ => quantOne fmt book sat x
  | .fin _ _ _ =>
    let (v, f) := quantOne fmt book sat (divVal x s)
    (v, if fmt == 5 && !capped then f &&& ~~~tSaturated else f)

/-- A whole block quantised (R209 to R211): the scale's code, the elements' codes and the bits of TFLAGS. -/
def quantBlock (fmt sfmt : Nat) (book : List Nat) (sat : Bool) (xs : List FVal) : Nat × List Nat × BitVec 8 :=
  let (sc, capped) := chooseScale sfmt (blockMax xs) (elemMax fmt book)
  let s := scaleExact sfmt sc
  let cs := xs.map (blockCode fmt book sat capped s)
  (sc, cs.map Prod.fst, (cs.map Prod.snd).foldl (· ||| ·) 0)

/-- R212: the BF16 value that a read through ALIAS returns. -/
def aliasRead (fmt sfmt : Nat) (book : List Nat) (ascale : Nat) (raw rawScale : Nat) : Nat :=
  let v := (elementValue fmt book raw).1
  let s := (scaleValue sfmt rawScale).1
  let x := match v, s with
    | .nan, _ => .nan
    | _, .nan => .nan
    | _, _ => mulVal v s
  rneBits fmtBF16 (mulVal x (decodeFloat fmtBF16 ascale))

/-- The magnitude of a value. -/
def absVal (v : FVal) : FVal :=
  match v with
  | .nan => .nan
  | .inf _ => .inf false
  | .fin _ n d => .fin false n d

/-- R213: the codes and the scale of a block after writing y through ALIAS at index `i` of the block.  DESIGN CHOICE (log 95): under
a negative stored scale a y of 0 requantises the block too, as the pseudocode's comparison has it. -/
def aliasWriteBlock (fmt sfmt : Nat) (book : List Nat) (ascale : Nat) (codes : List Nat) (rawScale : Nat) (i : Nat)
    (y : Nat) : List Nat × Nat :=
  let t := divVal (decodeFloat fmtBF16 y) (decodeFloat fmtBF16 ascale)
  let s := (scaleValue sfmt rawScale).1
  let usable := s.isFinite && !s.isZero
  if t.isNaN || t.isInf then
    (codes.set i (blockCode fmt book false false s t).1, rawScale)
  else if usable && !ltVal (mulVal (elemMax fmt book) s) (absVal t) then
    (codes.set i (blockCode fmt book true false s t).1, rawScale)
  else
    let vs := codes.map fun c => if usable then mulVal (elementValue fmt book c).1 s else .fin false 0 1
    let vs' := vs.set i t
    let sc := (chooseScale sfmt (blockMax vs') (elemMax fmt book)).1
    (vs'.map (fun x => (blockCode fmt book x.isFinite false (scaleExact sfmt sc) x).1), sc)

end Sys2Proof.Machine
end

