-- ==== Sys2Proof/Config.lean ====
section
/-!
DEFINITION. What one implementation fixes.  The opaque constants have no body: nothing can be proved about their
values.  The others are sizes that the spec gives or that a log entry names.
-/

namespace Sys2Proof

/-- The number of LPDDR 6 controllers on the hub, less one (R278 says only that units go to the hub's controllers
in turn; log 15). -/
opaque Config.lpddrExtra : Nat

/-- The number of LPDDR 6 controllers on the hub (R278; log 15). -/
def Config.lpddrControllers : Nat := Config.lpddrExtra + 1

/-- The bytes of GDDR 7 installed (R1: 384 GB on the module; read as 384 x 2^30, log 15). -/
def Config.gddrBytes : Nat := 384 * 2 ^ 30

/-- The bytes of LPDDR 6 installed (R1: 1 TiB). -/
def Config.lpddrBytes : Nat := 2 ^ 40

/-- The bytes of one vault (R1: 12 MiB). -/
def Config.vaultBytes : Nat := 12 * 2 ^ 20

/-- AES-256-GCM (R319): ciphertext and tag of a payload under a key, an IV and the header, all as bytes. -/
opaque Config.gcmSeal : List Byte → List Byte → List Byte → List Byte → List Byte × List Byte

/-- AES-256-GCM (R319): the payload, when the tag verifies, of key, IV, header, ciphertext and tag. -/
opaque Config.gcmOpen : List Byte → List Byte → List Byte → List Byte → List Byte → Option (List Byte)

/-- SHA-384 of a string of bytes (R389, R394; log 14). -/
opaque Config.sha384 : List Byte → List Byte

/-- Whether an Ed25519 signature verifies under the key with this identifier that the device trusts (R389; log 14). -/
opaque Config.edVerify : Word → List Byte → List Byte → Bool

/-- Whether an ML-DSA-65 signature verifies under the key with this identifier (R389; log 14). -/
opaque Config.mldsaVerify : Word → List Byte → List Byte → Bool

/-- The two identity signatures of a report, from the firmware measurement and the report (R393, R394; log 14). -/
opaque Config.identitySign : List Byte → List Byte → List Byte

/-- The certificates returned with a report (R393, R394; log 14). -/
opaque Config.certificates : List Byte → List Byte

/-- The digest of a collective record that a post carries (R336; log 14). -/
opaque Config.digest : List Byte → Word

/-- The instruction words of the standard handlers, by slot and place: the spec gives what they do and how many instructions
they have, and not their words (R285, R394; log 39). -/
opaque Config.standardWord : Nat → Nat → BitVec 16

/-- The energy of one ramp-up and its ballast step-down in nJ, from RAMPCFG (R396). -/
opaque Config.rampEnergy : Nat → Nat

/-- Free values, drawn in turn by the counter `draws` of the state (log 9). -/
opaque Config.freeWord : Nat → Word

end Sys2Proof
end

