-- ==== Sys2Proof/Machine/State.lean ====
section
/-!
DEFINITION. The state of one Z9 device, as plain data.  The other devices of the domain, the host die and the
supervisor's software are outside: what they send waits in `rx`, what the device sends them stands in `netOut` and
`wireOut` (log 1).
-/

namespace Sys2Proof.Machine

/-- Trap causes (R376), by their codes 0x01 to 0x12. -/
inductive Cause where
  | illegal | reserved | privileged | align | page | perm | bounds | sealed | path | sched | layout | access
  | token | handler | padd | swtrap | mcheck | watchdog
  deriving DecidableEq, Repr, Inhabited

/-- A stream register (R214). -/
structure Stream where
  base : Word := 0
  extent : Word := 0
  layout : Word := 0
  format : BitVec 32 := 0
  tscale : BitVec 16 := 0
  flag : Word := 0
  leader : BitVec 4 := 0
  cursor : Word := 0
  fill : Word := 0
  deriving DecidableEq, Repr, Inhabited

/-- A scoreboard token (R295). -/
structure KTok where
  set : Bool := false
  err : Bool := false
  pend : Nat := 0
  deriving DecidableEq, Repr, Inhabited

/-- A binding of the binding table (R265). -/
structure Binding where
  base : Word
  length : Word
  planes : BitVec 16
  sync : Word
  deriving DecidableEq, Repr, Inhabited

/-- An occupied entry of the spill map: the 1 KiB block it uses and what the block holds (R194).  Blocks are numbered
32 x bank + k for register-file banks and 2048 + 64 x tile + k for accumulator tiles. -/
structure Spill where
  block : Nat
  data : VReg
  poison : Mask := 0
  deriving DecidableEq, Repr, Inhabited

/-- Where a vector result goes. -/
inductive VDest where
  | reg (d : BitVec 6)
  | mask (m : BitVec 3)
  deriving DecidableEq, Repr, Inhabited

/-- A vector result (R163, R165): the register or mask it writes, the bits it writes there, their value, the lanes of the
register that it writes and those of them it poisons, and the flags each lane raises. -/
structure VResult where
  dest : VDest
  bits : VReg
  value : VReg
  lanes : Mask := 0
  poison : Mask := 0
  flags : Vector (BitVec 5) 256 := .replicate 256 0
  deriving DecidableEq, Repr, Inhabited

/-- A vector result in flight in exposed mode and the issue count at which it lands (R167, R359). -/
structure Pending where
  result : VResult
  due : Nat
  deriving DecidableEq, Repr, Inhabited

/-- A codebook slot (R201, R203). -/
structure Codebook where
  entries : Vector (BitVec 16) 16 := .replicate 16 0
  narrow : Bool := true
  deriving DecidableEq, Repr, Inhabited

/-- An epilogue set (R233). -/
structure EpiSet where
  scale : BitVec 16 := 0
  fmt : BitVec 5 := 0
  relu : Bool := false
  saturate : Bool := false
  deriving DecidableEq, Repr, Inhabited

/-- An `mma` in flight (R238, R250): everything it read at issue and the next slice to apply. -/
structure Mma where
  qa : Stream
  qb : Stream
  acc : BitVec 4
  mode : BitVec 2
  slices : Nat
  next : Nat
  bookA : Codebook
  bookB : Codebook
  /-- its place in the core's order of counted instructions (R232) -/
  order : Nat
  /-- restored, and waiting for the lease again (R250) -/
  parked : Bool := false
  deriving DecidableEq, Repr, Inhabited

/-- What an issued instruction of the M engine still has to do before it can finish. -/
inductive MWork where
  /-- slices remain to be applied -/
  | mma (m : Mma)
  /-- the effect has been made at issue; writes in flight under `uid` must be performed first -/
  | done (uid : Option Nat)
  /-- a codebook slot or an epilogue set, written at finish (R246) -/
  | book (slot : BitVec 3) (b : Codebook)
  | epi (slot : BitVec 4) (e : EpiSet)
  deriving DecidableEq, Repr, Inhabited

/-- An issued, unfinished instruction of the M engine (R236, R237). -/
structure MJob where
  word : BitVec 32
  pc : Word
  gives : BitVec 3
  work : MWork
  /-- the tile that becomes ready at finish (a drain into a tile, R24) -/
  tile : Option Nat := none
  /-- the bits of TFLAGS set at finish (R241) -/
  flags : BitVec 8 := 0
  /-- tiles this instruction reads until it finishes -/
  reads : List Nat := []
  /-- the core's accumulator tile that it writes through slot A (R230, R231) -/
  slotA : Option Nat := none
  /-- the tokens that instructions completed behind it at a save give once it is finished (R20, R21, R250) -/
  carry : List (BitVec 3) := []
  deriving DecidableEq, Repr, Inhabited

/-- The copies of R289. -/
inductive CopyKind where
  | plain | convert | add (i32 : Bool) | gather | scatter | zero | fill | flagged | staged
  deriving DecidableEq, Repr, Inhabited

/-- The flag word that a flagged store increments: the address, and the first byte of the word when it is on this
device (R123, R190). -/
structure FlagRef where
  addr : Word
  byte : Option Nat
  deriving DecidableEq, Repr, Inhabited

/-- A copy in flight (R289 to R295): the streams as read at issue, the element count and the next chunk. -/
structure Copy where
  kind : CopyKind
  qs : Stream
  qd : Stream
  idx : Stream
  srcBook : Codebook
  dstBook : Codebook
  exposed : Bool
  count : Nat
  next : Nat
  sc : BitVec 3
  kr : Option (BitVec 3)
  kv : Option (BitVec 3)
  uid : Nat
  /-- every chunk has been read -/
  allRead : Bool := false
  /-- kr's condition has been met -/
  readSet : Bool := false
  /-- kv's condition has been met -/
  writeSet : Bool := false
  /-- the copy ended in error or by SCHED -/
  dead : Bool := false
  /-- the flag word of `cpf`, and whether its increment has been sent -/
  flag : Option Word := none
  flagSent : Bool := false
  /-- the tiles that it reads and that are not yet emptied (R24) -/
  srcTiles : List Nat := []
  dstTile : Option Nat := none
  deriving DecidableEq, Repr, Inhabited

/-- An issued, unfinished instruction of the C engine. -/
inductive CWork where
  | copy (c : Copy)
  /-- nothing more to do before it finishes -/
  | short
  /-- `cpost` or `chl` and the like: finished when the fabric has taken it, which happens at issue -/
  | handed
  /-- `cabort` number `id`: finished when its coordinator has sent the abort to every rank (R303) -/
  | aborting (id : Nat)
  deriving DecidableEq, Repr, Inhabited

structure CJob where
  word : BitVec 32
  pc : Word
  gives : BitVec 3
  work : CWork
  flags : BitVec 8 := 0
  /-- the tokens that instructions completed behind it at a save give once it is finished (R20, R21, R307) -/
  carry : List (BitVec 3) := []
  deriving DecidableEq, Repr, Inhabited

/-- The barrier that a `bar` names, found for the task's own unit (R133, R269). -/
structure BarRef where
  level : BitVec 3
  unit : Nat
  number : Nat
  deriving DecidableEq, Repr, Inhabited

/-- What a held scalar instruction has done so far (R112). -/
inductive HeldS where
  | none
  /-- asleep in `waita`, armed on the block of storage 64 x `block`, until the clock `expires` (0: never); with the
  instruction's word and operands -/
  | waita (word : BitVec 32) (d : BitVec 6) (addr cmp : Word) (fn : BitVec 2) (block expires : Nat)
  /-- a `bar` whose request has gone to the barrier -/
  | barAsked (b : BarRef)
  /-- the barrier's answer to it: the phase or flags, and whether the task may use the barrier -/
  | barAnswer (b : BarRef) (phase : BitVec 16) (flags : BitVec 8) (ok : Bool)
  /-- waiting at a barrier since `since` nanoseconds on phase `phase`; `sync` when it has arrived -/
  | barrier (b : BarRef) (phase : BitVec 16) (sync : Bool) (since : Nat)
  /-- a restored `bar sub=sync` that had arrived in this phase (R112) -/
  | resumeSync (phase : BitVec 16)
  /-- `seal`, `tlbi`: waiting for the acknowledgement of invalidation `id` -/
  | invalidate (id : Nat)
  /-- a load, `acq` or `launch` that waits for writes of its own task -/
  | begun
  deriving DecidableEq, Repr, Inhabited

/-- Whether the task is in the ready set (R26), and if not, why. -/
inductive TaskMode where
  | ready
  /-- asleep in `waita` -/
  | asleep
  /-- waiting at a barrier -/
  | atBarrier
  /-- stopped, to be saved with this cause (R361: 1 pre-emption, 2 trap or fault, 3 yield, 4 swap-on-wait) -/
  | saving (cause : BitVec 8)
  deriving DecidableEq, Repr, Inhabited

/-- The grants of a task (R32, R33, R354). -/
structure Grant where
  vbanks : Nat := 0
  streams : Nat := 0
  acc : Nat := 0
  /-- the core's accumulator tiles that are a0, a1 and so on -/
  accTiles : List Nat := []
  tiles : Nat := 0
  tileBase : Nat := 0
  spad : Nat := 0
  spadBase : Nat := 0
  /-- the register-file banks that serve as the task's vector banks -/
  banks : List Nat := []
  deriving DecidableEq, Repr, Inhabited

/-- What a memory target answers to a read or an atomic. -/
inductive Reply where
  /-- the bits read, the width of the element, and whether it was poisoned -/
  | value (v : Word) (w : Nat) (poison : Bool)
  | refused (cause : Cause)
  deriving DecidableEq, Repr, Inhabited

/-- What an access asks of the place it names: an element of any width, so many elements of any width (R371), so many bytes
of byte memory (R72), an element of one width (R184), a block scale of one width in a plane of one ratio (R204), or
whether there is such a plane (R204). -/
inductive Want where
  | element
  | run (n : Nat)
  | bytes (n : Nat)
  | width (w : Nat)
  | scale (w ratio : Nat)
  | plane (w ratio : Nat)
  deriving DecidableEq, Repr, Inhabited

/-- A read or waiting atomic sent to a target for an instruction: the engine, a number that tells apart the instructions
of an engine that wait at once, its identifier, the address and what is asked of it (log 6). -/
structure Ask where
  eng : Engine
  tag : Nat
  uid : Nat
  addr : Word
  want : Want := .element
  deriving DecidableEq, Repr, Inhabited

/-- What came back for it. -/
structure Answer where
  eng : Engine
  tag : Nat
  addr : Word
  want : Want := .element
  reply : Reply
  deriving DecidableEq, Repr, Inhabited

/-- A refusal of a posted write on its way back or held for a saved task (R111, R379). -/
structure RefusalNote where
  eng : Engine
  pc : Word
  word : BitVec 32
  index : BitVec 16
  addr : Word
  cause : Cause
  deriving DecidableEq, Repr, Inhabited

/-- A task in a slot (R17). -/
structure Task where
  tid : Nat := 0
  /-- its core group: the tasks of one kernel on one core (R356) -/
  gid : Nat := 0
  handle : Word := 0
  taskid : Word := 0
  tenant : BitVec 6 := 0
  prio : BitVec 2 := 0
  level : Bool := false
  grant : Grant := {}
  mode : TaskMode := .ready
  pcS : Word := 0
  pcV : Word := 0
  pcM : Word := 0
  pcC : Word := 0
  endS : Bool := false
  endV : Bool := false
  endM : Bool := false
  endC : Bool := false
  s : Vector Word 64 := .replicate 64 0
  sPoison : BitVec 64 := 0
  x : Vector (BitVec 32) 16 := .replicate 16 0
  v : Vector VReg 64 := .replicate 64 0
  vPoison : Vector Mask 64 := .replicate 64 0
  m : Vector Mask 8 := .replicate 8 0
  laneFlags : Vector (BitVec 5) 256 := .replicate 256 0
  q : Vector Stream 16 := .ofFn fun i => { leader := BitVec.ofNat 4 i.val }
  rt : Vector Word 4 := .replicate 4 0
  k : Vector KTok 8 := .replicate 8 {}
  tok : Vector (BitVec 4) 12 := .replicate 12 0
  tokRsv : Vector (BitVec 4) 12 := .replicate 12 0
  bindings : Vector (Option Binding) 16 := .replicate 16 none
  spill : Vector (Option Spill) 64 := .replicate 64 none
  tflags : BitVec 8 := 0
  vctl : BitVec 2 := 0
  trapvec : Word := 0
  trapcause : Word := 0
  trappc : Word := 0
  trapword : Word := 0
  trapaddr : Word := 0
  exposed : Bool := false
  vcount : Nat := 0
  pending : List Pending := []
  draining : Bool := false
  unack : BitVec 32 := 0
  phaseEnd : Bool := false
  posted : Bool := false
  /-- the writes counted and not acknowledged (R111) -/
  uids : List Nat := []
  /-- those counted before the outstanding `qm` post (R277) -/
  postUids : List Nat := []
  /-- for M and C, the instructions issued before the markers that have not finished (R136) -/
  markM : Nat := 0
  markC : Nat := 0
  mjobs : List MJob := []
  cjobs : List CJob := []
  chlOut : Nat := 0
  held : HeldS := .none
  /-- reads and atomics sent out for the instruction at the head of each engine, and what came back (log 6) -/
  asked : List Ask := []
  answers : List Answer := []
  refusals : List RefusalNote := []
  /-- its wait at a barrier is what its core group is swapped out for (R273) -/
  swapped : Bool := false
  /-- it has issued a counted instruction (R228) -/
  counted : Bool := false
  /-- how far its saving has come (R358): 1 its collectives are aborted, 2 its engines have drained and its lease has
  passed; and the lease count that it had then -/
  saveStep : Nat := 0
  saveLease : Option Nat := none
  /-- the clock and the engine of the trap recorded last (R379) -/
  trapAt : Option (Nat × Engine) := none
  /-- the address of an `mma` or a copy that trapped in a slice or a chunk: the program counter of M or of C in the frame
  (R377) -/
  backM : Option Word := none
  backC : Option Word := none
  stall : Nat := 0
  /-- the instructions issued since the power controller last counted (R396) -/
  work : Nat := 0
  deriving DecidableEq, Repr, Inhabited

/-- A tile's entry in the tile table (R23, R223): 0 empty, 1 filling, 2 ready, 3 draining, and the recorded span. -/
structure Tile where
  state : BitVec 2 := 0
  span : BitVec 3 := 0
  deriving DecidableEq, Repr, Inhabited

/-- What a register-file bank serves as (02, Tile registers). -/
inductive BankUse where
  | idle
  | tile
  | vector (slot : Nat)
  deriving DecidableEq, Repr, Inhabited

/-- An entry of the monitor table (R274). -/
structure Monitor where
  slot : Fin 4
  block : Nat
  /-- armed at supervisor level -/
  sup : Bool
  woken : Bool := false
  reclaimed : Bool := false
  deriving DecidableEq, Repr, Inhabited

/-- A line of the scalar data cache (R122): the path and plane it was loaded through, the tenant, the 64-byte block of
storage, and its bytes as a number.  A line `ahead` is what vector loads have read before they issue (R252, R258; log 6). -/
structure Line where
  pathPlane : BitVec 7
  tenant : BitVec 6
  block : Nat
  data : BitVec 512
  ahead : Bool := false
  deriving DecidableEq, Repr, Inhabited

/-- A line of an engine's instruction cache (R14, R16): the tenant, the plane and the 64-byte block of positions that it
was fetched from, and its bytes as a number. -/
structure CodeLine where
  eng : Engine
  tenant : BitVec 6
  plane : Nat
  block : Nat
  data : BitVec 512
  deriving DecidableEq, Repr, Inhabited

/-- An alloy page entry's fields with the object's extent, as the position TLB holds them (R94, R98). -/
structure PosEntry where
  tenant : BitVec 6
  page : Nat
  large : Bool
  record : Nat
  perms : BitVec 12
  object : Nat
  first : Nat
  length : Nat
  deriving DecidableEq, Repr, Inhabited

/-- A word of the plane-frame cache (R98), with the record it was read from. -/
structure FrameEntry where
  tenant : BitVec 6
  page : Nat
  large : Bool
  record : Nat
  plane : BitVec 4
  word : Word
  deriving DecidableEq, Repr, Inhabited

/-- The state of the array's power (R228). -/
inductive Ramp where
  | steady | up | down
  deriving DecidableEq, Repr, Inhabited

/-- A barrier object (R269). -/
structure Barrier where
  owner : Option (BitVec 6) := none
  swap : Bool := false
  expected : BitVec 19 := 1
  arrivals : BitVec 19 := 0
  phase : BitVec 16 := 0
  gathered : BitVec 8 := 0
  completed : BitVec 8 := 0
  deriving DecidableEq, Repr, Inhabited

/-- A core, without its tasks and without LEASEMAX and RAMPCFG, which State holds apart. -/
structure Core where
  up : Bool := false
  lastIssued : Vector (BitVec 2) 4 := .replicate 4 3
  tiles : Vector Tile 64 := .replicate 64 {}
  banks : Vector BankUse 64 := .replicate 64 .idle
  leaseHolder : Option (Fin 4) := none
  leaseCount : Nat := 0
  leaseWaiting : BitVec 4 := 0
  leaseClock : Nat := 0
  throttle : BitVec 3 := 0
  frame : Word := 0
  frameTenant : BitVec 6 := 0
  resume : Vector Word 4 := .replicate 4 0
  books : Vector Codebook 8 := .replicate 8 {}
  epis : Vector EpiSet 16 := .replicate 16 {}
  monitors : List Monitor := []
  barriers : Vector Barrier 16 := .replicate 16 {}
  lines : List Line := []
  code : List CodeLine := []
  posTlb : List PosEntry := []
  frames : List FrameEntry := []
  groupsOn : Nat := 0
  ramp : Ramp := .steady
  /-- what tasks that have left the core since the power controller last counted had issued: kernel and number (R396) -/
  worked : List (Word × Nat) := []
  /-- the tenant whose tasks the core holds or last held (R355) -/
  tenant : Option (BitVec 6) := none
  deriving DecidableEq, Repr, Inhabited

/-- A launch record (R31, R32) as the controller keeps it. -/
structure LaunchRec where
  entry : Vector Word 4 := .replicate 4 0
  devices : Nat := 1
  dies : Nat := 1
  vaults : Nat := 1
  cores : Nat := 1
  tasks : Nat := 1
  spad : Nat := 0
  streams : Nat := 0
  acc : Nat := 0
  tiles : Nat := 0
  vbanks : Nat := 0
  doneOn : Bool := false
  doneLevel : BitVec 3 := 0
  doneNumber : BitVec 8 := 0
  exposed : Bool := false
  tenant : BitVec 6 := 0
  prio : BitVec 2 := 0
  arg : Word := 0
  deviceList : List (BitVec 8) := []
  deps : List Word := []
  /-- source, destination and length of each declared-resident stream -/
  residents : List (Word × Word × Nat) := []
  /-- supervisor level -/
  level : Bool := false
  deriving DecidableEq, Repr, Inhabited

/-- States of a kernel scoreboard entry (R350). -/
inductive KState where
  | posted | waiting | staging | ready | running | draining | done
  deriving DecidableEq, Repr, Inhabited

/-- An occupied entry of a kernel scoreboard (R350), with what is kept for its kernel on this device (R395). -/
structure Kernel where
  state : KState
  handle : Word
  serial : BitVec 32
  launch : LaunchRec
  shadow : Bool := false
  /-- its place in the order of acceptance -/
  order : Nat := 0
  /-- declared-resident entries copied, and the chunks of the next one -/
  staged : Nat := 0
  chunk : Nat := 0
  /-- shadows on other devices not yet done -/
  shadowsOut : Nat := 0
  localDone : Bool := false
  /-- a part of it has failed (R351, R352) -/
  failed : Bool := false
  /-- tasks of this device not retired -/
  live : Nat := 0
  started : Nat := 0
  energy : Word := 0
  /-- the throttled clocks counted, and those of slices since the power controller last counted (R395) -/
  throttled : Word := 0
  throttledNew : Word := 0
  deriving DecidableEq, Repr, Inhabited

/-- An item of the placement queues (R353). -/
inductive QItem where
  | kernel (entry : Nat) (since : Nat)
  | group (gid : Nat) (since : Nat)
  deriving DecidableEq, Repr, Inhabited

/-- A task that is saved: its core group, the core and slot it left, the task as it stood, where its frame lies and what arrives
for it meanwhile (R277, R358 to R362, R375, R379).  What the layout of R361 places comes back from the frame; the rest
comes back from `task` (log 21). -/
structure Saved where
  core : Fin 256 := 0
  slot : Fin 4
  task : Task
  frame : Word
  frameTenant : BitVec 6
  cause : BitVec 8
  /-- its frame carries the group part -/
  hasGroup : Bool
  /-- its group's tiles and scratchpad stand on its core, in no frame -/
  resident : Bool := false
  /-- the fields of its frame that hold poisoned data: offset and bytes (R386) -/
  poisoned : List (Nat × Nat) := []
  /-- the codebook slots and epilogue sets of the core that it left (R363; log 108) -/
  books : Vector Codebook 8 := .replicate 8 {}
  epis : Vector EpiSet 16 := .replicate 16 {}
  acks : Nat := 0
  /-- bytes that a chained load has brought for its scratchpad, which is in no core now (R375) -/
  late : List (Word × Byte) := []
  /-- scoreboard tokens that change: whether a condition is met, and the error bit (R375) -/
  tokens : List (BitVec 3 × Bool × Bool) := []
  /-- the barrier whose next phase change queues a swapped task again (R273) -/
  barrier : Option BarRef := none
  /-- handed to the supervisor, which restores it with `eret` (R360) -/
  withSupervisor : Bool := false
  /-- queued to be restored -/
  queued : Bool := false
  /-- ended by the supervisor and waiting for its writes to drain (R383) -/
  ended : Bool := false
  deriving DecidableEq, Repr, Inhabited

/-- One level of a collective's loop nest (R331). -/
structure Level where
  bound : Nat
  src : Int
  dst : Int
  alpha : Int
  beta : Int
  gamma : Int
  deriving DecidableEq, Repr, Inhabited

/-- A collective record (R331). -/
structure CollRec where
  group : BitVec 16
  op : BitVec 2
  walker : Bool
  fmt : BitVec 5
  sequence : BitVec 32
  rank : Nat
  levels : List Level
  acc : Nat
  vault : Nat
  done : Word
  source : Word
  dest : Word
  length : Nat
  members : List (BitVec 8)
  digest : Word
  deriving DecidableEq, Repr, Inhabited

/-- States of an entry of the posted-collective table (R334). -/
inductive CState where
  | posted | ticketed | running | done | aborted
  deriving DecidableEq, Repr, Inhabited

/-- One name of a collective (R336). -/
structure CName where
  tenant : BitVec 6
  group : BitVec 16
  sequence : BitVec 32
  deriving DecidableEq, Repr, Inhabited

/-- An entry of the posted-collective table (R334). -/
structure CEntry where
  state : CState
  name : CName
  info : CollRec
  record : Word
  tid : Nat
  loc : Fin 1024
  level : Bool
  /-- the next iteration of this rank to send -/
  next : Nat := 0
  /-- iterations acknowledged -/
  acked : Nat := 0
  /-- chunks applied or staged: source rank, iteration, chunk -/
  arrived : List (Nat × Nat × Nat) := []
  /-- the accumulator tiles reserved and the first of the vault bytes reserved (R338) -/
  accAt : List Nat := []
  vaultAt : Option Nat := none
  reported : Bool := false
  /-- it has met a fault, or has too few vault bytes, and waits for its abort (R342, R343) -/
  faulted : Bool := false
  deriving DecidableEq, Repr, Inhabited

/-- A gathering at a coordinator (R336, R345). -/
structure Gather where
  name : CName
  members : List (BitVec 8)
  posts : List (BitVec 8 × Word)
  asked : Bool := false
  reports : List (BitVec 8) := []
  deriving DecidableEq, Repr, Inhabited

/-- An iteration sent and not wholly acknowledged (R339): the chunks left, and the `mdrr` that sent it, by task and write, with
what it is told when a chunk is refused (R326). -/
structure CollSend where
  name : CName
  iter : Nat
  left : Nat
  tid : Nat := 0
  uid : Nat := 0
  note : Option RefusalNote := none
  deriving DecidableEq, Repr, Inhabited

/-- Who issued an access: the device, the task, the engine, the word and its address, and what the checks need. -/
structure Origin where
  dev : BitVec 8
  tid : Nat
  core : Nat
  eng : Engine
  pc : Word
  word : BitVec 32
  tenant : BitVec 6
  level : Bool
  deriving DecidableEq, Repr, Inhabited

/-- One element of a posted write, translated: its first bit in storage, its width, its bits, and the address and
index by which the originator names it, with the positions it covers there. -/
structure Wr where
  bit : Nat
  width : Nat
  value : Nat
  addr : Word
  index : BitVec 16 := 0
  span : Nat := 1
  deriving DecidableEq, Repr, Inhabited

/-- A block written through ALIAS (R213): where the block's codes and its scale stand and how they are coded, and the
plane of the scale. -/
structure BlockRef where
  scalePlane : Nat := 0
  /-- first bit of the block's element 0 and the width of an element -/
  bit : Nat
  width : Nat
  fmt : BitVec 5
  block : Nat
  scaleBit : Nat
  scaleWidth : Nat
  scaleFmt : BitVec 5
  book : Vector (BitVec 16) 16
  ascale : BitVec 16
  deriving DecidableEq, Repr, Inhabited

/-- One element written through ALIAS: its block and its place there, its BF16 value, and the address and index by which
the originator names it. -/
structure BlockWr where
  ref : BlockRef
  inBlock : Nat
  value : BitVec 16
  addr : Word
  index : BitVec 16
  deriving DecidableEq, Repr, Inhabited

/-- The chain carried by a packet (R370), with the detours taken on the way to the present owner (R311). -/
structure Chain where
  origin : BitVec 8
  core : Nat := 0
  slot : Nat := 0
  rowDetour : Bool := false
  colDetour : Bool := false
  tid : Nat
  tenant : BitVec 6
  level : Bool
  steps : List (Int × Word)
  fetch : Nat
  pointer : Word
  obtained : BitVec 8
  step : Nat
  hops : Nat
  deriving DecidableEq, Repr, Inhabited

/-- How a walk ended (R368). -/
structure ChainEnd where
  status : BitVec 8
  cause : BitVec 8
  addr : Word
  step : Nat
  lastGood : Word
  hops : Nat
  bytes : List Byte
  deriving DecidableEq, Repr, Inhabited

/-- What an issued `chl` still needs when its packet comes back (R374). -/
structure ChainWait where
  id : Nat
  tid : Nat
  qd : Stream
  block : Word
  kr : BitVec 3
  kv : BitVec 3
  origin : Origin
  deriving DecidableEq, Repr, Inhabited

/-- The operations on a barrier that travel to it (R133). -/
inductive BarOp where
  /-- with the kernel's handle when a task that retires arrives (R37) -/
  | arrive (flags : BitVec 8) (done : Option Word)
  | init (expected : BitVec 19)
  | read
  deriving DecidableEq, Repr, Inhabited

/-- When a request reaches a barrier, and the slot and core it comes from: requests of one clock are served in the order
of these (R271). -/
structure BarTime where
  clock : Nat := 0
  slot : Nat := 0
  core : Nat := 0
  deriving DecidableEq, Repr, Inhabited

/-- The messages between the parts of a device and between devices. -/
inductive Body where
  /-- a posted write to this device, translated at the core (R111) -/
  | store (uid : Nat) (o : Origin) (ws : List Wr) (flag : Option FlagRef)
  /-- a posted write through ALIAS, made whole at the target (R213) -/
  | aliasStore (uid : Nat) (o : Origin) (ws : List BlockWr)
  /-- an atomic at its handler engine: the byte address of the word (R124), and whether it has been granted already (R327) -/
  | atomic (uid : Nat) (o : Origin) (byte : Nat) (slot : BitVec 5) (h4 h5 : Word) (posted granted : Bool) (addr : Word)
  /-- a read that another device asks of this one, or this one of another (R88) -/
  | read (uid : Nat) (o : Origin) (addr : Word) (want : Want)
  /-- posted writes that one device asks of another; each is address, what it asks, bits, index -/
  | write (uid : Nat) (o : Origin) (ws : List (Word × Want × Nat × BitVec 16)) (flag : Option Word)
  /-- an atomic asked of another device -/
  | remoteAtomic (uid : Nat) (o : Origin) (slot : BitVec 5) (h4 h5 : Word) (posted : Bool) (addr : Word)
  /-- a question whether a flag on another device may be incremented, before the data is written (R123; log 16) -/
  | flagAsk (uid : Nat) (o : Origin) (addr : Word)
  | flagGrant (uid : Nat) (dev : BitVec 8)
  | flagRefuse (uid : Nat) (dev : BitVec 8) (note : RefusalNote)
  /-- the answer to a read or a waiting atomic -/
  | reply (uid : Nat) (tid : Nat) (eng : Engine) (addr : Word) (r : Reply)
  /-- a write performed at DOM scope -/
  | ack (uid : Nat) (tid : Nat)
  /-- a write refused -/
  | refuse (uid : Nat) (tid : Nat) (note : RefusalNote)
  | barrier (b : BarRef) (op : BarOp) (tid : Nat) (back : BitVec 8) (tenant : BitVec 6) (level : Bool) (time : BarTime)
  | barAnswer (tid : Nat) (b : BarRef) (phase : BitVec 16) (flags : BitVec 8) (ok swap : Bool)
  /-- the arrival of a retiring task at a barrier that its tenant does not own was discarded (R37) -/
  | doneRefused (handle : Word)
  /-- the phase and the swap bit of a DOM barrier after one has changed, told to the devices that may wait on it -/
  | barPhase (b : BarRef) (phase : BitVec 16) (flags : BitVec 8) (swap : Bool)
  | handover (launch : LaunchRec) (handle : Word)
  | shadowDone (handle : Word) (failed : Bool)
  /-- a question whether a kernel is over, and the answer when it is: whether it failed (R351) -/
  | depAsk (handle : Word)
  | depAnswer (handle : Word) (failed : Bool)
  | collPost (name : CName) (rank : Nat) (digest : Word) (members : List (BitVec 8))
  /-- a coordinator that was full has room for a post again (R336) -/
  | postAgain (name : CName)
  | ticketAsk (name : CName) (members : List (BitVec 8))
  | ticket (name : CName) (number : BitVec 32)
  | collChunk (name : CName) (src iter chunk : Nat) (back : BitVec 8) (tile : BitVec 4) (dest : Word) (fmt : BitVec 5)
      (first : Nat) (elems : List Nat) (level : Bool)
  | chunkDone (name : CName) (iter chunk : Nat)
  /-- a chunk of an `mdrr` was refused: at the ingress, or with its link (R317, R326) -/
  | chunkRefused (name : CName) (iter : Nat) (cause : Cause)
  | chunkNotYet (name : CName) (dst : BitVec 8) (src iter chunk : Nat) (tile : BitVec 4) (dest : Word)
      (fmt : BitVec 5) (first : Nat) (elems : List Nat) (level : Bool) (since : Nat)
  | localDone (name : CName) (dev : BitVec 8)
  | commit (name : CName)
  | abortAsk (name : CName) (cause : BitVec 8) (coord : BitVec 8) (answer : Option (BitVec 8 × Nat))
  | abort (name : CName) (cause : BitVec 8) (coord : BitVec 8)
  | abortAck (name : CName) (dev : BitVec 8)
  /-- the coordinator has sent the abort of a `cabort` to every rank that posted, or has none to send (R303); and its answer
  (R348) -/
  | cabortSent (id : Nat)
  | cabortDone (id : Nat)
  | chain (id : Nat) (c : Chain)
  | chainBack (id : Nat) (e : ChainEnd)
  deriving DecidableEq, Repr, Inhabited

/-- A message on a virtual channel (R313); one that leaves has the next device on its way, and the dimensions in which its
route has taken a detour (R310, R311). -/
structure Packet where
  src : BitVec 8
  dst : BitVec 8
  vc : BitVec 3
  body : Body
  via : BitVec 8 := 0
  rowDetour : Bool := false
  colDetour : Bool := false
  /-- of an atomic, the clock in which it reached its handler engine (R280) -/
  reached : Option Nat := none
  deriving DecidableEq, Repr, Inhabited

/-- A part of a posted write that another device has not answered: identifier, task, engine, and the addresses written with
the positions that each covers (R266). -/
structure RemotePart where
  uid : Nat
  tid : Nat := 0
  eng : Engine
  spans : List (Word × Nat) := []
  /-- the core and the flag word of this device that the other device increments once the data is written (R123) -/
  here : Option (Nat × FlagRef) := none
  deriving DecidableEq, Repr, Inhabited

/-- A migration under way (R103, R304). -/
structure Migration where
  tenant : BitVec 6
  /-- the byte address of the frame word -/
  word : Nat
  addr : Word
  source : Nat
  dest : Nat
  destLoc : Word
  length : Nat
  next : Nat
  forwarding : Bool := false
  inval : Option Nat := none
  tid : Nat
  kr : BitVec 3
  kv : BitVec 3
  deriving DecidableEq, Repr, Inhabited

/-- What an invalidation covers (R149). -/
inductive InvalKind where
  | all
  | tenant (t : BitVec 6)
  | page (pos : Nat)
  | plane (pos : Nat) (p : BitVec 4)
  deriving DecidableEq, Repr, Inhabited

/-- An invalidation that waits for cores to acknowledge (R99); for `seal` and `unseal` also the frame words whose sealed
bit changes with it (R105, R106). -/
structure Inval where
  id : Nat
  kind : InvalKind
  waiting : List Nat
  words : List Nat := []
  deriving DecidableEq, Repr, Inhabited

/-- A key slot of a fabric port (R319, R320). -/
structure KeySlot where
  loaded : Bool := false
  /-- this end has come to transmit under it (R321) -/
  sent : Bool := false
  key : List Byte := []
  salt : BitVec 32 := 0
  deriving DecidableEq, Repr, Inhabited

/-- A fabric port (R309, R315 to R323), without REKEYAT, which State holds apart. -/
structure Port where
  up : Bool := false
  stopped : Bool := false
  cause : BitVec 2 := 0
  txSlot : BitVec 1 := 0
  rxSlot : BitVec 1 := 0
  keyA : KeySlot := {}
  keyB : KeySlot := {}
  counter : BitVec 64 := 0
  rxCounter : BitVec 64 := 0
  sendSeq : BitVec 16 := 0
  recvSeq : BitVec 16 := 0
  /-- the flits not acknowledged, oldest first, with how often each has been resent -/
  replay : List (BitVec 16 × BitVec 2048 × Nat) := []
  /-- the messages that end in these flits, by their sequence numbers (R317) -/
  carried : List (BitVec 16 × Packet) := []
  txRing : Vector (BitVec 128) 256 := .replicate 256 0
  txPtr : BitVec 8 := 0
  rxRing : Vector (BitVec 128) 256 := .replicate 256 0
  rxPtr : BitVec 8 := 0
  /-- a retry has been requested since the last accepted flit -/
  asked : Bool := false
  /-- the sequence number whose tag failed last -/
  tagFail : Option (BitVec 16) := none
  switchWanted : Bool := false
  deriving DecidableEq, Repr, Inhabited

/-- A handler slot (R285, R286). -/
structure Handler where
  program : List (BitVec 16) := []
  owner : Option (BitVec 6) := none
  deriving DecidableEq, Repr, Inhabited

/-- Kinds of notice (R398), with what each carries. -/
inductive Notice where
  | saved (frame : Word) (cause : BitVec 8)
  | stagingFailed (entry : Nat) (addr : Word)
  | chainFault (tenant : BitVec 6) (addr : Word) (cause : Cause)
  | linkDown (port : Nat) (cause : BitVec 2)
  | uncorrectable (byte : Nat)
  | completionRefused (tenant : BitVec 6) (addr : Word) (cause : Cause)
  | doneArrivalDiscarded (handle : Word)
  | collectiveFault (tenant : BitVec 6) (addr : Word)
  | restoreRefused (frame : Word)
  /-- a request that the management controller passes on -/
  | supervisorRequest (data : Word)
  deriving DecidableEq, Repr, Inhabited

/-- How far start-up has come (R389 to R391). -/
inductive Boot where
  | reset | ready | verifying | verified
  deriving DecidableEq, Repr, Inhabited

/-- What happens next (log 1, 2, 12). -/
inductive Move where
  /-- an engine of a core issues (R25) -/
  | issue (core : Fin 256) (eng : Engine)
  /-- a row of the table that no engine issues -/
  | event (i : Instr)
  /-- time passes: engine clocks and nanoseconds (log 2) -/
  | tick (clocks nanos : Nat)
  /-- a message arrives from another device -/
  | arrive (p : Packet)
  /-- a core caches the translation of an address, or drops cached things (R98, R122; log 12) -/
  | cachePos (core : Fin 256) (tenant : BitVec 6) (addr : Word)
  | cacheFrame (core : Fin 256) (tenant : BitVec 6) (addr : Word)
  | evictPos (core : Fin 256) (n : Nat)
  | evictFrame (core : Fin 256) (n : Nat)
  | evictLine (core : Fin 256) (n : Nat)
  /-- an engine's instruction cache takes the line of an address, or drops one (R14, R16; log 74) -/
  | cacheCode (core : Fin 256) (eng : Engine) (tenant : BitVec 6) (addr : Word)
  | evictCode (core : Fin 256) (n : Nat)
  /-- an uncorrectable error poisons the unit of storage that holds a byte (R386) -/
  | poisonMemory (byte : Nat)
  | poisonScalar (loc : Fin 1024) (r : BitVec 6)
  | poisonLane (loc : Fin 1024) (r : BitVec 6) (lane : BitVec 8)
  | poisonParked (loc : Fin 1024) (e : BitVec 6) (lane : BitVec 8)
  /-- an uncorrectable error discards an entry of the tile table or of the monitor table (R384; log 106) -/
  | discardTile (core : Fin 256) (n : Fin 64)
  | discardMonitor (core : Fin 256) (n : Nat)
  /-- a vector load reads a block of memory before it issues (R252, R258; log 6) -/
  | readAhead (loc : Fin 1024) (addr : Word)
  /-- the supervisor's first task starts in a slot: the addresses of its engines and its tenant (R390; log 105) -/
  | startSupervisor (loc : Fin 1024) (entry : Vector Word 4) (tenant : BitVec 6)
  /-- the management controller answers a record that holds no command (R397; log 27) -/
  | refuseRecord (src : MgmtSource)
  /-- the controller passes a request on to the supervisor, or posts a notice that it holds (R398; log 62) -/
  | supervisorRequest (data : Word)
  | postHeld
  /-- the supervisor takes back a monitor entry (R276) -/
  | reclaim (core : Fin 256) (n : Nat)
  /-- the acknowledgement of flits by the other end of a link (R316) -/
  | flitAck (port : Fin 30) (seq : BitVec 16)
  /-- a link-only flit that carries an acknowledgement, or is idle, goes out (R315) -/
  | linkOnly (port : Fin 30)
  /-- a link between two other devices goes down or comes up, or a link of this one is congested or no longer (R311) -/
  | farLink (a b : BitVec 8) (up : Bool)
  | congestion (port : Fin 30) (on : Bool)
  deriving DecidableEq, Repr

/-- Why the machine stops with a fault.  The one name is raised by every operation that reaches storage; stopping is
safe, since a claim about the run then ends there. -/
inductive Fault where
  /-- an access to an offset of a tier beyond the storage installed (R1, R92); raised by memory accesses and walks -/
  | absentStorage (byte : Nat)
  deriving DecidableEq, Repr, Inhabited

/-- Why there is no next state.  It is safe: it only ends the run; no arm of Dispatch raises it. -/
inductive Refusal where
  /-- an instruction that has no meaning yet; raised by Dispatch only -/
  | notModelled (mnemonic : String)
  deriving DecidableEq, Repr, Inhabited

/-- Everything of the device that is not memory, a core, a task, LEASEMAX, RAMPCFG or REKEYAT. -/
structure Device where
  tenants : Vector (Vector Word 4) 64 := .replicate 64 (.replicate 4 0)
  /-- access-table windows set so far (R324); one not listed is invalid -/
  windows : List (Target × BitVec 6 × BitVec 3 × Word × Word) := []
  /-- the tenant slots 24 to 31 -/
  handlers : Vector Handler 8 := .replicate 8 {}
  vltBarriers : Vector (Vector Barrier 16) 64 := .replicate 64 (.replicate 16 {})
  dieBarriers : Vector (Vector Barrier 32) 4 := .replicate 4 (.replicate 32 {})
  devBarriers : Vector Barrier 32 := .replicate 32 {}
  domBarriers : Vector Barrier 64 := .replicate 64 {}
  /-- phases, flags and swap bits of DOM barriers that another hub has told (R269, R273) -/
  domPhases : List (Nat × BitVec 16 × BitVec 8 × Bool) := []
  kernels : Vector (Option Kernel) 256 := .replicate 256 none
  serials : Vector (BitVec 32) 4 := .replicate 4 0
  /-- failed kernels that a dependence may still name: handle (R351) -/
  failed : List Word := []
  /-- questions of other devices about kernels not yet over, and the answers of other devices (R351) -/
  depAsked : List (Word × BitVec 8) := []
  depAnswers : List (Word × Bool) := []
  queues : Vector (List QItem) 4 := .replicate 4 []
  starts : Nat := 0
  saved : List Saved := []
  nextGid : Nat := 0
  nextTid : Nat := 0
  coll : Vector (Option CEntry) 64 := .replicate 64 none
  gathers : List Gather := []
  committed : List CName := []
  abortedNames : List (CName × BitVec 8) := []
  /-- abort acknowledgements awaited by a coordinator: name, members, who asked (device and identifier) -/
  abortWait : List (CName × List (BitVec 8) × Option (BitVec 8 × Nat)) := []
  /-- `cabort` instructions whose kv is awaited: identifier, task, token -/
  cabortWait : List (Nat × Nat × BitVec 3) := []
  /-- iterations sent and not wholly acknowledged (R339) -/
  collSends : List CollSend := []
  /-- posts that wait at their devices until this hub has room: device and name (R336) -/
  postWait : List (BitVec 8 × CName) := []
  nextTicket : BitVec 32 := 1
  tickets : List (CName × BitVec 32) := []
  chainWaits : List ChainWait := []
  migrations : List Migration := []
  invals : List Inval := []
  rx : List Packet := []
  netOut : List Packet := []
  /-- those of them that wait for a link: no flit that ends them has been sent (R313, R317) -/
  unsent : List Packet := []
  /-- messages whose way is closed, in the order they were sent (R311, R312) -/
  netHeld : List Packet := []
  /-- requests that have left for other devices and are not answered (R311, R317) -/
  outstanding : List Packet := []
  /-- links between two other devices that are down, and ports whose links are congested (R311) -/
  farDown : List (BitVec 8 × BitVec 8) := []
  congested : List Nat := []
  wireOut : List (Nat × BitVec 2048) := []
  /-- what the links have passed up: port, virtual channel, words (R316, R318) -/
  passedUp : List (Nat × BitVec 3 × List (BitVec 128)) := []
  /-- parts of posted writes that other devices have not answered -/
  remoteParts : List RemotePart := []
  /-- posted writes of tasks of this device that are performed at TSK scope and not yet at their targets (R21, R257) -/
  tskSeen : List Nat := []
  /-- writes whose flag question is out, and flag questions granted by other devices: the originating device and identifier
  of each write -/
  flagsAsked : List (BitVec 8 × Nat) := []
  granted : List (BitVec 8 × Nat) := []
  /-- flag questions granted by this device: originating device, identifier, byte of the flag (R327) -/
  flagsGranted : List (BitVec 8 × Nat × Nat) := []
  /-- atomics of this clock that handler engines served where they stood: engine, clock, place in it (R280; log 101) -/
  inPlace : List (Option Target × Nat × Nat) := []
  ports : Vector Port 30 := .replicate 30 {}
  poison : List Nat := []
  boot : Boot := .reset
  /-- the supervisor's first task has been started (R390) -/
  started : Bool := false
  version : BitVec 32 := 0
  error : BitVec 8 := 0
  coresUp : Nat := 0
  lpddrReady : Bool := false
  gddrReady : Bool := false
  fullService : Bool := false
  earlyService : Bool := false
  fwLocation : Word := 0
  fwLength : Word := 0
  hostQueue : Word := 0
  fused : BitVec 32 := 0
  measurement : List Byte := []
  superQueue : Word := 0
  noticeQueue : Word := 0
  servedHost : Nat := 0
  servedSuper : Nat := 0
  notices : List Notice := []
  /-- notices that the controller holds while the queue is full (R398) -/
  noticesHeld : List Notice := []
  /-- the commands posted and not served, by their queues in the order in which they arrived (R397) -/
  arrivals : List MgmtSource := []
  watchdog : Nat := 2 ^ 32
  monitorsKept : Nat := 0
  powerLimit : Nat := 1600
  energy : Word := 0
  /-- when the power controller last acted, in nanoseconds (R395) -/
  powered : Nat := 0
  errors : List (Nat × BitVec 32) := []
  rows : Nat := 1
  cols : Nat := 1
  devid : BitVec 8 := 0
  domid : BitVec 16 := 0
  sequencer : BitVec 8 := 0
  barrierHub : BitVec 8 := 0
  launched : Bool := false
  cycle : Word := 0
  clock : Nat := 0
  nanos : Nat := 0
  nextUid : Nat := 1
  draws : Nat := 0
  /-- host answers: offset, bytes or a refusal (R388) -/
  hostOut : List (BitVec 42 × Option (List Byte)) := []
  /-- attestation reports with their signatures and the certificates (R394) -/
  reports : List (List Byte × List Byte × List Byte) := []
  deriving DecidableEq, Repr, Inhabited

/-- The machine. -/
structure State where
  mem : List Host.Cell
  tasks : Vector (Option Task) 1024
  cores : Vector Core 256
  leasemax : Vector (BitVec 9) 256
  rampcfg : Vector (BitVec 16) 256
  rekeyat : Vector (BitVec 41) 30
  dev : Device
  agenda : List Move
  cur : Fin 1024
  eng : Engine
  held : Bool
  deriving DecidableEq, Repr

/-- The machine right after reset (R389): no task, no core up, memory with nothing listed. -/
def State.reset : State where
  mem := []
  tasks := .replicate 1024 none
  cores := .replicate 256 {}
  leasemax := .replicate 256 64
  rampcfg := .replicate 256 8
  rekeyat := .replicate 30 (BitVec.ofNat 41 (2 ^ 40))
  dev := {}
  agenda := []
  cur := 0
  eng := .s
  held := false

end Sys2Proof.Machine
end

