-- ==== Sys2Proof/Machine/Plan.lean ====
section
/-!
DEFINITION. How a meaning is written.  A meaning reads the state and names, one after another, the updates it makes;
it may instead stop: be held at issue, raise a trap, or end the run.  The next state is always the old one with a list
of updates applied, so whatever every update keeps, every step keeps.
-/

namespace Sys2Proof.Machine

/-- What an unlisted byte of memory reads as (log 4). -/
def emptyByte : Byte := 0

/-- The byte at an address of storage (log 7). -/
def Mem.read (m : List Host.Cell) (a : Nat) : Byte :=
  match m with
  | [] => emptyByte
  | c :: cs => if c.1 == a then c.2 else if a < c.1 then emptyByte else Mem.read cs a

/-- Memory with one byte changed, in canonical form: addresses rise, and no byte listed is the empty one. -/
def Mem.write (m : List Host.Cell) (a : Nat) (b : Byte) : List Host.Cell :=
  match m with
  | [] => if b == emptyByte then [] else [(a, b)]
  | c :: cs =>
    if c.1 < a then c :: Mem.write cs a b
    else
      let rest := if c.1 == a then cs else c :: cs
      if b == emptyByte then rest else (a, b) :: rest

/-- The canonical form: addresses strictly rising and no byte equal to what an unlisted byte reads as. -/
def Mem.wf : List Host.Cell → Bool
  | [] => true
  | [c] => c.2 != emptyByte
  | c :: d :: cs => c.2 != emptyByte && decide (c.1 < d.1) && Mem.wf (d :: cs)

/-- Memory with a run of bytes emptied. -/
def Mem.clear (m : List Host.Cell) (lo len : Nat) : List Host.Cell :=
  m.filter fun c => !(decide (lo ≤ c.1) && decide (c.1 < lo + len))

/-- One change of the state.  The registers with a limited range are written here and nowhere else, so that the limit
is kept in one place (R28, R321, R395). -/
inductive Upd where
  | bytes (cs : List Host.Cell)
  | clear (lo len : Nat)
  | task (l : Fin 1024) (t : Option Task)
  | core (c : Fin 256) (k : Core)
  | leasemax (c : Fin 256) (v : BitVec 64)
  | rampcfg (c : Fin 256) (v : BitVec 64)
  | rekeyat (p : Fin 30) (v : Nat)
  | dev (d : Device)
  | held
  | restart
  deriving DecidableEq, Repr

/-- LEASEMAX takes only 1 to 256 (R28).  DESIGN CHOICE (log 81): the field [8:0] of what is written is looked at alone, whatever
stands above it. -/
def leasemaxOk (v : BitVec 64) : Bool := decide (1 ≤ v.toNat % 512) && decide (v.toNat % 512 ≤ 256)

/-- RAMPCFG takes only 1 to 256 (R395), likewise of its field [15:0] (log 81). -/
def rampcfgOk (v : BitVec 64) : Bool := decide (1 ≤ v.toNat % 65536) && decide (v.toNat % 65536 ≤ 256)

/-- REKEYAT takes only 1 to 2^40 (R321). -/
def rekeyatOk (v : Nat) : Bool := decide (1 ≤ v) && decide (v ≤ 2 ^ 40)

/-- The state after one change. -/
def Upd.apply (s : State) : Upd → State
  | .bytes cs => { s with mem := cs.foldl (fun m c => Mem.write m c.1 c.2) s.mem }
  | .clear lo len => { s with mem := Mem.clear s.mem lo len }
  | .task l t => { s with tasks := s.tasks.set l t }
  | .core c k => { s with cores := s.cores.set c k }
  | .leasemax c v => if leasemaxOk v then { s with leasemax := s.leasemax.set c (v.setWidth 9) } else s
  | .rampcfg c v => if rampcfgOk v then { s with rampcfg := s.rampcfg.set c (v.setWidth 16) } else s
  | .rekeyat p v => if rekeyatOk v then { s with rekeyat := s.rekeyat.set p (BitVec.ofNat 41 v) } else s
  | .dev d => { s with dev := d }
  | .held => { s with held := true }
  | .restart => { State.reset with agenda := s.agenda, dev := { State.reset.dev with fused := s.dev.fused, draws := s.dev.draws } }

/-- The state after a list of changes, in order. -/
def applyAll (us : List Upd) (s : State) : State := us.foldl Upd.apply s

/-- A trap to be taken: the task's place, the engine, the address and word of the instruction, the cause, TRAPADDR and
the index of TRAPWORD[47:32] (R376). -/
structure TrapInfo where
  loc : Fin 1024
  eng : Engine
  pc : Word
  word : BitVec 32
  cause : Cause
  addr : Word
  index : BitVec 16 := 0
  /-- the clock in which it is raised -/
  clock : Nat := 0
  /-- an issued `mma` or copy raises it, to go on after a restore -/
  back : Bool := false
  deriving DecidableEq, Repr

/-- Why a meaning stops before its end. -/
inductive Stop where
  /-- the instruction is held at issue and tries again (R25); only the updates named here are made -/
  | hold (us : List Upd)
  /-- something is asked of a target first, and the instruction is held until the answer is there -/
  | ask (loc : Fin 1024) (a : Ask) (p : Packet)
  /-- a scalar instruction that completes before a save has begun, and is held (R112) -/
  | begin (loc : Fin 1024)
  | trap (t : TrapInfo)
  | fault (f : Fault)
  /-- nothing happens: an event whose condition does not hold, or an engine that issues nothing (R25) -/
  | idle
  deriving DecidableEq, Repr

/-- A meaning: it reads the state it starts from and adds updates. -/
abbrev M (α : Type) := StateT (List Upd) (ReaderT State (Except Stop)) α

/-- The state as it stands after the updates named so far. -/
def getState : M State := do
  let us ← get
  let s ← read
  pure (applyAll us s)

/-- Adds one update. -/
def emit (u : Upd) : M Unit := modify fun us => us ++ [u]

/-- Stops the meaning. -/
def stop {α : Type} (x : Stop) : M α := throw x

/-- The instruction waits (R25). -/
def hold {α : Type} : M α := stop (.hold [])

/-- The instruction waits, and what it has done so far stays done: its task is queued for the lease (R27). -/
def holdKeeping {α : Type} : M α := do
  let us ← get
  stop (.hold us)

/-- Waits unless the condition holds. -/
def waitFor (b : Bool) : M Unit := if b then pure () else hold

/-- An event whose own condition does not hold does not happen: the state stays as it is (log 1). -/
def notNow {α : Type} : M α := stop .idle

/-- An event's own condition. -/
def enabled (b : Bool) : M Unit := if b then pure () else notNow

def getDev : M Device := do
  let s ← getState
  pure s.dev

def setDev (f : Device → Device) : M Unit := do
  let s ← getState
  emit (.dev (f s.dev))

def getCore (c : Fin 256) : M Core := do
  let s ← getState
  pure (s.cores.get c)

def setCore (c : Fin 256) (f : Core → Core) : M Unit := do
  let s ← getState
  emit (.core c (f (s.cores.get c)))

def task? (l : Fin 1024) : M (Option Task) := do
  let s ← getState
  pure (s.tasks.get l)

/-- The task in a place; where there is none, nothing happens (R25). -/
def getTask (l : Fin 1024) : M Task := do
  let s ← getState
  match s.tasks.get l with
  | some t => pure t
  | none => stop .idle

/-- Changes the task in a place. -/
def setTask (l : Fin 1024) (f : Task → Task) : M Unit := do
  let s ← getState
  match s.tasks.get l with
  | some t => emit (.task l (some (f t)))
  | none => pure ()

/-- The core of a task's place; slots are numbered within it. -/
def coreOf (l : Fin 1024) : Fin 256 := ⟨l.val / 4, by omega⟩

/-- The slot of a task's place. -/
def slotOf (l : Fin 1024) : Fin 4 := ⟨l.val % 4, by omega⟩

/-- The place of a core's slot. -/
def place (c : Fin 256) (k : Fin 4) : Fin 1024 := ⟨4 * c.val + k.val, by omega⟩

/-- The code of a trap cause (R376). -/
def Cause.code : Cause → Nat
  | .illegal => 1
  | .reserved => 2
  | .privileged => 3
  | .align => 4
  | .page => 5
  | .perm => 6
  | .bounds => 7
  | .sealed => 8
  | .path => 9
  | .sched => 10
  | .layout => 11
  | .access => 12
  | .token => 13
  | .handler => 14
  | .padd => 15
  | .swtrap => 16
  | .mcheck => 17
  | .watchdog => 18

/-- The number of an engine (R69). -/
def engNum : Engine → Nat
  | .s => 0
  | .v => 1
  | .m => 2
  | .c => 3

/-- TRAPCAUSE of R69: cause [7:0], engine [9:8], level [10]. -/
def trapCause (c : Cause) (e : Engine) (level : Bool) : Word :=
  BitVec.ofNat 64 (c.code + engNum e * 2 ^ 8 + (if level then 1 else 0) * 2 ^ 10)

/-- The program counter of an engine. -/
def Task.pc (t : Task) : Engine → Word
  | .s => t.pcS
  | .v => t.pcV
  | .m => t.pcM
  | .c => t.pcC

/-- The task with an engine's program counter set. -/
def Task.setPc (t : Task) (e : Engine) (pc : Word) : Task :=
  match e with
  | .s => { t with pcS := pc }
  | .v => { t with pcV := pc }
  | .m => { t with pcM := pc }
  | .c => { t with pcC := pc }

/-- Whether an engine of the task has ended (R15). -/
def Task.ended (t : Task) : Engine → Bool
  | .s => t.endS
  | .v => t.endV
  | .m => t.endM
  | .c => t.endC

/-- What a trap of the scalar engine leaves of a held instruction: a `bar sub=sync` that has arrived never arrives twice
(R112). -/
def HeldS.afterTrap : HeldS → HeldS
  | .resumeSync phase => .resumeSync phase
  | .barrier _ phase true _ => .resumeSync phase
  | _ => .none

/-- Whether a trap of an engine is recorded: none is yet, or that of a higher engine in the same clock (R379). -/
def Task.records (t : Task) (clock : Nat) (e : Engine) : Bool :=
  t.mode != .saving 2 || match t.trapAt with
    | some (c, x) => c == clock && decide (engNum e < engNum x)
    | none => false

/-- TAKING A TRAP (R68, R376 to R379): the four trap registers are written and the task leaves the ready set, to be
saved with cause 2.  A task that has recorded a trap already keeps it, but for that of a higher engine in the same clock;
the instruction whose trap is not recorded counts as unissued. -/
def takeTrap (i : TrapInfo) (t : Task) : Task :=
  let records := t.records i.clock i.eng
  let t := { t with asked := t.asked.filter fun a => a.eng != i.eng, answers := t.answers.filter fun a => a.eng != i.eng
                    held := if i.eng == .s then t.held.afterTrap else t.held }
  if !records then t
  else
    { t with
      trapAt := some (i.clock, i.eng)
      backM := if i.back && i.eng == .m then some i.pc else none
      backC := if i.back && i.eng == .c then some i.pc else none
      trapcause := trapCause i.cause i.eng t.level
      trappc := i.pc
      trapword := BitVec.ofNat 64 (i.word.toNat + i.index.toNat * 2 ^ 32)
      trapaddr := i.addr
      mode := .saving 2 }

/-- The updates that a trap makes. -/
def trapUpds (i : TrapInfo) (s : State) : List Upd :=
  match s.tasks.get i.loc with
  | some t => [.task i.loc (some (takeTrap { i with clock := s.dev.clock } t))]
  | none => []

/-- A trap is taken, and the meaning goes on (R376). -/
def raise (i : TrapInfo) : M Unit := do
  let d ← getDev
  setTask i.loc (takeTrap { i with clock := d.clock })

/-! Sending messages. -/

/-- The origin of a request, where it has one. -/
def Body.origin? (b : Body) : Option Origin :=
  match b with
  | .store _ o _ _ => some o
  | .aliasStore _ o _ => some o
  | .atomic _ o _ _ _ _ _ _ _ => some o
  | .read _ o _ _ => some o
  | .write _ o _ _ => some o
  | .remoteAtomic _ o _ _ _ _ _ => some o
  | .flagAsk _ o _ => some o
  | _ => none

/-- Whether two origins are the same engine of the same task. -/
def Origin.same (a b : Origin) : Bool := a.dev == b.dev && a.tid == b.tid && a.eng == b.eng

/-- The number of positions an access touches (R97). -/
def Want.span : Want → Nat
  | .bytes n => n
  | .run n => n
  | _ => 1

/-- The granule of an atomic on a word (R279), by the word's address. -/
def granuleAt (a : Word) : Nat × Nat := (a.toNat / 32 * 32, 32)

/-- The addresses that a request names: each the first of so many. -/
def Body.named (b : Body) : List (Nat × Nat) :=
  match b with
  | .store _ _ ws f => ws.map (fun w => (w.addr.toNat, w.span)) ++ (f.map fun x => granuleAt x.addr).toList
  | .aliasStore _ _ ws => ws.map fun w => (w.addr.toNat, 1)
  | .atomic _ _ _ _ _ _ _ _ a => [granuleAt a]
  | .read _ _ a want => [(a.toNat, want.span)]
  | .write _ _ ws f => ws.map (fun w => (w.1.toNat, w.2.1.span)) ++ (f.map granuleAt).toList
  | .remoteAtomic _ _ _ _ _ _ a => [granuleAt a]
  | .flagAsk _ _ a => [granuleAt a]
  | _ => []

/-- Whether two requests are of one engine and name addresses in common, in steps of `k` addresses. -/
def Body.share (k : Nat) (a b : Body) : Bool :=
  match a.origin?, b.origin? with
  | some o, some q => o.same q && a.named.any fun x => b.named.any fun y =>
      decide (x.1 / k ≤ (y.1 + y.2 - 1) / k) && decide (y.1 / k ≤ (x.1 + x.2 - 1) / k)
  | _, _ => false

/-- Whether two requests are of one engine and name one location through one path and address (R258). -/
def Body.sameLocation (a b : Body) : Bool := a.share 1 b

/-- Whether two requests are of one engine and may name one block of 32 bytes: such a block holds at most 256 elements, each
of at most 32 positions (R91, R311). -/
def Body.sameBlock (a b : Body) : Bool := a.share 8192 b

/-- The port of a device to another of its row or column (R309). -/
def portTo (me dev : BitVec 8) : Nat :=
  let r := me.toNat / 16
  let c := me.toNat % 16
  let r' := dev.toNat / 16
  let c' := dev.toNat % 16
  if r' == r then (if c' < c then c' else c' - 1) else 15 + (if r' < r then r' else r' - 1)

/-- Whether this device's link to another of its row or column is up. -/
def linkUp (d : Device) (dev : BitVec 8) : Bool :=
  if h : portTo d.devid dev < 30 then (d.ports.get ⟨portTo d.devid dev, h⟩).up else false

/-- Whether the link between two other devices is up (R311). -/
def farUp (d : Device) (a b : BitVec 8) : Bool := !d.farDown.contains (a, b) && !d.farDown.contains (b, a)

/-- The device at a place of the grid (R308). -/
def gridDev (r c : Nat) : BitVec 8 := BitVec.ofNat 8 (16 * r + c)

/-- The next device on the way to another, and whether a detour begins there (R310 to R312): along the row first; where
the link is down or congested, through the lowest third device of the row or column whose two links are up, unless the
traffic is ordered or a detour has been taken in the dimension.  None when the way is closed: to ordered traffic, by any
link of its route. -/
def nextHop (d : Device) (dst : BitVec 8) (ordered rowDetour colDetour : Bool) : Option (BitVec 8 × Bool) :=
  let r := d.devid.toNat / 16
  let c := d.devid.toNat % 16
  let row := dst.toNat % 16 != c
  let direct := if row then gridDev r (dst.toNat % 16) else dst
  let open_ := linkUp d direct && (!ordered || direct == dst || farUp d direct dst)
  let third := if ordered || (if row then rowDetour else colDetour) then none
    else ((List.range (if row then d.cols else d.rows)).map fun i => if row then gridDev r i else gridDev i c).find? fun x =>
      x != d.devid && x != direct && linkUp d x && farUp d x direct
  if open_ && (ordered || third.isNone || !d.congested.contains (portTo d.devid direct)) then some (direct, false)
  else third.map fun x => (x, true)

/-- Requests whose way later ones of their engine to their block take (R311): those of this device that are not answered, and of
others those that still wait for a link here or stand in its replay buffer (log 14). -/
def Device.under (d : Device) : List Packet :=
  d.outstanding ++ d.unsent ++ d.ports.toList.flatMap fun p => p.carried.map Prod.snd

/-- A message with its next hop (R310 to R312): as an earlier request of its engine to its block that is not answered yet,
none while that link is down (R311); else as the links stand. -/
def Packet.route (p : Packet) (d : Device) : Option Packet :=
  match d.under.find? fun q => q.dst == p.dst && q.body.sameBlock p.body with
  | some q => if linkUp d q.via then some { p with via := q.via, rowDetour := q.rowDetour, colDetour := q.colDetour } else none
  | none =>
    (nextHop d p.dst (p.vc == 5) p.rowDetour p.colDetour).map fun (x, turns) =>
      let row := p.dst.toNat % 16 != d.devid.toNat % 16
      { p with via := x, rowDetour := p.rowDetour || (turns && row), colDetour := p.colDetour || (turns && !row) }

/-- A message leaves for the link to its next hop, and waits there for a flit (R313). -/
def Device.leave (d : Device) (q : Packet) : Device :=
  { d with netOut := d.netOut ++ [q], unsent := d.unsent ++ [q] }

/-- A message is sent: to this device it waits in `rx`, to another it leaves, or is held until its way opens (R312). -/
def Device.post (d : Device) (p : Packet) : Device :=
  if p.dst == d.devid then { d with rx := d.rx ++ [p] }
  else match p.route d with
    | some q =>
      let mine := p.src == d.devid && p.body.origin?.isSome
      { d.leave q with outstanding := if mine then d.outstanding ++ [q] else d.outstanding }
    | none => { d with netHeld := d.netHeld ++ [p] }

/-- The messages held are tried again, in the order they were sent (R311, R312). -/
def Device.release (d : Device) : Device := d.netHeld.foldl Device.post { d with netHeld := [] }

/-- The identifier of the request of this device that a message answers, and whether it answers a flag question. -/
def Body.answers (b : Body) : Option (Nat × Bool) :=
  match b with
  | .reply u _ _ _ _ => some (u, false)
  | .ack u _ => some (u, false)
  | .refuse u _ _ => some (u, false)
  | .flagGrant u _ => some (u, true)
  | .flagRefuse u _ _ => some (u, true)
  | _ => none

/-- Whether a message that came answers a request that left. -/
def Packet.answeredBy (q p : Packet) : Bool :=
  match p.body.answers, q.body with
  | some (u, flag), .flagAsk w _ _ => flag && u == w && p.src == q.dst
  | some (u, flag), .read w _ _ _ => !flag && u == w && p.src == q.dst
  | some (u, flag), .write w _ _ _ => !flag && u == w && p.src == q.dst
  | some (u, flag), .remoteAtomic w _ _ _ _ _ _ => !flag && u == w && p.src == q.dst
  | _, _ => false

/-- The n-th message is taken out; the request that it answers is so no more, and what was held behind it is tried again
(R311). -/
def Device.taken (d : Device) (n : Nat) : Device :=
  let left := match d.rx[n]? with
    | some p => d.outstanding.filter fun q => !q.answeredBy p
    | none => d.outstanding
  let d' := { d with rx := d.rx.eraseIdx n, outstanding := left }
  if left.length == d.outstanding.length then d' else d'.release

/-- The updates that asking a target makes: the packet leaves, or waits here when this device is asked itself; the
question is noted, the engine is held. -/
def askUpds (l : Fin 1024) (a : Ask) (p : Packet) (s : State) : List Upd :=
  match s.tasks.get l with
  | some t =>
    [.task l (some { t with asked := t.asked ++ [a] }),
     .dev { s.dev.post p with nextUid := s.dev.nextUid + 1 }, .held]
  | none => [.held]

/-- The updates that a scalar instruction makes when it begins and is held (R112). -/
def beginUpds (l : Fin 1024) (s : State) : List Upd :=
  match s.tasks.get l with
  | some t => [.task l (some { t with held := .begun }), .held]
  | none => [.held]

/-- The outcome of a meaning: the updates applied; or, where it stops, what the stop says. -/
def conclude (m : M Unit) (s : State) : Host.Outcome State Fault Refusal :=
  match m [] s with
  | .ok (_, us) => .next (applyAll us s)
  | .error (.hold us) => .next (applyAll (us ++ [.held]) s)
  | .error (.ask l a p) => .next (applyAll (askUpds l a p s) s)
  | .error (.begin l) => .next (applyAll (beginUpds l s) s)
  | .error (.trap i) => .next (applyAll (trapUpds i s) s)
  | .error (.fault f) => .fault f
  | .error .idle => .next s

/-- The state after a meaning's updates, or unchanged when it stops. -/
def afterAll (m : M Unit) (s : State) : State :=
  match m [] s with
  | .ok (_, us) => applyAll us s
  | .error _ => s

end Sys2Proof.Machine
end

