-- ==== Sys2Proof/Machine/Memory.lean ====
section
/-!
DEFINITION. Storage, the walk and its caches, the access tables, and where an address leads (05, 18 R324 to R326,
24 R384 to R387).  Storage bytes are numbered as log 7 says: tier x 2^40 + offset for tiers 0 to 2, then the cores'
scratchpads, accumulators and register files.
-/

namespace Sys2Proof.Machine

/-- A byte of a core's scratchpad, accumulator tile or tile register (log 7). -/
def spadByte (c : Fin 256) (off : Nat) : Nat := 2 ^ 42 + c.val * 2 ^ 19 + off
def accByte (c : Fin 256) (tile off : Nat) : Nat := 2 ^ 43 + c.val * 2 ^ 20 + tile * 2 ^ 16 + off
def tileByte (c : Fin 256) (bank off : Nat) : Nat := 2 ^ 44 + c.val * 2 ^ 21 + bank * 2 ^ 15 + off
def vaultByte (vault off : Nat) : Nat := 2 * 2 ^ 40 + vault * 2 ^ 24 + off

/-- Whether a byte of a tier is installed (R1, R92). -/
def byteExists (a : Nat) : Bool :=
  if a < 2 ^ 40 then decide (a < Config.gddrBytes)
  else if a < 2 * 2 ^ 40 then decide (a - 2 ^ 40 < Config.lpddrBytes)
  else if a < 3 * 2 ^ 40 then
    decide ((a - 2 * 2 ^ 40) / 2 ^ 24 < 64) && decide ((a - 2 * 2 ^ 40) % 2 ^ 24 < Config.vaultBytes)
  else decide (2 ^ 42 ≤ a)

/-- The number that `n` bytes from address `a` hold, little-endian (R2). -/
def readBytes (m : List Host.Cell) (a : Nat) : Nat → Nat
  | 0 => 0
  | n + 1 => (Mem.read m a).toNat + 256 * readBytes m (a + 1) n

/-- The bytes of a number, little-endian (R2). -/
def byteCells (a : Nat) : Nat → Nat → List Host.Cell
  | 0, _ => []
  | n + 1, v => (a, BitVec.ofNat 8 v) :: byteCells (a + 1) n (v / 256)

/-- `w` bits from bit `bit` of storage (R89). -/
def readBits (m : List Host.Cell) (bit w : Nat) : Nat :=
  readBytes m (bit / 8) ((bit % 8 + w + 7) / 8) / 2 ^ (bit % 8) % 2 ^ w

/-- The bytes that change when `w` bits from bit `bit` become `v`; other bits of the bytes stay (R102). -/
def bitCells (m : List Host.Cell) (bit w v : Nat) : List Host.Cell :=
  let n := (bit % 8 + w + 7) / 8
  let lo := bit % 8
  let old := readBytes m (bit / 8) n
  byteCells (bit / 8) n (old % 2 ^ lo + v % 2 ^ w * 2 ^ lo + old / 2 ^ (lo + w) * 2 ^ (lo + w))

/-- Memory with cells written in order. -/
def Mem.writeAll (m : List Host.Cell) (cs : List Host.Cell) : List Host.Cell :=
  cs.foldl (fun m c => Mem.write m c.1 c.2) m

/-- Memory with `w` bits written. -/
def Mem.writeBits (m : List Host.Cell) (bit w v : Nat) : List Host.Cell := Mem.writeAll m (bitCells m bit w v)

/-- The first byte of the unit of poison that holds a byte: 64 bytes of device memory, 8 of SRAM (R386). -/
def poisonUnit (a : Nat) : Nat := if a < 2 * 2 ^ 40 then a / 64 * 64 else a / 8 * 8

/-- Whether any byte of a range is poisoned; ranges are short and a unit is at least 8 bytes. -/
def rangePoisoned (poison : List Nat) (lo len : Nat) : Bool :=
  poison.any fun u => decide (u < lo + len) && decide (lo < u + (if u < 2 * 2 ^ 40 then 64 else 8))

/-- Kinds of access (R97). -/
inductive Acc where
  | read | write | atomic | fetch
  deriving DecidableEq, Repr, Inhabited

/-- Why an access fails: a trap cause, or storage that is not there (R1). -/
inductive WErr where
  | cause (c : Cause)
  | absent (byte : Nat)
  deriving DecidableEq, Repr, Inhabited

abbrev W (α : Type) := Except WErr α

/-- Fails with a cause unless the condition holds. -/
def require (c : Cause) (b : Bool) : W Unit := if b then pure () else throw (.cause c)

/-- The bits [hi:lo] of a qword (R2). -/
def bits (w : Nat) (hi lo : Nat) : Nat := w / 2 ^ lo % 2 ^ (hi + 1 - lo)

/-- The byte that a location names (R92); none when a reserved bit is set, the tier is 3 or the vault is absent. -/
def locByte (w : Nat) : Option Nat :=
  if bits w 63 42 != 0 then none
  else
    match bits w 41 40 with
    | 3 => none
    | 2 => if bits w 39 24 < 64 && bits w 23 0 < Config.vaultBytes then some (2 * 2 ^ 40 + bits w 39 0) else none
    | t => some (t * 2 ^ 40 + bits w 39 0)

/-- The translation hardware reads `n` bytes of a table or record (R92, R325, R387, R391). -/
def readTable (s : State) (a n : Nat) : W Nat := do
  if !byteExists a || !byteExists (a + n - 1) then throw (.absent a)
  require .page (decide (2 ^ 40 ≤ a) || s.dev.fullService)
  require .mcheck (!rangePoisoned s.dev.poison a n)
  pure (readBytes s.mem a n)

/-- What a leaf and its object give for a page (R94, R98). -/
structure Leaf where
  page : Nat
  large : Bool
  record : Nat
  perms : BitVec 12
  object : Nat
  first : Nat
  length : Nat
  deriving DecidableEq, Repr, Inhabited

/-- The width of a plane word's width code (R91). -/
def planeWidth (pw : Nat) : Nat := 2 ^ bits pw 12 10

/-- The ratio of a plane word (R91). -/
def planeRatio (pw : Nat) : Nat :=
  match bits pw 9 8 with
  | 0 => 1
  | 1 => 8
  | 2 => 16
  | _ => 32

/-- Whether a plane word keeps R91. -/
def planeWordOk (pw : Nat) : Bool :=
  bits pw 47 32 == 0 && bits pw 15 13 == 0 && bits pw 7 1 == 0 &&
  (bits pw 0 0 == 0 ||
    (decide (bits pw 12 10 ≤ 6) && [0, 1, 3, 4, 12].contains (bits pw 25 21) &&
      (if bits pw 20 16 == 31 then decide (planeWidth pw ≤ 8)
       else decide (bits pw 20 16 ≤ 14) && planeWidth pw == fmtWidth (bits pw 20 16))))

/-- The first position and length of an object descriptor that keeps R90 and R91, else PAGE (R96). -/
def readDescriptor (s : State) (desc : Nat) : W (Nat × Nat) := do
  let d ← readTable s desc 256
  let q := fun i => d / 2 ^ (64 * i) % 2 ^ 64
  require .page (bits (q 0) 63 57 == 0 && bits (q 0) 56 0 != 0 && bits (q 1) 63 57 == 0 &&
    bits (q 1) 15 0 == 0 && decide (bits (q 1) 56 0 + bits (q 0) 56 0 ≤ 2 ^ 57) &&
    q 2 == 0 && q 3 == 0 && (List.range 8).all (fun i => q (8 + i) == 0) &&
    (List.range 16).all (fun i => planeWordOk (q (16 + i))))
  pure (bits (q 1) 56 0, bits (q 0) 56 0)

/-- Where a tenant's tables stand (R92): the L3 table, the object table and the number of descriptors. -/
def tenantTables (s : State) (tenant : BitVec 6) : W (Nat × Nat × Nat) := do
  let e := s.dev.tenants.get tenant.toFin
  require .page ((e.get 0).toNat == 1)
  match locByte (e.get 1).toNat, locByte (e.get 2).toNat with
  | some l3, some ot =>
    require .page (decide (l3 < 2 * 2 ^ 40) && l3 % 2 ^ 15 == 0 && decide (ot < 2 * 2 ^ 40) && ot % 256 == 0)
    pure (l3, ot, (e.get 3).toNat)
  | _, _ => throw (.cause .page)

/-- The next table of a table entry (R93). -/
def tableEntry (e : Nat) : Option Nat :=
  let q0 := e % 2 ^ 64
  if bits q0 63 62 == 1 && bits q0 61 42 == 0 && e / 2 ^ 64 == 0 then
    match locByte (bits q0 41 0) with
    | some a => if a < 2 * 2 ^ 40 && a % 2 ^ 14 == 0 then some a else none
    | none => none
  else none

/-- The fields of a leaf (R94): record, permissions, object number. -/
def leafEntry (e : Nat) : Option (Nat × BitVec 12 × Nat) :=
  let q0 := e % 2 ^ 64
  let q1 := e / 2 ^ 64
  if bits q0 63 62 == 2 && bits q0 61 42 == 0 && bits q1 51 24 == 0 then
    match locByte (bits q0 41 0) with
    | some a =>
      if a < 2 * 2 ^ 40 && a % 128 == 0 then some (a, BitVec.ofNat 12 (bits q1 63 52), bits q1 23 0) else none
    | none => none
  else none

/-- The levels of the walk from `lvl` (0 for L3) down to the leaf (R93, R97): the leaf and whether it is large. -/
def walkLevels (s : State) (pos : Nat) : Nat → Nat → Nat → W (Nat × BitVec 12 × Nat × Bool)
  | 0, _, _ => throw (.cause .page)
  | k + 1, lvl, tab => do
    let i := match lvl with
      | 0 => bits pos 56 46
      | 1 => bits pos 45 36
      | 2 => bits pos 35 26
      | _ => bits pos 25 16
    let e ← readTable s (tab + 16 * i) 16
    match (if lvl ≤ 2 then tableEntry e else none), (if 2 ≤ lvl then leafEntry e else none) with
    | some next, _ => walkLevels s pos k (lvl + 1) next
    | none, some (r, p, o) => pure (r, p, o, lvl == 2)
    | none, none => throw (.cause .page)

/-- The leaf of a position without the caches (R97 to the object read); the leaf's permissions are tested before its
object is read. -/
def walkLeaf (s : State) (tenant : BitVec 6) (pos : Nat) (grants : BitVec 12 → Bool) : W Leaf := do
  let (l3, ot, n) ← tenantTables s tenant
  let (record, perms, object, large) ← walkLevels s pos 4 0 l3
  require .page (decide (object < n))
  require .perm (grants perms)
  let (first, length) ← readDescriptor s (ot + 256 * object)
  pure { page := pos / (if large then 2 ^ 26 else 2 ^ 16), large, record, perms, object, first, length }

/-- The entry of a core's position TLB for a position (R98). -/
def cachedLeaf (s : State) (core : Option (Fin 256)) (tenant : BitVec 6) (pos : Nat) : Option Leaf :=
  match core with
  | none => none
  | some c =>
    ((s.cores.get c).posTlb.find? fun e =>
      e.tenant == tenant && e.page == pos / (if e.large then 2 ^ 26 else 2 ^ 16)).map fun e =>
        { page := e.page, large := e.large, record := e.record, perms := e.perms, object := e.object,
          first := e.first, length := e.length }

/-- Whether the engine's group grants the kind (R94, R97). -/
def permOk (perms : BitVec 12) (e : Engine) (k : Acc) : Bool :=
  let g := perms.toNat / 2 ^ (9 - 3 * engNum e) % 8
  match k with
  | .read => 4 ≤ g
  | .write => g / 2 % 2 == 1
  | .atomic => 6 ≤ g
  | .fetch => g % 2 == 1

/-- Whether a frame word's permission field grants the kind (R95, R97). -/
def framePermOk (fw : Nat) (k : Acc) : Bool :=
  let p := bits fw 25 23
  match k with
  | .read => 4 ≤ p
  | .fetch => 4 ≤ p
  | .write => p / 2 % 2 == 1
  | .atomic => p == 7

/-- Where a position of a plane stands. -/
structure Found where
  bit : Nat
  width : Nat
  pw : Nat
  fw : Nat
  /-- the byte address of the frame word and of the object descriptor -/
  fwByte : Nat
  desc : Nat
  /-- a ZERO-tier word: every element reads as zero (R95) -/
  zero : Bool
  leaf : Leaf
  deriving DecidableEq, Repr, Inhabited

/-- A frame word that names another frame (R95). -/
def frameNaming (fw byte : Nat) : Nat := fw % 2 ^ 30 + byte / 2 ^ 40 * 2 ^ 30 + byte % 2 ^ 40 / 256 * 2 ^ 32

/-- The frame word at a byte address as a core may use it: while the core has not acknowledged the end of the word's
migration, it goes by the source frame still (R104). -/
def usableWord (s : State) (core : Fin 256) (at_ fw : Nat) : Nat :=
  match s.dev.migrations.find? fun m => m.word == at_ && m.forwarding &&
      s.dev.invals.any fun v => m.inval == some v.id && v.waiting.contains core.val with
  | some m => frameNaming fw m.source
  | none => fw

/-- The frame word, from a core's cache or from the record (R95, R98, R104). -/
def frameWord (s : State) (core : Option (Fin 256)) (tenant : BitVec 6) (leaf : Leaf) (plane : Nat) : W Nat :=
  match core with
  | none => readTable s (leaf.record + 8 * plane) 8
  | some c =>
    match (s.cores.get c).frames.find? fun (e : FrameEntry) =>
        e.tenant == tenant && e.page == leaf.page && e.large == leaf.large && e.record == leaf.record &&
          e.plane.toNat == plane with
    | some e => pure e.word.toNat
    | none => (usableWord s c (leaf.record + 8 * plane)) <$> readTable s (leaf.record + 8 * plane) 8

/-- Whether a frame word keeps R95.  DESIGN CHOICE (log 77): the frame field of a ZERO-tier word is not looked at. -/
def frameWordOk (fw : Nat) : Bool :=
  bits fw 4 0 == 0 && bits fw 27 26 != 3 &&
  (if bits fw 31 30 == 3 then bits fw 29 29 == 0
   else if bits fw 31 30 == 2 then
     bits fw 29 29 == 0 || (decide (bits fw 63 48 < 64) && decide (bits fw 47 32 * 256 < Config.vaultBytes))
   else true)

/-- The bits an access moves, when a plane has elements of `w` bits. -/
def Want.size (w : Nat) : Want → Nat
  | .bytes n => 8 * n
  | .element => w
  | .run n => n * w
  | .width v => v
  | .scale v _ => v
  | .plane v _ => v

/-- The size and alignment rules of an access (R72, R184, R297): on a plane of a width and ratio, or through ALIAS, where an
element has 16 bits and no access has a size (R108). -/
def sizeOk (want : Want) (byAlias : Bool) (width ratio pos : Nat) : W Unit :=
  if byAlias then require .path (want == .element || want == .width 16)
  else match want with
    | .element => pure ()
    | .run _ => pure ()
    | .width w => require .path (width == w)
    | .scale w r => require .path (width == w && ratio == r)
    | .plane w r => require .path (width == w && ratio == r)
    | .bytes b => do
      require .path (width == 8)
      require .align (pos % b == 0)

/-- TRANSLATE of R97 up to the sealed bit, with the size and alignment rules of the access where R97 puts them. -/
def walk (s : State) (core : Option (Fin 256)) (tenant : BitVec 6) (e : Engine) (k : Acc) (want : Want)
    (plane pos : Nat) (byAlias : Bool := false) : W Found := do
  let (_, ot, n) ← tenantTables s tenant
  let leaf ← match cachedLeaf s core tenant pos with
    | some l => pure l
    | none => walkLeaf s tenant pos fun perms => permOk perms e k
  require .perm (permOk leaf.perms e k)
  require .page (decide (leaf.object < n))
  let desc := ot + 256 * leaf.object
  require .bounds (decide (leaf.first ≤ pos) && decide (pos - leaf.first + want.span ≤ leaf.length))
  let pw ← readTable s (desc + 128 + 8 * plane) 8
  require .page (planeWordOk pw)
  require .path (bits pw 0 0 == 1)
  require .path (k != .fetch || planeWidth pw == 8)
  sizeOk want byAlias (planeWidth pw) (planeRatio pw) pos
  let fw ← frameWord s core tenant leaf plane
  require .page (frameWordOk fw)
  let size := if leaf.large then 2 ^ 26 else 2 ^ 16
  let el := pos % size / planeRatio pw
  let base := bits fw 31 30 * 2 ^ 40 + bits fw 63 32 * 256
  let found : Found :=
    { bit := base * 8 + el * planeWidth pw, width := planeWidth pw, pw, fw, fwByte := leaf.record + 8 * plane, desc,
      zero := bits fw 31 30 == 3, leaf }
  if found.zero then
    require .page (k == .read || k == .fetch)
    pure found
  else
    require .page (bits fw 29 29 == 1)
    require .perm (framePermOk fw k)
    require .sealed (bits fw 28 28 == 0 || k == .read || k == .fetch)
    require .page (bits fw 31 30 != 0 || s.dev.fullService)
    if !byteExists (found.bit / 8) then throw (.absent (found.bit / 8))
    pure found

/-- The target that serves a byte of tiers 0 to 2 (R278, R324); none for a core's own memory. -/
def targetOf (forAtomic : Bool) (a : Nat) : Option Target :=
  if a < 2 ^ 40 then
    let q := Config.gddrBytes / 4
    let n := 12 * (a / q) + a % q / 256 % 12
    some (if forAtomic then .gddrHandler n else .gddr n)
  else if a < 2 * 2 ^ 40 then
    let n := (a - 2 ^ 40) / 256 % Config.lpddrControllers
    some (if forAtomic then .lpddrHandler n else .lpddr n)
  else if a < 3 * 2 ^ 40 then some (.vault ((a - 2 * 2 ^ 40) / 2 ^ 24))
  else none

/-- Whether a window is valid for a target (R324, R325): valid bit, reserved bits zero, limit above base. -/
def windowValid (tg : Target) (q0 q1 : Nat) : Bool :=
  bits q0 63 63 == 1 && bits q0 59 56 == 0 && bits q0 11 0 == 0 && bits q1 63 40 == 0 && bits q1 11 0 == 0 &&
  (match tg with
   | .ingress => bits q0 39 12 == 0 && bits q1 39 12 == 0 && decide (bits q0 47 40 ≤ bits q0 55 48)
   | .gddrHandler _ => bits q0 55 40 == 0 && bits q0 62 61 == 0 && decide (bits q0 39 12 < bits q1 39 12)
   | .lpddrHandler _ => bits q0 55 40 == 0 && bits q0 62 61 == 0 && decide (bits q0 39 12 < bits q1 39 12)
   | .gddr _ => bits q0 55 40 == 0 && bits q0 60 60 == 0 && decide (bits q0 39 12 < bits q1 39 12)
   | .lpddr _ => bits q0 55 40 == 0 && bits q0 60 60 == 0 && decide (bits q0 39 12 < bits q1 39 12)
   | .vault _ => bits q0 55 40 == 0 && decide (bits q0 39 12 < bits q1 39 12)
   | .hostPort => bits q0 55 40 == 0 && decide (bits q0 39 12 < bits q1 39 12))

/-- The bit of qword 0 that grants a kind of request (R324). -/
def windowGrants (k : Acc) (q0 : Nat) : Bool :=
  match k with
  | .read => bits q0 62 62 == 1
  | .fetch => bits q0 62 62 == 1
  | .write => bits q0 61 61 == 1
  | .atomic => bits q0 60 60 == 1

/-- Whether some valid window of the tenant at a target grants a kind at an offset (R325, R326). -/
def targetGrants (s : State) (tg : Target) (tenant : BitVec 6) (k : Acc) (off : Nat) : Bool :=
  s.dev.windows.any fun (t, te, _, q0, q1) =>
    t == tg && te == tenant && windowValid tg q0.toNat q1.toNat && windowGrants k q0.toNat &&
    decide (bits q0.toNat 39 12 * 4096 ≤ off) && decide (off < bits q1.toNat 39 12 * 4096)

/-- Whether the access tables grant a byte of storage (R325); a core's own memory has none. -/
def byteGranted (s : State) (tenant : BitVec 6) (k : Acc) (a : Nat) : Bool :=
  match targetOf (k == .atomic) a with
  | none => true
  | some tg => targetGrants s tg tenant k (a % 2 ^ 40)

/-- The first bytes of the units of 2^`k` bytes that a range touches. -/
def unitsOf (k lo len : Nat) : List Nat :=
  (List.range ((lo + len - 1) / 2 ^ k - lo / 2 ^ k + 1)).map fun i => (lo / 2 ^ k + i) * 2 ^ k

/-- The first bytes of the 4 KiB pages that a range touches: a window begins and ends between pages (R324). -/
def pagesOf (lo len : Nat) : List Nat := unitsOf 12 lo len

/-- Whether the tables grant every byte of an element or a run; windows and targets change only between units of 256
bytes (R278, R324), so each unit's first byte decides (R326).  Supervisor level is not checked (R325). -/
def bitsGranted (s : State) (tenant : BitVec 6) (level : Bool) (k : Acc) (bit width : Nat) : Bool :=
  level || (unitsOf 8 (bit / 8) ((bit % 8 + width + 7) / 8)).all (byteGranted s tenant k)

/-- Whether the fabric ingress lets a request of a source device in (R325). -/
def ingressGrants (s : State) (tenant : BitVec 6) (level : Bool) (k : Acc) (src : BitVec 8) : Bool :=
  level || s.dev.windows.any fun (t, te, _, q0, q1) =>
    t == .ingress && te == tenant && windowValid .ingress q0.toNat q1.toNat && windowGrants k q0.toNat &&
    decide (bits q0.toNat 47 40 ≤ src.toNat) && decide (src.toNat ≤ bits q0.toNat 55 48)

/-- The path field of an address (R87). -/
def pathOf (a : Word) : Nat := bits a.toNat 63 61

/-- The plane field of an address (R87). -/
def planeOf (a : Word) : Nat := bits a.toNat 60 57

/-- The position field of an address (R87). -/
def posOf (a : Word) : Nat := bits a.toNat 56 0

/-- Whether a device id lies in the domain (R308). -/
def inDomain (d : Device) (id : Nat) : Bool := decide (id / 16 < d.rows) && decide (id % 16 < d.cols)

/-- The device that an address names (R88, R266). -/
def deviceOf (d : Device) (a : Word) : Nat := if pathOf a == 5 then bits a.toNat 56 49 else d.devid.toNat

/-- The position that an address names on its device (R88). -/
def positionOf (a : Word) : Nat := if pathOf a == 5 then bits a.toNat 48 0 else posOf a

/-- The word of a plane of the object that a base of this device stands in (R90, R91); none where its walk finds no
object. -/
def planeWord (s : State) (tenant : BitVec 6) (a : Word) (plane : Nat) : Option Nat :=
  let pos := positionOf a
  match tenantTables s tenant, walkLeaf s tenant pos fun _ => true with
  | .ok (_, ot, _), .ok f =>
    match readTable s (ot + 256 * f.object + 128 + 8 * plane) 8 with
    | .ok pw => some pw
    | .error _ => none
  | _, _ => none

/-- Whether the plane of an address exists in the object that it stands in, with a width and a ratio (R204); a ratio of 0
stands for any. -/
def planeThere (s : State) (tenant : BitVec 6) (a : Word) (w ratio : Nat) : Bool :=
  match planeWord s tenant a (planeOf a) with
  | some pw => bits pw 0 0 == 1 && (ratio == 0 || planeRatio pw == ratio) && planeWidth pw == w
  | none => false

/-- Where an address leads. -/
inductive Spot where
  /-- elements in storage of this device -/
  | here (bit width : Nat) (zero : Bool)
  /-- a block seen through ALIAS, the index of the element in it, and whether its codes or its scale are ZERO-tier -/
  | block (b : BlockRef) (index : Nat) (zeroCode zeroScale : Bool)
  /-- another device -/
  | away (dev : BitVec 8)
  deriving DecidableEq, Repr, Inhabited

/-- The entries of an object's alias codebook (R90). -/
def aliasBook (s : State) (desc : Nat) : Vector (BitVec 16) 16 :=
  .ofFn fun i => BitVec.ofNat 16 (readBytes s.mem (desc + 32 + 2 * i.val) 2)

/-- The block size of a block field (R91, R216). -/
def blockSize (code : Nat) : Nat := if code == 0 then 0 else 2 ^ (code + 2)

/-- The ALIAS rules of R108, after the walk on the data plane.  DESIGN CHOICE (log 75): a read needs read permission on
the scale plane's word too.  DESIGN CHOICE (log 76): the block of an element is found as if the data plane's ratio
were 1. -/
def aliasSpot (s : State) (core : Option (Fin 256)) (tenant : BitVec 6) (e : Engine) (k : Acc) (f : Found)
    (pos : Nat) : W Spot := do
  let enc := bits f.pw 20 16
  let blk := blockSize (bits f.pw 27 26)
  require .path (k != .atomic && (enc == 5 || enc == 3 || enc == 4) && blk != 0)
  let sp := bits f.pw 31 28
  let spw ← readTable s (f.desc + 128 + 8 * sp) 8
  require .path (bits spw 0 0 == 1 && planeRatio spw == blk && bits f.pw 25 21 != 0 &&
    planeWidth spw == fmtWidth (bits f.pw 25 21))
  let g ← walk s core tenant e k .element sp pos
  let i := pos % blk
  pure (.block
    { scalePlane := sp, bit := f.bit - i * f.width, width := f.width, fmt := BitVec.ofNat 5 enc, block := blk, scaleBit := g.bit,
      scaleWidth := g.width, scaleFmt := BitVec.ofNat 5 (bits f.pw 25 21), book := aliasBook s f.desc,
      ascale := BitVec.ofNat 16 (bits f.pw 63 48) } i f.zero g.zero)

/-- The byte of an address on the VAULT, SPAD or ACC path for a task's grant (R88). -/
def bytePath (core : Fin 256) (g : Grant) (a : Word) (len : Nat) : W Nat :=
  if planeOf a != 0 then throw (.cause .path)
  else
    match pathOf a with
    | 2 =>
      if 64 ≤ bits a.toNat 56 49 then throw (.cause .path)
      else if Config.vaultBytes < bits a.toNat 48 0 + len then throw (.cause .bounds)
      else pure (vaultByte (bits a.toNat 56 49) (bits a.toNat 48 0))
    | 3 =>
      if bits a.toNat 56 19 != 0 then throw (.cause .path)
      else if bits a.toNat 18 0 < g.spadBase || g.spadBase + g.spad < bits a.toNat 18 0 + len then
        throw (.cause .bounds)
      else pure (spadByte core (bits a.toNat 18 0))
    | 4 =>
      if bits a.toNat 56 20 != 0 then throw (.cause .path)
      else if g.acc ≤ bits a.toNat 19 16 || 65536 < bits a.toNat 15 0 + len then throw (.cause .bounds)
      else pure (accByte core (g.accTiles.getD (bits a.toNat 19 16) 0) (bits a.toNat 15 0))
    | _ => throw (.cause .path)

/-- The bits of an access on a byte path and the bytes they touch, from bit `sub` of the first (R183). -/
def byteSpan (want : Want) (sub : Nat) : Nat × Nat :=
  match want with
  | .element => (8, 1)
  | .run n => (8 * n, n)
  | .bytes n => (8 * n, n)
  | .width w => (w, (sub + w + 7) / 8)
  | .scale w _ => (w, (sub + w + 7) / 8)
  | .plane w _ => (w, (sub + w + 7) / 8)

/-- Whether a `seal` that sets the bit of a frame word has not completed: SEAL reads do not see the bit yet (R268). -/
def sealingNow (s : State) (word : Nat) : Bool := s.dev.invals.any fun v => v.words.contains word

/-- Where an address leads, with every check made at the core (R88, R97, R107, R108, R111).  `core` is none for a
request that comes from another device; `sub` is the bit of the addressed byte where an element on a byte path begins. -/
def locate (s : State) (core : Option (Fin 256)) (g : Grant) (tenant : BitVec 6) (e : Engine) (k : Acc)
    (want : Want) (a : Word) (sub : Nat := 0) : W Spot := do
  match pathOf a with
  | 0 =>
    let f ← walk s core tenant e k want (planeOf a) (posOf a)
    pure (.here f.bit (want.size f.width) f.zero)
  | 1 =>
    let f ← walk s core tenant e k want (planeOf a) (posOf a) (byAlias := true)
    aliasSpot s core tenant e k f (posOf a)
  | 5 =>
    let dev := bits a.toNat 56 49
    require .path (inDomain s.dev dev)
    if dev == s.dev.devid.toNat then
      let f ← walk s core tenant e k want (planeOf a) (bits a.toNat 48 0)
      pure (.here f.bit (want.size f.width) f.zero)
    else do
      require .align (match want with | .bytes n => bits a.toNat 48 0 % n == 0 | _ => true)
      pure (.away (BitVec.ofNat 8 dev))
  | 6 =>
    let f ← walk s core tenant e k want (planeOf a) (posOf a)
    require .sealed (k == .read && bits f.fw 28 28 == 1 && !sealingNow s f.fwByte)
    pure (.here f.bit (want.size f.width) f.zero)
  | 7 => throw (.cause .path)
  | _ =>
    match core with
    | none => throw (.cause .path)
    | some c =>
      let (w, len) := byteSpan want sub
      let byte ← bytePath c g a len
      require .align (match want with | .bytes n => posOf a % n == 0 | _ => true)
      pure (.here (8 * byte + sub) w false)

end Sys2Proof.Machine
end

