-- ==== Sys2Proof/Machine/Ops.lean ====
section
/-!
DEFINITION. The named operations that the meanings share: who executes, registers, messages, reads and posted
writes, acknowledgements, monitors, tokens, the lease, tiles.  The trap itself is `takeTrap` of Plan; what hands a
saved task back is `returnFrame` here.
-/

namespace Sys2Proof.Machine

/-- Who executes: the task's place, the engine, the instruction's address and its word. -/
structure Ctx where
  loc : Fin 1024
  eng : Engine
  pc : Word
  word : BitVec 32
  /-- tells apart issued instructions of one engine: 0 at the head, else the number of the `mma` or copy -/
  tag : Nat := 0
  /-- an issued `mma` or copy, which the saved program counter of its engine addresses when it traps (R377) -/
  back : Bool := false
  deriving DecidableEq, Repr

/-- Raises a trap of this instruction (R376). -/
def Ctx.trap {α : Type} (c : Ctx) (k : Cause) (a : Word) (index : BitVec 16 := 0) : M α :=
  stop (.trap { loc := c.loc, eng := c.eng, pc := c.pc, word := c.word, cause := k, addr := a, index, back := c.back })

/-- Raises a trap unless the condition holds. -/
def Ctx.check (c : Ctx) (b : Bool) (k : Cause) (a : Word) (index : BitVec 16 := 0) : M Unit :=
  if b then pure () else c.trap k a index

/-- A failed access raises its trap with the address in TRAPADDR (R376). -/
def Ctx.lift {α : Type} (c : Ctx) (a : Word) (w : W α) (index : BitVec 16 := 0) : M α :=
  match w with
  | .ok x => pure x
  | .error (.cause k) => c.trap k a index
  | .error (.absent b) => stop (.fault (.absentStorage b))

/-- Whether the scalar engine is in the middle of an instruction that completes before a save (R112). -/
def Task.midScalar (t : Task) : Bool :=
  t.asked.any (fun a => a.eng == .s) || t.answers.any (fun a => a.eng == .s) ||
  match t.held with
  | .barAsked _ => true
  | .barAnswer _ _ _ _ => true
  | .invalidate _ => true
  | .begun => true
  | _ => false

/-- Whether an engine still acts in the clock in which a trap of a higher engine was recorded (R378, R379). -/
def Task.sameClock (t : Task) (clock : Nat) (e : Engine) : Bool :=
  t.mode == .saving 2 && t.saveStep == 0 && t.records clock e

/-- Whether an `mcbl` or `mepi` of the task is unfinished (R236). -/
def Task.loading (t : Task) : Bool :=
  t.mjobs.any fun j => match j.work with
    | .book _ _ => true
    | .epi _ _ => true
    | _ => false

/-- Whether a restored `mma` of the task waits for the lease (R250); no counted instruction issues before it (R237). -/
def Task.parkedMma (t : Task) : Bool :=
  t.mjobs.any fun j => match j.work with
    | .mma m => m.parked
    | _ => false

/-- Whether an issued instruction of C is a copy. -/
def CJob.isCopy (j : CJob) : Bool :=
  match j.work with
  | .copy _ => true
  | _ => false

/-- Whether the instructions that an engine has issued go on: the task is not being saved, or a higher engine trapped in this
clock (R378, R379). -/
def Task.acts (t : Task) (clock : Nat) (e : Engine) : Bool :=
  t.sameClock clock e || match t.mode with
    | .saving _ => false
    | _ => true

/-- Whether an engine of the task may issue: the task is in the ready set and the engine has not ended; a task to be
saved may still complete the scalar instruction it is in, and the engines below the one that trapped may issue in the clock
of the trap (R15, R25, R26, R112, R379). -/
def Task.mayIssue (t : Task) (clock : Nat) (e : Engine) : Bool :=
  !t.ended e && (t.mode == .ready || t.sameClock clock e ||
    match t.mode with | .saving _ => e == .s && t.midScalar | _ => false)

/-- The word at the head of an engine of the current task (R65).  There is none when no task stands there or it may not
issue. -/
def atHead (e : Engine) (word : BitVec 32) : M Ctx := do
  let s ← getState
  match s.tasks.get s.cur with
  | none => stop .idle
  | some t =>
    if !t.mayIssue s.dev.clock e then stop .idle
    else pure { loc := s.cur, eng := e, pc := t.pc e, word }

/-- Whether an engine waits for a `vrgn` that drains: all but V do, but a scalar instruction under way completes
(R170). -/
def Task.regionHolds (t : Task) (e : Engine) : Bool := t.draining && e != .v && !(e == .s && t.midScalar)

/-- The instruction at the head of an engine of the current task, once it has passed its decode tests 4 and 5, which come
before every condition of issue (R65, R66). -/
def headAfter (e : Engine) (word : BitVec 32) (tests : Ctx → M Unit) : M Ctx := do
  let c ← atHead e word
  tests c
  pure c

/-- The same, once no `vrgn` that drains holds the engine (R170). -/
def issueAfter (e : Engine) (word : BitVec 32) (tests : Ctx → M Unit) : M Ctx := do
  let c ← headAfter e word tests
  let t ← getTask c.loc
  waitFor (!t.regionHolds e)
  pure c

/-- The instruction at the head of an engine of the current task, of a form that tests 4 and 5 of R66 always pass. -/
def issue (e : Engine) (word : BitVec 32) : M Ctx := issueAfter e word fun _ => pure ()

/-- Test 4 of R66: a privileged instruction at user level raises PRIVILEGED (R70). -/
def privileged (c : Ctx) : M Unit := do
  let t ← getTask c.loc
  c.check t.level .privileged 0

/-- What an instruction had asked of targets is forgotten. -/
def Task.forget (t : Task) (e : Engine) (tag : Nat := 0) : Task :=
  { t with answers := t.answers.filter fun a => !(a.eng == e && a.tag == tag)
           asked := t.asked.filter fun a => !(a.eng == e && a.tag == tag) }

/-- The task's engine stands at a new address, and what its instruction had asked of targets is forgotten. -/
def Task.goto (t : Task) (e : Engine) (pc : Word) : Task :=
  let t := (t.setPc e pc).forget e
  { t with held := if e == .s && t.held == .begun then .none else t.held }

/-- The program counter advances by 4 (R14). -/
def advance (c : Ctx) : M Unit := setTask c.loc fun t => t.goto c.eng (c.pc + 4)

/-- The word with bit i alone set. -/
def oneBit (w i : Nat) : BitVec w := BitVec.ofNat w (2 ^ i)

/-- Scalar register r as it reads: s0 is zero (R110). -/
def Task.readS (t : Task) (r : BitVec 6) : Word := if r == 0 then 0 else t.s.get r.toFin

/-- Scalar register r written; writes to s0 are discarded (R110).  The write replaces any poison (R386). -/
def Task.writeS (t : Task) (r : BitVec 6) (v : Word) : Task :=
  if r == 0 then t
  else { t with s := t.s.set r.toFin v, sPoison := t.sPoison &&& ~~~(oneBit 64 r.toNat) }

/-- Scalar register r receives poisoned data (R386). -/
def Task.poisonS (t : Task) (r : BitVec 6) (v : Word) : Task :=
  if r == 0 then t else { t with s := t.s.set r.toFin v, sPoison := t.sPoison ||| oneBit 64 r.toNat }

/-- Whether scalar register r holds poisoned data. -/
def Task.badS (t : Task) (r : BitVec 6) : Bool := r != 0 && t.sPoison.getLsbD r.toNat

/-- A source register of a scalar instruction; poisoned data raises MCHECK with TRAPADDR 0 (R387). -/
def useS (c : Ctx) (r : BitVec 6) : M Word := do
  let t ← getTask c.loc
  c.check (!t.badS r) .mcheck 0
  pure (t.readS r)

/-- The destination of a scalar instruction. -/
def putS (c : Ctx) (d : BitVec 6) (v : Word) : M Unit := setTask c.loc fun t => t.writeS d v

/-- A message to a device: to this one it waits in `rx`, to another it leaves. -/
def send (dst : BitVec 8) (vc : BitVec 3) (b : Body) : M Unit :=
  setDev fun d => d.post { src := d.devid, dst, vc, body := b }

/-- A message to this device itself. -/
def sendSelf (vc : BitVec 3) (b : Body) : M Unit :=
  setDev fun d => { d with rx := d.rx ++ [{ src := d.devid, dst := d.devid, vc, body := b }] }

/-- A fresh identifier (log 9). -/
def newUid : M Nat := do
  let d ← getDev
  setDev fun d => { d with nextUid := d.nextUid + 1 }
  pure d.nextUid

/-- A free value (log 9). -/
def freeValue : M Word := do
  let d ← getDev
  setDev fun d => { d with draws := d.draws + 1 }
  pure (Config.freeWord d.draws)

/-- The origin of a task's access. -/
def originOf (c : Ctx) (t : Task) (d : Device) : Origin :=
  { dev := d.devid, tid := t.tid, core := (coreOf c.loc).val, eng := c.eng, pc := c.pc, word := c.word,
    tenant := t.tenant, level := t.level }

/-- Path and plane of an address: two accesses of one engine through the same form and storage are ordered (R258). -/
def formOf (a : Word) : Nat := a.toNat / 2 ^ 57

/-- Whether an access was made by an engine of a task of this device. -/
def Origin.isOf (o : Origin) (d : Device) (tid : Nat) (e : Engine) : Bool := o.dev == d.devid && o.tid == tid && o.eng == e

/-- Where a write to a bit of storage goes while its frame migrates (R103): the places written. -/
def writePlaces (ms : List Migration) (bit : Nat) : List Nat :=
  match ms.find? (fun m => decide (m.source ≤ bit / 8) && decide (bit / 8 < m.source + m.length)) with
  | none => [bit]
  | some m =>
    let moved := bit - 8 * m.source + 8 * m.dest
    if m.forwarding then [moved]
    else if (bit / 8 - m.source) / 4096 < m.next then [bit, moved]
    else [bit]

/-- Where a read of a bit of storage goes while its frame migrates (R103). -/
def readPlace (ms : List Migration) (bit : Nat) : Nat :=
  match ms.find? (fun m => decide (m.source ≤ bit / 8) && decide (bit / 8 < m.source + m.length)) with
  | none => bit
  | some m => if m.forwarding then bit - 8 * m.source + 8 * m.dest else bit

/-- The posted writes on their way that an access of an engine of a task through one form sees: its own through that form
(R122, R187), and those of its task that are performed at TSK scope (R257). -/
def ownWrites (d : Device) (tid : Nat) (e : Engine) (form : Nat) : List Wr :=
  d.rx.flatMap fun p =>
    match p.body with
    | .store u o ws _ =>
      if o.dev == d.devid && o.tid == tid && d.tskSeen.contains u then ws
      else if o.isOf d tid e then ws.filter (fun w => formOf w.addr == form)
      else []
    | _ => []

/-- Whether an engine of a task has an ALIAS write on its way through one form. -/
def ownAlias (d : Device) (tid : Nat) (e : Engine) (form : Nat) : Bool :=
  d.rx.any fun p =>
    match p.body with
    | .aliasStore _ o ws => o.isOf d tid e && ws.any fun w => formOf w.addr == form
    | _ => false

/-- Whether an engine of a task has an atomic or the increment of a flag on its way, through one form, on the 32-byte granule
of a byte of this device (R124, R258). -/
def ownAtomic (d : Device) (tid : Nat) (e : Engine) (form byte : Nat) : Bool :=
  let granule := fun b => readPlace d.migrations (8 * b) / 256
  let on := fun (a : Word) (b : Nat) => formOf a == form && granule b == granule byte
  let flagOn := fun (f : FlagRef) => match f.byte with
    | some b => on f.addr b
    | none => false
  (d.rx.any fun p =>
    match p.body with
    | .atomic _ o b _ _ _ _ _ a => o.isOf d tid e && on a b
    | .store _ o _ (some f) => o.isOf d tid e && flagOn f
    | _ => false) ||
  d.remoteParts.any fun x => x.eng == e && x.tid == tid && match x.here with
    | some (_, f) => flagOn f
    | none => false

/-- Whether an engine of a task has the increment of a flag on another device on its way, on the granule of an address, that
waits for data on this one (R123, R258). -/
def ownFar (d : Device) (tid : Nat) (e : Engine) (a : Word) : Bool :=
  d.rx.any fun p =>
    match p.body with
    | .store _ o _ (some f) => o.isOf d tid e && f.byte.isNone && granuleAt f.addr == granuleAt a
    | _ => false

/-- Memory with some writes laid over it where they will go (R103). -/
def overlay (ms : List Migration) (ws : List Wr) (m : List Host.Cell) : List Host.Cell :=
  ws.foldl (fun m w => (writePlaces ms w.bit).foldl (fun m b => Mem.writeBits m b w.width w.value) m) m

/-- Memory as an engine of a task sees it through one form (R122, R187, R257). -/
def memSeen (s : State) (tid : Nat) (e : Engine) (form : Nat) : List Host.Cell :=
  overlay s.dev.migrations (ownWrites s.dev tid e form) s.mem

/-- Memory as what acts for a task sees it: with the task's writes that are performed at TSK scope (R257). -/
def memOfTask (s : State) (tid : Nat) : List Host.Cell :=
  overlay s.dev.migrations (s.dev.rx.flatMap fun p => match p.body with
    | .store u o ws _ => if o.dev == s.dev.devid && o.tid == tid && s.dev.tskSeen.contains u then ws else []
    | _ => []) s.mem

/-- The line that holds a block of storage as vector loads have read it ahead of their issue, through one form (R252, R258). -/
def Core.readAhead (k : Core) (tenant : BitVec 6) (form block : Nat) : Option Line :=
  k.lines.find? fun ln => ln.ahead && ln.tenant == tenant && ln.pathPlane.toNat == form && ln.block == block

/-- The core with a line more in its scalar data cache, which holds 1,024 lines, 64 KiB; the oldest makes room (R1, R122).  As many
stand for what vector loads have read ahead. -/
def Core.fill (k : Core) (ln : Line) : Core :=
  let same := k.lines.filter fun x => x.ahead == ln.ahead
  { k with lines := (k.lines.filter fun x => x.ahead != ln.ahead) ++ same.drop (same.length - 1023) ++ [ln] }

/-- Memory as an engine of a task reads a place of it: through one form, and for a vector load as it has been read ahead, which
nothing but a token orders after it (R252, R258; log 6). -/
def memRead (s : State) (core : Fin 256) (t : Task) (e : Engine) (form block : Nat) : List Host.Cell :=
  match (if e == .v then (s.cores.get core).readAhead t.tenant form block else none) with
  | some ln => overlay s.dev.migrations (ownWrites s.dev t.tid e form) (Mem.writeAll s.mem (byteCells (64 * block) 64 ln.data.toNat))
  | none => memSeen s t.tid e form

/-- The instruction waits unless the condition holds; one of the scalar engine has begun then, and completes before a save
(R112). -/
def awaitMid (c : Ctx) (b : Bool) : M Unit := do
  let t ← getTask c.loc
  if b then pure ()
  else if c.eng == .s && t.held == .none then stop (.begin c.loc)
  else hold

/-- The answer that came back to an instruction for what it asked of an address, if any. -/
def Task.answer (t : Task) (e : Engine) (a : Word) (want : Want) (tag : Nat := 0) : Option Reply :=
  (t.answers.find? fun x => x.eng == e && x.tag == tag && x.addr == a && x.want == want).map Answer.reply

/-- Asks a target and holds the engine until the answer stands in the task (R88, R111). -/
def askAway {α : Type} (c : Ctx) (t : Task) (a : Word) (want : Want) (dev : BitVec 8) (vc : BitVec 3) (body : Nat → Body) :
    M α := do
  let d ← getDev
  if t.asked.any fun x => x.eng == c.eng && x.tag == c.tag && x.addr == a && x.want == want then hold
  else stop (.ask c.loc { eng := c.eng, tag := c.tag, uid := d.nextUid, addr := a, want } { src := d.devid, dst := dev, vc, body := body d.nextUid })

/-- What a read returns: the bits, their width, and whether they are poisoned. -/
structure Got where
  val : Nat
  width : Nat
  poison : Bool
  deriving DecidableEq, Repr

/-- One read by an engine of a task, with every check (R97, R111, R325): of what it asks. -/
def readSpot (c : Ctx) (a : Word) (want : Want) (index : BitVec 16 := 0) (sub : Nat := 0) : M Got := do
  let t ← getTask c.loc
  let s ← getState
  let spot ← c.lift a (locate s (some (coreOf c.loc)) t.grant t.tenant c.eng .read want a sub) index
  match spot with
  | .here bit w zero =>
    if zero then pure { val := 0, width := w, poison := false }
    else do
      awaitMid c (!ownAtomic s.dev t.tid c.eng (formOf a) (bit / 8))
      c.check (bitsGranted s t.tenant t.level .read bit w) .access a index
      let bit' := readPlace s.dev.migrations bit
      pure { val := readBits (memRead s (coreOf c.loc) t c.eng (formOf a) (bit' / 512)) bit' w, width := w,
             poison := rangePoisoned s.dev.poison (bit' / 8) ((bit' % 8 + w + 7) / 8) }
  | .block b i zc zs => do
    awaitMid c (!ownAlias s.dev t.tid c.eng (formOf a))
    c.check ((zc || bitsGranted s t.tenant t.level .read (b.bit + i * b.width) b.width) &&
      (zs || bitsGranted s t.tenant t.level .read b.scaleBit b.scaleWidth)) .access a index
    let m := memSeen s t.tid c.eng (formOf a)
    let code := if zc then 0 else readBits m (readPlace s.dev.migrations (b.bit + i * b.width)) b.width
    let sc := if zs then 0 else readBits m (readPlace s.dev.migrations b.scaleBit) b.scaleWidth
    pure { val := aliasRead b.fmt.toNat b.scaleFmt.toNat (b.book.toList.map BitVec.toNat) b.ascale.toNat code sc,
           width := 16,
           poison := rangePoisoned s.dev.poison (readPlace s.dev.migrations (b.bit + i * b.width) / 8) 1 ||
             rangePoisoned s.dev.poison (readPlace s.dev.migrations b.scaleBit / 8) ((b.scaleWidth + 7) / 8) }
  | .away dev =>
    match t.answer c.eng a want c.tag with
    | some (.value v w p) => pure { val := v.toNat, width := w, poison := p }
    | some (.refused k) => c.trap k a index
    | none => do
      awaitMid c (!ownFar s.dev t.tid c.eng a)
      askAway c t a want dev 0 fun uid => .read uid (originOf c t s.dev) a want

/-- The task counts one more unacknowledged write; a full count holds the instruction (R111, R277). -/
def countWrite (c : Ctx) (uid : Nat) : M Unit := do
  let t ← getTask c.loc
  waitFor (t.unack != BitVec.allOnes 32)
  setTask c.loc fun t => { t with unack := t.unack + 1, uids := t.uids ++ [uid] }

/-- A posted write leaves the core for the targets of this device (R111). -/
def postWrites (c : Ctx) (uid : Nat) (ws : List Wr) (flag : Option FlagRef) : M Unit := do
  let t ← getTask c.loc
  let d ← getDev
  sendSelf 0 (.store uid (originOf c t d) ws flag)

/-- Where one write of `w` bits goes, checked at the core: a write on this device, an ALIAS step, or another device. -/
inductive Dest where
  | here (w : Wr)
  | block (w : BlockWr)
  | away (dev : BitVec 8) (addr : Word) (want : Want) (value : Nat) (index : BitVec 16)
  deriving DecidableEq, Repr

/-- The checks of one write at the core (R97, R108, R111, R213). -/
def writeSpot (c : Ctx) (a : Word) (want : Want) (value : Nat) (index : BitVec 16 := 0) (sub : Nat := 0) : M Dest := do
  let t ← getTask c.loc
  let s ← getState
  let spot ← c.lift a (locate s (some (coreOf c.loc)) t.grant t.tenant c.eng .write want a sub) index
  match spot with
  | .here bit w _ => pure (.here { bit, width := w, value := value % 2 ^ w, addr := a, index, span := want.span })
  | .block b i _ _ => do
    let y := decodeFloat fmtBF16 b.ascale.toNat
    c.check (y.isFinite && !y.isZero && !isSubnormal fmtBF16 b.ascale.toNat) .path a index
    pure (.block { ref := b, inBlock := i, value := BitVec.ofNat 16 value, addr := a, index })
  | .away dev => pure (.away dev a want value index)

/-- The devices that the writes of a list go to. -/
def awayDevs (ds : List Dest) : List (BitVec 8) :=
  (ds.filterMap fun d => match d with | .away dev _ _ _ _ => some dev | _ => none).dedup

/-- Sends off a list of checked writes as one posted instruction: one part for this device, one for each ALIAS step,
one for each other device (R111, R185, R187). -/
def postDests (c : Ctx) (uid : Nat) (ds : List Dest) (flag : Option FlagRef) : M Unit := do
  let t ← getTask c.loc
  let d ← getDev
  let o := originOf c t d
  let here := ds.filterMap fun x => match x with | .here w => some w | _ => none
  let onlyAway := flag.isSome && here.isEmpty && !(awayDevs ds).isEmpty
  (if here.isEmpty && flag.isNone then pure ()
   else if onlyAway then pure ()
   else sendSelf 0 (.store uid o here flag))
  let blocks := ds.filterMap fun x => match x with | .block w => some w | _ => none
  (if blocks.isEmpty then pure () else sendSelf 0 (.aliasStore uid o blocks))
  (awayDevs ds).forM fun dev => do
    let ws := ds.filterMap fun x => match x with
      | .away dv a w v i => if dv == dev then some (a, w, v, i) else none
      | _ => none
    let spans := ws.map fun w => (w.1, w.2.1.span)
    let back := if onlyAway then (flag.filter fun f => f.byte.isSome).map fun f => ((coreOf c.loc).val, f) else none
    setDev fun d => { d with remoteParts := d.remoteParts ++ [{ uid, tid := t.tid, eng := c.eng, spans, here := back }] }
    send dev 0 (.write uid o ws (if onlyAway then flag.map FlagRef.addr else none))

/-- Monitors on the blocks wake (R275, R276). -/
def wakeMonitors (blocks : List Nat) : M Unit := do
  let s ← getState
  let cs := (List.finRange 256).filter fun c => (s.cores.get c).monitors.any fun m => blocks.contains m.block
  cs.forM fun c => setCore c fun k =>
    { k with monitors := k.monitors.map fun m => if blocks.contains m.block then { m with woken := true } else m }

/-- The units of poison that a list of writes replaces whole; partial writes leave the poison (R386). -/
def unitReplaced (ws : List (Nat × Nat)) (u : Nat) : Bool :=
  (List.range (if u < 2 * 2 ^ 40 then 64 else 8)).all fun i =>
    ws.any fun (bit, w) => decide (bit ≤ 8 * (u + i)) && decide (8 * (u + i) + 8 ≤ bit + w)

/-- The place of the task with an identifier. -/
def findTask (s : State) (tid : Nat) : Option (Fin 1024) :=
  (List.finRange 1024).find? fun l => match s.tasks.get l with | some t => t.tid == tid | none => false

/-- The cores whose scalar data cache a write of an origin concerns: the one it was made on, and the one where its task
is now (R259). -/
def originCores (s : State) (o : Origin) : List (Fin 256) :=
  if o.dev != s.dev.devid then []
  else
    let made := if h : o.core < 256 then [⟨o.core, h⟩] else []
    match findTask s o.tid with
    | some l => if made.contains (coreOf l) then made else made ++ [coreOf l]
    | none => made

/-- Writes of bits of storage, with the address of each: where they begin and how many they are. -/
abbrev Parts := List (Nat × Nat × Nat × Word)

/-- The 64-byte blocks that some writes touch. -/
def partBlocks (ps : Parts) : List Nat :=
  ps.flatMap fun p => (unitsOf 6 (p.1 / 8) ((p.1 % 8 + p.2.1 + 7) / 8)).map (· / 64)

/-- A core drops the lines that some writes match: same form, same block (R259). -/
def dropMatching (ps : Parts) (c : Fin 256) : M Unit := do
  let k ← getCore c
  if k.lines.isEmpty then pure ()
  else setCore c fun k => { k with lines := k.lines.filter fun ln =>
    !(ps.any fun p => formOf p.2.2.2 == ln.pathPlane.toNat && (partBlocks [p]).contains ln.block) }

/-- A core drops every line of the blocks that some writes touch, through whatever form it was loaded (R256). -/
def dropBlocks (ps : Parts) (c : Fin 256) : M Unit := do
  let k ← getCore c
  if k.lines.isEmpty then pure ()
  else setCore c fun k => { k with lines := k.lines.filter fun ln => !(partBlocks ps).contains ln.block }

/-- The places that some writes go to. -/
def partsOf (ms : List Migration) (ws : List Wr) : Parts :=
  ws.flatMap fun w => (writePlaces ms w.bit).map fun b => (b, w.width, w.value, w.addr)

/-- Applies writes at storage: bits from `bit`, in order; monitors wake, migrating frames get their share, lines of
the originating cores' caches that match are dropped (R102, R103, R259, R275, R386). -/
def applyWrites (cores : List (Fin 256)) (ws : List Wr) : M Unit := do
  let s ← getState
  let parts := partsOf s.dev.migrations ws
  let m := parts.foldl (fun m p => Mem.writeBits m p.1 p.2.1 p.2.2.1) s.mem
  let cells := parts.flatMap fun p => byteCells (p.1 / 8) ((p.1 % 8 + p.2.1 + 7) / 8)
    (readBytes m (p.1 / 8) ((p.1 % 8 + p.2.1 + 7) / 8))
  emit (.bytes cells)
  (if s.dev.poison.isEmpty then pure ()
   else setDev fun d => { d with poison := d.poison.filter fun u => !unitReplaced (parts.map fun p => (p.1, p.2.1)) u })
  wakeMonitors (partBlocks parts)
  cores.forM (dropMatching parts)

/-- Bytes that the device itself writes, a number's: monitors on them wake (R275). -/
def writeBytes (a n v : Nat) : M Unit := do
  emit (.bytes (byteCells a n v))
  wakeMonitors ((unitsOf 6 a n).map (· / 64))

/-- The location of a command queue and how many of its records have been served (R397). -/
def queueOf (d : Device) : MgmtSource → Word × Nat
  | .host => (d.hostQueue, d.servedHost)
  | .supervisor => (d.superQueue, d.servedSuper)

/-- Where a command queue stands: aligned to 64, its count word and 64 records in storage (R397). -/
def queueAt (d : Device) (src : MgmtSource) : Option Nat :=
  if d.boot == .verified then (locByte (queueOf d src).1.toNat).bind fun q =>
    if q % 64 == 0 && byteExists q && byteExists (q + 4159) then some q else none
  else none

/-- The command queues whose counts are one more in one memory than in another: a command has arrived in each (R397). -/
def postedIn (d : Device) (before after : List Host.Cell) : List MgmtSource :=
  [MgmtSource.host, .supervisor].filter fun src => match queueAt d src with
    | some q => readBytes after q 8 == (readBytes before q 8 + 1) % 2 ^ 64
    | none => false

/-- Where the notice queue stands: its location comes with the firmware, and it is aligned to 64 (R397, R398). -/
def noticeQueueAt (d : Device) : Option Nat :=
  if d.boot == .verified then (locByte d.noticeQueue.toNat).bind fun q =>
    if q % 64 == 0 && byteExists q && byteExists (q + 4159) then some q else none
  else none

/-- The number of notices posted in the queue, and the byte of the record that the next one takes (R397). -/
def noticeCount (s : State) (q : Nat) : Nat := readBytes s.mem q 8
def noticeRecord (s : State) (q : Nat) : Nat := q + 64 + 64 * (noticeCount s q % 64)

/-- Whether the notice queue has room: the record that the next notice takes has never been posted, or the supervisor has served
it, which its status says (R397, R398; log 62). -/
def noticeRoom (s : State) : Bool :=
  match noticeQueueAt s.dev with
  | none => true
  | some q => decide (noticeCount s q < 64) || readBytes s.mem (noticeRecord s q + 4) 4 != 0

/-- A notice is posted (R397, R398): it is kept, and its record gets status 0 and words that are free values, since their layout
is not given (log 9); then the count rises. -/
def postNotice (n : Notice) : M Unit := do
  let s ← getState
  let d := s.dev
  setDev fun d => { d with notices := d.notices ++ [n], draws := d.draws + 8 }
  match noticeQueueAt d with
  | none => pure ()
  | some q => do
    let word := fun (i : Nat) => (Config.freeWord (d.draws + i)).toNat % (if i = 0 then 2 ^ 32 else 2 ^ 64)
    applyWrites [] ((List.range 8).map fun i =>
      { bit := 8 * (noticeRecord s q + 8 * i), width := 64, value := word i, addr := 0 })
    applyWrites [] [{ bit := 8 * q, width := 64, value := (noticeCount s q + 1) % 2 ^ 64, addr := 0 }]

/-- An event raises a notice to the supervisor: while the queue is full, or the controller holds earlier notices, it waits
(R398). -/
def notify (n : Notice) : M Unit := do
  let s ← getState
  enabled (noticeRoom s && s.dev.noticesHeld.isEmpty)
  postNotice n

/-- A notice of what cannot wait: the controller holds it while the queue is full (R398). -/
def notifyHeld (n : Notice) : M Unit := do
  let s ← getState
  if noticeRoom s && s.dev.noticesHeld.isEmpty then postNotice n
  else setDev fun d => { d with noticesHeld := d.noticesHeld ++ [n] }

/-- The place that an event names. -/
def placeAt (core slot : Nat) : M (Fin 1024) :=
  if h : core < 256 ∧ slot < 4 then pure (place ⟨core, h.1⟩ ⟨slot, h.2⟩) else notNow

/-- The place that an event names and the task there. -/
def eventTask (core slot : Nat) : M (Fin 1024 × Task) := do
  let l ← placeAt core slot
  let t? ← task? l
  match t? with
  | some t => pure (l, t)
  | none => notNow

/-- The core that an event names. -/
def coreAt (core : Nat) : M (Fin 256) :=
  if h : core < 256 then pure ⟨core, h⟩ else notNow

/-- The n-th message waiting in the device. -/
def rxAt (n : Nat) : M Packet := do
  let d ← getDev
  match d.rx[n]? with
  | some p => pure p
  | none => notNow

/-- Takes the n-th message out. -/
def rxDrop (n : Nat) : M Unit := setDev fun d => d.taken n

/-- Whether a message goes to a barrier of this device, which serves such messages in an order of its own (R271). -/
def Body.toBarrier : Body → Bool
  | .barrier _ _ _ _ _ _ _ => true
  | _ => false

/-- Messages on virtual channel 5 from one device are taken in the order they came (R312). -/
def rxFirst (n : Nat) (p : Packet) : M Unit := do
  let d ← getDev
  enabled (p.vc != 5 || !(d.rx.take n).any fun q => q.vc == 5 && q.src == p.src && !q.body.toBarrier)

/-- The identifier of the posted write of this device that a message is part of, when it is one. -/
def partUid (me : BitVec 8) (b : Body) : Option Nat :=
  match b with
  | .store u o _ _ => if o.dev == me then some u else none
  | .aliasStore u o _ => if o.dev == me then some u else none
  | .atomic u o _ _ _ _ posted _ _ => if posted && o.dev == me then some u else none
  | _ => none

/-- Whether parts of a posted write are still on their way. -/
def partsLeft (d : Device) (uid : Nat) : Bool :=
  (d.rx.any fun p => partUid d.devid p.body == some uid) || d.remoteParts.any fun x => x.uid == uid

/-- Whether a posted write is performed: no part is on its way, and no refusal of it is (R20, R21, R111). -/
def performed (d : Device) (uid : Nat) : Bool :=
  !partsLeft d uid && !d.rx.any fun p => match p.body with
    | .refuse u _ _ => u == uid
    | _ => false

/-- One write of the task is acknowledged (R111). -/
def Task.acked (t : Task) (uid : Nat) : Task :=
  if t.uids.contains uid then
    { t with unack := t.unack - 1, uids := t.uids.erase uid, postUids := t.postUids.erase uid }
  else t

/-- One write of the saved task is acknowledged: the launch controller counts it (R277). -/
def Saved.acked (v : Saved) (uid : Nat) : Saved :=
  if v.task.uids.contains uid then
    { v with acks := v.acks + 1
             task := { v.task with uids := v.task.uids.erase uid, postUids := v.task.postUids.erase uid } }
  else v

/-- A write of a task, wherever the task is, is acknowledged. -/
def acknowledge (tid uid : Nat) : M Unit := do
  let s ← getState
  match findTask s tid with
  | some l => setTask l fun t => t.acked uid
  | none => setDev fun d => { d with saved := d.saved.map fun v => if v.task.tid == tid then v.acked uid else v }

/-- Whether every engine of the task has ended (R15). -/
def Task.allEnded (t : Task) : Bool := t.endS && t.endV && t.endM && t.endC

/-- Whether every engine of every task of a kernel on this device has ended (R350). -/
def allEnded (s : State) (handle : Word) : Bool :=
  (s.tasks.toList.all fun t? => match t? with
    | some t => t.handle != handle || t.allEnded
    | none => true) &&
  s.dev.saved.all fun v => v.task.handle != handle || v.ended || v.task.allEnded

/-- The kernel of a handle on this device changes (R395). -/
def onKernel (handle : Word) (f : Kernel → Kernel) : M Unit :=
  setDev fun d => { d with kernels := d.kernels.map fun k => k.map fun x => if x.handle == handle then f x else x }

/-- A running kernel whose every task has ended its engines drains (R350). -/
def noteEnds (handle : Word) : M Unit := do
  let s ← getState
  if allEnded s handle then
    onKernel handle fun k => if k.state == .running then { k with state := .draining } else k
  else pure ()

/-- The other engines of an engine, in the order of R19. -/
def others : Engine → List Engine
  | .s => [.v, .m, .c]
  | .v => [.s, .m, .c]
  | .m => [.s, .v, .c]
  | .c => [.s, .v, .m]

/-- The engines that a mask names (R19). -/
def maskEngines (e : Engine) (mask : BitVec 3) : List Engine :=
  (List.range 3).filterMap fun i => if mask.getLsbD i then (others e)[i]? else none

/-- The queue from one engine to another: three for each giver, in the order of R19. -/
def queueIx (giver taker : Engine) : Fin 12 :=
  let i := 3 * engNum giver + (if engNum taker < engNum giver then engNum taker else engNum taker - 1)
  if h : i < 12 then ⟨i, h⟩ else 0

/-- Whether every queue into `e` that the mask names holds a token (R18). -/
def Task.hasTokens (t : Task) (e : Engine) (mask : BitVec 3) : Bool :=
  (maskEngines e mask).all fun x => t.tok.get (queueIx x e) != 0

/-- Whether every queue out of `e` that the mask names has room (R18). -/
def Task.hasRoom (t : Task) (e : Engine) (mask : BitVec 3) : Bool :=
  (maskEngines e mask).all fun x =>
    decide ((t.tok.get (queueIx e x)).toNat + (t.tokRsv.get (queueIx e x)).toNat ≤ 14)

/-- Whether the wait can never be met: an empty queue whose giver has ended and holds no reservation (R22). -/
def Task.deadWait (t : Task) (e : Engine) (mask : BitVec 3) : Bool :=
  (maskEngines e mask).any fun x =>
    t.tok.get (queueIx x e) == 0 && t.ended x && t.tokRsv.get (queueIx x e) == 0

/-- A change of the queues named. -/
def Task.onQueues (t : Task) (qs : List (Fin 12)) (f : BitVec 4 → BitVec 4) (rsv : Bool) : Task :=
  if rsv then { t with tokRsv := qs.foldl (fun v (i : Fin 12) => v.set i (f (v.get i))) t.tokRsv }
  else { t with tok := qs.foldl (fun v (i : Fin 12) => v.set i (f (v.get i))) t.tok }

/-- One token is taken from each queue named (R18). -/
def Task.takeTokens (t : Task) (e : Engine) (mask : BitVec 3) : Task :=
  t.onQueues ((maskEngines e mask).map fun x => queueIx x e) (· - 1) false

/-- One token is given to each queue named (R18). -/
def Task.giveTokens (t : Task) (e : Engine) (mask : BitVec 3) : Task :=
  t.onQueues ((maskEngines e mask).map fun x => queueIx e x) (· + 1) false

/-- One place is reserved in each queue named (R18). -/
def Task.reserveTokens (t : Task) (e : Engine) (mask : BitVec 3) : Task :=
  t.onQueues ((maskEngines e mask).map fun x => queueIx e x) (· + 1) true

/-- The reserved places become tokens (R18, R20). -/
def Task.redeemTokens (t : Task) (e : Engine) (mask : BitVec 3) : Task :=
  (t.onQueues ((maskEngines e mask).map fun x => queueIx e x) (· - 1) true).giveTokens e mask

/-- Waits for the tokens that a mask names; TOKEN when they can never come (R18, R22). -/
def awaitTokens (c : Ctx) (mask : BitVec 3) : M Unit := do
  let t ← getTask c.loc
  c.check (!t.deadWait c.eng mask) .token 0
  waitFor (t.hasTokens c.eng mask)

/-- Waits for room in the queues that a mask names (R18). -/
def awaitRoom (c : Ctx) (mask : BitVec 3) : M Unit := do
  let t ← getTask c.loc
  waitFor (t.hasRoom c.eng mask)

/-- Whether a message is a posted write of an engine of a task on its way on this device, or its refusal. -/
def isWriteOf (d : Device) (t : Task) (e : Engine) (p : Packet) : Bool :=
  match p.body with
  | .store _ o _ _ => o.isOf d t.tid e
  | .aliasStore _ o _ => o.isOf d t.tid e
  | .atomic _ o _ _ _ _ _ _ _ => o.isOf d t.tid e
  | .refuse _ tid note => tid == t.tid && note.eng == e
  | _ => false

/-- Whether a message is a posted write of a task that is performed at TSK scope. -/
def isSeen (d : Device) (tid : Nat) (p : Packet) : Bool :=
  match p.body with
  | .store u o _ _ => o.dev == d.devid && o.tid == tid && d.tskSeen.contains u
  | _ => false

/-- Whether an engine of a task has posted writes that other devices have not answered. -/
def awayOut (d : Device) (t : Task) (e : Engine) : Bool :=
  d.remoteParts.any fun x => t.uids.contains x.uid && x.eng == e

/-- Whether posted writes of an engine of a task are not yet performed at their targets, or writes of its task that
tokens may have ordered before it: on their way here, or unanswered by another device (R127, R257). -/
def writesOut (d : Device) (t : Task) (e : Engine) : Bool :=
  d.rx.any (isWriteOf d t e) || d.rx.any (isSeen d t.tid) || awayOut d t e

/-- Waits until every earlier store-kind access of the engine is performed at its target, and those of other engines
that tokens may have ordered before it (R127, R128). -/
def awaitWrites (c : Ctx) : M Unit := do
  let t ← getTask c.loc
  let d ← getDev
  waitFor (!writesOut d t c.eng)

/-- A posted write of an engine of a task that may count as performed at TSK scope before its target has it: a plain one
whose elements the tables grant, but for what accumulators and tiles hold, which M and C reach past it (R21, R257; log 17). -/
def seeable (s : State) (t : Task) (e : Engine) (p : Packet) : Option (Nat × List Wr) :=
  match p.body with
  | .store u o ws none =>
    if o.isOf s.dev t.tid e && ws.all fun w => decide (w.bit < 8 * 2 ^ 43) && bitsGranted s o.tenant o.level .write w.bit w.width
    then some (u, ws) else none
  | _ => none

/-- Waits until every earlier store-kind access of the engine is performed at TSK scope: plain stores of this device become
so here, seen from now on by the task's engines, and matching lines of the core's cache are dropped; the others are
waited for at their targets (R21, R257, R259). -/
def awaitSeen (c : Ctx) : M Unit := do
  let t ← getTask c.loc
  let s ← getState
  waitFor (!(s.dev.rx.any fun p => isWriteOf s.dev t c.eng p && (seeable s t c.eng p).isNone) && !awayOut s.dev t c.eng)
  let seen := s.dev.rx.filterMap (seeable s t c.eng)
  if seen.isEmpty then pure ()
  else do
    setDev fun d => { d with tskSeen := d.tskSeen ++ (seen.map Prod.fst).filter fun u => !d.tskSeen.contains u }
    dropMatching (partsOf s.dev.migrations (seen.flatMap Prod.snd)) (coreOf c.loc)

/-- The scalar data cache of the core is emptied (R122). -/
def dropLines (c : Ctx) : M Unit := do
  let k ← getCore (coreOf c.loc)
  if k.lines.isEmpty then pure () else setCore (coreOf c.loc) fun k => { k with lines := [] }

/-- Whether tile t lies in the kernel's range (R33). -/
def Task.tileOk (t : Task) (n : Nat) : Bool :=
  decide (t.grant.tileBase ≤ n) && decide (n < t.grant.tileBase + t.grant.tiles)

/-- Whether vector register r is granted (R33): one bank holds 32 registers. -/
def Task.vregOk (t : Task) (r : BitVec 6) : Bool := decide (r.toNat < 32 * t.grant.vbanks)

/-- Test 5 of R66 for vector registers. -/
def needV (c : Ctx) (rs : List (BitVec 6)) : M Unit := do
  let t ← getTask c.loc
  c.check (rs.all t.vregOk) .illegal 0

/-- Test 5 of R66 for streams (R33). -/
def needQ (c : Ctx) (qs : List (BitVec 4)) : M Unit := do
  let t ← getTask c.loc
  c.check (qs.all fun q => decide (q.toNat < t.grant.streams)) .illegal 0

/-- The state of a tile, and the tile with a new one. -/
def Core.tileState (k : Core) (n : Nat) : BitVec 2 := if h : n < 64 then (k.tiles.get ⟨n, h⟩).state else 0
def Core.tileSpan (k : Core) (n : Nat) : BitVec 3 := if h : n < 64 then (k.tiles.get ⟨n, h⟩).span else 0
def Core.setTile (k : Core) (n : Nat) (f : Tile → Tile) : Core :=
  if h : n < 64 then { k with tiles := k.tiles.set n (f (k.tiles.get ⟨n, h⟩)) h } else k

/-- LEASE_PASS (R28): the lease goes to the next waiting slot counting up from the holder's; with none waiting it has
no holder.  The new holder's count starts at 0. -/
def Core.passLease (k : Core) (clock : Nat) : Core :=
  match k.leaseHolder with
  | none => k
  | some h =>
    let order := [1, 2, 3].map fun i => (h.val + i) % 4
    match order.find? (fun i => k.leaseWaiting.getLsbD i) with
    | none => { k with leaseHolder := none, leaseCount := 0 }
    | some i =>
      { k with leaseHolder := some ⟨i % 4, by omega⟩, leaseCount := 0, leaseClock := clock
               leaseWaiting := k.leaseWaiting &&& ~~~(oneBit 4 i) }

/-- Whether any slot waits for the lease. -/
def Core.leaseWanted (k : Core) : Bool := k.leaseWaiting != 0

/-- A slot asks for the lease: it takes a free one at once, else it is queued (R27, R245). -/
def Core.askLease (k : Core) (slot : Fin 4) (clock : Nat) : Core :=
  match k.leaseHolder with
  | none => { k with leaseHolder := some slot, leaseCount := 0, leaseClock := clock }
  | some h => if h == slot then k else { k with leaseWaiting := k.leaseWaiting ||| oneBit 4 slot.val }

/-- A restored `mma` of a task takes its turn among the core's counted instructions (R235, R250). -/
def Task.unpark (t : Task) (order : Nat) : Task :=
  { t with mjobs := t.mjobs.map fun j => match j.work with
      | .mma m => if m.parked then { j with work := .mma { m with order, parked := false } } else j
      | _ => j }

def takeTurn (l : Fin 1024) : M Unit := do
  let order ← newUid
  setTask l fun t => t.unpark order

/-- The holder of a core's lease is about to lose it to a waiting task: a restored `mma` of its own, unless it is being saved,
takes its turn first, so that the next holder's work starts after its last slice (R235). -/
def settleHolder (core : Fin 256) : M Unit := do
  let s ← getState
  match (s.cores.get core).leaseHolder with
  | none => pure ()
  | some h => match s.tasks.get (place core h) with
    | none => pure ()
    | some t => if t.parkedMma && t.acts s.dev.clock .m then takeTurn (place core h) else pure ()

/-- A write of LEASEMAX; a holder whose count has reached the new limit loses the lease to a waiting task, or starts its
count again (R28). -/
def writeLeasemax (core : Fin 256) (v : Word) : M Unit := do
  emit (.leasemax core v)
  let s ← getState
  let k := s.cores.get core
  if k.leaseHolder.isSome && decide ((s.leasemax.get core).toNat ≤ k.leaseCount) then do
    (if k.leaseWanted then settleHolder core else pure ())
    setCore core fun k => if k.leaseWanted then k.passLease s.dev.clock else { k with leaseCount := 0 }
  else pure ()

/-- TFLAGS with bits set; no setter clears one (R161). -/
def Task.raiseFlags (t : Task) (b : BitVec 8) : Task := { t with tflags := t.tflags ||| b }

/-- A scoreboard token is named by a copy: its set bit clears and its count rises (R295). -/
def Task.nameToken (t : Task) (k : BitVec 3) : Task :=
  let x := t.k.get k.toFin
  { t with k := t.k.set k.toFin { x with set := false, pend := x.pend + 1 } }

/-- A condition of a copy holds: the count falls, and at 0 the set bit becomes 1 (R295). -/
def Task.meetToken (t : Task) (k : BitVec 3) (err : Bool) : Task :=
  let x := t.k.get k.toFin
  { t with k := t.k.set k.toFin { set := x.set || decide (x.pend ≤ 1), err := x.err || err, pend := x.pend - 1 } }

/-- A scoreboard token's condition is met, or only its error bit is set (R374). -/
def Task.changeToken (t : Task) (k : BitVec 3) (met err : Bool) : Task :=
  if met then t.meetToken k err
  else
    let x := t.k.get k.toFin
    { t with k := t.k.set k.toFin { x with err := x.err || err } }

/-- A token of a task changes, wherever the task is (R307, R375). -/
def markTokenOf (tid : Nat) (k : BitVec 3) (met err : Bool) : M Unit := do
  let s ← getState
  match findTask s tid with
  | some l => setTask l fun t => t.changeToken k met err
  | none => setDev fun d => { d with saved := d.saved.map fun v =>
      if v.task.tid == tid then { v with tokens := v.tokens ++ [(k, met, err)] } else v }

/-- Whether an item of a saved group stands in the queues: one of its frames is to be restored. -/
def groupQueued (d : Device) (gid : Nat) : Bool := d.saved.any fun w => w.task.gid == gid && w.queued

/-- A saved group enters the queue of a priority, unless it stands in one already (R353). -/
def enqueueGroup (gid : Nat) (p : BitVec 2) (d : Device) : Device :=
  if groupQueued d gid then d
  else { d with queues := d.queues.set p.toFin (d.queues.get p.toFin ++ [.group gid d.nanos]) }

/-- RETURN FROM A TRAP (R147, R360): the launch controller accepts the frame at an address, and it is queued at its
kernel's record priority (R353); the other saved frames of its core group go with it when the group has tiles or
scratchpad (log 21).  None when no such frame is held for the supervisor. -/
def returnFrame (frame : Word) (d : Device) : Option Device :=
  match d.saved.find? fun v => v.frame == frame && v.withSupervisor && !v.queued && !v.ended with
  | none => none
  | some v =>
    let shared := v.task.grant.tiles != 0 || v.task.grant.spad != 0
    let goes := fun (w : Saved) => !w.ended && (w.frame == frame || (shared && w.task.gid == v.task.gid))
    let q := enqueueGroup v.task.gid v.task.prio d
    some { q with saved := d.saved.map fun w => if goes w then { w with queued := true } else w }

end Sys2Proof.Machine
end

