-- ==== Sys2Proof/Machine/Operands.lean ====
section
/-!
DEFINITION. Operand forms: position adds (R116), sizes of scalar accesses (R72, R120), streams and their geometry
(R183, R214 to R223, R290), and the elements of vector registers (R163).
-/

namespace Sys2Proof.Machine

/-- The bits of the field that a position add works in (R116): 49 on VAULT and REMOTE, else 57. -/
def positionBits (a : Word) : Nat := if pathOf a == 2 || pathOf a == 5 then 49 else 57

/-- POSITION ADD (R116): none where PADD is raised. -/
def positionAdd (a : Word) (k : Int) : Option Word :=
  let n := positionBits a
  let p : Int := (a.toNat % 2 ^ n : Nat) + k
  if p < 0 ∨ (2 ^ n : Nat) ≤ p then none
  else some (BitVec.ofNat 64 (a.toNat / 2 ^ n * 2 ^ n + p.toNat))

/-- What a size code asks for (R72, R120). -/
def sizeWant (sz : BitVec 3) : Want :=
  match sz.toNat with
  | 2 => .bytes 1
  | 3 => .bytes 2
  | 4 => .bytes 4
  | 5 => .bytes 8
  | _ => .element

/-- What `ld` puts into d for `w` bits read under a size code (R120): code 1 extends the sign. -/
def loadValue (sz : BitVec 3) (w v : Nat) : Word :=
  if sz == 1 then BitVec.ofInt 64 (readInt w true v) else BitVec.ofNat 64 v

/-- Whether an address is on a byte path (R88). -/
def onBytePath (a : Word) : Bool := pathOf a == 2 || pathOf a == 3 || pathOf a == 4

/-- The tile register that a tile handle names (R217). -/
def tileHandle (base : Word) : Option Nat :=
  if pathOf base == 3 && bits base.toNat 56 56 == 1 && bits base.toNat 55 6 == 0 then some (base.toNat % 64) else none

namespace Stream

/-- Fields of the layout word (R215). -/
def pitch (q : Stream) : Nat := bits q.layout.toNat 31 0
def rowLen (q : Stream) : Nat := bits q.layout.toNat 47 32
def span (q : Stream) : Nat := bits q.layout.toNat 50 48
def transpose (q : Stream) : Bool := bits q.layout.toNat 51 51 == 1

/-- Fields of the format word (R216). -/
def fmt (q : Stream) : Nat := bits q.format.toNat 4 0
def block (q : Stream) : Nat := blockSize (bits q.format.toNat 6 5)
def scaleFmt (q : Stream) : Nat := bits q.format.toNat 11 7
def scalePlane (q : Stream) : Nat := bits q.format.toNat 15 12
def bookSlot (q : Stream) : Fin 8 := ⟨bits q.format.toNat 18 16 % 8, by omega⟩

/-- The width of the stream's element format (R216). -/
def width (q : Stream) : Nat := fmtWidth q.fmt

/-- The cursor as the signed index it is (R214). -/
def at' (q : Stream) : Int := q.cursor.toInt

/-- The stream with its cursor moved. -/
def moveBy (q : Stream) (k : Int) : Stream := { q with cursor := q.cursor + BitVec.ofInt 64 k }

end Stream

/-- The address of the element with a stream index, and the bit of the byte where it begins (R116, R183, R219): a position
add of the index on planes, of the whole bytes of its bit offset on byte paths; none where it raises PADD.  DESIGN CHOICE (log
103): the matrix and copy engines, of whose byte paths no rule says so, take the same add. -/
def elementAddr (base : Word) (w k : Nat) : Option (Word × Nat) :=
  if onBytePath base then (positionAdd base (k * w / 8 : Nat)).map fun a => (a, k * w % 8)
  else (positionAdd base k).map fun a => (a, 0)

/-- SWIZZLE (R222) within a stored row `rho`, for the element at bit `b` of the row. -/
def swizzleBit (span rho b : Nat) : Nat :=
  let byte := b / 8
  let c := (byte / 16) ^^^ (rho % 2 ^ span)
  (c * 16 + byte % 16) * 8 + b % 8

/-- SWIZZLE (R222) of a stream index on a memory base. -/
def swizzle (q : Stream) (w idx : Nat) : Nat :=
  if q.span == 0 then idx
  else idx / q.pitch * q.pitch + swizzleBit q.span (idx / q.pitch) (idx % q.pitch * w) / w

/-- The layout conditions of the swizzle (R222). -/
def spanOk (q : Stream) (w : Nat) : Bool :=
  q.span == 0 ||
    (if (tileHandle q.base).isSome then decide (q.span ≤ 4)
     else decide (1 ≤ q.pitch) && q.pitch * w % (8 * 16 * 2 ^ q.span) == 0)

/-- Where an element of a stream lies. -/
inductive Elem where
  /-- encoded zero (R219), or outside the extent (R291) -/
  | zero
  /-- a memory element: its address and its first bit in the addressed byte -/
  | mem (a : Word) (sub : Nat)
  /-- an element of a tile: the first bit in the tile -/
  | tile (bit : Nat)
  /-- a position that the position add refuses -/
  | padd
  deriving DecidableEq, Repr, Inhabited

/-- The memory element at a stream index, after the swizzle (R219, R222). -/
def memElem (q : Stream) (w idx : Nat) : Elem :=
  match elementAddr q.base w (swizzle q w idx) with
  | some (a, sub) => .mem a sub
  | none => .padd

/-- The element of a tile at row `r`, element `j` of the row, after the swizzle (R219, R222). -/
def tileElem (q : Stream) (w r j : Nat) : Elem := .tile (2048 * r + swizzleBit q.span r (j * w))

/-- Element (r, k) of a matrix operand or drain under a cursor (R219, R221). -/
def matrixElem (q : Stream) (cursor : Int) (w r k : Nat) : Elem :=
  if (tileHandle q.base).isSome then
    let j : Int := cursor + k
    if j < 0 ∨ (q.rowLen : Int) ≤ j ∨ (2048 / w : Nat) ≤ j then .zero else tileElem q w r j.toNat
  else
    let idx : Int := cursor + (if q.transpose then k * q.pitch + r else r * q.pitch + k : Nat)
    let inRow := if q.transpose then r else k
    if q.rowLen ≤ inRow ∨ idx < 0 ∨ (q.extent.toNat : Int) ≤ idx then .zero else memElem q w idx.toNat

/-- How far a stream's cursor moves along K for `n` columns (R220). -/
def kStep (q : Stream) (n : Nat) : Nat :=
  if (tileHandle q.base).isSome || !q.transpose then n else n * q.pitch

/-- How far a drain moves its destination's cursor (R221). -/
def drainStep (q : Stream) : Nat :=
  if (tileHandle q.base).isSome then 0 else if q.transpose then 128 else 128 * q.pitch

/-- The elements of a vector register: element e of width w (R163). -/
def elemOf (w : Nat) (v : VReg) (e : Nat) : Nat := v.toNat / 2 ^ (e * w) % 2 ^ w

/-- Consecutive fields of `w` bits, the first lowest. -/
def packFrom (w : Nat) (f : Nat → Nat) : Nat → Nat → Nat
  | 0, _ => 0
  | n + 1, e => f e % 2 ^ w + 2 ^ w * packFrom w f n (e + 1)

/-- A vector register made of its elements (R163). -/
def vregOf (w : Nat) (f : Nat → Nat) : VReg := BitVec.ofNat 8192 (packFrom w f (8192 / w) 0)

/-- Every bit of the lanes of a mask (R163, R165). -/
def laneBits (m : Mask) : VReg := vregOf 32 fun i => if m.getLsbD i then 2 ^ 32 - 1 else 0

/-- A mask made of its bits. -/
def maskOf (f : Nat → Bool) : Mask := BitVec.ofNat 256 (packFrom 1 (fun i => if f i then 1 else 0) 256 0)

/-- Mask register m as it reads: m0 is all ones (R165). -/
def Task.readM (t : Task) (m : BitVec 3) : Mask := if m == 0 then BitVec.allOnes 256 else t.m.get m.toFin

end Sys2Proof.Machine
end

