-- ==== Sys2Proof/Machine/Fetch.lean ====
section
/-!
DEFINITION. Fetching an instruction, which slot issues, and what the moves of the agenda that are no row of the table do:
time, arrivals, caches and errors (R14, R25, R64 to R66, R98, R122, R386; log 1, 2, 12).
-/

namespace Sys2Proof.Machine

/-- Whether an engine may issue for a place: a task stands there, in the ready set, with the engine not ended (R25). -/
def canIssue (s : State) (l : Fin 1024) (e : Engine) : Bool :=
  match s.tasks.get l with
  | none => false
  | some t => t.mayIssue s.dev.clock e

/-- The line of an engine's instruction cache that holds a position (R14). -/
def cachedCode (s : State) (c : Fin 256) (e : Engine) (tenant : BitVec 6) (a : Word) : Option CodeLine :=
  (s.cores.get c).code.find? fun x =>
    x.eng == e && x.tenant == tenant && x.plane == planeOf a && x.block == posOf a / 64

/-- The word at the program counter of an engine: a GEN-path access under the engine's execute permission (R14, R64,
R97), from the engine's instruction cache where that holds it.  A counter on another path fails as PATH (R88).  DESIGN
CHOICE (log 74): a store made after the launch is seen where no line holds its position, and not where one does (R16). -/
def fetchWord (s : State) (l : Fin 1024) (e : Engine) : W (BitVec 32) := do
  match s.tasks.get l with
  | none => throw (.cause .page)
  | some t =>
    let pc := t.pc e
    require .align (pc.toNat % 4 == 0)
    require .path (pathOf pc == 0)
    let f ← walk s (some (coreOf l)) t.tenant e .fetch (.bytes 4) (planeOf pc) (posOf pc)
    if f.zero then pure 0
    else match cachedCode s (coreOf l) e t.tenant pc with
      | some x => pure (BitVec.ofNat 32 (x.data.toNat / 2 ^ (8 * (posOf pc % 64))))
      | none => do
        require .access (bitsGranted s t.tenant t.level .fetch f.bit 32)
        let bit := readPlace s.dev.migrations f.bit
        require .mcheck (!rangePoisoned s.dev.poison (bit / 8) 4)
        let b := fun i => Mem.read s.mem (bit / 8 + i)
        pure (bytesWord (b 0) (b 1) (b 2) (b 3))

/-- What stands at the head of an engine: an instruction, a word that is none, or a fetch that failed (R64 to R66). -/
inductive Head where
  | instr (i : Instr)
  | word (w : BitVec 32)
  | failed
  deriving DecidableEq, Repr

/-- The head of an engine of a place (R64 to R66). -/
def headOf (s : State) (l : Fin 1024) (e : Engine) : Head :=
  match fetchWord s l e with
  | .error _ => .failed
  | .ok w =>
    match decode e w with
    | .ok i => .instr i
    | _ => .word w

/-- The slots of a core in the order in which an engine looks at them: the first after the one last issued from
(R25). -/
def slotOrder (s : State) (c : Fin 256) (e : Engine) : List (Fin 4) :=
  let last := ((s.cores.get c).lastIssued.get ⟨engNum e, by cases e <;> decide⟩).toNat
  [1, 2, 3, 4].map fun i => ⟨(last + i) % 4, by omega⟩

/-- The slot an engine of a core last issued from is k (R25). -/
def Core.issuedFrom (k : Core) (e : Engine) (slot : BitVec 2) : Core :=
  { k with lastIssued := k.lastIssued.set (engNum e) slot (by cases e <;> decide) }

/-- The engine turns to a place. -/
def turnTo (s : State) (l : Fin 1024) (e : Engine) : State := { s with cur := l, eng := e, held := false }

/-- After an instruction has issued: the slot is the one last issued from, and the task's watchdog count restarts
(R25, R380); the power controller counts it (R396). -/
def issued (l : Fin 1024) (e : Engine) (s : State) : State :=
  let k := (s.cores.get (coreOf l)).issuedFrom e (BitVec.ofNat 2 (slotOf l).val)
  let s := { s with cores := s.cores.set (coreOf l) k }
  match s.tasks.get l with
  | some t => { s with tasks := s.tasks.set l (some { t with stall := 0, work := t.work + 1 }) }
  | none => s

/-- Time passes: CYCLE and the clocks move, and every task in the ready set with an engine not ended counts stalled
clocks (R142, R380; log 2). -/
def tick (clocks nanos : Nat) (s : State) : State :=
  { s with
    dev := { s.dev with
      cycle := s.dev.cycle + BitVec.ofNat 64 clocks
      clock := s.dev.clock + clocks
      nanos := s.dev.nanos + nanos }
    tasks := s.tasks.map fun t? => t?.map fun t =>
      if t.mode == .ready && !(t.endS && t.endV && t.endM && t.endC) then { t with stall := t.stall + clocks } else t }

/-- What is noted of a message that comes in: a request reaches its barrier in this clock (R271), a chunk that comes back
as not yet is to be resent 1 µs from now (R340). -/
def noteArrival (d : Device) : Body → Body
  | .chunkNotYet name dst src iter chunk tile dest fmt first elems level _ =>
    .chunkNotYet name dst src iter chunk tile dest fmt first elems level d.nanos
  | .barrier b op tid back tenant level time => .barrier b op tid back tenant level { time with clock := d.clock }
  | b => b

/-- A message comes in over the fabric: for this device it waits in `rx`, any other goes on its way (R310, R311). -/
def arrive (p : Packet) (s : State) : State :=
  if p.dst == s.dev.devid then { s with dev := s.dev.post { p with body := noteArrival s.dev p.body } }
  else { s with dev := s.dev.post p }

/-- A core caches a leaf (R98). -/
def cachePos (c : Fin 256) (tenant : BitVec 6) (addr : Word) (s : State) : State :=
  let k := s.cores.get c
  match walkLeaf s tenant (posOf addr) fun _ => true with
  | .error _ => s
  | .ok f =>
    if 256 ≤ k.posTlb.length then s
    else
      let e : PosEntry := { tenant, page := f.page, large := f.large, record := f.record, perms := f.perms,
                            object := f.object, first := f.first, length := f.length }
      { s with cores := s.cores.set c { k with posTlb := k.posTlb ++ [e] } }

/-- A core caches a frame word: not one that is absent, malformed or migrating; a ZERO-tier word may be cached
(R98). -/
def cacheFrame (c : Fin 256) (tenant : BitVec 6) (addr : Word) (s : State) : State :=
  let k := s.cores.get c
  match walkLeaf s tenant (posOf addr) fun _ => true with
  | .error _ => s
  | .ok f =>
    match readTable s (f.record + 8 * planeOf addr) 8 with
    | .error _ => s
    | .ok w =>
      if frameWordOk w && bits w 27 26 == 0 && (bits w 29 29 == 1 || bits w 31 30 == 3) &&
          decide (k.frames.length < 1024) then
        let e : FrameEntry := { tenant, page := f.page, large := f.large, record := f.record, plane := BitVec.ofNat 4 (planeOf addr),
                                word := BitVec.ofNat 64 w }
        { s with cores := s.cores.set c { k with frames := k.frames ++ [e] } }
      else s

/-- An engine's instruction cache of 32 KiB takes the line of an address that a fetch of the tenant would read (R14;
log 74). -/
def cacheCode (c : Fin 256) (e : Engine) (tenant : BitVec 6) (addr : Word) (s : State) : State :=
  let k := s.cores.get c
  let pos := posOf addr / 64 * 64
  match walk s (some c) tenant e .fetch (.bytes 4) (planeOf addr) pos with
  | .error _ => s
  | .ok f =>
    let at_ := readPlace s.dev.migrations f.bit / 8
    if pathOf addr == 0 && !f.zero && bitsGranted s tenant false .fetch f.bit 512 && !rangePoisoned s.dev.poison at_ 64 &&
        (cachedCode s c e tenant addr).isNone && decide ((k.code.filter fun x => x.eng == e).length < 512) then
      let line : CodeLine := { eng := e, tenant, plane := planeOf addr, block := pos / 64,
                               data := BitVec.ofNat 512 (readBytes s.mem at_ 64) }
      { s with cores := s.cores.set c { k with code := k.code ++ [line] } }
    else s

/-- The core with a change. -/
def changeCore (c : Fin 256) (f : Core → Core) (s : State) : State :=
  { s with cores := s.cores.set c (f (s.cores.get c)) }

/-- Monitors of every core on a block wake (R276). -/
def wakeBlock (block : Nat) (s : State) : State :=
  { s with cores := s.cores.map fun k =>
      { k with monitors := k.monitors.map fun m => if m.block == block then { m with woken := true } else m } }

/-- An uncorrectable error poisons the unit that holds a byte, wakes the monitors on its block and is notified
(R276, R386, R398). -/
def poisonMemory (byte : Nat) (s : State) : State :=
  afterAll (do
    setDev fun d => { d with
      poison := if d.poison.contains (poisonUnit byte) then d.poison else poisonUnit byte :: d.poison }
    notifyHeld (.uncorrectable byte)) (wakeBlock (byte / 64) s)

/-- An uncorrectable error in a register (R386). -/
def poisonTask (l : Fin 1024) (f : Task → Task) (s : State) : State :=
  match s.tasks.get l with
  | some t => { s with tasks := s.tasks.set l (some (f t)) }
  | none => s

/-- The flits before a number, modulo 2^16, are acknowledged and leave the replay buffer (R315, R316). -/
def Port.acked (p : Port) (seq : BitVec 16) : Port :=
  let out := fun (n : BitVec 16) => (seq - n).toNat == 0 || decide (128 < (seq - n).toNat)
  { p with replay := p.replay.filter (fun f => out f.1), carried := p.carried.filter fun f => out f.1 }

/-- The other end of a link acknowledges every flit before a number (R315, R316). -/
def flitAck (port : Fin 30) (seq : BitVec 16) (s : State) : State :=
  { s with dev := { s.dev with ports := s.dev.ports.set port ((s.dev.ports.get port).acked seq) } }

/-- The supervisor takes back a monitor entry: it is marked, and the wake that follows finds it reclaimed (R276). -/
def reclaim (c : Fin 256) (n : Nat) : State → State :=
  changeCore c fun k =>
    { k with monitors := (List.range k.monitors.length).zip k.monitors |>.map fun (i, m) =>
        if i == n then { m with woken := true, reclaimed := true } else m }

/-- Vector loads read the block of an address ahead of their issue: until the line goes, as those of the scalar data cache do,
they read it as it stands now (R252, R258; log 6). -/
def readAhead (l : Fin 1024) (addr : Word) (s : State) : State :=
  match s.tasks.get l with
  | none => s
  | some t => match locate s (some (coreOf l)) t.grant t.tenant .v .read .element addr with
    | .ok (.here bit w false) =>
      let block := readPlace s.dev.migrations bit / 512
      if (pathOf addr == 0 || pathOf addr == 5) && bitsGranted s t.tenant t.level .read bit w &&
          !rangePoisoned s.dev.poison (64 * block) 64 && ((s.cores.get (coreOf l)).readAhead t.tenant (formOf addr) block).isNone then
        changeCore (coreOf l) (fun k => k.fill { pathPlane := BitVec.ofNat 7 (formOf addr), tenant := t.tenant, block, ahead := true
                                                 data := BitVec.ofNat 512 (readBytes s.mem (64 * block) 64) }) s
      else s
    | _ => s

/-- An uncorrectable error in a register of a task that is parked (R384, R386). -/
def poisonParked (e : BitVec 6) (lane : BitVec 8) (t : Task) : Task :=
  { t with spill := t.spill.set e.toNat ((t.spill.get e.toFin).map fun x => { x with poison := x.poison ||| oneBit 256 lane.toNat }) e.isLt }

/-- An entry of the tile table or of the monitor table with an uncorrectable error is discarded: the tile is empty again; the waiter
takes a fresh entry and reads again, as when the supervisor reclaims one (R276, R384; log 106). -/
def discardTile (c : Fin 256) (n : Fin 64) : State → State := changeCore c fun k => k.setTile n.val fun _ => {}
def discardMonitor (c : Fin 256) (n : Nat) : State → State := reclaim c n

/-- A link between two other devices goes down or comes up; messages held for want of a way are tried again (R311). -/
def farLink (a b : BitVec 8) (up : Bool) (s : State) : State :=
  let rest := s.dev.farDown.filter fun x => x != (a, b) && x != (b, a)
  { s with dev := { s.dev with farDown := if up then rest else rest ++ [(a, b)] }.release }

/-- The link of a port is congested, or no longer (R311). -/
def congestion (port : Fin 30) (on : Bool) (s : State) : State :=
  let rest := s.dev.congested.filter fun x => x != port.val
  { s with dev := { s.dev with congested := if on then rest ++ [port.val] else rest }.release }

/-! Which engine moves a tile out of empty (R24). -/

/-- Stream i of a task, modulo their number. -/
def Task.stream (t : Task) (i : Nat) : Stream := t.q.get ⟨i % 16, Nat.mod_lt _ (by decide)⟩

/-- Whether the copy engine of a task has room for a copy and finds the tiles ready that a copy reads: by its operation, those
of qs and of its index stream, with their spans (R23, R223, R289, R300). -/
def Task.copyReady (t : Task) (k : Core) (w : Nat) : Bool :=
  let qs := bits w 25 22
  let sources := match bits w 31 26 with
    | 3 => [qs, qs + 1]
    | 4 => [qs, bits w 21 18 + 1]
    | 5 => []
    | _ => [qs]
  decide ((t.cjobs.filter CJob.isCopy).length < 8) && sources.all fun i => match tileHandle (t.stream i).base with
    | some n => k.tileState n == 2 && (k.tileSpan n).toNat == (t.stream i).span
    | none => true

/-- Whether an engine of a task has at its head an instruction that would move a tile of the core out of empty: one of
some operations, whose destination stream stands on the tile and whose conditions of issue hold (R236, R289).  Formats C.X
and M.D place these fields alike (R80, R82). -/
def Task.wouldFill (t : Task) (s : State) (l : Fin 1024) (e : Engine) (ops : List Nat) (n : Nat) : Bool :=
  t.mayIssue s.dev.clock e && !t.regionHolds e &&
  match fetchWord s l e with
  | .error _ => false
  | .ok w =>
    ops.contains (bits w.toNat 31 26) &&
    tileHandle (t.stream (bits w.toNat 21 18)).base == some n &&
    t.hasTokens e (BitVec.ofNat 3 (bits w.toNat 11 9)) && t.hasRoom e (BitVec.ofNat 3 (bits w.toNat 8 6)) &&
    (if e == .c then t.copyReady (s.cores.get (coreOf l)) w.toNat else !t.loading && !t.parkedMma)

/-- Whether an engine of a core whose turn comes before that of `e` would move the tile out of empty in the same clock: the copy
engine before the matrix engine, and this before the vector engine (R24). -/
def fillsFirst (s : State) (core : Fin 256) (e : Engine) (n : Nat) : Bool :=
  (List.finRange 4).any fun k => match s.tasks.get (place core k) with
    | some t => (e != .c && t.wouldFill s (place core k) .c [1, 3, 4, 5] n) ||
        (e == .v && (s.cores.get core).leaseHolder == some k && t.wouldFill s (place core k) .m [3] n)
    | none => false

/-- The offsets in LPDDR 6 of the tables that `placeWord` writes (log 3). -/
def bootL3 : Nat := 0x100000
def bootL2 : Nat := 0x110000
def bootL1 : Nat := 0x120000
def bootRecord : Nat := 0x130000
def bootObject : Nat := 0x140000
def bootFrame : Nat := 0x200000

/-- The qword writes that map page 0 of a tenant, plane 0, as byte memory in LPDDR 6 with every permission (log 3). -/
def bootTables : List (Nat × Nat) :=
  [(bootL3, 2 ^ 62 + 2 ^ 40 + bootL2),
   (bootL2, 2 ^ 62 + 2 ^ 40 + bootL1),
   (bootL1, 2 ^ 63 + 2 ^ 40 + bootRecord),
   (bootL1 + 8, 0xFFF * 2 ^ 52),
   (bootObject, 2 ^ 26),
   (bootObject + 128, 31 * 2 ^ 16 + 3 * 2 ^ 10 + 1),
   (bootRecord, bootFrame / 256 * 2 ^ 32 + 2 ^ 30 + 2 ^ 29 + 7 * 2 ^ 23)]

/-- Storage with the tables and a word at the first position of the frame. -/
def bootMem (m : List Host.Cell) (w : Nat) : List Host.Cell :=
  (bootTables.foldl (fun m q => Mem.writeAll m (byteCells (2 ^ 40 + q.1) 8 q.2)) m) |>
    fun m => Mem.writeAll m (byteCells (2 ^ 40 + bootFrame) 4 w)

/-- The task that `placeWord` puts into a free slot: supervisor level, with every resource granted (log 3). -/
def bootTask : Task :=
  { level := true, tid := 0,
    grant := { vbanks := 2, streams := 16, acc := 16, accTiles := List.range 16, tiles := 62, tileBase := 2, spad := 2 ^ 19, banks := [0, 1] } }

/-- The state in which the engine of the word fetches it next: a program is loaded from outside the machine, and this
stands for the load and the placement of a task (R63, R354; log 3). -/
def placeWord (s : State) (w : Nat) : State :=
  let word := BitVec.ofNat 32 w
  let e := match decodeAny word with
    | some (e, _) => e
    | none => .s
  let t := (s.tasks.get s.cur).getD bootTask
  let t := match e with
    | .s => { t with pcS := 0, endS := false }
    | .v => { t with pcV := 0, endV := false }
    | .m => { t with pcM := 0, endM := false }
    | .c => { t with pcC := 0, endC := false }
  let t := { t with level := true, mode := .ready, draining := false }
  let k := s.cores.get (coreOf s.cur)
  let k := { k.issuedFrom e (BitVec.ofNat 2 ((slotOf s.cur).val + 3)) with posTlb := [], frames := [], code := [] }
  let entry : Vector Word 4 := #v[1, BitVec.ofNat 64 (2 ^ 40 + bootL3), BitVec.ofNat 64 (2 ^ 40 + bootObject), 1]
  { s with
    mem := bootMem s.mem word.toNat
    tasks := s.tasks.set s.cur (some t)
    cores := s.cores.set (coreOf s.cur) k
    eng := e
    agenda := []
    held := false
    dev := { s.dev with tenants := s.dev.tenants.set t.tenant.toNat entry t.tenant.isLt } }

end Sys2Proof.Machine
end

