-- ==== Sys2Proof/Machine/Flags.lean ====
section
/-!
DEFINITION. Flag computations of the vector engine and the task: lane flags (R159, R160), their collection into TFLAGS
(R161), the rounding mode (R152), and how a vector result lands with its flags (R165, R167, R169).  The flags that one
float operation raises are computed with it in Float.
-/

namespace Sys2Proof.Machine

/-- The rounding mode in force (R152, R153). -/
def Task.mode' (t : Task) : Mode := Mode.ofBits t.vctl

/-- The flags of a list ORed together. -/
def orFlags (fs : List LFlags) : LFlags := fs.foldl (· ||| ·) 0

/-- The flags that each lane raises, when element e of width w raises `f e` and only active lanes count (R159). -/
def laneFlagsOf (w : Nat) (active : Mask) (f : Nat → LFlags) : Vector (BitVec 5) 256 :=
  .ofFn fun i =>
    if active.getLsbD i.val then orFlags ((List.range (32 / w)).map fun j => f (i.val * (32 / w) + j)) else 0

/-- Flags that go to lane 0 alone (R158, R159). -/
def laneZeroFlags (f : LFlags) : Vector (BitVec 5) 256 := .ofFn fun i => if i.val == 0 then f else 0

/-- Lane flags with more raised; they are sticky (R159). -/
def raiseLanes (old more : Vector (BitVec 5) 256) : Vector (BitVec 5) 256 := .ofFn fun i => old.get i ||| more.get i

/-- Lane flags with those of the lanes of a mask cleared (R192). -/
def clearLanes (old : Vector (BitVec 5) 256) (m : Mask) : Vector (BitVec 5) 256 :=
  .ofFn fun i => if m.getLsbD i.val then 0 else old.get i

/-- The OR of the flags of the lanes of a mask (R161). -/
def collectLanes (fs : Vector (BitVec 5) 256) (m : Mask) : LFlags :=
  orFlags ((List.finRange 256).map fun i => if m.getLsbD i.val then fs.get i else 0)

/-- A result lands: its bits replace those of its register, its lanes take its poison, its flags are raised; a write to
m0 is discarded (R165, R167, R169, R386). -/
def Task.landResult (t : Task) (r : VResult) : Task :=
  let t := { t with laneFlags := raiseLanes t.laneFlags r.flags }
  match r.dest with
  | .mask m =>
    if m == 0 then t
    else
      let b := r.bits.setWidth 256
      { t with m := t.m.set m.toNat ((t.m.get m.toFin &&& ~~~b) ||| (r.value.setWidth 256 &&& b)) m.isLt }
  | .reg d =>
    { t with
      v := t.v.set d.toNat ((t.v.get d.toFin &&& ~~~r.bits) ||| (r.value &&& r.bits)) d.isLt
      vPoison := t.vPoison.set d.toNat ((t.vPoison.get d.toFin &&& ~~~r.lanes) ||| (r.poison &&& r.lanes)) d.isLt }

/-- The results whose count has come land, in program order (R167, R169). -/
def Task.landDue (t : Task) : Task :=
  let due := t.pending.filter fun p => decide (p.due ≤ t.vcount)
  { (due.foldl (fun t p => t.landResult p.result) t) with
    pending := t.pending.filter fun p => !decide (p.due ≤ t.vcount) }

/-- Every result in flight lands (R169, R195).  DESIGN CHOICE (log 82): in program order, so that where two write the same
lanes the later one's bits stay. -/
def Task.landAll (t : Task) : Task :=
  { (t.pending.foldl (fun t p => t.landResult p.result) t) with pending := [] }

end Sys2Proof.Machine
end

