-- ==== Sys2Proof/Machine/ScalarMem.lean ====
section
/-!
DEFINITION. Loads, stores, flagged stores and atomics of the scalar engine (06, R120 to R125).
-/

namespace Sys2Proof.Machine

/-- The effective address of `ld` and `st` (R116, R120, R121). -/
def effective (c : Ctx) (x : Word) (off : BitVec 11) : M Word :=
  match positionAdd x off.toInt with
  | some a => pure a
  | none => c.trap .padd x

/-- The line of a core's scalar data cache that holds a block as loaded through one form (R122). -/
def Core.line (k : Core) (tenant : BitVec 6) (form block : Nat) : Option Line :=
  k.lines.find? fun ln => !ln.ahead && ln.tenant == tenant && ln.pathPlane.toNat == form && ln.block == block

/-- A scalar load of one datum: through the scalar data cache where the data lies on this device, with the engine's own
stores and those of its task at TSK scope seen over it; a miss fills a line (R111, R120 to R122, R257). -/
def loadScalar (c : Ctx) (a : Word) (want : Want) : M Got := do
  let t ← getTask c.loc
  let s ← getState
  let spot ← c.lift a (locate s (some (coreOf c.loc)) t.grant t.tenant c.eng .read want a)
  match spot with
  | .here bit w false => do
    awaitMid c (!ownAtomic s.dev t.tid c.eng (formOf a) (bit / 8))
    let real := readPlace s.dev.migrations bit
    match (s.cores.get (coreOf c.loc)).line t.tenant (formOf a) (real / 512) with
    | some ln =>
      let m := Mem.writeAll s.mem (byteCells (64 * ln.block) 64 ln.data.toNat)
      let own := ownWrites s.dev t.tid c.eng (formOf a)
      pure { val := readBits (overlay s.dev.migrations own m) real w, width := w, poison := false }
    | none => do
      c.check (bitsGranted s t.tenant t.level .read bit w) .access a
      let bad := rangePoisoned s.dev.poison (real / 512 * 64) 64
      let ln : Line := { pathPlane := BitVec.ofNat 7 (formOf a), tenant := t.tenant, block := real / 512,
                         data := BitVec.ofNat 512 (readBytes s.mem (real / 512 * 64) 64) }
      (if bad then pure () else setCore (coreOf c.loc) fun k => k.fill ln)
      pure { val := readBits (memSeen s t.tid c.eng (formOf a)) real w, width := w,
             poison := rangePoisoned s.dev.poison (real / 8) ((real % 8 + w + 7) / 8) }
  | _ => readSpot c a want

/-- What the scalar engine has read past its data cache: lines of the same form and block are dropped, so that no later
load returns an older write (R256). -/
def dropBlock (c : Ctx) (a : Word) (want : Want) : M Unit := do
  let t ← getTask c.loc
  let s ← getState
  match locate s (some (coreOf c.loc)) t.grant t.tenant c.eng .read want a with
  | .ok (.here bit w false) =>
    dropMatching (partsOf s.dev.migrations [{ bit, width := w, value := 0, addr := a }]) (coreOf c.loc)
  | _ => pure ()

/-- A read by the scalar engine past its data cache (R129). -/
def readPast (c : Ctx) (a : Word) : M Got := do
  let g ← readSpot c a (.bytes 8)
  dropBlock c a (.bytes 8)
  pure g

/-- A read of `n` qwords from the `i`-th of a record on, as one number: each fails as a `ld` at its position of the record
would (R116, R137, R303, R376). -/
def readFrom (c : Ctx) (record : Word) (i : Nat) : Nat → M Nat
  | 0 => pure 0
  | n + 1 =>
    match positionAdd record (8 * i : Nat) with
    | none => c.trap .padd record
    | some a => do
      let g ← readSpot c a (.bytes 8)
      c.check (!g.poison) .mcheck a
      let r ← readFrom c record (i + 1) n
      pure (g.val + 2 ^ 64 * r)

/-- A read of the `n` qwords of a record, as one number. -/
def readRun (c : Ctx) (record : Word) (n : Nat) : M Nat := readFrom c record 0 n

/-- A record of 64 x `n` bytes that the scalar engine reads past its data cache, as one number (R130, R137, R147). -/
def readRecordPast (c : Ctx) (a : Word) (n : Nat) : M Nat := do
  let r ← readRun c a (8 * n)
  (List.range n).forM fun i => dropBlock c (a + BitVec.ofNat 64 (64 * i)) (.bytes 8)
  pure r

/-- A scalar register receives what was read, poison with it (R386). -/
def putGot (c : Ctx) (d : BitVec 6) (v : Word) (g : Got) : M Unit :=
  setTask c.loc fun t => if g.poison then t.poisonS d v else t.writeS d v

/-- `ld` (R120 to R122). -/
def execLd (d a : BitVec 6) (sz : BitVec 3) (off : BitVec 11) (s : State) : Host.Outcome State Fault Refusal :=
  conclude (do
    let c ← issue .s (encode (.ld d a sz off))
    let x ← useS c a
    let ea ← effective c x off
    let g ← loadScalar c ea (sizeWant sz)
    putGot c d (loadValue sz g.width g.val) g
    advance c) s

/-- One checked write leaves the core as a posted store with an optional flag (R111, R123). -/
def postOne (c : Ctx) (ds : List Dest) (flag : Option FlagRef) : M Unit := do
  let uid ← newUid
  countWrite c uid
  postDests c uid ds flag

/-- `st` (R120 to R122). -/
def execSt (d a : BitVec 6) (sz : BitVec 3) (off : BitVec 11) (s : State) : Host.Outcome State Fault Refusal :=
  conclude (do
    let c ← issue .s (encode (.st d a sz off))
    let x ← useS c a
    let v ← useS c d
    let ea ← effective c x off
    let w ← writeSpot c ea (sizeWant sz) v.toNat
    postOne c [w] none
    advance c) s

/-- The checks at the core of a flag word, and where it lies: through GEN or REMOTE, an aligned word of an 8-bit plane,
accessed as the atomic `add64` is (R123, R190, R296). -/
def flagSpot (c : Ctx) (a : Word) : M FlagRef := do
  let t ← getTask c.loc
  let s ← getState
  c.check (pathOf a == 0 || pathOf a == 5) .path a
  let spot ← c.lift a (locate s (some (coreOf c.loc)) t.grant t.tenant c.eng .atomic (.bytes 8) a)
  match spot with
  | .here bit _ _ => pure { addr := a, byte := some (bit / 8) }
  | _ => pure { addr := a, byte := none }

/-- `rst` (R123). -/
def execRst (d a b : BitVec 6) (f : BitVec 3) (s : State) : Host.Outcome State Fault Refusal :=
  conclude (do
    let c ← issue .s (encode (.rst d a b f))
    let x ← useS c a
    let v ← useS c b
    let fl ← useS c d
    c.check (pathOf x == 0 || pathOf x == 5) .path x
    let w ← writeSpot c x (sizeWant f) v.toNat
    let flag ← if d == 0 then pure none else some <$> flagSpot c fl
    postOne c [w] flag
    advance c) s

/-- The checks of an atomic at the core (R125): the byte of the word when it lies on this device, else the device.
DESIGN CHOICE (log 79): its span in the BOUNDS check of R97 is the 8 positions of the addressed word. -/
def atomicSpot (c : Ctx) (a : Word) : M (Nat ⊕ BitVec 8) := do
  let t ← getTask c.loc
  let s ← getState
  c.check (pathOf a != 6) .sealed a
  c.check (pathOf a == 0 || pathOf a == 5) .path a
  let spot ← c.lift a (locate s (some (coreOf c.loc)) t.grant t.tenant c.eng .atomic (.bytes 8) a)
  match spot with
  | .here bit _ _ => pure (.inl (bit / 8))
  | .away dev => pure (.inr dev)
  | .block _ _ _ _ => c.trap .path a

/-- The message that an atomic is. -/
def atomicBody (uid : Nat) (o : Origin) (at_ : Nat ⊕ BitVec 8) (slot : BitVec 5) (h4 h5 : Word) (posted : Bool)
    (a : Word) : Body :=
  match at_ with
  | .inl byte => .atomic uid o byte slot h4 h5 posted false a
  | .inr _ => .remoteAtomic uid o slot h4 h5 posted a

/-- The device that an atomic goes to. -/
def atomicDev (d : Device) (at_ : Nat ⊕ BitVec 8) : BitVec 8 :=
  match at_ with
  | .inl _ => d.devid
  | .inr dev => dev

/-- `amo` that waits: it goes to its handler engine and completes with the answer (R111, R124, R125). -/
def execAmo (d a b : BitVec 6) (slot : BitVec 5) (s : State) : Host.Outcome State Fault Refusal :=
  conclude (do
    let c ← issue .s (encode (.amo d a b slot))
    let x ← useS c a
    let h4 ← useS c b
    let h5 ← useS c (b + 1)
    let t ← getTask c.loc
    match t.answer .s x (.bytes 8) with
    | some (.value v _ _) => do
      putS c d v
      advance c
    | some (.refused k) => c.trap k x
    | none => do
      let where_ ← atomicSpot c x
      let dv ← getDev
      askAway c t x (.bytes 8) (atomicDev dv where_) 1 fun uid => atomicBody uid (originOf c t dv) where_ slot h4 h5 false x) s

/-- A posted atomic leaves the core (R111). -/
def postAtomic (c : Ctx) (at_ : Nat ⊕ BitVec 8) (slot : BitVec 5) (h4 h5 : Word) (a : Word) : M Unit := do
  let uid ← newUid
  countWrite c uid
  let t ← getTask c.loc
  let d ← getDev
  match at_ with
  | .inl _ => pure ()
  | .inr _ => setDev fun d => { d with remoteParts := d.remoteParts ++ [{ uid, tid := t.tid, eng := c.eng, spans := [(a, 8)] }] }
  send (atomicDev d at_) 1 (atomicBody uid (originOf c t d) at_ slot h4 h5 true a)

/-- `amo` that is posted (R111, R124, R125). -/
def execAmoPosted (a b : BitVec 6) (slot : BitVec 5) (s : State) : Host.Outcome State Fault Refusal :=
  conclude (do
    let c ← issue .s (encode (.amoPosted a b slot))
    let x ← useS c a
    let h4 ← useS c b
    let h5 ← useS c (b + 1)
    let where_ ← atomicSpot c x
    postAtomic c where_ slot h4 h5 x
    advance c) s

end Sys2Proof.Machine
end

