-- ==== Sys2Proof/Machine/Matrix.lean ====
section
/-!
DEFINITION. The matrix engine: the lease, operand checks and the fetch chain, `mma` and its slices, the other counted
instructions but `mdrr`, loads of slots and sets, tokens and the end (11; 12; 02, R27, R28; 10, R204 to R211).
-/

namespace Sys2Proof.Machine

/-! The lease and the array's power. -/

/-- A counted instruction of a task has issued (R27, R28): the count rises, and at LEASEMAX the lease passes, or the
count restarts when no slot waits. -/
def Core.countIssue (k : Core) (limit clock : Nat) : Core :=
  let k := { k with leaseCount := k.leaseCount + 1, leaseClock := clock }
  if limit ≤ k.leaseCount then
    if k.leaseWanted then k.passLease clock else { k with leaseCount := 0 }
  else k

/-- A counted instruction starts the ramp, or ends a step-down (R228); answers whether a ramp-up starts. -/
def Core.rampUp (k : Core) : Core × Bool :=
  if k.groupsOn == 0 then ({ k with groupsOn := 1, ramp := .up }, true)
  else if k.ramp == .down then ({ k with ramp := if 16 ≤ k.groupsOn then .steady else .up }, false)
  else (k, false)

/-- What every counted instruction does to the core when it issues (R27, R28, R228, R396). -/
def countedIssue (c : Ctx) : M Unit := do
  let t ← getTask c.loc
  let s ← getState
  let core := coreOf c.loc
  let (k, starts) := (s.cores.get core).rampUp
  setTask c.loc fun t => { t with counted := true }
  setCore core fun _ => k.countIssue (s.leasemax.get core).toNat s.dev.clock
  if starts then
    onKernel t.handle fun x =>
      { x with energy := x.energy + BitVec.ofNat 64 (Config.rampEnergy (s.rampcfg.get core).toNat) }
  else pure ()

/-- Waits, and stays queued for the lease. -/
def waitKeeping (b : Bool) : M Unit := if b then pure () else holdKeeping

/-- The task is queued for the lease when it does not hold it; a free lease is taken at once (R27). -/
def wantLease (c : Ctx) : M Unit := do
  let d ← getDev
  setCore (coreOf c.loc) fun k => k.askLease (slotOf c.loc) d.clock

/-- The tokens of W, the room for those of G, the lease where it is needed, and no load of a slot or set unfinished (R18,
R22, R27, R236); a `vrgn` that drains holds the instruction, and not its place in the queue for the lease (R170). -/
def startM (c : Ctx) (lease : Bool) (w g : BitVec 3) : M Unit := do
  (if lease then wantLease c else pure ())
  let t ← getTask c.loc
  waitKeeping (!t.regionHolds .m)
  let k ← getCore (coreOf c.loc)
  c.check (!t.deadWait .m w) .token 0
  waitKeeping (!t.loading && t.hasTokens .m w && t.hasRoom .m g &&
    (!lease || (k.leaseHolder == some (slotOf c.loc) && !t.parkedMma)))

/-- The instruction has issued: tokens are taken, places reserved, the job is queued and the program counter moves
(R18, R236). -/
def queueM (c : Ctx) (w g : BitVec 3) (work : MWork) (tile : Option Nat) (flags : BitVec 8) (reads : List Nat)
    (slotA : Option Nat := none) : M Unit :=
  setTask c.loc fun t =>
    let t := (t.takeTokens .m w).reserveTokens .m g
    { t.goto .m (c.pc + 4) with
      mjobs := t.mjobs ++ [{ word := c.word, pc := c.pc, gives := g, work, tile, flags, reads, slotA }] }

/-! Operands. -/

/-- The block combinations of R204 that the format word alone decides; a bit of [31:19] makes it illegal (R218). -/
def Stream.formatOk (q : Stream) : Bool :=
  bits q.format.toNat 31 19 == 0 && decide (q.fmt ≤ 14) &&
  (if q.block == 0 then q.scaleFmt == 0
   else [3, 4, 5].contains q.fmt && [1, 3, 4, 12].contains q.scaleFmt)

/-- Whether a base is an address on another device. -/
def isAway (d : Device) (a : Word) : Bool := pathOf a == 5 && bits a.toNat 56 49 != d.devid.toNat

/-- The rules of R88 on a base: its path is one, and its fields name something. -/
def basePathOk (d : Device) (a : Word) : Bool :=
  match pathOf a with
  | 2 => planeOf a == 0 && decide (bits a.toNat 56 49 < 64)
  | 3 => planeOf a == 0 && bits a.toNat 56 19 == 0
  | 4 => planeOf a == 0 && bits a.toNat 56 20 == 0
  | 5 => inDomain d (bits a.toNat 56 49)
  | 7 => false
  | _ => true

/-- The address of the block scale of an element: its position in the scale plane (R204).  DESIGN CHOICE (log 93): it keeps the
path of the base, SEAL included. -/
def scaleAddr (q : Stream) (a : Word) : Word :=
  BitVec.ofNat 64 (a.toNat / 2 ^ 61 * 2 ^ 61 + q.scalePlane * 2 ^ 57 + a.toNat % 2 ^ 57)

/-- The scale plane of a scaled stream exists in its base's object with the block's ratio and the scale's width, or PATH is
raised (R204).  A base without planes has none; another device is asked about its own. -/
def checkScalePlane (c : Ctx) (q : Stream) : M Unit := do
  let t ← getTask c.loc
  let s ← getState
  let a := scaleAddr q q.base
  let w := fmtWidth q.scaleFmt
  if q.block == 0 then pure ()
  else if isAway s.dev q.base then do
    c.check (basePathOk s.dev q.base) .path q.base
    match t.answer c.eng a (.plane w q.block) c.tag with
    | some (.value v _ _) => c.check (v != 0) .path q.base
    | some (.refused _) => pure ()
    | none =>
      let ask := fun uid => Body.read uid (originOf c t s.dev) a (.plane w q.block)
      askAway c t a (.plane w q.block) (BitVec.ofNat 8 (bits a.toNat 56 49)) 0 ask
  else c.check (!onBytePath q.base && planeThere s t.tenant a w q.block) .path q.base

/-- Whether a SEAL base is on a plane that is not sealed (R239). -/
def unsealed (s : State) (core : Fin 256) (tenant : BitVec 6) (a : Word) : Bool :=
  pathOf a == 6 &&
    match walk s (some core) tenant .m .read .element (planeOf a) (posOf a) with
    | .ok f => bits f.fw 28 28 == 0
    | .error _ => false

/-- The checks at issue of an operand stream: format, layout, path or tile range, and a tile's recorded span (R218, R222, R223,
R225, R236, R239). -/
def checkOperand (c : Ctx) (formats : List Nat) (q : Stream) : M Unit := do
  let t ← getTask c.loc
  let s ← getState
  c.check (formats.contains q.fmt && q.formatOk) .path q.base
  checkScalePlane c q
  c.check (spanOk q q.width && !(q.transpose && (tileHandle q.base).isSome)) .layout 0
  match tileHandle q.base with
  | some n => do
    c.check (t.tileOk n) .perm 0
    c.check (((s.cores.get (coreOf c.loc)).tileSpan n).toNat == q.span) .layout 0
  | none => do
    c.check (basePathOk s.dev q.base) .path q.base
    c.check (!unsealed s (coreOf c.loc) t.tenant q.base) .sealed q.base

/-- An operand's tile must be ready (R23, R236).  DESIGN CHOICE (log 104): a tile outside the kernel's range, which PERM names,
is not waited for. -/
def awaitOperand (c : Ctx) (q : Stream) : M Unit := do
  let t ← getTask c.loc
  let k ← getCore (coreOf c.loc)
  match tileHandle q.base with
  | some n => waitKeeping (!t.tileOk n || k.tileState n == 2)
  | none => pure ()

/-- What an access to an element of a stream asks: on byte paths its own width, on planes the element whose low bits it
uses. -/
def elementWant (a : Word) (w : Nat) : Want := if onBytePath a then .width w else .element

/-- The fetch chain for one element of an operand (R206, R224): its value and whether it was flushed.  `index` is the
slice or chunk (R225, R293); a `strict` fetch wants the plane's width to be the element's (R297).  DESIGN CHOICE (log 97): when the
block scale's access fails, TRAPADDR is the scale's address. -/
def fetchElement (c : Ctx) (q : Stream) (book : Codebook) (index : BitVec 16) (el : Elem) (strict : Bool := false) :
    M (FVal × Bool) := do
  let w := q.width
  let entries := book.entries.toList.map BitVec.toNat
  match el with
  | .zero => pure (.fin false 0 1, false)
  | .padd => c.trap .padd q.base index
  | .tile bit => do
    let s ← getState
    let at_ := 8 * tileByte (coreOf c.loc) ((tileHandle q.base).getD 0) 0 + bit
    c.check (!rangePoisoned s.dev.poison (at_ / 8) ((at_ % 8 + w + 7) / 8)) .mcheck 0 index
    pure (elementValue q.fmt entries (readBits s.mem at_ w))
  | .mem a sub => do
    let g ← readSpot c a (if strict then .width w else elementWant a w) index sub
    c.check (!g.poison) .mcheck a index
    let (v, f) := elementValue q.fmt entries (g.val % 2 ^ w)
    if q.block == 0 then pure (v, f)
    else do
      let b := scaleAddr q a
      let h ← readSpot c b (.scale (fmtWidth q.scaleFmt) q.block) index
      c.check (!h.poison) .mcheck b index
      let (sv, sf) := scaleValue q.scaleFmt h.val
      pure (if v.isNaN || sv.isNaN then .nan else mulVal v sv, f || sf)

/-! The accumulator. -/

/-- The core's accumulator tile that is a task's tile a (R230, R33). -/
def Task.accTile (t : Task) (a : BitVec 4) : Nat := t.grant.accTiles.getD a.toNat 0

/-- The bank of a core's accumulator that holds a byte of it: four banks of 32 rows a tile (R230). -/
def accBank (off : Nat) : Nat := off / 2 ^ 14

/-- The first bit of accumulator element (i, j) of a task's tile a (R230). -/
def accBit (core : Fin 256) (t : Task) (a : BitVec 4) (i j : Nat) : Nat :=
  8 * accByte core (t.accTile a) ((128 * i + j) * 4)

/-- The ACC-path address of accumulator element (i, j) of tile a (R88, R230). -/
def accAddr (a : BitVec 4) (i j : Nat) : Word :=
  BitVec.ofNat 64 (4 * 2 ^ 61 + a.toNat * 2 ^ 16 + (128 * i + j) * 4)

/-- The pairs (i, j) of a tile, row by row. -/
def tileCells : List (Nat × Nat) := (List.range 128).flatMap fun i => (List.range 128).map fun j => (i, j)

/-- An accumulator tile's elements as they stand; a poisoned one of those that are used raises MCHECK (R387). -/
def readAcc (c : Ctx) (a : BitVec 4) (index : BitVec 16) (used : List (Nat × Nat) := tileCells) : M (Nat → Nat → Nat) := do
  let t ← getTask c.loc
  let s ← getState
  let core := coreOf c.loc
  match used.find? fun (i, j) => rangePoisoned s.dev.poison (accBit core t a i j / 8) 4 with
  | some (i, j) => c.trap .mcheck (accAddr a i j) index
  | none => pure fun i j => readBits s.mem (accBit core t a i j) 32

/-- Writes every element of an accumulator tile. -/
def writeAcc (c : Ctx) (a : BitVec 4) (f : Nat → Nat → Nat) : M Unit := do
  let t ← getTask c.loc
  let core := coreOf c.loc
  applyWrites [core] (tileCells.map fun (i, j) =>
    { bit := accBit core t a i j, width := 32, value := f i j, addr := accAddr a i j })

/-- The `mma` instructions of a core that still have slices to apply in their turn, by their order (R232). -/
def arrayOrders (s : State) (core : Fin 256) : List Nat :=
  (List.finRange 4).flatMap fun k => match s.tasks.get (place core k) with
    | some t => t.mjobs.filterMap fun j => match j.work with
        | .mma m => if decide (m.next < m.slices) && !m.parked then some m.order else none
        | _ => none
    | none => []

/-- A counted instruction that takes its effect at issue waits until every earlier `mma` of the core has applied its
slices (R232, R235). -/
def awaitArray (c : Ctx) : M Unit := do
  let s ← getState
  waitKeeping (arrayOrders s (coreOf c.loc)).isEmpty

/-- Test 5 of R66 for an accumulator tile (R33). -/
def needA (c : Ctx) (a : BitVec 4) : M Unit := do
  let t ← getTask c.loc
  c.check (a.toNat < t.grant.acc) .illegal 0

/-! The instructions. -/

/-- The formats of an `mma` operand (R218). -/
def mmaFormats : List Nat := [3, 4, 5, 1, 2, 6, 7]

/-- The codebook slot that a stream names (R216). -/
def Core.bookOf (k : Core) (q : Stream) : Codebook := k.books.get q.bookSlot

/-- The stream's cursor moves along K (R220). -/
def Task.stepK (t : Task) (q : BitVec 4) (n : Nat) : Task :=
  let st := t.q.get q.toFin
  { t with q := t.q.set q.toNat (st.moveBy (kStep st n)) q.isLt }

/-- `mma` at issue (R220, R225, R236, R238, R239). -/
def execMma (qa qb acc : BitVec 4) (mode : BitVec 2) (w g : BitVec 3) (ks : BitVec 6) (s : State) :
    Host.Outcome State Fault Refusal :=
  conclude (do
    let c ← headAfter .m (encode (.mma qa qb acc mode w g ks)) fun c => do
      needA c acc
      needQ c [qa, qb]
    startM c true w g
    let t ← getTask c.loc
    let a := t.q.get qa.toFin
    let b := t.q.get qb.toFin
    awaitOperand c a
    awaitOperand c b
    checkOperand c mmaFormats a
    checkOperand c mmaFormats b
    let k ← getCore (coreOf c.loc)
    let order ← newUid
    setTask c.loc fun t =>
      let t := t.stepK qa (32 * ks.toNat)
      if qa == qb then t else t.stepK qb (32 * ks.toNat)
    countedIssue c
    queueM c w g (.mma { qa := a, qb := b, acc, mode, slices := ks.toNat, next := 0, bookA := k.bookOf a,
                         bookB := k.bookOf b, order })
      none 0 ((tileHandle a.base).toList ++ (tileHandle b.base).toList) (some (t.accTile acc))) s

/-- The operand rows of one slice (R224, R229): 128 rows of 32 values, and whether any was flushed. -/
def fetchSlice (c : Ctx) (q : Stream) (book : Codebook) (t : Nat) : M (List (List FVal) × Bool) := do
  let rows ← (List.range 128).mapM fun r =>
    (List.range 32).mapM fun u =>
      fetchElement c q book (BitVec.ofNat 16 t) (matrixElem q q.at' q.width r (32 * t + u))
  pure (rows.map fun r => r.map Prod.fst, rows.any fun r => r.any Prod.snd)

/-- A slice sum combined with an accumulator element (R229, R238). -/
def combineSlice (mode : BitVec 2) (first : Bool) (old : Nat) (x : FVal) : Nat :=
  if mode == 0 && first then rneBits fmtF32 x
  else rneBits fmtF32 (addVal false (decodeFloat fmtF32 old) (if mode == 2 then x.negate else x))

/-- The clocks of a slice at full power (R226). -/
def sliceClocks (m : Mma) : Nat :=
  let fast := fun (q : Stream) (b : Codebook) => [3, 4, 6, 7].contains q.fmt || (q.fmt == 5 && b.narrow)
  if fast m.qa m.bookA && fast m.qb m.bookB then 32 else 64

/-- The clocks that throttling adds to a slice (R227): with g row groups on and throttle step n. -/
def throttledClocks (t0 g n : Nat) : Nat :=
  let b := t0 * ((16 + max g 1 - 1) / max g 1)
  (b * 8 + (8 - n) - 1) / (8 - n) - b

/-- MMA_SLICE (R224 to R229, R238, R250): the next slice of the task's first unfinished `mma`, in its turn among the
core's counted instructions.  A restored one waits for the lease first, and takes its turn when it has it (R235). -/
def execMmaSlice (core slot : Nat) (s : State) : Host.Outcome State Fault Refusal :=
  conclude (do
    let (l, t) ← eventTask core slot
    let st ← getState
    let k := st.cores.get (coreOf l)
    match t.mjobs.find? fun j => match j.work with | .mma m => decide (m.next < m.slices) | _ => false with
    | none => notNow
    | some j =>
      match j.work with
      | .mma m => do
        enabled (t.acts st.dev.clock .m)
        let c : Ctx := { loc := l, eng := .m, pc := j.pc, word := j.word, tag := m.order, back := true }
        if m.parked then
          if k.leaseHolder != some (slotOf l) then wantLease c
          else do
            takeTurn l
        else do
          enabled ((arrayOrders st (coreOf l)).all fun o => decide (m.order ≤ o))
          let (xa, fa) ← fetchSlice c m.qa m.bookA m.next
          let (xb, fb) ← fetchSlice c m.qb m.bookB m.next
          let old ← if m.mode == 0 && m.next == 0 then pure fun _ _ => 0
                    else readAcc c m.acc (BitVec.ofNat 16 m.next)
          writeAcc c m.acc fun i j =>
            combineSlice m.mode (m.next == 0) (old i j)
              (sliceSum (List.zipWith mulVal (xa.getD i []) (xb.getD j [])))
          onKernel t.handle fun x => { x with
            throttledNew := x.throttledNew + BitVec.ofNat 64 (throttledClocks (sliceClocks m) k.groupsOn k.throttle.toNat) }
          setTask l fun t => { t.forget .m m.order with
            mjobs := t.mjobs.map fun x =>
              if x == j then { x with work := .mma { m with next := m.next + 1 },
                                      flags := if fa || fb then x.flags ||| tFlushed else x.flags } else x }
      | _ => notNow) s

/-- `mzero` (R240). -/
def execMzero (a : BitVec 4) (w g : BitVec 3) (s : State) : Host.Outcome State Fault Refusal :=
  conclude (do
    let c ← headAfter .m (encode (.mzero a w g)) (needA · a)
    startM c true w g
    awaitArray c
    writeAcc c a fun _ _ => 0
    countedIssue c
    let t ← getTask c.loc
    queueM c w g (.done none) none 0 [] (some (t.accTile a))) s

/-- `macc` (R240): its 128 elements are read and checked before any is added. -/
def execMacc (a b : BitVec 4) (w g : BitVec 3) (s : State) : Host.Outcome State Fault Refusal :=
  conclude (do
    let c ← headAfter .m (encode (.macc a b w g)) fun c => do
      needA c b
      needQ c [a]
    startM c true w g
    let t ← getTask c.loc
    let q := t.q.get a.toFin
    awaitOperand c q
    awaitArray c
    c.check (q.block == 0) .path q.base
    checkOperand c [0, 1, 2] q
    let vs ← (List.range 128).mapM fun j => fetchElement c q {} 0 (matrixElem q q.at' q.width 0 j)
    let old ← readAcc c b 0
    writeAcc c b fun i j =>
      rneBits fmtF32 (addVal false (decodeFloat fmtF32 (old i j)) ((vs.getD j (.fin false 0 1, false)).1))
    countedIssue c
    queueM c w g (.done none) none (if vs.any Prod.snd then tFlushed else 0) (tileHandle q.base).toList
      (some (t.accTile b))) s

/-- Steps 1 and 2 of R207 under an epilogue set: the value of an accumulator element. -/
def drainValue (e : EpiSet) (x : Nat) : FVal :=
  let v := decodeFloat fmtF32 (rneBits fmtF32 (mulVal (decodeFloat fmtF32 x) (decodeFloat fmtBF16 e.scale.toNat)))
  if e.relu && !v.isNaN && v.negative then .fin false 0 1 else v

/-- The checks at issue of a drain's destination (R209, R234, R242).  The fields of R88 are checked with the elements.  DESIGN
CHOICE (log 94): a cursor that is no multiple of the block's size is not refused.  DESIGN CHOICE (log 100): the tests of the
destination's path come last. -/
def checkDrain (c : Ctx) (e : EpiSet) (q : Stream) : M Unit := do
  let t ← getTask c.loc
  c.check (e.fmt.toNat == q.fmt && q.formatOk) .path q.base
  checkScalePlane c q
  let pos := positionOf q.base
  c.check (q.block == 0 || (pos % q.block == 0 && q.pitch % q.block == 0 && q.rowLen % q.block == 0 &&
    q.extent.toNat % q.block == 0)) .path q.base
  c.check (spanOk q q.width && !(q.transpose && (tileHandle q.base).isSome)) .layout 0
  match tileHandle q.base with
  | some n => c.check (t.tileOk n) .perm 0
  | none => do
    c.check (pathOf q.base != 6) .sealed q.base
    c.check ([0, 2, 3, 5].contains (pathOf q.base)) .path q.base

/-- Where element (i, j) of a drain goes, checked at the core; none where it is encoded zero (R221, R242). -/
def drainSpot (c : Ctx) (q : Stream) (i j : Nat) : M (Option (Dest × Option Dest)) := do
  let w := q.width
  let row := BitVec.ofNat 16 i
  match matrixElem q q.at' w i j with
  | .zero => pure none
  | .padd => c.trap .padd q.base row
  | .tile bit =>
    pure (some (.here { bit := 8 * tileByte (coreOf c.loc) ((tileHandle q.base).getD 0) 0 + bit, width := w,
                        value := 0, addr := q.base, index := row }, none))
  | .mem a sub => do
    let y ← writeSpot c a (elementWant a w) 0 row sub
    if q.block == 0 then pure (some (y, none))
    else do
      let z ← writeSpot c (scaleAddr q a) (.scale (fmtWidth q.scaleFmt) q.block) 0 row
      pure (some (y, some z))

/-- A checked write with its value filled in. -/
def Dest.withValue (d : Dest) (v : Nat) : Dest :=
  match d with
  | .here w => .here { w with value := v % 2 ^ w.width }
  | .block w => .block { w with value := BitVec.ofNat 16 v }
  | .away dev a want _ i => .away dev a want v i

/-- Whether two writes of block scales are of one scale element. -/
def Dest.sameScale (a b : Dest) : Bool :=
  match a, b with
  | .here x, .here y => x.bit == y.bit
  | .away d x (.scale _ r) _ _, .away e y _ _ _ => d == e && posOf x / r == posOf y / r
  | _, _ => false

/-- An element that a drain or a converting copy writes: where it goes, where its block's scale goes, its value, and the
row or column of the stream that it is part of. -/
structure DrainEl where
  dest : Dest
  scale : Option Dest
  value : FVal
  line : Nat
  deriving DecidableEq, Repr

/-- The writes of an unscaled drain and the bits of TFLAGS they set (R208, R243). -/
def plainWrites (e : EpiSet) (q : Stream) (book : List Nat) (xs : List DrainEl) : List Dest × BitVec 8 :=
  let rs := xs.map fun x =>
    let (v, f) := quantOne q.fmt book e.saturate x.value
    (x.dest.withValue v, f)
  (rs.map Prod.fst, (rs.map Prod.snd).foldl (· ||| ·) 0)

/-- Whether an element is of a block: of its line and its scale element. -/
def DrainEl.inBlock (r : DrainEl) (line : Nat) (z : Dest) : Bool :=
  r.line == line && match r.scale with
    | some u => u.sameScale z
    | none => false

/-- The writes of a scaled drain, block by block: the codes and the scale they are written under (R209 to R211).  Lines that
overlap write a block one after the other, each under its own scale. -/
def blockWrites (e : EpiSet) (q : Stream) (book : List Nat) : Nat → List DrainEl → List Dest × BitVec 8
  | 0, _ => ([], 0)
  | _, [] => ([], 0)
  | n + 1, r :: rs =>
    let z := r.scale.getD r.dest
    let mine := r :: rs.filter fun x => x.inBlock r.line z
    let (sc, cs, f) := quantBlock q.fmt q.scaleFmt book e.saturate (mine.map DrainEl.value)
    let (ds, g) := blockWrites e q book n (rs.filter fun x => !x.inBlock r.line z)
    (List.zipWith (fun x v => x.dest.withValue v) mine cs ++ [z.withValue sc] ++ ds, f ||| g)

/-- `mdrain` (R221, R241 to R243): every element is checked before any is written; the writes leave as one posted
write. -/
def execMdrain (acc qd ep : BitVec 4) (w g : BitVec 3) (s : State) : Host.Outcome State Fault Refusal :=
  conclude (do
    let c ← headAfter .m (encode (.mdrain acc qd ep w g)) fun c => do
      needA c acc
      needQ c [qd]
    startM c true w g
    let t ← getTask c.loc
    let k ← getCore (coreOf c.loc)
    let q := t.q.get qd.toFin
    let e := k.epis.get ep.toFin
    let st ← getState
    (match tileHandle q.base with
     | some n => waitKeeping (!t.tileOk n || (k.tileState n == 0 && !fillsFirst st (coreOf c.loc) .m n))
     | none => pure ())
    awaitArray c
    checkDrain c e q
    let spots ← tileCells.mapM fun (i, j) => do
      let d ← drainSpot c q i j
      pure (d.map fun d => (d, i, j))
    let value ← readAcc c acc 0 (spots.filterMap fun d => d.map Prod.snd)
    let xs := (spots.filterMap id).map fun (d, i, j) =>
      { dest := d.1, scale := d.2, value := drainValue e (value i j), line := if q.transpose then j else i : DrainEl }
    let book := (k.bookOf q).entries.toList.map BitVec.toNat
    let (ds, flags) := if q.block == 0 then plainWrites e q book xs else blockWrites e q book xs.length xs
    (match tileHandle q.base with
     | some n => setCore (coreOf c.loc) fun k => k.setTile n fun _ => { state := 1, span := BitVec.ofNat 3 q.span }
     | none => pure ())
    setTask c.loc fun t => { t with q := t.q.set qd.toNat (q.moveBy (drainStep q)) qd.isLt }
    countedIssue c
    let uid ← newUid
    (if ds.isEmpty then pure ()
     else do
      countWrite c uid
      postDests c uid ds none)
    queueM c w g (.done (some uid)) (tileHandle q.base) flags []) s

/-- `mlease sub=get` (R245). -/
def execMleaseGet (w g : BitVec 3) (s : State) : Host.Outcome State Fault Refusal :=
  conclude (do
    let c ← headAfter .m (encode (.mleaseGet w g)) fun _ => pure ()
    startM c true w g
    queueM c w g (.done none) none 0 []) s

/-- A holder of the lease is about to lose it: a restored `mma` of its own takes its turn first, so that the passing takes effect
for the array after its last slice (R235, R245, R249). -/
def settleLease (c : Ctx) : M Unit := do
  let k ← getCore (coreOf c.loc)
  let t ← getTask c.loc
  if k.leaseHolder == some (slotOf c.loc) && t.parkedMma then takeTurn c.loc else pure ()

/-- The holder gives up the lease: it passes to the next waiting slot, or has no holder (R28, R245). -/
def giveUpLease (c : Ctx) : M Unit := do
  settleLease c
  let d ← getDev
  setCore (coreOf c.loc) fun k => if k.leaseHolder == some (slotOf c.loc) then k.passLease d.clock else k

/-- `mlease sub=release` (R245). -/
def execMleaseRelease (w g : BitVec 3) (s : State) : Host.Outcome State Fault Refusal :=
  conclude (do
    let c ← issue .m (encode (.mleaseRelease w g))
    startM c false w g
    giveUpLease c
    queueM c w g (.done none) none 0 []) s

/-- `mlease sub=renew` (R28): the count restarts; with a waiting slot the lease passes and the task is queued again. -/
def execMleaseRenew (w g : BitVec 3) (s : State) : Host.Outcome State Fault Refusal :=
  conclude (do
    let c ← issue .m (encode (.mleaseRenew w g))
    startM c false w g
    settleLease c
    let d ← getDev
    setCore (coreOf c.loc) fun k =>
      if k.leaseHolder == some (slotOf c.loc) then
        if k.leaseWanted then (k.passLease d.clock).askLease (slotOf c.loc) d.clock else { k with leaseCount := 0 }
      else k
    queueM c w g (.done none) none 0 []) s

/-- The bytes that `mcbl` or `mepi` reads, as one number, with every check (R246). -/
def loadRecord (c : Ctx) (q : Stream) (qwords : Nat) : M Nat := do
  let s ← getState
  let p := pathOf q.base
  c.check ((tileHandle q.base).isNone && (p == 0 || p == 5 || p == 2 || p == 3) && basePathOk s.dev q.base)
    .path q.base
  c.check (q.base.toNat % (8 * qwords) == 0) .align q.base
  c.check (8 * qwords ≤ q.extent.toNat) .bounds q.base
  readRun c q.base qwords

/-- A codebook from its 32 bytes, with its narrowness (R203, R246). -/
def bookOfBytes (v : Nat) : Codebook :=
  let es : Vector (BitVec 16) 16 := .ofFn fun i => BitVec.ofNat 16 (v / 2 ^ (16 * i.val))
  { entries := es, narrow := es.toList.all fun e => e.toNat % 16 == 0 }

/-- `mcbl` (R246). -/
def execMcbl (a b : BitVec 4) (w g : BitVec 3) (s : State) : Host.Outcome State Fault Refusal :=
  conclude (do
    let c ← issueAfter .m (encode (.mcbl a b w g)) (needQ · [a])
    startM c false w g
    let t ← getTask c.loc
    let v ← loadRecord c (t.q.get a.toFin) 4
    queueM c w g (.book (b.setWidth 3) (bookOfBytes v)) none 0 []) s

/-- An epilogue set from its 16 bytes; none for a record that R233 refuses. -/
def epiOfBytes (v : Nat) : Option EpiSet :=
  let f := fun off n => v / 2 ^ (8 * off) % 2 ^ (8 * n)
  if f 2 1 / 32 == 0 && [0, 1, 2, 3, 4, 5, 6, 7, 10].contains (f 2 1) && f 3 1 / 4 == 0 && f 4 1 == 0 && f 5 11 == 0 then
    some { scale := BitVec.ofNat 16 (f 0 2), fmt := BitVec.ofNat 5 (f 2 1), relu := f 3 1 / 2 == 1,
           saturate := f 3 1 % 2 == 1 }
  else none

/-- `mepi` (R233, R246). -/
def execMepi (a b : BitVec 4) (w g : BitVec 3) (s : State) : Host.Outcome State Fault Refusal :=
  conclude (do
    let c ← issueAfter .m (encode (.mepi a b w g)) (needQ · [a])
    startM c false w g
    let t ← getTask c.loc
    let q := t.q.get a.toFin
    let v ← loadRecord c q 2
    match epiOfBytes v with
    | some e => queueM c w g (.epi b e) none 0 []
    | none => c.trap .reserved q.base) s

/-- `mtk` (R248). -/
def execMtk (w g : BitVec 3) (s : State) : Host.Outcome State Fault Refusal :=
  conclude (do
    let c ← issue .m (encode (.mtk w g))
    startM c false w g
    queueM c w g (.done none) none 0 []) s

/-- `mend` (R249): the lease passes; what has issued goes on to its finish. -/
def execMend (s : State) : Host.Outcome State Fault Refusal :=
  conclude (do
    let c ← issue .m (encode .mend)
    let t ← getTask c.loc
    waitFor (!t.loading)
    giveUpLease c
    setTask c.loc fun t => { t.goto .m (c.pc + 4) with endM := true }
    noteEnds t.handle) s

/-- LEASE_IDLE (R28): a holder that has issued no counted instruction for 4,096 clocks loses the lease to a waiting
slot. -/
def execLeaseIdle (core : Nat) (s : State) : Host.Outcome State Fault Refusal :=
  conclude (do
    let c ← coreAt core
    let k ← getCore c
    let d ← getDev
    enabled (k.leaseHolder.isSome && k.leaseWanted && decide (k.leaseClock + 4096 ≤ d.clock))
    settleHolder c
    setCore c fun k => k.passLease d.clock) s

/-- RAMP_INTERVAL (R228): one row group more comes on while the array ramps up, one steps down while it steps down.  A
step-down starts when no task of the core that issued counted instructions is left and no slot waits for the lease. -/
def execRampInterval (core : Nat) (s : State) : Host.Outcome State Fault Refusal :=
  conclude (do
    let c ← coreAt core
    let k ← getCore c
    match k.ramp with
    | .up => setCore c fun k => { k with
        groupsOn := if k.groupsOn < 16 then k.groupsOn + 1 else 16
        ramp := if 15 ≤ k.groupsOn then .steady else .up }
    | .down => setCore c fun k => { k with
        groupsOn := k.groupsOn - 1
        ramp := if k.groupsOn ≤ 1 then .steady else .down }
    | .steady => notNow) s

/-- LEASEMAX: a write of the register from outside the core's program (R28). -/
def execLeasemax (core : Nat) (value : BitVec 64) (s : State) : Host.Outcome State Fault Refusal :=
  conclude (do
    let c ← coreAt core
    writeLeasemax c value) s

/-- RAMPCFG: a write of the register (R395). -/
def execRampcfg (core : Nat) (value : BitVec 64) (s : State) : Host.Outcome State Fault Refusal :=
  conclude (do
    let c ← coreAt core
    emit (.rampcfg c value)) s

end Sys2Proof.Machine
end

