-- ==== Sys2Proof/Machine/Copy.lean ====
section
/-!
DEFINITION. The copy engine: copies, their chunks and scoreboard tokens, `ctile`, `ctk` and `cend` (17, R289 to R302,
R306).  The instructions that hand records on stand with what happens to the records.
-/

namespace Sys2Proof.Machine

/-! Issue. -/

/-- The tokens of W and the room for those of G (R18, R22, R289). -/
def startC (c : Ctx) (w g : BitVec 3) : M Unit := do
  let t ← getTask c.loc
  c.check (!t.deadWait .c w) .token 0
  waitFor (t.hasTokens .c w && t.hasRoom .c g)

/-- The instruction has issued (R18, R289). -/
def queueC (c : Ctx) (w g : BitVec 3) (work : CWork) : M Unit :=
  setTask c.loc fun t =>
    let t := (t.takeTokens .c w).reserveTokens .c g
    { t.goto .c (c.pc + 4) with cjobs := t.cjobs ++ [{ word := c.word, pc := c.pc, gives := g, work }] }

/-- The paths of a copy's source and destination (R296, R299, R300, R301), a tile handle apart. -/
def sourcePaths : CopyKind → List Nat
  | .flagged => [0, 2, 3, 4]
  | .staged => [0, 1, 5, 6]
  | _ => [0, 1, 2, 3, 4, 5, 6]

def targetPaths : CopyKind → List Nat
  | .flagged => [0, 5]
  | .staged => [2]
  | .add _ => [4]
  | _ => [0, 1, 2, 3, 4, 5]

/-- Whether a copy's source or destination may be a tile (R296, R299). -/
def sourceTileOk : CopyKind → Bool
  | .staged => false
  | _ => true

def targetTileOk : CopyKind → Bool
  | .flagged => false
  | .staged => false
  | .add _ => false
  | _ => true

/-- The path of one stream of a copy (R88, R293, R296). -/
def checkCopyPath (c : Ctx) (paths : List Nat) (tile target : Bool) (q : Stream) : M Unit := do
  let d ← getDev
  if (tileHandle q.base).isSome then c.check tile .path q.base
  else do
    c.check (!(target && pathOf q.base == 6)) .sealed q.base
    c.check (paths.contains (pathOf q.base) && basePathOk d q.base) .path q.base

/-- The layout of one stream of a copy (R222, R290). -/
def checkCopyLayout (c : Ctx) (q : Stream) (w : Nat) : M Unit :=
  c.check (!q.transpose && ((tileHandle q.base).isSome || decide (q.rowLen ≤ q.pitch)) && spanOk q w) .layout 0

/-- The tile of a stream lies in the kernel's range (R293). -/
def checkCopyTile (c : Ctx) (q : Stream) : M Unit := do
  let t ← getTask c.loc
  match tileHandle q.base with
  | some n => c.check (t.tileOk n) .perm 0
  | none => pure ()

/-- The width of a stream is that of its plane, where its base tells (R297). -/
def checkCopyWidth (c : Ctx) (q : Stream) (w : Nat) : M Unit := do
  let t ← getTask c.loc
  let s ← getState
  c.check (pathOf q.base != 1 || w == 16) .path q.base
  if pathOf q.base == 1 || onBytePath q.base || isAway s.dev q.base then pure ()
  else
    match planeWord s t.tenant q.base (planeOf q.base) with
    | some pw => c.check (planeWidth pw == w) .path q.base
    | none => pure ()

/-- The formats of a copy (R297 to R299, R301). -/
def checkCopyFormats (c : Ctx) (kind : CopyKind) (qs qd : Stream) : M Unit := do
  c.check (decide (qs.fmt ≤ 14) && decide (qd.fmt ≤ 14)) .path qd.base
  match kind with
  | .convert => do
    c.check (qs.formatOk && qs.fmt != 12 && qs.fmt != 13) .path qs.base
    checkScalePlane c qs
    c.check ([0, 1, 2, 3, 4, 5, 6, 7, 10].contains qd.fmt && qd.formatOk) .path qd.base
    checkScalePlane c qd
    let pos := positionOf qd.base
    c.check (qd.block == 0 || (pos % qd.block == 0 && qd.pitch % qd.block == 0 && qd.rowLen % qd.block == 0 &&
      qd.extent.toNat % qd.block == 0)) .path qd.base
  | .add i32 => do
    let f := if i32 then 10 else 0
    c.check (qs.fmt == f && qd.fmt == f && qs.block == 0 && qs.scaleFmt == 0 && qd.block == 0 && qd.scaleFmt == 0)
      .path qd.base
  | .zero => c.check (qd.block == 0 && qd.scaleFmt == 0) .path qd.base
  | .fill => c.check (qd.block == 0 && qd.scaleFmt == 0) .path qd.base
  | _ => c.check (qs.width == qd.width) .path qd.base

/-- The stream index of logical element j (R290). -/
def copyIndex (q : Stream) (j : Nat) : Int :=
  if (tileHandle q.base).isSome || q.rowLen == 0 then q.at' + j
  else q.at' + (j / q.rowLen * q.pitch + j % q.rowLen : Nat)

/-- How many logical elements a stream has (R291). -/
def copyLength (q : Stream) : Nat :=
  if (tileHandle q.base).isSome then (((128 * (2048 / q.width) : Nat) : Int) - q.at').toNat
  else
    let e := ((q.extent.toNat : Int) - q.at').toNat
    if q.rowLen == 0 then e else e / q.pitch * q.rowLen + min q.rowLen (e % q.pitch)

/-- Where the element at a stream index lies, for a copy (R290, R291): below 0 or beyond the extent, nowhere. -/
def copyElem (q : Stream) (w : Nat) (idx : Int) : Elem :=
  if (tileHandle q.base).isSome then
    let n := 2048 / w
    if idx < 0 ∨ ((128 * n : Nat) : Int) ≤ idx then .zero else tileElem q w (idx.toNat / n) (idx.toNat % n)
  else if idx < 0 ∨ (q.extent.toNat : Int) ≤ idx then .zero
  else memElem q w idx.toNat

/-- The elements of a chunk (R292): 4 KiB of the wider side. -/
def Copy.perChunk (x : Copy) : Nat := 32768 / max x.qs.width x.qd.width

/-- A copy's tokens are named at issue (R295). -/
def Task.nameTokens (t : Task) (kr kv : Option (BitVec 3)) : Task :=
  let t := match kr with
    | some k => t.nameToken k
    | none => t
  if kr == kv then t
  else match kv with
    | some k => t.nameToken k
    | none => t

/-- Whether every tile that a copy reads is ready with its stream's span recorded, and its destination tile is empty (R23,
R223, R289). -/
def awaitCopyTiles (c : Ctx) (sources : List Stream) (qd : Stream) : M Unit := do
  let k ← getCore (coreOf c.loc)
  let src := sources.filterMap fun q => (tileHandle q.base).map fun n => (n, q.span)
  waitFor (src.all fun x => k.tileState x.1 == 2)
  waitFor (match tileHandle qd.base with | some n => k.tileState n == 0 | none => true)
  c.check (src.all fun x => (k.tileSpan x.1).toNat == x.2) .layout 0

/-- The alignment of a staged copy (R296): the byte offset where its first element lands, and the bytes it moves. -/
def stagedAligned (qd : Stream) (count : Nat) : Bool :=
  let first : Int := (bits qd.base.toNat 48 0 : Nat) * 8 + copyIndex qd 0 * qd.width
  first % 2048 == 0 && count * qd.width % 2048 == 0

/-- A copy issues (R289 to R291, R293): its checks, its tiles, its tokens, its count, and the streams as it uses them to
its end. -/
def issueCopy (word : BitVec 32) (kind : CopyKind) (qs qd : BitVec 4) (ix : Option (BitVec 4))
    (kr kv : Option (BitVec 3)) (w g sc : BitVec 3) : M Unit := do
  let reads := match kind with
    | .zero => false
    | .fill => false
    | _ => true
  let c ← issueAfter .c word (needQ · (if reads then qs :: qd :: ix.toList else [qd]))
  startC c w g
  let t ← getTask c.loc
  waitFor (decide ((t.cjobs.filter CJob.isCopy).length < 8))
  let b := t.q.get qd.toFin
  let a := if reads then t.q.get qs.toFin else b
  let i := ix.map fun n => t.q.get n.toFin
  (if reads then checkCopyPath c (sourcePaths kind) (sourceTileOk kind) false a else pure ())
  checkCopyPath c (targetPaths kind) (targetTileOk kind) true b
  checkCopyFormats c kind a b
  (match i with
   | some x => do
     c.check ((x.fmt == 10 || x.fmt == 11 || x.fmt == 14) && x.formatOk) .path x.base
     checkCopyPath c [0, 1, 2, 3, 4, 5, 6] true false x
     checkCopyLayout c x x.width
     checkCopyTile c x
     checkCopyWidth c x x.width
   | none => pure ())
  (if reads then checkCopyLayout c a a.width else pure ())
  checkCopyLayout c b b.width
  (if reads then checkCopyTile c a else pure ())
  checkCopyTile c b
  (if reads then checkCopyWidth c a a.width else pure ())
  checkCopyWidth c b b.width
  let count := match i with
    | some x => copyLength x
    | none => copyLength a
  c.check (kind != .staged || stagedAligned b count) .align b.base
  let flag ← if kind == .flagged && b.flag != 0 then (fun f => some f.addr) <$> flagSpot c b.flag else pure none
  let sources := (if reads then [a] else []) ++ i.toList
  awaitCopyTiles c sources b
  let k ← getCore (coreOf c.loc)
  let srcTiles := (sources.filterMap fun q => tileHandle q.base).dedup
  let dstTile := tileHandle b.base
  setCore (coreOf c.loc) fun k =>
    let k := srcTiles.foldl (fun k n => k.setTile n fun x => { x with state := 3 }) k
    match dstTile with
    | some n => k.setTile n fun _ => { state := 1, span := BitVec.ofNat 3 b.span }
    | none => k
  let uid ← newUid
  countWrite c uid
  setTask c.loc fun t => t.nameTokens kr kv
  queueC c w g (.copy {
    kind, qs := a, qd := b, idx := i.getD {}, srcBook := k.bookOf a, dstBook := k.bookOf b, exposed := t.exposed,
    count, next := 0, sc, kr, kv, uid, flag, srcTiles, dstTile })

/-- `cp fn=asis` (R296, R297). -/
def execCp (qs qd : BitVec 4) (kr kv w g sc : BitVec 3) (s : State) : Host.Outcome State Fault Refusal :=
  conclude (issueCopy (encode (.cp qs qd kr kv w g sc)) .plain qs qd none (some kr) (some kv) w g sc) s

/-- `cp fn=convert` (R298). -/
def execCpConvert (qs qd : BitVec 4) (kr kv w g sc : BitVec 3) (s : State) : Host.Outcome State Fault Refusal :=
  conclude (issueCopy (encode (.cpConvert qs qd kr kv w g sc)) .convert qs qd none (some kr) (some kv) w g sc) s

/-- `cpadd` (R299). -/
def execCpadd (qs qd : BitVec 4) (kr kv w g sc : BitVec 3) (fn : BitVec 1) (s : State) :
    Host.Outcome State Fault Refusal :=
  conclude (issueCopy (encode (.cpadd qs qd kr kv w g sc fn)) (.add (fn == 1)) qs qd none (some kr) (some kv) w g sc) s

/-- An indexed copy, whose index stream is the one after the stream named (R300). -/
def issueIndexed (word : BitVec 32) (n : BitVec 4) (run : BitVec 4 → M Unit) : M Unit :=
  if n == 15 then do
    let _ ← issueAfter .c word (Ctx.trap · .illegal 0)
  else run (n + 1)

/-- `cpg` (R300). -/
def execCpg (qs qd : BitVec 4) (kr kv w g sc : BitVec 3) (s : State) : Host.Outcome State Fault Refusal :=
  conclude (issueIndexed (encode (.cpg qs qd kr kv w g sc)) qs fun i =>
    issueCopy (encode (.cpg qs qd kr kv w g sc)) .gather qs qd (some i) (some kr) (some kv) w g sc) s

/-- `cps` (R300). -/
def execCps (qs qd : BitVec 4) (kr kv w g sc : BitVec 3) (s : State) : Host.Outcome State Fault Refusal :=
  conclude (issueIndexed (encode (.cps qs qd kr kv w g sc)) qd fun i =>
    issueCopy (encode (.cps qs qd kr kv w g sc)) .scatter qs qd (some i) (some kr) (some kv) w g sc) s

/-- `cpz` (R301): no source and no kr. -/
def execCpz (qd : BitVec 4) (kv w g sc : BitVec 3) (fn : BitVec 1) (s : State) : Host.Outcome State Fault Refusal :=
  conclude (issueCopy (encode (.cpz qd kv w g sc fn)) (if fn == 1 then .fill else .zero) qd qd none none (some kv)
    w g sc) s

/-- `cpf` (R296). -/
def execCpf (qs qd : BitVec 4) (kr kv w g sc : BitVec 3) (s : State) : Host.Outcome State Fault Refusal :=
  conclude (issueCopy (encode (.cpf qs qd kr kv w g sc)) .flagged qs qd none (some kr) (some kv) w g sc) s

/-- `cpre` (R296). -/
def execCpre (qs qd : BitVec 4) (kr kv w g sc : BitVec 3) (s : State) : Host.Outcome State Fault Refusal :=
  conclude (issueCopy (encode (.cpre qs qd kr kv w g sc)) .staged qs qd none (some kr) (some kv) w g sc) s

/-! Chunks. -/

/-- A meaning whose trap is answered and not taken: a target's refusal or a poisoned read ends a copy in error
(R294). -/
def orTrap {α : Type} (m : M α) : M (Except TrapInfo α) :=
  tryCatch (do
    let x ← m
    pure (.ok x)) fun e =>
      match e with
      | .trap i => pure (.error i)
      | e => throw e

/-- The check at the core of one element of a copy (R97, R293): its want, and that of its scale. -/
def checkCopyElem (c : Ctx) (k : Acc) (q : Stream) (scaled : Bool) (el : Elem) (index : BitVec 16) : M Unit := do
  let t ← getTask c.loc
  let s ← getState
  let at_ := fun (a : Word) (want : Want) (sub : Nat) => do
    let _ ← c.lift a (locate s (some (coreOf c.loc)) t.grant t.tenant .c k want a sub) index
    pure ()
  match el with
  | .zero => pure ()
  | .tile _ => pure ()
  | .padd => c.trap .padd q.base index
  | .mem a sub => do
    at_ a (.width q.width) sub
    if scaled then at_ (scaleAddr q a) (.scale (fmtWidth q.scaleFmt) q.block) 0 else pure ()

/-- One element read as it stands (R297). -/
def copyRead (c : Ctx) (q : Stream) (el : Elem) (index : BitVec 16) : M Nat :=
  match el with
  | .zero => pure 0
  | .padd => c.trap .padd q.base index
  | .tile bit => do
    let s ← getState
    let at_ := 8 * tileByte (coreOf c.loc) ((tileHandle q.base).getD 0) 0 + bit
    c.check (!rangePoisoned s.dev.poison (at_ / 8) ((at_ % 8 + q.width + 7) / 8)) .mcheck 0 index
    pure (readBits s.mem at_ q.width)
  | .mem a sub => do
    let g ← readSpot c a (.width q.width) index sub
    c.check (!g.poison) .mcheck a index
    pure (g.val % 2 ^ q.width)

/-- Where one element of a copy is written, and its scale; none where the write is dropped (R291). -/
def copyWrite (c : Ctx) (q : Stream) (scaled : Bool) (el : Elem) (index : BitVec 16) : M (Option (Dest × Option Dest)) :=
  match el with
  | .zero => pure none
  | .padd => c.trap .padd q.base index
  | .tile bit =>
    pure (some (.here { bit := 8 * tileByte (coreOf c.loc) ((tileHandle q.base).getD 0) 0 + bit, width := q.width,
                        value := 0, addr := q.base, index }, none))
  | .mem a sub => do
    let y ← writeSpot c a (.width q.width) 0 index sub
    if scaled then do
      let z ← writeSpot c (scaleAddr q a) (.scale (fmtWidth q.scaleFmt) q.block) 0 index
      pure (some (y, some z))
    else pure (some (y, none))

/-- The index that element j of an index stream gives (R300): I32 and I64 signed, N32 not. -/
def indexValue (q : Stream) (raw : Nat) : Int := readInt q.width (q.fmt != 11) raw

/-- What a chunk writes: writes to post with the bits of TFLAGS, or adds to make at once. -/
inductive ChunkOut where
  | post (ds : List Dest) (flags : BitVec 8)
  | add (ws : List (Dest × Nat))

/-- The values of a chunk once its reads are made (R296 to R301). -/
def chunkValues (c : Ctx) (x : Copy) (index : BitVec 16) (els : List Elem) (ds : List (Option (Dest × Option Dest))) :
    M ChunkOut := do
  match x.kind with
  | .convert => do
    let vs ← els.mapM fun el => fetchElement c x.qs x.srcBook index el true
    let ts := if x.qs.tscale == 0 then FVal.fin false 1 1 else decodeFloat fmtBF16 x.qs.tscale.toNat
    let outs := (List.zip vs ((List.range ds.length).zip ds)).filterMap fun (v, i, d) => d.map fun d =>
      { dest := d.1, scale := d.2, value := mulVal v.1 ts, line := (x.next * x.perChunk + i) / x.qd.rowLen : DrainEl }
    let book := x.dstBook.entries.toList.map BitVec.toNat
    let (ws, fl) := if x.qd.block == 0 then plainWrites {} x.qd book outs else blockWrites {} x.qd book outs.length outs
    pure (.post ws (fl ||| (if vs.any Prod.snd then tFlushed else 0)))
  | .zero => pure (.post (ds.filterMap fun d => d.map fun d => d.1.withValue 0) 0)
  | .fill => pure (.post (ds.filterMap fun d => d.map fun d => d.1.withValue (x.qd.fill.toNat % 2 ^ x.qd.width)) 0)
  | .add _ => do
    let vs ← els.mapM fun el => copyRead c x.qs el index
    pure (.add ((List.zip vs ds).filterMap fun (v, d) => d.map fun d => (d.1, v)))
  | _ => do
    let vs ← els.mapM fun el => copyRead c x.qs el index
    pure (.post ((List.zip vs ds).filterMap fun (v, d) => d.map fun d => d.1.withValue v) 0)

/-- Adds through the add port (R288, R299): each element of the accumulator takes its sum in one step. -/
def addWrites (c : Ctx) (i32 : Bool) (ws : List (Dest × Nat)) : M Unit := do
  let s ← getState
  let sums := ws.filterMap fun (d, v) => match d with
    | .here w =>
      let old := readBits s.mem w.bit 32
      some { w with value := if i32 then (old + v) % 2 ^ 32
                             else rneBits fmtF32 (addVal false (decodeFloat fmtF32 old) (decodeFloat fmtF32 v)) }
    | _ => none
  (match sums.find? fun w => rangePoisoned s.dev.poison (w.bit / 8) 4 with
   | some w => c.trap .mcheck w.addr
   | none => pure ())
  applyWrites [coreOf c.loc] sums

/-- The copy with an identifier changes. -/
def Task.onCopy (t : Task) (uid : Nat) (f : Copy → Copy) : Task :=
  { t with cjobs := t.cjobs.map fun j => match j.work with
      | .copy x => if x.uid == uid then { j with work := .copy (f x) } else j
      | _ => j }

/-- A token's error bit is set (R294, R295). -/
def Task.markToken (t : Task) (k : BitVec 3) : Task :=
  { t with k := t.k.set k.toFin { t.k.get k.toFin with err := true } }

/-- A condition of a copy holds, at its end or in error (R294, R295): the token's own condition is both when it is named
twice. -/
def Task.readsMet (t : Task) (x : Copy) (err : Bool) : Task :=
  match x.kr with
  | none => t
  | some k =>
    if x.readSet then (if err then t.markToken k else t)
    else if x.kr == x.kv && !x.writeSet then t
    else t.meetToken k err

def Task.writesMet (t : Task) (x : Copy) (err : Bool) : Task :=
  match x.kv with
  | none => t
  | some k =>
    if x.writeSet then (if err then t.markToken k else t)
    else if x.kr == x.kv && !x.readSet then t
    else t.meetToken k err

/-- A copy ends in error (R294, R295): nothing more of it happens, its tokens are set with their error bits, and it
counts as acknowledged. -/
def Task.failCopy (t : Task) (x : Copy) : Task :=
  let t := t.readsMet x true
  let t := t.writesMet { x with readSet := true } true
  (t.onCopy x.uid fun y => { y with dead := true, allRead := true, readSet := true, writeSet := true }).acked x.uid

/-- The copy that an event names: its place, its task, its job and itself. -/
def eventCopy (core slot n : Nat) : M (Fin 1024 × Task × CJob × Copy) := do
  let (l, t) ← eventTask core slot
  match t.cjobs[n]? with
  | some j => match j.work with
    | .copy x => pure (l, t, j, x)
    | _ => notNow
  | none => notNow

/-- One chunk: the checks at the core, source before destination, then the reads, which may end it in error, then what it
writes (R292 to R294); adds are made here when `make` is set. -/
def chunkWork (c : Ctx) (x : Copy) (make : Bool) : M (Except TrapInfo ChunkOut) := do
  let index := BitVec.ofNat 16 x.next
  let js := (List.range x.perChunk).filterMap fun i =>
    let j := x.next * x.perChunk + i
    if j < x.count then some j else none
  let idx ← (match x.kind with
    | .gather => readIndices js index
    | .scatter => readIndices js index
    | _ => pure (.ok []))
  match idx with
  | .error i => pure (.error i)
  | .ok vs => do
    let src := (List.zip js (List.range js.length)).map fun (j, i) => match x.kind with
      | .gather => copyElem x.qs x.qs.width (x.qs.at' + vs.getD i 0)
      | _ => copyElem x.qs x.qs.width (copyIndex x.qs j)
    let dst := (List.zip js (List.range js.length)).map fun (j, i) => match x.kind with
      | .scatter => copyElem x.qd x.qd.width (x.qd.at' + vs.getD i 0)
      | _ => copyElem x.qd x.qd.width (copyIndex x.qd j)
    let sourced := x.kind != .zero && x.kind != .fill
    (if sourced then src.forM fun el => checkCopyElem c .read x.qs (x.kind == .convert && x.qs.block != 0) el index
     else pure ())
    let ds ← dst.mapM fun el => copyWrite c x.qd (x.kind == .convert && x.qd.block != 0) el index
    orTrap (do
      let out ← chunkValues c x index src ds
      match x.kind, out with
      | .add i32, .add ws => do
        (if make then addWrites c i32 ws else pure ())
        pure (.add ws)
      | _, o => pure o)
where
  readIndices (js : List Nat) (index : BitVec 16) : M (Except TrapInfo (List Int)) := do
    let els := js.map fun j => copyElem x.idx x.idx.width (copyIndex x.idx j)
    els.forM fun el => checkCopyElem c .read x.idx false el index
    orTrap (do
      let vs ← els.mapM fun el => copyRead c x.idx el index
      pure (vs.map (indexValue x.idx)))

/-- Where accesses may be: the form of their addresses, or 112 + n for tile n, and the positions, from the first to one past
the last. -/
structure Region where
  form : Nat
  lo : Nat
  hi : Nat
  deriving DecidableEq, Repr

/-- Every place that accesses through a stream, and to its block scales where it is scaled, may name: whole rows, since the
swizzle stays within them. -/
def Stream.regions (q : Stream) (scaled : Bool) : List Region :=
  match tileHandle q.base with
  | some n => [⟨112 + n, 0, 0⟩]
  | none =>
    let p := positionOf q.base
    let n := q.extent.toNat + q.pitch
    let hi := p + (if onBytePath q.base then n * q.width / 8 + 1 else n)
    ⟨formOf q.base, p, hi⟩ :: (if scaled then [⟨16 * pathOf q.base + q.scalePlane, p, hi⟩] else [])

/-- Whether two places have positions in common, in steps of 32, which no block of a scale exceeds. -/
def Region.near (a b : Region) : Bool := decide (a.lo / 32 ≤ b.hi / 32) && decide (b.lo / 32 ≤ a.hi / 32)

/-- Whether two places may name one location through one path and address (R258). -/
def Region.same (a b : Region) : Bool := a.form == b.form && a.near b

/-- Whether two places may name one location, through any paths (R260): not different tiles, nor core memory of different
kinds, nor different planes, but through ALIAS, nor distant positions of one path. -/
def Region.meets (a b : Region) : Bool :=
  if 112 ≤ a.form || 112 ≤ b.form then a.form == b.form
  else
    let p := a.form / 16
    let r := b.form / 16
    if p == r then (p == 1 || a.form == b.form) && a.near b
    else !([p, r].any [3, 4].contains)

/-- What a copy writes, its flag included. -/
def Copy.writesAt (x : Copy) : List Region :=
  x.qd.regions (x.kind == .convert && x.qd.block != 0) ++
    (match x.flag with
     | some f => [⟨formOf f, positionOf f, positionOf f + 8⟩]
     | none => [])

/-- What a copy reads. -/
def Copy.readsAt (x : Copy) : List Region :=
  match x.kind with
  | .zero => []
  | .fill => []
  | .gather => x.qs.regions false ++ x.idx.regions false
  | .scatter => x.qs.regions false ++ x.idx.regions false
  | .convert => x.qs.regions (x.qs.block != 0)
  | _ => x.qs.regions false

/-- Whether every read of a copy is performed: the last chunk has been read, or it has none (R260, R291). -/
def Copy.readsDone (x : Copy) : Bool := x.allRead || decide (x.count ≤ x.next * x.perChunk)

/-- Whether a copy still has writes to make. -/
def Copy.writesLeft (x : Copy) (d : Device) : Bool :=
  !x.dead && !x.writeSet && !(x.readsDone && x.flag.isNone && performed d x.uid)

/-- What a chained load in flight writes when it ends (R374). -/
def ChainWait.writesAt (w : ChainWait) : List Region :=
  ⟨formOf w.block, posOf w.block, posOf w.block + 64⟩ :: w.qd.regions false

/-- Whether a chained load that has not returned may still read there: its pointers name any element through GEN or REMOTE, and no
one knows them before (R258, R369, R373; log 60). -/
def Region.chainReads (a : Region) : Bool := a.form / 16 == 0 || a.form / 16 == 5

/-- Whether an earlier copy of the task, or a chained load, still has accesses to make that come before those of this one: its
writes before this one's to the same location (R260), its reads and writes before this one's through the same path and
address (R258). -/
def Task.copyBehind (t : Task) (d : Device) (n : Nat) (x : Copy) : Bool :=
  ((t.cjobs.take n).any fun j => match j.work with
    | .copy y =>
      (y.writesLeft d && y.writesAt.any fun a => x.writesAt.any a.meets || x.readsAt.any a.same) ||
      (!y.dead && !y.readsDone && y.readsAt.any fun a => x.writesAt.any a.same)
    | _ => false) ||
  d.chainWaits.any fun w => w.tid == t.tid && decide (w.id < x.uid) &&
    (x.writesAt.any Region.chainReads || w.writesAt.any fun a => x.writesAt.any a.same || x.readsAt.any a.same)

/-- An instruction of C that acts on places at issue waits for the earlier copies and chained loads that write there, and for
those copies that read where it writes (R258). -/
def awaitCopies (c : Ctx) (reads writes : List Region) : M Unit := do
  let t ← getTask c.loc
  let d ← getDev
  waitFor (!t.cjobs.any fun j => match j.work with
    | .copy y => (y.writesLeft d && y.writesAt.any fun a => (reads ++ writes).any a.same) ||
        (!y.dead && !y.readsDone && y.readsAt.any fun a => writes.any a.same)
    | _ => false)
  waitFor (!d.chainWaits.any fun w => w.tid == t.tid && w.writesAt.any fun a => (reads ++ writes).any a.same)

/-- Whether slot A of an accumulator bank of a core is written by an instruction under way, which writes the four banks of its
tile: of the `mma`s, the one whose turn it is (R230 to R232). -/
def slotABusy (s : State) (core : Fin 256) (bank : Nat) : Bool :=
  (List.finRange 4).any fun k => match s.tasks.get (place core k) with
    | some t => t.mjobs.any fun j => j.slotA == some (bank / 4) && match j.work with
        | .mma m => decide (m.next < m.slices) && !m.parked && (arrayOrders s core).all fun o => decide (m.order ≤ o)
        | _ => true
    | none => false

/-- The first element that a chunk writes into a bank of the accumulator which slot A writes meanwhile (R231).  DESIGN CHOICE (log
99): this holds of every copy that writes the accumulator by rows of elements, and of no `cps`. -/
def Copy.clashAt (x : Copy) (s : State) (l : Fin 1024) (t : Task) : Option Word :=
  if pathOf x.qd.base != 4 || x.kind == .scatter then none
  else
    (List.range (min x.perChunk (x.count - x.next * x.perChunk))).findSome? fun i =>
      match copyElem x.qd x.qd.width (copyIndex x.qd (x.next * x.perChunk + i)) with
      | .mem a _ =>
        let bank := accBank (65536 * t.accTile (BitVec.ofNat 4 (bits a.toNat 19 16)) + bits a.toNat 15 0)
        if slotABusy s (coreOf l) bank then some a else none
      | _ => none

/-- COPY_CHUNK (R260, R292 to R294, R299, R376): the next chunk of a copy, once the writes of the one before are performed.  A
fault at the core stops the task there, to resume at this chunk.  A clash with slot A, in the clock that the row's argument
stands for (log 87), of a chunk that would write makes an exposed copy into the accumulator end with SCHED; an interlocked
one waits it out (R231). -/
def execCopyChunk (core slot n : Nat) (clash : Bool) (s : State) : Host.Outcome State Fault Refusal :=
  conclude (do
    let (l, t, j, x) ← eventCopy core slot n
    let st ← getState
    let d := st.dev
    enabled (!x.dead && decide (x.next * x.perChunk < x.count) && performed d x.uid &&
      !t.copyBehind d n x && t.acts d.clock .c)
    let met := if clash then x.clashAt st l t else none
    enabled (!clash || met.isSome)
    let c : Ctx := { loc := l, eng := .c, pc := j.pc, word := j.word, tag := x.uid, back := true }
    let fail := fun (i : TrapInfo) => do
      setTask l fun t => (t.failCopy x).forget .c x.uid
      raise { i with index := 0, back := false }
    let r ← chunkWork c x (!(clash && x.exposed))
    match r with
    | .error i => fail i
    | .ok out =>
      if clash && x.exposed then
        fail { loc := l, eng := .c, pc := j.pc, word := j.word, cause := .sched, addr := met.getD 0 }
      else do
        (match out with
         | .post ds _ => if ds.isEmpty then pure () else postDests c x.uid ds none
         | .add _ => pure ())
        let fl : BitVec 8 := match out with
          | .post _ f => f
          | .add _ => 0
        let last := decide (x.count ≤ (x.next + 1) * x.perChunk)
        setTask l fun t =>
          let t := (t.forget .c x.uid).onCopy x.uid fun y => { y with next := y.next + 1, allRead := last }
          { t with cjobs := t.cjobs.map fun k => match k.work with
              | .copy y => if y.uid == x.uid then { k with flags := k.flags ||| fl } else k
              | _ => k }) s

/-- The tasks whose issued instructions concern the tiles of a core: those in its slots, and those saved alone, whose tiles stay
there (R24, R307). -/
def tileTasks (s : State) (core : Fin 256) : List Task :=
  ((List.finRange 4).filterMap fun k => s.tasks.get (place core k)) ++
  (s.dev.saved.filter fun v => v.core == core && v.resident && !v.ended).map Saved.task

/-- Whether a tile of a core is read by an instruction already issued, of a copy other than `uid` (R24). -/
def tileRead (s : State) (core : Fin 256) (n uid : Nat) : Bool :=
  (tileTasks s core).any fun t => t.mjobs.any (fun j => j.reads.contains n) || t.cjobs.any fun j => match j.work with
    | .copy x => x.srcTiles.contains n && x.uid != uid && !x.readsDone
    | _ => false

/-- Whether a write to a tile of a core is in flight (R24, R302). -/
def tileWritten (s : State) (core : Fin 256) (n : Nat) : Bool :=
  (tileTasks s core).any fun t => t.mjobs.any (fun j => j.tile == some n) || t.cjobs.any fun j => match j.work with
    | .copy x => x.dstTile == some n
    | _ => false

/-- COPY_READS_PERFORMED (R24, R260, R295): kr's condition holds, and each tile that it read goes from draining to empty once
nothing else reads it. -/
def execCopyReadsPerformed (core slot n : Nat) (s : State) : Host.Outcome State Fault Refusal :=
  conclude (do
    let (l, _, _, x) ← eventCopy core slot n
    let st ← getState
    let frees := x.srcTiles.filter fun m => !tileRead st (coreOf l) m x.uid
    enabled (x.readsDone && (!x.readSet || !frees.isEmpty))
    frees.forM fun m => setCore (coreOf l) fun k => k.setTile m fun y => if y.state == 3 then { y with state := 0 } else y
    setTask l fun t =>
      let t := if x.readSet then t else t.readsMet x false
      t.onCopy x.uid fun y => { y with readSet := true, srcTiles := y.srcTiles.filter fun m => !frees.contains m }) s

/-- COPY_WRITES_PERFORMED (R260, R263, R289, R295, R296): kv's condition holds and the copy is acknowledged; a `cpf`
first sends the increment of its flag.  DESIGN CHOICE (log 102): the flag's address, tested at issue, is translated again
then, and what fails stops the task as a chunk's fault does. -/
def execCopyWritesPerformed (core slot n : Nat) (s : State) : Host.Outcome State Fault Refusal :=
  conclude (do
    let (l, t, j, x) ← eventCopy core slot n
    let d ← getDev
    enabled (x.readsDone && !x.writeSet && performed d x.uid)
    match x.flag, x.flagSent with
    | some a, false => do
      enabled (t.acts d.clock .c)
      let c : Ctx := { loc := l, eng := .c, pc := j.pc, word := j.word, tag := x.uid, back := true }
      let o := originOf c t d
      let f ← flagSpot c a
      (match f.byte with
       | some b => sendSelf 1 (.atomic x.uid o b 0 1 0 true false a)
       | none => do
         let dev := BitVec.ofNat 8 (deviceOf d a)
         setDev fun d => { d with
           remoteParts := d.remoteParts ++ [{ uid := x.uid, tid := t.tid, eng := .c, spans := [(a, 8)] }] }
         send dev 1 (.remoteAtomic x.uid o 0 1 0 true a))
      setTask l fun t => t.onCopy x.uid fun y => { y with flagSent := true }
    | _, _ =>
      setTask l fun t =>
        ((t.writesMet x false).onCopy x.uid fun y => { y with writeSet := true }).acked x.uid) s

/-! Tiles, tokens and the end. -/

/-- `ctile` (R24, R302). -/
def execCtile (t : BitVec 6) (state : BitVec 2) (w g : BitVec 3) (s : State) : Host.Outcome State Fault Refusal :=
  conclude (do
    let c ← issueAfter .c (encode (.ctile t state w g)) fun c => do
      let me ← getTask c.loc
      c.check (me.tileOk t.toNat) .perm 0
    startC c w g
    let st ← getState
    waitFor (!tileWritten st (coreOf c.loc) t.toNat && (state != 0 || !tileRead st (coreOf c.loc) t.toNat 0))
    setCore (coreOf c.loc) fun k => k.setTile t.toNat fun x => { x with state }
    queueC c w g .short) s

/-- `ctk` (R306). -/
def execCtk (w g : BitVec 3) (s : State) : Host.Outcome State Fault Refusal :=
  conclude (do
    let c ← issue .c (encode (.ctk w g))
    startC c w g
    queueC c w g .short) s

/-- `cend` (R306). -/
def execCend (s : State) : Host.Outcome State Fault Refusal :=
  conclude (do
    let c ← issue .c (encode .cend)
    setTask c.loc fun t => { t.goto .c (c.pc + 4) with endC := true }
    let t ← getTask c.loc
    noteEnds t.handle) s

end Sys2Proof.Machine
end

