-- ==== Sys2Proof/Machine/CollBase.lean ====
section
/-!
DEFINITION. What a collective's record says: its fields, its iterations and peers, its coordinator, its chunks; what a
device reports and how an abort starts (20, R330 to R333, R336, R345, R347).
-/

namespace Sys2Proof.Machine

/-- `n` bytes of a record from an offset, as a number (R2). -/
def field (v off n : Nat) : Nat := v / 2 ^ (8 * off) % 2 ^ (8 * n)

/-- `n` bytes of a record from an offset, as a signed number. -/
def fieldInt (v off n : Nat) : Int := (BitVec.ofNat (8 * n) (field v off n)).toInt

/-- A level entry of a collective record (R331). -/
def levelAt (v l : Nat) : Level :=
  let o := 0x60 + 32 * l
  { bound := field v o 4, src := fieldInt v (o + 8) 8, dst := fieldInt v (o + 16) 8, alpha := fieldInt v (o + 24) 2
    beta := fieldInt v (o + 26) 2, gamma := fieldInt v (o + 28) 2 }

/-- The members of a record's bitmap, by ascending device id (R330). -/
def membersOf (v : Nat) : List (BitVec 8) :=
  (List.range 256).filterMap fun i => if field v 0x40 32 / 2 ^ i % 2 == 1 then some (BitVec.ofNat 8 i) else none

/-- The bytes of a record, with those that the digest leaves out as zeros (R336). -/
def digestBytes (v : Nat) : List Byte :=
  (List.range 256).map fun i =>
    if i == 8 || (decide (0x10 ≤ i) && decide (i < 0x20)) then 0 else BitVec.ofNat 8 (field v i 1)

/-- The fields of a collective record (R331). -/
def collFields (v : Nat) : CollRec :=
  { group := BitVec.ofNat 16 (field v 0 2), op := BitVec.ofNat 2 (field v 2 1), walker := field v 2 1 / 4 % 2 == 1
    fmt := BitVec.ofNat 5 (field v 3 1), sequence := BitVec.ofNat 32 (field v 4 4), rank := field v 8 1
    levels := (List.range (min (field v 9 1) 4)).map (levelAt v), acc := field v 0xA 1, vault := field v 0xC 4
    done := BitVec.ofNat 64 (field v 0x10 8), source := BitVec.ofNat 64 (field v 0x18 8)
    dest := BitVec.ofNat 64 (field v 0x20 8), length := field v 0x28 4, members := membersOf v
    digest := Config.digest (digestBytes v) }

/-- How many iterations a rank has (R332). -/
def CollRec.iterations (r : CollRec) : Nat := (r.levels.map Level.bound).foldl (· * ·) 1

/-- Whether the op, the format and the drive form a row of R341. -/
def CollRec.rowOk (r : CollRec) : Bool :=
  let op := r.op.toNat
  if r.walker then
    decide (1 ≤ r.length) && decide (r.length ≤ 16384) &&
      (if op == 3 then decide (r.fmt.toNat < 15) else decide (r.fmt.toNat ≤ 2) && decide (1 ≤ r.acc))
  else (op == 0 || op == 3) && decide (r.fmt.toNat ≤ 4) && r.acc == 0 && r.vault == 0 && r.source == 0 && r.dest == 0 &&
    r.length == 0

/-- Whether a record keeps its layout (R331). -/
def collFieldsOk (v : Nat) : Bool :=
  let r := collFields v
  let n := field v 9 1
  decide (field v 2 1 < 8) && decide (field v 3 1 < 32) && field v 0xB 1 == 0 && field v 0x2C 20 == 0 &&
  field v 0xE0 32 == 0 && decide (1 ≤ n) && decide (n ≤ 4) && decide (r.acc ≤ 16) && decide (r.vault ≤ 12 * 2 ^ 20) &&
  r.vault % 256 == 0 && !r.members.isEmpty &&
  ((List.range 4).all fun l =>
    let o := 0x60 + 32 * l
    if l < n then decide (1 ≤ field v o 4) && decide (field v o 4 ≤ 65536) && field v (o + 4) 4 == 0 && field v (o + 30) 2 == 0
    else field v o 32 == 0)

/-- Whether `cpost` takes a record: its layout, op, format, drive and iterations (R331, R333, R341). -/
def collLayoutOk (v : Nat) : Bool :=
  collFieldsOk v && (collFields v).rowOk && decide ((collFields v).iterations ≤ 65536)

/-- The rank of a device: the members with lower ids (R330). -/
def CollRec.rankOf (r : CollRec) (dev : BitVec 8) : Nat := (r.members.filter fun m => decide (m.toNat < dev.toNat)).length

/-- The coordinator: the member with the lowest id (R336). -/
def CollRec.coordinator (r : CollRec) : BitVec 8 := r.members.headD 0

/-- The point of the loop nest that an iteration is, outermost level first (R332). -/
def pointOf : List Nat → Nat → List Nat
  | [], _ => []
  | _ :: bs, n =>
    let inner := bs.foldl (· * ·) 1
    (n / inner) :: pointOf bs (n % inner)

/-- The rank that an iteration of a rank goes to (R332). -/
def CollRec.peer (r : CollRec) (rank iter : Nat) : Nat :=
  let p := pointOf (r.levels.map Level.bound) iter
  let sum : Int := ((r.levels.zip p).map fun (l, i) => l.alpha * i + l.beta * rank + l.gamma).foldl (· + ·) 0
  (sum % (r.members.length : Int)).toNat

/-- The elements that an iteration moves: a tile of 128 x 128, or L. -/
def CollRec.elements (r : CollRec) : Nat := if r.walker then r.length else 16384

/-- The elements of a 4 KiB chunk, and the chunks of an iteration (R339, R342). -/
def CollRec.perChunk (r : CollRec) : Nat := 32768 / max 1 (fmtWidth r.fmt.toNat)
def CollRec.chunks (r : CollRec) : Nat := (r.elements + r.perChunk - 1) / r.perChunk

/-- The iterations of any rank whose peer is a rank (R343, R345). -/
def CollRec.arrivals (r : CollRec) (me : Nat) : Nat :=
  ((List.range r.members.length).map fun k =>
    ((List.range r.iterations).filter fun i => r.peer k i == me).length).foldl (· + ·) 0

/-- Whether the vault bytes that a walker reduction reserves are too few for its arrivals (R343). -/
def CollRec.tooFew (r : CollRec) : Bool :=
  r.walker && r.op != 3 && decide (r.vault < r.arrivals r.rank * (r.length * fmtWidth r.fmt.toNat / 8))

/-- The offset, in elements, of an iteration in the data sent and in the data written (R342). -/
def CollRec.offset (r : CollRec) (iter : Nat) (f : Level → Int) : Int :=
  ((r.levels.zip (pointOf (r.levels.map Level.bound) iter)).map fun (l, i) => f l * i).foldl (· + ·) 0

/-- The entry of the posted-collective table with a name. -/
def collEntry (d : Device) (name : CName) : Option CEntry :=
  d.coll.toList.findSome? fun e? => match e? with
    | some e => if e.name == name then some e else none
    | none => none

/-- The entry with a name changes, or is freed. -/
def setEntry (name : CName) (f : CEntry → Option CEntry) : M Unit :=
  setDev fun d => { d with coll := d.coll.map fun e? => e?.bind fun e => if e.name == name then f e else some e }

/-- A device sends an abort to the coordinator (R347). -/
def sendAbort (name : CName) (cause : BitVec 8) (coord : BitVec 8) : M Unit :=
  send coord 5 (.abortAsk name cause coord none)

/-- Whether an entry is posted, ticketed or running. -/
def CEntry.active (e : CEntry) : Bool := e.state == .posted || e.state == .ticketed || e.state == .running

/-- The collectives that a task posted and that are not over are aborted (R347, R358, R383). -/
def abortPosted (tid : Nat) (cause : BitVec 8) : M Unit := do
  let d ← getDev
  d.coll.toList.forM fun e? => match e? with
    | some e => if e.tid == tid && e.active then sendAbort e.name cause e.info.coordinator else pure ()
    | none => pure ()

/-- The entries of a task that are over are freed (R335). -/
def freePosted (tid : Nat) : M Unit :=
  setDev fun d => { d with coll := d.coll.map fun e? => e?.bind fun e => if e.tid == tid && !e.active then none else some e }

/-- Local complete (R343, R345): every iteration of the rank has been acknowledged and every chunk sent to this device has
come; it is reported to the coordinator once. -/
def reportComplete (name : CName) : M Unit := do
  let d ← getDev
  match collEntry d name with
  | none => pure ()
  | some e =>
    let n := e.info.iterations
    if e.state == .running && !e.reported && e.next == n && e.acked == n &&
        e.arrived.length == e.info.arrivals e.info.rank * e.info.chunks then do
      setEntry name fun e => some { e with reported := true }
      send e.info.coordinator 5 (.localDone name d.devid)
    else pure ()

/-- One chunk of an iteration is acknowledged; with the last, the iteration is, and so is the `mdrr` that sent it (R339,
R340). -/
def chunkAcked (name : CName) (iter : Nat) : M Unit := do
  let d ← getDev
  let mine := fun (x : CollSend) => x.name == name && x.iter == iter
  match d.collSends.find? mine with
  | none => pure ()
  | some x =>
    if 1 < x.left then
      setDev fun d => { d with collSends := d.collSends.map fun x => if mine x then { x with left := x.left - 1 } else x }
    else do
      setDev fun d => { d with collSends := d.collSends.filter fun x => !mine x }
      setEntry name fun e => some { e with acked := e.acked + 1 }
      acknowledge x.tid x.uid
      reportComplete name

/-- A hub that coordinates fewer than 256 collectives has room: the posts that wait are sent again (R336). -/
def hubRoom : M Unit := do
  let d ← getDev
  if d.gathers.length < 256 then do
    setDev fun d => { d with postWait := [] }
    d.postWait.forM fun x => send x.1 5 (.postAgain x.2)
  else pure ()

/-- A post goes to its coordinator (R336). -/
def sendPost (e : CEntry) : M Unit :=
  send e.info.coordinator 5 (.collPost e.name e.info.rank e.info.digest e.info.members)

/-- The vault bytes, first and how many, of a kernel's declared-resident streams (R352). -/
def Kernel.vaultRuns (k : Kernel) : List (Nat × Nat) :=
  k.launch.residents.filterMap fun (_, dst, n) => match (if pathOf dst == 2 then bytePath 0 {} dst n else throw (.cause .path)) with
    | .ok b => some (b, n)
    | .error _ => none

/-- The vault bytes that running collectives reserve (R338). -/
def collRuns (d : Device) : List (Nat × Nat) :=
  d.coll.toList.filterMap fun e? => match e? with
    | some e => if e.state == .running then e.vaultAt.map fun b => (b, e.info.vault) else none
    | none => none

/-- Whether two lists of runs of bytes have none in common. -/
def runsApart (xs ys : List (Nat × Nat)) : Bool :=
  xs.all fun x => ys.all fun y => decide (x.1 + x.2 ≤ y.1) || decide (y.1 + y.2 ≤ x.1)

/-- The vault bytes, first and how many, that kernels' declared-resident streams and running collectives hold (R338, R352). -/
def vaultHeld (d : Device) : List (Nat × Nat) :=
  (d.kernels.toList.flatMap fun k? => match k? with
    | some k => if k.state == .posted || k.state == .waiting || k.state == .done then [] else k.vaultRuns
    | none => []) ++ collRuns d

/-- The first free run of some bytes of one vault, a multiple of 256 (R338). -/
def vaultRoom (d : Device) (n : Nat) : Option Nat :=
  let held := vaultHeld d
  (List.range 64).findSome? fun v =>
    let starts := 0 :: held.filterMap fun x => if vaultByte v 0 ≤ x.1 && x.1 < vaultByte (v + 1) 0 then some (x.1 + x.2 - vaultByte v 0) else none
    (starts.map fun o => (o + 255) / 256 * 256).findSome? fun o =>
      let b := vaultByte v o
      if o + n ≤ Config.vaultBytes && held.all fun x => decide (b + n ≤ x.1) || decide (x.1 + x.2 ≤ b) then some b else none

/-- The vault bytes that the collective of the ticket at the head waits for (R338). -/
def vaultWanted (d : Device) : Nat :=
  match d.tickets.head? with
  | none => 0
  | some (name, _) => match collEntry d name with
    | some e => if e.state == .ticketed then e.info.vault else 0
    | none => 0

end Sys2Proof.Machine
end

