-- ==== Sys2Proof/Machine/Handler.lean ====
section
/-!
DEFINITION. The handler machine: legal programs, how one runs, and the standard handlers (04, R84 to R86; 16, R282 to
R287).
-/

namespace Sys2Proof.Machine

/-- A handler instruction's fields (R84). -/
def hOp (w : BitVec 16) : Nat := w.toNat / 2 ^ 12
def hD (w : BitVec 16) : Nat := w.toNat / 2 ^ 9 % 8
def hA (w : BitVec 16) : Nat := w.toNat / 2 ^ 6 % 8
def hB (w : BitVec 16) : Nat := w.toNat / 2 ^ 3 % 8
def hF (w : BitVec 16) : Nat := w.toNat % 8

/-- Whether a handler word keeps R85 and R86: an operation, a function code of its row, no field set that it does not
use. -/
def handlerWordOk (w : BitVec 16) : Bool :=
  match hOp w with
  | 0 => w.toNat % 2 ^ 12 == 0
  | 1 => hF w == 0
  | 8 => hF w ≤ 2
  | 9 => hF w ≤ 2
  | 10 => hF w ≤ 1
  | 11 => hF w ≤ 3
  | 12 => hF w ≤ 1
  | 13 => hF w == 0 && hD w == 0 && hB w == 0
  | 14 => hF w == 0 && hA w == 0 && hB w == 0
  | 15 => false
  | _ => hF w == 0

/-- Whether no `skip` of a program passes its last instruction (R86, R284). -/
def skipsOk : List (BitVec 16) → Bool
  | [] => true
  | w :: ws => (hOp w != 11 || decide (hD w + 1 < ws.length)) && skipsOk ws

/-- Whether a slot takes a program (R86). -/
def handlerOk (p : List (BitVec 16)) : Bool :=
  decide (1 ≤ p.length) && decide (p.length ≤ 32) && p.all handlerWordOk && skipsOk p &&
    match p.getLast? with
    | some w => hOp w == 0 || hOp w == 13
    | none => false

/-- What a handler holds while it runs: h0 to h7 and the carry bit. -/
structure HState where
  h : Vector Word 8
  carry : Bool := false
  deriving DecidableEq, Repr

/-- The lanes of `w` bits of a word, each computed from the same lanes of two words. -/
def mapLanes (w : Nat) (a b : Word) (f : Nat → Nat → Nat) : Word :=
  BitVec.ofNat 64 (((List.range (64 / w)).map fun i =>
    f (a.toNat / 2 ^ (i * w) % 2 ^ w) (b.toNat / 2 ^ (i * w) % 2 ^ w) % 2 ^ w * 2 ^ (i * w)).foldl (· + ·) 0)

/-- `fadd` (R282, R283): f 0 two F32 lanes, f 1 four BF16 lanes. -/
def handlerFadd (f : Nat) (a b : Word) : Word :=
  let fm := if f == 0 then fmtF32 else fmtBF16
  mapLanes fm.width a b fun x y => rneBits fm (addVal false (decodeFloat fm x) (decodeFloat fm y))

/-- `min` and `max` (R282). -/
def handlerMinMax (larger : Bool) (f : Nat) (a b : Word) : Word :=
  match f with
  | 0 => if larger then (if a.slt b then b else a) else (if b.slt a then b else a)
  | 1 => if larger then (if a.ult b then b else a) else (if b.ult a then b else a)
  | _ => mapLanes 32 a b fun x y => (floatOp (if larger then .max else .min) fmtF32 .rne 0 x y).1

/-- Whether a `skip` skips (R282). -/
def skipHolds (f : Nat) (a b : Word) : Bool :=
  match f with
  | 0 => a == b
  | 1 => a != b
  | 2 => a.slt b
  | _ => a.ult b

/-- One handler instruction that is neither `end`, `ret` nor `skip` (R282). -/
def handlerStep (w : BitVec 16) (s : HState) : HState :=
  let a := s.h.toList.getD (hA w) 0
  let b := s.h.toList.getD (hB w) 0
  let put := fun (v : Word) (s : HState) => { s with h := .ofFn fun i => if i.val == hD w then v else s.h.get i }
  let c : Nat := if s.carry then 1 else 0
  match hOp w with
  | 1 => put ((BitVec.ofNat 6 (8 * hA w + hB w)).signExtend 64) s
  | 2 => put (a + b) { s with carry := decide (2 ^ 64 ≤ a.toNat + b.toNat) }
  | 3 => put (a + b + BitVec.ofNat 64 c) { s with carry := decide (2 ^ 64 ≤ a.toNat + b.toNat + c) }
  | 4 => put (a - b) { s with carry := a.ult b }
  | 5 => put (a &&& b) s
  | 6 => put (a ||| b) s
  | 7 => put (a ^^^ b) s
  | 8 => put (handlerMinMax false (hF w) a b) s
  | 9 => put (handlerMinMax true (hF w) a b) s
  | 10 => put (handlerFadd (hF w) a b) s
  | 12 => put (if hF w == 0 then a <<< (b.toNat % 64) else a >>> (b.toNat % 64)) s
  | 14 => put (BitVec.ofNat 64 c) s
  | _ => s

/-- A handler runs (R282): h0 to h3 as it ends, and its return value. -/
def runHandler : Nat → List (BitVec 16) → HState → HState × Word
  | 0, _, s => (s, 0)
  | _, [], s => (s, 0)
  | n + 1, w :: ws, s =>
    match hOp w with
    | 0 => (s, 0)
    | 13 => (s, s.h.toList.getD (hA w) 0)
    | 11 =>
      if skipHolds (hF w) (s.h.toList.getD (hA w) 0) (s.h.toList.getD (hB w) 0) then runHandler n (ws.drop (hD w + 1)) s
      else runHandler n ws s
    | _ => runHandler n ws (handlerStep w s)

/-- A tenant's handler on the four words of a granule (R279, R282). -/
def tenantHandler (p : List (BitVec 16)) (ws : Vector Word 4) (h4 h5 : Word) : Vector Word 4 × Word :=
  let (s, r) := runHandler 33 p { h := #v[ws[0], ws[1], ws[2], ws[3], h4, h5, 0, 0] }
  (#v[s.h[0], s.h[1], s.h[2], s.h[3]], r)

/-- The number that words hold, the first lowest. -/
def wordsNat (ws : List Word) : Nat := ws.foldr (fun w n => w.toNat + 2 ^ 64 * n) 0

/-- A signed sum clamped to 32 bits. -/
def addSat32 (x y : Nat) : Nat :=
  intBits 32 (clampInt (-(2 ^ 31)) (2 ^ 31 - 1) (readInt 32 true x + readInt 32 true y))

/-- The number of instructions of each standard handler (R285). -/
def standardLengths : List Nat := [3, 14, 3, 3, 3, 3, 4, 3, 3, 3, 3, 3, 3, 3, 4, 8, 7, 4, 5, 7, 6, 3, 26, 4]

/-- The standard handlers (R285): the words of the granule, and the word returned, the old w0 in each. -/
def standardHandler (slot : Nat) (ws : Vector Word 4) (h4 h5 : Word) : Vector Word 4 × Word :=
  let w0 := ws[0]
  let one := fun (v : Word) => ws.set 0 v
  let out := match slot with
    | 0 => one (w0 + h4)
    | 1 => one (mapLanes 32 w0 h4 (· + ·))
    | 2 => one (w0 &&& h4)
    | 3 => one (w0 ||| h4)
    | 4 => one (w0 ^^^ h4)
    | 5 => one h4
    | 6 => one (if w0 == h4 then h5 else w0)
    | 7 => one (handlerMinMax true 0 w0 h4)
    | 8 => one (handlerMinMax false 0 w0 h4)
    | 9 => one (handlerMinMax true 1 w0 h4)
    | 10 => one (handlerMinMax false 1 w0 h4)
    | 11 => one (handlerFadd 0 w0 h4)
    | 12 => one (handlerMinMax true 2 w0 h4)
    | 13 => one (handlerMinMax false 2 w0 h4)
    | 14 =>
      let n := wordsNat [w0, ws[1]] + wordsNat [h4, h5]
      (ws.set 0 (BitVec.ofNat 64 n)).set 1 (BitVec.ofNat 64 (n / 2 ^ 64))
    | 15 =>
      let sign := if h5.msb then 2 ^ 192 - 2 ^ 128 else 0
      let n := wordsNat [w0, ws[1], ws[2]] + wordsNat [h4, h5] + sign
      ((ws.set 0 (BitVec.ofNat 64 n)).set 1 (BitVec.ofNat 64 (n / 2 ^ 64))).set 2 (BitVec.ofNat 64 (n / 2 ^ 128))
    | 16 => one (if h4.ule w0 then 0 else w0 + 1)
    | 17 => one (if h4.ule w0 then w0 - h4 else w0)
    | 18 => one (w0 ||| oneBit 64 (h4.toNat % 64))
    | 19 => one (w0 &&& ~~~(oneBit 64 (h4.toNat % 64)))
    | 20 => if w0 == h4 then (ws.set 0 (w0 + 1)).set 1 h5 else ws
    | 21 => one (handlerFadd 1 w0 h4)
    | 22 => one (mapLanes 32 w0 h4 addSat32)
    | 23 => (ws.set 0 (w0 + h4)).set 1 (handlerMinMax true 0 ws[1] h5)
    | _ => ws
  (out, w0)

/-- The tenant slot with a number from 24 to 31. -/
def tenantSlot (d : Device) (slot : Nat) : Handler := if h : 24 ≤ slot ∧ slot < 32 then d.handlers.get ⟨slot - 24, by omega⟩ else {}

/-- Whether a slot refuses a tenant's atomic (R281): a tenant slot that is empty or another's. -/
def slotRefuses (d : Device) (slot : Nat) (tenant : BitVec 6) : Bool :=
  decide (24 ≤ slot) && ((tenantSlot d slot).owner != some tenant || (tenantSlot d slot).program.isEmpty)

/-- The handler of a slot on a granule's words. -/
def handle (d : Device) (slot : Nat) (ws : Vector Word 4) (h4 h5 : Word) : Vector Word 4 × Word :=
  if slot < 24 then standardHandler slot ws h4 h5 else tenantHandler (tenantSlot d slot).program ws h4 h5

/-- HANDLER_SLOT_LOAD (R86, R286, R287): a program goes into a tenant slot of every handler engine of the device; one that
breaks R86, and a slot that another tenant holds, are refused and stay as they are. -/
def execHandlerSlotLoad (slot : BitVec 5) (tenant : BitVec 6) (program : List (BitVec 16)) (s : State) :
    Host.Outcome State Fault Refusal :=
  conclude (do
    let d ← getDev
    enabled (decide (24 ≤ slot.toNat))
    let x := tenantSlot d slot.toNat
    if handlerOk program && (x.owner == none || x.owner == some tenant) then
      setDev fun d => { d with handlers := .ofFn fun i =>
        if i.val + 24 == slot.toNat then { program, owner := some tenant } else d.handlers.get i }
    else pure ()) s

end Sys2Proof.Machine
end

