-- ==== Sys2Proof/Machine/ScalarSync.lean ====
section
/-!
DEFINITION. Waiting on memory, fences, acquire and release, bindings, tokens, scoreboard waits, barriers and quiesce
markers of the scalar engine (06, R126 to R136; 14, R265, R266; 15).
-/

namespace Sys2Proof.Machine

/-- The wait condition of `waita` (R126). -/
def waitHolds (fn : BitVec 2) (v cmp : Word) : Bool :=
  match fn.toNat with
  | 0 => v == cmp
  | 1 => v.ult cmp
  | _ => v != cmp

/-- Whether a monitor entry is free: 32 in all, and users take what the supervisor has not reserved (R274). -/
def monitorFree (k : Core) (kept : Nat) (sup : Bool) : Bool :=
  decide (k.monitors.length < 32) &&
    (sup || decide ((k.monitors.filter fun m => !m.sup).length < 32 - kept))

/-- The word that `waita` reads, checked as a `ld` of sz 5 (R126), and the block of storage it lies in. -/
def waitRead (c : Ctx) (a : Word) : M (Word × Nat) := do
  let t ← getTask c.loc
  let s ← getState
  let g ← readPast c a
  c.check (!g.poison) .mcheck a
  let spot ← c.lift a (locate s (some (coreOf c.loc)) t.grant t.tenant c.eng .read (.bytes 8) a)
  match spot with
  | .here bit _ _ => pure (BitVec.ofNat 64 g.val, readPlace s.dev.migrations bit / 512)
  | _ => c.trap .path a

/-- Arms a monitor entry for the task of a place (R275). -/
def armMonitor (l : Fin 1024) (block : Nat) : M Unit := do
  let t ← getTask l
  setCore (coreOf l) fun k => { k with monitors := k.monitors ++ [{ slot := slotOf l, block, sup := t.level }] }

/-- `waita` (R126, R274 to R276): it completes at once, or arms an entry and sleeps.  The second read of R275 falls
together with the first in one step. -/
def execWaita (d a b : BitVec 6) (f : BitVec 2) (s : State) : Host.Outcome State Fault Refusal :=
  conclude (do
    let c ← issue .s (encode (.waita d a b f))
    let x ← useS c a
    let cmp ← useS c b
    let timeout ← useS c (b + 1)
    c.check (pathOf x == 0 || pathOf x == 2 || pathOf x == 3) .path x
    let (v, block) ← waitRead c x
    let t ← getTask c.loc
    let k ← getCore (coreOf c.loc)
    let dv ← getDev
    if !waitHolds f v cmp then do
      putS c d 0
      advance c
    else if !monitorFree k dv.monitorsKept t.level then do
      putS c d 1
      advance c
    else do
      armMonitor c.loc block
      setTask c.loc fun t => { t with
        mode := .asleep
        held := .waita c.word d x cmp f block (if timeout == 0 then 0 else dv.clock + timeout.toNat) }) s

/-- Whether the scalar data cache must be emptied by an ordering of later loads at a scope (R122). -/
def wide (sc : BitVec 4) : Bool := sc != 0

/-- `fence` (R127, R128): earlier stores are performed first where the sub names them, at TSK scope or at their targets,
and where it orders later loads at COR or wider the scalar data cache is emptied.  Loads complete in order; what a `kw`
orders before the fence is performed already. -/
def execFence (sub sc : BitVec 4) (s : State) : Host.Outcome State Fault Refusal :=
  conclude (do
    let c ← issue .s (encode (.fence sub sc))
    (if sub == 0 || sub == 1 then (if wide sc then awaitWrites c else awaitSeen c) else pure ())
    (if (sub == 0 || sub == 2) && wide sc then dropLines c else pure ())
    advance c) s

/-- The paths on which a sync word may stand (R129).  DESIGN CHOICE (log 91): through another one, SEAL among them, `acq` and `rel`
raise PATH before the walk. -/
def syncPath (atomic : Bool) (a : Word) : Bool :=
  pathOf a == 0 || pathOf a == 5 || (!atomic && (pathOf a == 2 || pathOf a == 3))

/-- `acq` (R129, R130): the sync word is read from storage; later loads at COR or wider see nothing cached before. -/
def execAcq (d a : BitVec 6) (sc : BitVec 4) (s : State) : Host.Outcome State Fault Refusal :=
  conclude (do
    let c ← issue .s (encode (.acq d a sc))
    let x ← useS c a
    c.check (syncPath false x) .path x
    let g ← readPast c x
    putGot c d (BitVec.ofNat 64 g.val) g
    (if wide sc then dropLines c else pure ())
    advance c) s

/-- Whether an access of `n` positions of some planes at an address falls in the region of a binding (R266). -/
def inRegion (d : Device) (b : Binding) (a : Word) (n : Nat) (planes : List Nat) : Bool :=
  (pathOf a == 0 || pathOf a == 5 || pathOf a == 1) && deviceOf d b.base == deviceOf d a &&
  decide (positionOf a < positionOf b.base + b.length.toNat) && decide (positionOf b.base < positionOf a + n) &&
  planes.any b.planes.getLsbD

/-- The bindings of a task whose sync word an address is (R130). -/
def Task.bound (t : Task) (a : Word) : List Binding :=
  t.bindings.toList.filterMap fun b => match b with
    | some x => if x.sync == a then some x else none
    | none => none

/-- Whether a message is a posted write into the regions of some bindings (R266): a flagged store also writes its flag,
and a write through ALIAS counts by its data plane and its scale plane, with its whole block (R267). -/
def writesRegion (d : Device) (bs : List Binding) (p : Packet) : Bool :=
  let hits := fun (a : Word) n planes => bs.any fun b => inRegion d b a n planes
  match p.body with
  | .store _ _ ws flag => (ws.any fun w => hits w.addr w.span [planeOf w.addr]) ||
      (match flag with
       | some f => hits f.addr 8 [planeOf f.addr]
       | none => false)
  | .aliasStore _ _ ws => ws.any fun w =>
      hits (w.addr - BitVec.ofNat 64 w.inBlock) w.ref.block [planeOf w.addr, w.ref.scalePlane]
  | .atomic _ _ _ _ _ _ _ _ a => hits a 8 [planeOf a]
  | _ => false

/-- Whether the engine has unperformed writes in the regions of some bindings, or its task has such writes at TSK scope
(R127, R130). -/
def writesIn (d : Device) (t : Task) (e : Engine) (bs : List Binding) : Bool :=
  (d.rx.any fun p => (isWriteOf d t e p || isSeen d t.tid p) && writesRegion d bs p) ||
  d.remoteParts.any fun x => t.uids.contains x.uid && x.eng == e &&
    x.spans.any fun y => bs.any fun b => inRegion d b y.1 y.2 [planeOf y.1]

/-- A release waits for the earlier accesses that its sync word orders: all, or those in its regions (R129, R130). -/
def awaitRelease (c : Ctx) (sync : Word) : M Unit := do
  let t ← getTask c.loc
  let d ← getDev
  let bs := t.bound sync
  waitFor (if bs.isEmpty then !writesOut d t c.eng else !writesIn d t c.eng bs)

/-- `rel sub=0` (R129, R130). -/
def execRel (a b : BitVec 6) (sc : BitVec 4) (s : State) : Host.Outcome State Fault Refusal :=
  conclude (do
    let c ← issue .s (encode (.rel a b sc))
    let x ← useS c a
    let v ← useS c b
    c.check (syncPath false x) .path x
    let w ← writeSpot c x (.bytes 8) v.toNat
    awaitRelease c x
    postOne c [w] none
    advance c) s

/-- `rel sub=1`: the addition is a posted `add64` (R129, R130, R285). -/
def execRelAdd (a b : BitVec 6) (sc : BitVec 4) (s : State) : Host.Outcome State Fault Refusal :=
  conclude (do
    let c ← issue .s (encode (.relAdd a b sc))
    let x ← useS c a
    let v ← useS c b
    c.check (syncPath true x) .path x
    let where_ ← atomicSpot c x
    awaitRelease c x
    postAtomic c where_ 0 v 0 x
    advance c) s

/-- Whether a sync word stands where R129 lets it: checked as `acq` would, at the core; another device is asked whether the
word's plane has 8-bit elements (R265; log 88). -/
def syncOk (c : Ctx) (a : Word) : M Bool := do
  let t ← getTask c.loc
  let s ← getState
  if !syncPath false a then pure false
  else match locate s (some (coreOf c.loc)) t.grant t.tenant c.eng .read (.bytes 8) a with
    | .error _ => pure false
    | .ok (.away dev) =>
      match t.answer c.eng a (.plane 8 0) c.tag with
      | some (.value v _ _) => pure (v != 0)
      | some (.refused _) => pure true
      | none => askAway c t a (.plane 8 0) dev 0 fun uid => .read uid (originOf c t s.dev) a (.plane 8 0)
    | .ok _ => pure true

/-- The binding that a descriptor holds, when it keeps its layout (R265). -/
def bindingOf (v : Nat) : Option Binding :=
  let q := fun i => v / 2 ^ (64 * i) % 2 ^ 64
  let base := BitVec.ofNat 64 (q 0)
  if (pathOf base == 0 || pathOf base == 5) && planeOf base == 0 && q 1 != 0 && q 2 / 2 ^ 16 == 0 && q 2 != 0 &&
      v / 2 ^ 256 == 0 &&
      decide (positionOf base + q 1 ≤ 2 ^ (if pathOf base == 5 then 49 else 57)) then
    some { base, length := BitVec.ofNat 64 (q 1), planes := BitVec.ofNat 16 (q 2), sync := BitVec.ofNat 64 (q 3) }
  else none

/-- `bind` (R130, R265). -/
def execBind (d a : BitVec 6) (slot : BitVec 4) (s : State) : Host.Outcome State Fault Refusal :=
  conclude (do
    let c ← issue .s (encode (.bind d a slot))
    let x ← useS c a
    let v ← readRecordPast c x 1
    match bindingOf v with
    | some b => do
      let ok ← if x.toNat % 64 == 0 then syncOk c b.sync else pure false
      if ok then do
        setTask c.loc fun t => { t with bindings := t.bindings.set slot.toNat (some b) slot.isLt }
        putS c d 0
        advance c
      else do
        putS c d 1
        advance c
    | none => do
      putS c d 1
      advance c) s

/-- `bind` with imm[4] = 1 empties the slot and ignores a (R130). -/
def execUnbind (d a : BitVec 6) (slot : BitVec 4) (s : State) : Host.Outcome State Fault Refusal :=
  conclude (do
    let c ← issue .s (encode (.unbind d a slot))
    setTask c.loc fun t => { t with bindings := t.bindings.set slot.toNat none slot.isLt }
    putS c d 0
    advance c) s

/-- `tk sub=wait` (R131, R18, R22). -/
def execTkWait (m : BitVec 3) (s : State) : Host.Outcome State Fault Refusal :=
  conclude (do
    let c ← issue .s (encode (.tkWait m))
    awaitTokens c m
    setTask c.loc fun t => t.takeTokens .s m
    advance c) s

/-- `tk sub=give` (R131, R18, R21). -/
def execTkGive (m : BitVec 3) (s : State) : Host.Outcome State Fault Refusal :=
  conclude (do
    let c ← issue .s (encode (.tkGive m))
    awaitSeen c
    awaitRoom c m
    setTask c.loc fun t => t.giveTokens .s m
    advance c) s

/-- The scoreboard tokens that a mask names (R132). -/
def maskTokens (mask : BitVec 8) : List (Fin 8) := (List.finRange 8).filter fun i => mask.getLsbD i.val

/-- Whether an unfinished copy names a scoreboard token (R132). -/
def Task.copyNames (t : Task) (k : Fin 8) : Bool :=
  t.cjobs.any fun j =>
    match j.work with
    | .copy c => c.kr == some (BitVec.ofNat 3 k.val) || c.kv == some (BitVec.ofNat 3 k.val)
    | _ => false

/-- `kw` (R132). -/
def execKw (d : BitVec 6) (clear : BitVec 1) (mask : BitVec 8) (s : State) : Host.Outcome State Fault Refusal :=
  conclude (do
    let c ← issue .s (encode (.kw d clear mask))
    let t ← getTask c.loc
    let ks := maskTokens mask
    c.check (!(t.endC && ks.any fun k => !(t.k.get k).set && (t.k.get k).pend == 0 && !t.copyNames k)) .token 0
    waitFor (ks.all fun k => (t.k.get k).set)
    putS c d (BitVec.ofNat 64 ((ks.map fun k => if (t.k.get k).err then 2 ^ k.val else 0).foldl (· + ·) 0))
    (if clear == 1 then
      setTask c.loc fun t =>
        { t with k := ks.foldl (fun v (k : Fin 8) => v.set k { v.get k with set := false, err := false }) t.k }
     else pure ())
    advance c) s

/-- How many barriers a unit of a level has (R133). -/
def barrierCount (level : Nat) : Nat :=
  match level with
  | 1 => 16
  | 2 => 16
  | 3 => 32
  | 4 => 32
  | 5 => 64
  | _ => 0

/-- The barrier of a level and number that holds a core's own unit (R133). -/
def barrierRef (core : Fin 256) (level : BitVec 3) (number : Nat) : BarRef :=
  { level, number,
    unit := match level.toNat with
      | 1 => core.val
      | 2 => core.val / 4
      | 3 => core.val / 64
      | _ => 0 }

/-- The barrier that s[a] names; BOUNDS for a name outside R133. -/
def namedBarrier (c : Ctx) (x : Word) : M BarRef := do
  let level := bits x.toNat 10 8
  let number := bits x.toNat 7 0
  c.check (bits x.toNat 63 11 == 0 && decide (number < barrierCount level)) .bounds x
  pure (barrierRef (coreOf c.loc) (BitVec.ofNat 3 level) number)

/-- Whether a barrier is held on this device: all but DOM barriers of another hub (R269). -/
def heldHere (d : Device) (b : BarRef) : Bool := b.level != 5 || d.barrierHub == d.devid

/-- A barrier object of this device (R269). -/
def barrierAt (s : State) (b : BarRef) : Barrier :=
  match b.level.toNat with
  | 1 => if h : b.unit < 256 ∧ b.number < 16 then (s.cores.get ⟨b.unit, h.1⟩).barriers.get ⟨b.number, h.2⟩ else {}
  | 2 => if h : b.unit < 64 ∧ b.number < 16 then (s.dev.vltBarriers.get ⟨b.unit, h.1⟩).get ⟨b.number, h.2⟩ else {}
  | 3 => if h : b.unit < 4 ∧ b.number < 32 then (s.dev.dieBarriers.get ⟨b.unit, h.1⟩).get ⟨b.number, h.2⟩ else {}
  | 4 => if h : b.number < 32 then s.dev.devBarriers.get ⟨b.number, h⟩ else {}
  | _ => if h : b.number < 64 then s.dev.domBarriers.get ⟨b.number, h⟩ else {}

/-- A barrier object of this device changes (R269). -/
def setBarrier (b : BarRef) (f : Barrier → Barrier) : M Unit :=
  match b.level.toNat with
  | 1 =>
    if h : b.unit < 256 ∧ b.number < 16 then
      setCore ⟨b.unit, h.1⟩ fun k => { k with barriers := k.barriers.set b.number (f (k.barriers.get ⟨b.number, h.2⟩)) h.2 }
    else pure ()
  | 2 =>
    if h : b.unit < 64 ∧ b.number < 16 then
      setDev fun d =>
        let row := d.vltBarriers.get ⟨b.unit, h.1⟩
        { d with vltBarriers := d.vltBarriers.set b.unit (row.set b.number (f (row.get ⟨b.number, h.2⟩)) h.2) h.1 }
    else pure ()
  | 3 =>
    if h : b.unit < 4 ∧ b.number < 32 then
      setDev fun d =>
        let row := d.dieBarriers.get ⟨b.unit, h.1⟩
        { d with dieBarriers := d.dieBarriers.set b.unit (row.set b.number (f (row.get ⟨b.number, h.2⟩)) h.2) h.1 }
    else pure ()
  | 4 =>
    if h : b.number < 32 then
      setDev fun d => { d with devBarriers := d.devBarriers.set b.number (f (d.devBarriers.get ⟨b.number, h⟩)) h }
    else pure ()
  | _ =>
    if h : b.number < 64 then
      setDev fun d => { d with domBarriers := d.domBarriers.set b.number (f (d.domBarriers.get ⟨b.number, h⟩)) h }
    else pure ()

/-- Whether a task may use a barrier (R270). -/
def mayUse (level : Bool) (tenant : BitVec 6) (x : Barrier) : Bool := level || x.owner == some tenant

/-- The phase of a barrier as far as this device knows it: of the object, or as its hub last told it (R269). -/
def phaseOf (s : State) (b : BarRef) : BitVec 16 :=
  if heldHere s.dev b then (barrierAt s b).phase
  else match s.dev.domPhases.find? fun p => p.1 == b.number with
    | some p => p.2.1
    | none => 0

/-- The swap bit of a barrier as far as this device knows it (R269, R273). -/
def swapOf (s : State) (b : BarRef) : Bool :=
  if heldHere s.dev b then (barrierAt s b).swap
  else match s.dev.domPhases.find? fun p => p.1 == b.number with
    | some p => p.2.2.2
    | none => false

/-- What a barrier of this device does with a request, and the phase before it and the completed flags that it answers
(R133, R134, R271). -/
def serveBarrier (b : BarRef) (op : BarOp) : M Unit := do
  match op with
  | .read => pure ()
  | .init n => setBarrier b fun x => { x with expected := n, arrivals := 0, gathered := 0 }
  | .arrive fl _ => do
    let s ← getState
    let x := barrierAt s b
    let gathered := x.gathered ||| fl
    if x.expected.toNat ≤ x.arrivals.toNat + 1 then do
      setBarrier b fun x => { x with phase := x.phase + 1, completed := gathered, arrivals := 0, gathered := 0 }
    else setBarrier b fun x => { x with arrivals := x.arrivals + 1, gathered }

/-- Sends a request of a task to a barrier, to its hub when that is another device (R133, R270, R271). -/
def sendBarrier (l : Fin 1024) (b : BarRef) (op : BarOp) (tid : Nat) (tenant : BitVec 6) (level : Bool) : M Unit := do
  let d ← getDev
  send (if heldHere d b then d.devid else d.barrierHub) 5
    (.barrier b op tid d.devid tenant level { clock := d.clock, slot := (slotOf l).val, core := (coreOf l).val })

/-- Sends a request to a barrier and leaves the instruction waiting for its answer (R133, R270). -/
def askBarrier (c : Ctx) (b : BarRef) (op : BarOp) : M Unit := do
  let t ← getTask c.loc
  sendBarrier c.loc b op t.tid t.tenant t.level
  setTask c.loc fun t => { t with held := .barAsked b }
  emit .held

/-- A `bar` completes with a value in d. -/
def finishBar (c : Ctx) (d : BitVec 6) (v : Word) : M Unit := do
  putS c d v
  setTask c.loc fun t => { t with held := .none }
  advance c

/-- A wait on a phase of a barrier: it completes when the phase is another one, as an acquire; else the task leaves the
ready set (R26, R133, R134). -/
def waitBarrier (c : Ctx) (d : BitVec 6) (b : BarRef) (phase : BitVec 16) (sc : BitVec 4) (sync : Bool) : M Unit := do
  let s ← getState
  let now := phaseOf s b
  if now != phase then do
    (if wide sc then dropLines c else pure ())
    finishBar c d (now.setWidth 64)
  else do
    setTask c.loc fun t => { t with
      mode := match t.mode with | .ready => .atBarrier | m => m
      held := .barrier b phase sync s.dev.nanos }
    emit .held

/-- What every `bar` does first: the barrier is named, and a task that may not use one held here traps (R133, R270). -/
def barStart (c : Ctx) (a : BitVec 6) : M (Word × BarRef) := do
  let x ← useS c a
  let b ← namedBarrier c x
  let t ← getTask c.loc
  let s ← getState
  c.check (!heldHere s.dev b || mayUse t.level t.tenant (barrierAt s b)) .access x
  pure (x, b)

/-- `bar sub=arrive`: a release, then the arrival goes to the barrier, then its answer completes it (R133, R162). -/
def execBarArrive (d a b : BitVec 6) (sc : BitVec 4) (s : State) : Host.Outcome State Fault Refusal :=
  conclude (do
    let c ← issue .s (encode (.barArrive d a b sc))
    let t ← getTask c.loc
    match t.held with
    | .barAnswer _ phase _ ok => do
      c.check ok .access (t.readS a)
      finishBar c d (phase.setWidth 64)
    | .barAsked _ => hold
    | _ => do
      let (_, r) ← barStart c a
      awaitWrites c
      askBarrier c r (.arrive t.tflags none)) s

/-- `bar sub=wait`: of a barrier on another device the phase is asked first (R133, R134, R272). -/
def execBarWait (d a b : BitVec 6) (sc : BitVec 4) (s : State) : Host.Outcome State Fault Refusal :=
  conclude (do
    let c ← issue .s (encode (.barWait d a b sc))
    let t ← getTask c.loc
    match t.held with
    | .barAnswer r _ _ ok => do
      c.check ok .access (t.readS a)
      let v ← useS c b
      waitBarrier c d r (v.setWidth 16) sc false
    | .barAsked _ => hold
    | .barrier r phase sync _ => waitBarrier c d r phase sc sync
    | _ => do
      let (_, r) ← barStart c a
      let v ← useS c b
      let dv ← getDev
      if heldHere dv r then waitBarrier c d r (v.setWidth 16) sc false
      else askBarrier c r .read) s

/-- `bar sub=sync`: an arrival, then a wait on the phase arrived in; restored after it arrived, only the wait (R112,
R133, R134). -/
def execBarSync (d a b : BitVec 6) (sc : BitVec 4) (s : State) : Host.Outcome State Fault Refusal :=
  conclude (do
    let c ← issue .s (encode (.barSync d a b sc))
    let t ← getTask c.loc
    match t.held with
    | .barAnswer r phase _ ok => do
      c.check ok .access (t.readS a)
      waitBarrier c d r phase sc true
    | .barAsked _ => hold
    | .barrier r phase sync _ => waitBarrier c d r phase sc sync
    | .resumeSync phase => do
      let (_, r) ← barStart c a
      waitBarrier c d r phase sc true
    | _ => do
      let (_, r) ← barStart c a
      awaitWrites c
      askBarrier c r (.arrive t.tflags none)) s

/-- Whether `bar sub=init` takes a count (R133). -/
def countOk (v : Word) : Bool := v != 0 && !(262144 : Word).ult v

/-- `bar sub=init`; its scope and TFLAGS play no part.  It travels to the barrier and is served there in its turn; a count
out of range changes nothing, but the owner is checked all the same (R133, R270, R271). -/
def execBarInit (d a b : BitVec 6) (sc : BitVec 4) (s : State) : Host.Outcome State Fault Refusal :=
  conclude (do
    let c ← issue .s (encode (.barInit d a b sc))
    let t ← getTask c.loc
    match t.held with
    | .barAnswer _ _ _ ok => do
      c.check ok .access (t.readS a)
      finishBar c d (if countOk (t.readS b) then 0 else 1)
    | .barAsked _ => hold
    | _ => do
      let (_, r) ← barStart c a
      let v ← useS c b
      askBarrier c r (if countOk v then .init (v.setWidth 19) else .read)) s

/-- A `bar` that only reads its barrier: at once when it is held here, else by asking its hub (R133). -/
def barRead (c : Ctx) (d a : BitVec 6) (f : BitVec 16 → BitVec 8 → Word) : M Unit := do
  let t ← getTask c.loc
  match t.held with
  | .barAnswer _ phase fl ok => do
    c.check ok .access (t.readS a)
    finishBar c d (f phase fl)
  | .barAsked _ => hold
  | _ => do
    let (_, r) ← barStart c a
    let s ← getState
    if heldHere s.dev r then finishBar c d (f (barrierAt s r).phase (barrierAt s r).completed)
    else askBarrier c r .read

/-- `bar sub=flags` (R133). -/
def execBarFlags (d a b : BitVec 6) (sc : BitVec 4) (s : State) : Host.Outcome State Fault Refusal :=
  conclude (do
    let c ← issue .s (encode (.barFlags d a b sc))
    barRead c d a fun _ fl => fl.setWidth 64) s

/-- `bar sub=test1` (R133, R135). -/
def execBarTest1 (d a b : BitVec 6) (sc : BitVec 4) (s : State) : Host.Outcome State Fault Refusal :=
  conclude (do
    let c ← issue .s (encode (.barTest1 d a b sc))
    barRead c d a fun p _ => BitVec.ofNat 64 (p.toNat % 2)) s

/-- `qm sub=post`: markers behind what the engines have issued, and the writes counted so far (R136, R277).  The
instructions of V finish at issue. -/
def execQmPost (m : BitVec 3) (s : State) : Host.Outcome State Fault Refusal :=
  conclude (do
    let c ← issue .s (encode (.qmPost m))
    setTask c.loc fun t => { t with
      phaseEnd := false
      posted := true
      markM := if (maskEngines .s m).contains .m then t.mjobs.length else 0
      markC := if (maskEngines .s m).contains .c then t.cjobs.length else 0
      postUids := t.uids }
    advance c) s

/-- `qm sub=wait` (R136): every later access is ordered after the covered ones, so no later load hits an older line
(R264). -/
def execQmWait (s : State) : Host.Outcome State Fault Refusal :=
  conclude (do
    let c ← issue .s (encode .qmWait)
    let t ← getTask c.loc
    waitFor (t.phaseEnd || !t.posted)
    dropLines c
    setTask c.loc fun t => { t with phaseEnd := false }
    advance c) s

end Sys2Proof.Machine
end

