-- ==== Sys2Proof/Machine/MemEvents.lean ====
section
/-!
DEFINITION. What the memory targets of the device do with the requests that reach them, and what comes back to the
originators: ATOMIC, MEMORY_REQUEST, RESPONSE, WRITE_ACK and POSTED_REFUSAL (05, R102, R103, R108; 06, R111, R123; 10,
R213; 16, R278 to R281; 18, R325, R326; 24, R376, R379).
-/

namespace Sys2Proof.Machine

/-! Which request may be served. -/

/-- The bytes of storage that a waiting request touches, each with the form of its address: first and one past last. -/
def Body.touches (b : Body) : List (Nat × Nat × Nat) :=
  match b with
  | .store _ _ ws flag =>
    let f := match flag with
      | some { addr := a, byte := some n } => [(formOf a, n / 32 * 32, n / 32 * 32 + 32)]
      | _ => []
    f ++ ws.map fun w => (formOf w.addr, w.bit / 8, (w.bit + w.width + 7) / 8)
  | .aliasStore _ _ ws =>
    ws.flatMap fun w => [(formOf w.addr, w.ref.bit / 8, (w.ref.bit + w.ref.block * w.ref.width + 7) / 8),
                         (formOf w.addr, w.ref.scaleBit / 8, (w.ref.scaleBit + w.ref.scaleWidth + 7) / 8)]
  | .atomic _ _ n _ _ _ _ _ a => [(formOf a, n / 32 * 32, n / 32 * 32 + 32)]
  | _ => []

/-- A range of bytes where its frame now is (R103, R104). -/
def nowAt (ms : List Migration) (x : Nat × Nat × Nat) : Nat × Nat × Nat :=
  let lo := readPlace ms (8 * x.2.1) / 8
  (x.1, lo, lo + (x.2.2 - x.2.1))

/-- Whether two requests touch a byte through the same form, or through any when `every`. -/
def meets (ms : List Migration) (every : Bool) (a b : Body) : Bool :=
  a.touches.any fun x => b.touches.any fun y =>
    let x := nowAt ms x
    let y := nowAt ms y
    (every || x.1 == y.1) && decide (x.2.1 < y.2.2) && decide (y.2.1 < x.2.2)

/-- Whether a request is a posted write performed at TSK scope. -/
def Body.seenIn (d : Device) (b : Body) : Bool :=
  match b with
  | .store u o _ _ => o.dev == d.devid && d.tskSeen.contains u
  | _ => false

/-- The identifier of a request. -/
def Body.uid? (b : Body) : Option Nat :=
  match b with
  | .store u _ _ _ => some u
  | .aliasStore u _ _ => some u
  | .atomic u _ _ _ _ _ _ _ _ => some u
  | _ => none

/-- Whether a request touches, through the same form, a flag of this device that an earlier write of its engine is yet to
increment, whose data lies on another device (R258). -/
def flagBehind (d : Device) (o : Origin) (b : Body) : Bool :=
  o.dev == d.devid && d.remoteParts.any fun x =>
    x.eng == o.eng && x.tid == o.tid && (b.uid?.any fun u => decide (x.uid < u)) && match x.here with
      | some (_, f) => meets d.migrations false b (.store x.uid o [] (some f))
      | none => false

/-- Whether a request must wait for an earlier one (R258, R280; log 22): of the same engine of another device when
both name a location; of the same engine of this device when both touch a byte through the same form; of the same task when
both touch a byte and either is performed at TSK scope. -/
def behind (d : Device) (n : Nat) (b : Body) : Bool :=
  match b.origin? with
  | none => false
  | some o =>
    flagBehind d o b ||
    (d.rx.take n).any fun p =>
      match p.body.origin? with
      | none => false
      | some q =>
        if o.dev != d.devid then b.sameLocation p.body
        else
          let seen := b.seenIn d || p.body.seenIn d
          o.dev == q.dev && o.tid == q.tid && (o.eng == q.eng || seen) && meets d.migrations seen b p.body

/-! Answers. -/

/-- What a refused write tells its originator (R376). -/
def Origin.note (o : Origin) (cause : Cause) (addr : Word) (index : BitVec 16) : RefusalNote :=
  { eng := o.eng, pc := o.pc, word := o.word, index, addr, cause }

/-- A posted write is refused: it leaves the queue without effect and its originator is told (R111). -/
def refusePosted (n uid : Nat) (o : Origin) (cause : Cause) (addr : Word) (index : BitVec 16) : M Unit := do
  rxDrop n
  send o.dev 4 (.refuse uid o.tid (o.note cause addr index))

/-- A posted write is performed and acknowledged (R111). -/
def ackPosted (n uid : Nat) (o : Origin) : M Unit := do
  rxDrop n
  send o.dev 4 (.ack uid o.tid)

/-- A waiting access is answered (R111). -/
def answerWaiting (n uid : Nat) (o : Origin) (addr : Word) (r : Reply) : M Unit := do
  rxDrop n
  send o.dev 4 (.reply uid o.tid o.eng addr r)

/-- A check at a target: its failure is an answer, but storage that is not there stops the machine (R1). -/
def atTarget {α : Type} (w : W α) : M (Except Cause α) :=
  match w with
  | .ok x => pure (.ok x)
  | .error (.cause k) => pure (.error k)
  | .error (.absent b) => stop (.fault (.absentStorage b))

/-! Atomics. -/

/-- Why a handler engine refuses an atomic on the granule of a byte, if it does (R103, R278, R281, R325). -/
def atomicRefused (s : State) (o : Origin) (byte slot : Nat) : Option Cause :=
  let g := byte / 32 * 32
  let real := readPlace s.dev.migrations (8 * g) / 8
  if decide (2 * 2 ^ 40 ≤ g) || decide (2 * 2 ^ 40 ≤ real) then some .path
  else if !bitsGranted s o.tenant o.level .atomic (8 * g) 256 then some .access
  else if slotRefuses s.dev slot o.tenant then some .handler
  else if rangePoisoned s.dev.poison real 32 then some .mcheck
  else none

/-- The byte of word i of an atomic at a byte: the granule's words follow its address modulo 32 (R124). -/
def granuleByte (byte i : Nat) : Nat := byte / 32 * 32 + (byte + 8 * i) % 32

/-- A handler engine serves an atomic: the granule is read, the slot's handler runs, the granule is written (R279); when that posts
a command to the management controller, it has arrived there (R397). -/
def serveAtomic (o : Origin) (byte slot : Nat) (h4 h5 addr : Word) : M Word := do
  let s ← getState
  let ws : Vector Word 4 := .ofFn fun i =>
    BitVec.ofNat 64 (readBits s.mem (readPlace s.dev.migrations (8 * granuleByte byte i.val)) 64)
  let (out, r) := handle s.dev slot ws h4 h5
  applyWrites (originCores s o) ((List.finRange 4).map fun i =>
    { bit := 8 * granuleByte byte i.val, width := 64, value := (out.get i).toNat, addr })
  let after ← getState
  let came := postedIn s.dev s.mem after.mem
  (if came.isEmpty then pure () else setDev fun d => { d with arrivals := d.arrivals ++ came })
  pure r

/-- The handler engine that serves an atomic on a byte (R278). -/
def handlerEngine (d : Device) (byte : Nat) : Option Target := targetOf true (readPlace d.migrations (8 * (byte / 32 * 32)) / 8)

/-- Where an atomic stands among those that reach its engine in one clock (R280): by the rank of its port, the die's 1, the
package's 2, the fabric's 4, which takes forwarded ones too; then by core, whose numbers rise with the dies, or by device. -/
def atomKey (d : Device) (o : Origin) (byte : Nat) : Nat :=
  let own := match handlerEngine d byte with
    | some (.gddrHandler n) => n / 12 == o.core / 64
    | _ => false
  let moved := readPlace d.migrations (8 * (byte / 32 * 32)) / 8 != byte / 32 * 32
  if o.dev != d.devid then 4 * 2 ^ 16 + o.dev.toNat
  else (if moved then 4 else if own then 1 else 2) * 2 ^ 16 + o.core

/-- Whether a waiting message is an atomic that an engine takes before one of a clock and a key: it came in an earlier clock,
or in the same one with a lower key, or with the same key ahead of it (R280). -/
def atomBefore (d : Device) (engine : Option Target) (clock key : Nat) (ahead : Bool) (q : Packet) : Bool :=
  match q.body, q.reached with
  | .atomic _ o b _ _ _ _ _ _, some c =>
    handlerEngine d b == engine && (decide (c < clock) || (c == clock &&
      (decide (atomKey d o b < key) || (atomKey d o b == key && ahead))))
  | _, _ => false

/-- Whether the handler engine's next atomic is the n-th waiting message, on a byte: it has reached the engine, the clock of
that is over, and no other comes before it (R280). -/
def atomTurn (d : Device) (n : Nat) (p : Packet) (o : Origin) (byte : Nat) : Bool :=
  match p.reached with
  | none => false
  | some clock =>
    decide (clock < d.clock) && !((List.range d.rx.length).zip d.rx).any fun (i, q) =>
      i != n && atomBefore d (handlerEngine d byte) clock (atomKey d o byte) (decide (i < n)) q

/-- The place of an atomic of the host, whose port ranks third (R280). -/
def hostKey : Nat := 3 * 2 ^ 16

/-- Whether an atomic may reach the handler engine of a byte now with a key: the engine has served none with a later key of this
clock (R280). -/
def mayReach (d : Device) (byte key : Nat) : Bool :=
  !d.inPlace.any fun x => x.1 == handlerEngine d byte && x.2.1 == d.clock && decide (key < x.2.2)

/-- Whether an atomic that is served where it stands, a flag's increment or one of the host, has its turn at the handler engine of
a byte: none that comes before it waits there (R280; log 101). -/
def engineTurn (d : Device) (byte key : Nat) : Bool :=
  mayReach d byte key && !d.rx.any (atomBefore d (handlerEngine d byte) d.clock key false)

/-- The device once an engine has served such an atomic. -/
def Device.servedAt (d : Device) (byte key : Nat) : Device :=
  { d with inPlace := (d.inPlace.filter fun x => x.2.1 == d.clock) ++ [(handlerEngine d byte, d.clock, key)] }

/-- ATOMIC (R279 to R281): the handler engine serves the n-th waiting message, an atomic on this device's storage; one that
has been granted already is checked no more (R327). -/
def execAtomic (n : Nat) (s : State) : Host.Outcome State Fault Refusal :=
  conclude (do
    let p ← rxAt n
    let st ← getState
    match p.body with
    | .atomic uid o byte slot h4 h5 posted granted addr => do
      enabled (!behind st.dev n p.body && atomTurn st.dev n p o byte)
      match (if granted then none else atomicRefused st o byte slot.toNat) with
      | some k =>
        if posted then refusePosted n uid o k addr 0 else answerWaiting n uid o addr (.refused k)
      | none => do
        let r ← serveAtomic o byte slot.toNat h4 h5 addr
        if posted then ackPosted n uid o else answerWaiting n uid o addr (.value r 64 false)
    | _ => notNow) s

/-! Requests on storage. -/

/-- A posted write of this device is performed at its target: it no longer counts as performed at TSK scope alone. -/
def unsee (o : Origin) (uid : Nat) : M Unit := do
  let d ← getDev
  if o.dev == d.devid && d.tskSeen.contains uid then setDev fun d => { d with tskSeen := d.tskSeen.erase uid } else pure ()

/-- A posted write of translated elements (R102, R111, R123, R190): every element is checked before any is written, once
(R327), and one that is performed at TSK scope cannot be refused any more; a flag on this device is incremented with them,
or refuses them; for a flag on another device that device is asked first (log 16).  DESIGN CHOICE (log 6): the elements
of one write, drain or copy chunk are written in one step. -/
def serveStore (n uid : Nat) (o : Origin) (ws : List Wr) (flag : Option FlagRef) : M Unit := do
  let s ← getState
  enabled (!s.dev.flagsAsked.contains (o.dev, uid))
  let seen := o.dev == s.dev.devid && s.dev.tskSeen.contains uid
  let checked := s.dev.granted.contains (o.dev, uid) || seen
  match ws.find? fun w => !checked && !bitsGranted s o.tenant o.level .write w.bit w.width with
  | some w => refusePosted n uid o .access w.addr w.index
  | none =>
    let write : M Unit := if ws.isEmpty then pure () else applyWrites (originCores s o) ws
    match flag with
    | none => do
      write
      (if seen then (originCores s o).forM (dropBlocks (partsOf s.dev.migrations ws)) else pure ())
      unsee o uid
      ackPosted n uid o
    | some { addr, byte := some b } => do
      let key := atomKey s.dev o b
      enabled (engineTurn s.dev b key)
      match atomicRefused s o b 0 with
      | some k => refusePosted n uid o k addr 0
      | none => do
        write
        let _ ← serveAtomic o b 0 1 0 addr
        setDev fun d => d.servedAt b key
        ackPosted n uid o
    | some { addr, byte := none } => do
      let dev := if pathOf addr == 5 then BitVec.ofNat 8 (bits addr.toNat 56 49) else o.dev
      if s.dev.granted.contains (o.dev, uid) then do
        write
        rxDrop n
        let part : RemotePart := { uid, tid := o.tid, eng := o.eng, spans := [(addr, 8)] }
        setDev fun d => { d with
          granted := d.granted.erase (o.dev, uid)
          remoteParts := if o.dev == d.devid then d.remoteParts ++ [part] else d.remoteParts }
        send dev 1 (.remoteAtomic uid o 0 1 0 true addr)
      else do
        setDev fun d => { d with flagsAsked := d.flagsAsked ++ [(o.dev, uid)] }
        send dev 1 (.flagAsk uid o addr)

/-- One write through ALIAS (R213): the block's codes and its scale, in one step. -/
def serveBlock (o : Origin) (w : BlockWr) : M Unit := do
  let s ← getState
  let b := w.ref
  let at_ := fun bit => readPlace s.dev.migrations bit
  let codes := (List.range b.block).map fun i => readBits s.mem (at_ (b.bit + i * b.width)) b.width
  let (out, sc) := aliasWriteBlock b.fmt.toNat b.scaleFmt.toNat (b.book.toList.map BitVec.toNat) b.ascale.toNat codes
    (readBits s.mem (at_ b.scaleBit) b.scaleWidth) w.inBlock w.value.toNat
  applyWrites (originCores s o)
    ((List.range b.block).map (fun i =>
        { bit := b.bit + i * b.width, width := b.width, value := out.getD i 0, addr := w.addr }) ++
      [{ bit := b.scaleBit, width := b.scaleWidth, value := sc, addr := w.addr }])

/-- Why a write through ALIAS is refused, if it is: every byte of the block and its scale counts (R108, R326, R387). -/
def blockRefused (s : State) (o : Origin) (b : BlockRef) : Option Cause :=
  let n := b.block * b.width
  let at_ := readPlace s.dev.migrations b.bit / 8
  if !(bitsGranted s o.tenant o.level .write b.bit n && bitsGranted s o.tenant o.level .write b.scaleBit b.scaleWidth) then
    some .access
  else if rangePoisoned s.dev.poison at_ ((b.bit % 8 + n + 7) / 8) ||
      rangePoisoned s.dev.poison (readPlace s.dev.migrations b.scaleBit / 8) ((b.scaleWidth + 7) / 8) then some .mcheck
  else none

/-- A posted write through ALIAS: all checks, then its steps in order (R185, R213). -/
def serveAlias (n uid : Nat) (o : Origin) (ws : List BlockWr) : M Unit := do
  let s ← getState
  match ws.findSome? fun w => (blockRefused s o w.ref).map fun k => (k, w) with
  | some (k, w) => refusePosted n uid o k w.addr w.index
  | none => do
    ws.forM (serveBlock o)
    ackPosted n uid o

/-- Where a request of another device leads on this one (R88, R111). -/
def locateFor (s : State) (o : Origin) (k : Acc) (want : Want) (addr : Word) : W (Nat × Nat × Bool) := do
  let spot ← locate s none {} o.tenant o.eng k want addr
  match spot with
  | .here bit w z => pure (bit, w, z)
  | _ => throw (.cause .path)

/-- Every element that another device asks to write, translated; or the first that fails and why. -/
def translateAll (s : State) (o : Origin) :
    List (Word × Want × Nat × BitVec 16) → M (Except (Cause × Word × BitVec 16) (List Wr))
  | [] => pure (.ok [])
  | (a, want, v, i) :: ws => do
    let r ← atTarget (locateFor s o .write want a)
    match r with
    | .error k => pure (.error (k, a, i))
    | .ok (bit, w, _) => do
      let rest ← translateAll s o ws
      pure (rest.map fun l => { bit, width := w, value := v % 2 ^ w, addr := a, index := i, span := want.span } :: l)

/-- Posted writes that another device asks for (R111, R123, R325), checked and translated once (R327): one that waits for a
flag elsewhere waits translated. -/
def serveWrite (n : Nat) (p : Packet) (uid : Nat) (o : Origin) (ws : List (Word × Want × Nat × BitVec 16))
    (flag : Option Word) : M Unit := do
  let s ← getState
  let first := match ws with
    | (a, _, _, i) :: _ => (a, i)
    | [] => (flag.getD 0, 0)
  if !ingressGrants s o.tenant o.level .write p.src then refusePosted n uid o .access first.1 first.2
  else do
    let r ← translateAll s o ws
    match r with
    | .error (k, a, i) => refusePosted n uid o k a i
    | .ok here =>
      match flag with
      | none => serveStore n uid o here none
      | some f =>
        if pathOf f == 5 && bits f.toNat 56 49 == s.dev.devid.toNat then
          if !ingressGrants s o.tenant o.level .atomic p.src then refusePosted n uid o .access f 0
          else do
            let x ← atTarget (locateFor s o .atomic (.bytes 8) f)
            match x with
            | .error k => refusePosted n uid o k f 0
            | .ok (bit, _, _) => serveStore n uid o here (some { addr := f, byte := some (bit / 8) })
        else do
          let far : FlagRef := { addr := f, byte := none }
          setDev fun d => { d with rx := d.rx.set n { p with body := .store uid o here (some far) } }
          serveStore n uid o here (some far)

/-- A read that another device asks for (R88, R325, R386); or what it asks of a plane, which reads nothing of it and so is
answered whatever the ingress grants (R204, R265; log 88). -/
def serveRead (n uid : Nat) (src : BitVec 8) (o : Origin) (addr : Word) (want : Want) : M Unit := do
  let s ← getState
  if let .plane w r := want then
    answerWaiting n uid o addr (.value (if planeThere s o.tenant addr w r then 1 else 0) 1 false)
  else if !ingressGrants s o.tenant o.level .read src then answerWaiting n uid o addr (.refused .access)
  else do
    let r ← atTarget (locateFor s o .read want addr)
    match r with
    | .error k => answerWaiting n uid o addr (.refused k)
    | .ok (bit, w, zero) =>
      if zero then answerWaiting n uid o addr (.value 0 w false)
      else if !bitsGranted s o.tenant o.level .read bit w then answerWaiting n uid o addr (.refused .access)
      else do
        let at_ := readPlace s.dev.migrations bit
        answerWaiting n uid o addr (.value (BitVec.ofNat 64 (readBits s.mem at_ w)) w
          (rangePoisoned s.dev.poison (at_ / 8) ((at_ % 8 + w + 7) / 8)))

/-- The byte of a flag whose increment this device has granted (R123, R327; log 16). -/
def flagGranted (d : Device) (o : Origin) (uid : Nat) : Option Nat :=
  (d.flagsGranted.find? fun x => x.1 == o.dev && x.2.1 == uid).map fun x => x.2.2

/-- An atomic that another device asks for: translated, it waits for its handler engine (R88, R111, R278); a flag's
increment that has been granted is checked no more (R327).  One that comes back to its originator stands for the part of its
write that the other device had (R123). -/
def serveRemoteAtomic (n : Nat) (p : Packet) (uid : Nat) (o : Origin) (slot : BitVec 5) (h4 h5 : Word) (posted : Bool)
    (addr : Word) : M Unit := do
  let s ← getState
  let refuse := fun k =>
    if posted then refusePosted n uid o k addr 0 else answerWaiting n uid o addr (.refused k)
  let wait := fun (byte : Nat) (granted : Bool) =>
    setDev fun d => { d with rx := d.rx.set n { p with body := .atomic uid o byte slot h4 h5 posted granted addr } }
  match flagGranted s.dev o uid with
  | some byte => do
    setDev fun d => { d with
      flagsGranted := d.flagsGranted.filter fun x => !(x.1 == o.dev && x.2.1 == uid)
      remoteParts := if o.dev == d.devid then d.remoteParts.eraseP fun x => x.uid == uid else d.remoteParts }
    wait byte true
  | none =>
    if !ingressGrants s o.tenant o.level .atomic p.src then refuse .access
    else do
      let r ← atTarget (locateFor s o .atomic (.bytes 8) addr)
      match r with
      | .error k => refuse k
      | .ok (bit, _, _) => wait (bit / 8) false

/-- The question of another device whether a flag here may be incremented (R123; log 16). -/
def serveFlagAsk (n uid : Nat) (src : BitVec 8) (o : Origin) (addr : Word) : M Unit := do
  let s ← getState
  let refuse := fun k => do
    rxDrop n
    send src 4 (.flagRefuse uid o.dev (o.note k addr 0))
  if !ingressGrants s o.tenant o.level .atomic src then refuse .access
  else do
    let r ← atTarget (locateFor s o .atomic (.bytes 8) addr)
    match r with
    | .error k => refuse k
    | .ok (bit, _, _) =>
      match atomicRefused s o (bit / 8) 0 with
      | some k => refuse k
      | none => do
        rxDrop n
        setDev fun d => { d with flagsGranted := d.flagsGranted ++ [(o.dev, uid, bit / 8)] }
        send src 4 (.flagGrant uid o.dev)

/-- MEMORY_REQUEST (R111, R280, R325): the target serves the n-th waiting message, a request on this device's storage; an atomic
reaches its handler engine. -/
def execMemoryRequest (n : Nat) (s : State) : Host.Outcome State Fault Refusal :=
  conclude (do
    let p ← rxAt n
    let d ← getDev
    enabled (!behind d n p.body)
    match p.body with
    | .atomic _ o byte _ _ _ _ _ _ => do
      enabled (p.reached.isNone && mayReach d byte (atomKey d o byte))
      setDev fun d => { d with rx := d.rx.set n { p with reached := some d.clock } }
    | .store uid o ws flag => serveStore n uid o ws flag
    | .aliasStore uid o ws => serveAlias n uid o ws
    | .read uid o addr want => serveRead n uid p.src o addr want
    | .write uid o ws flag => serveWrite n p uid o ws flag
    | .remoteAtomic uid o slot h4 h5 posted addr => serveRemoteAtomic n p uid o slot h4 h5 posted addr
    | .flagAsk uid o addr => serveFlagAsk n uid p.src o addr
    | _ => notNow) s

/-! What comes back. -/

/-- The controller of die 0 queues a saved group again (R353, R360). -/
def queueGroup (gid : Nat) (d : Device) : Device :=
  match d.saved.find? fun v => v.task.gid == gid && !v.withSupervisor && !v.queued && !v.ended with
  | none => d
  | some v =>
    let q := enqueueGroup gid v.task.prio d
    { q with saved := d.saved.map fun w =>
        if w.task.gid == gid && !w.withSupervisor && !w.ended then { w with queued := true } else w }

/-- The phase of a barrier has changed: the tasks that wait on it return to the ready set, and the groups that were
swapped out on it are queued again (R26, R133, R273). -/
def phaseChanged (b : BarRef) : M Unit := do
  let s ← getState
  let waits := (List.finRange 1024).filter fun l => match s.tasks.get l with
    | some t => t.mode == .atBarrier && (match t.held with | .barrier r _ _ _ => r == b | _ => false)
    | none => false
  waits.forM fun l => setTask l fun t => { t with mode := .ready }
  setDev fun d =>
    let gs := ((d.saved.filter fun v => v.barrier == some b && !v.queued && !v.ended).map fun v => v.task.gid).dedup
    gs.foldl (fun d g => queueGroup g d) d

/-- What the hub of a DOM barrier tells is kept (R269, R272). -/
def noteDom (b : BarRef) (phase : BitVec 16) (fl : BitVec 8) (swap : Bool) : M Unit := do
  let d ← getDev
  if heldHere d b then pure ()
  else setDev fun d => { d with domPhases := (b.number, phase, fl, swap) :: d.domPhases.filter fun x => x.1 != b.number }

/-- What an answer does at the originator (R111). -/
def takeReply (uid tid : Nat) (r : Reply) : M Unit := do
  let s ← getState
  match findTask s tid with
  | none => pure ()
  | some l => setTask l fun t =>
      match t.asked.find? fun a => a.uid == uid with
      | some a => { t with asked := t.asked.filter fun x => x.uid != uid
                           answers := t.answers ++ [{ eng := a.eng, tag := a.tag, addr := a.addr, want := a.want, reply := r }] }
      | none => t

/-- Whether a dependence on a kernel of this device has failed, and whether it is met (R351). -/
def depFailed (d : Device) (h : Word) : Bool := d.failed.contains h
def depMet (d : Device) (h : Word) : Bool := !d.kernels.toList.any fun k? => match k? with
  | some k => !k.shadow && k.handle == h
  | none => false

/-- The `cabort` of a task that waits for its abort to be sent need wait no more (R303). -/
def Task.abortSent (t : Task) (id : Nat) : Task :=
  { t with cjobs := t.cjobs.map fun j => if j.work == .aborting id then { j with work := .short } else j }

/-- RESPONSE (R111, R133, R269, R336, R348, R351; log 16): the n-th waiting message, an answer, reaches what asked for it. -/
def execResponse (n : Nat) (s : State) : Host.Outcome State Fault Refusal :=
  conclude (do
    let p ← rxAt n
    rxFirst n p
    match p.body with
    | .reply uid tid _ _ r => do
      rxDrop n
      takeReply uid tid r
    | .barAnswer tid b phase fl ok swap => do
      rxDrop n
      noteDom b phase fl swap
      let st ← getState
      match findTask st tid with
      | none => pure ()
      | some l => setTask l fun t =>
          if t.held == .barAsked b then { t with held := .barAnswer b phase fl ok } else t
    | .barPhase b phase fl swap => do
      rxDrop n
      let st ← getState
      let same := st.dev.domPhases.any fun x => x.1 == b.number && x.2.1 == phase
      noteDom b phase fl swap
      if same then pure () else phaseChanged b
    | .doneRefused handle => do
      rxDrop n
      notify (.doneArrivalDiscarded handle)
    | .postAgain name => do
      rxDrop n
      let d ← getDev
      match collEntry d name with
      | some e => if e.state == .posted then sendPost e else pure ()
      | none => pure ()
    | .depAsk handle => do
      rxDrop n
      let d ← getDev
      if depMet d handle then send p.src 5 (.depAnswer handle (depFailed d handle))
      else setDev fun d => { d with depAsked := d.depAsked ++ [(handle, p.src)] }
    | .depAnswer handle failed => do
      rxDrop n
      setDev fun d => { d with depAnswers := d.depAnswers ++ [(handle, failed)] }
    | .flagGrant uid dev => do
      rxDrop n
      setDev fun d => { d with granted := d.granted ++ [(dev, uid)], flagsAsked := d.flagsAsked.erase (dev, uid) }
    | .flagRefuse uid dev note => do
      rxDrop n
      let d ← getDev
      let mine := fun (q : Packet) => match q.body with
        | .store u o _ _ => u == uid && o.dev == dev
        | .write u o _ _ => u == uid && o.dev == dev
        | _ => false
      match (d.rx.find? mine).bind fun q => q.body.origin? with
      | none => pure ()
      | some o => do
        setDev fun d => { d with rx := d.rx.filter fun q => !mine q, flagsAsked := d.flagsAsked.erase (dev, uid) }
        send o.dev 4 (.refuse uid o.tid note)
    | .abortAck name dev => do
      rxDrop n
      let d ← getDev
      let left := d.abortWait.map fun x => if x.1 == name then (x.1, x.2.1.erase dev, x.2.2) else x
      setDev fun d => { d with abortWait := left.filter fun x => !x.2.1.isEmpty }
      left.forM fun x => match x.2.2 with
        | some (asker, id) => if x.2.1.isEmpty then send asker 5 (.cabortDone id) else pure ()
        | none => pure ()
    | .cabortSent id => do
      rxDrop n
      let s ← getState
      (List.finRange 1024).forM fun l => match s.tasks.get l with
        | some t => if t.cjobs.any fun j => j.work == .aborting id then setTask l fun t => t.abortSent id else pure ()
        | none => pure ()
    | .cabortDone id => do
      rxDrop n
      let d ← getDev
      match d.cabortWait.find? fun x => x.1 == id with
      | none => pure ()
      | some (_, tid, kv) => do
        setDev fun d => { d with cabortWait := d.cabortWait.filter fun x => x.1 != id }
        markTokenOf tid kv true false
    | _ => notNow) s

/-- Whether a write of a task is a copy's: the copy itself says when it is acknowledged (R289, R294). -/
def Task.isCopy (t : Task) (uid : Nat) : Bool :=
  t.cjobs.any fun j => match j.work with
    | .copy x => x.uid == uid
    | _ => false

/-- Whether a write of a task is a copy's that has writes still to make (R294, R307). -/
def Task.copyLeft (t : Task) (uid : Nat) : Bool :=
  t.cjobs.any fun j => match j.work with
    | .copy x => x.uid == uid && !(x.readsDone && (x.flag.isNone || x.flagSent))
    | _ => false

/-- The task with an identifier, in its slot or saved. -/
def knownTask (s : State) (tid : Nat) : Option Task :=
  match findTask s tid with
  | some l => s.tasks.get l
  | none => (s.dev.saved.find? fun v => v.task.tid == tid).map Saved.task

/-- WRITE_ACK (R111, R277, R340): an acknowledgement reaches its originator; the write counts as acknowledged when every
target has.  Of a copy whose task is in its slot, the copy says when. -/
def execWriteAck (n : Nat) (s : State) : Host.Outcome State Fault Refusal :=
  conclude (do
    let p ← rxAt n
    match p.body with
    | .ack uid tid => do
      rxDrop n
      (if p.src == s.dev.devid then pure ()
       else setDev fun d => { d with remoteParts := d.remoteParts.eraseP fun x => x.uid == uid })
      let st ← getState
      match knownTask st tid with
      | none => pure ()
      | some t =>
        let waits := if (findTask st tid).isSome then t.isCopy uid else t.copyLeft uid
        if partsLeft st.dev uid || waits then pure () else acknowledge tid uid
    | .chunkDone name iter _ => do
      rxDrop n
      chunkAcked name iter
    | _ => notNow) s

/-- The write with an identifier has nothing more to do on this device or others: its parts here are dropped. -/
def dropParts (uid : Nat) : M Unit :=
  setDev fun d => { d with
    rx := d.rx.filter fun p => partUid d.devid p.body != some uid
    remoteParts := d.remoteParts.filter fun x => x.uid != uid }

/-- The trap that a refusal raises (R111, R376). -/
def RefusalNote.trap (r : RefusalNote) (l : Fin 1024) : TrapInfo :=
  { loc := l, eng := r.eng, pc := r.pc, word := r.word, cause := r.cause, addr := r.addr, index := r.index }

/-- A task takes a refusal: the write counts as acknowledged, a copy ends in error (R294, R379). -/
def Task.refuse (t : Task) (uid : Nat) : Task :=
  match t.cjobs.findSome? fun j => match j.work with
      | .copy x => if x.uid == uid then some x else none
      | _ => none with
  | some x => if x.dead then t.acked uid else t.failCopy x
  | none => t.acked uid

/-- What the tokens of a saved copy become when one of its writes is refused (R294, R375). -/
def Task.lostTokens (t : Task) (uid : Nat) : List (BitVec 3 × Bool × Bool) :=
  match t.cjobs.findSome? fun j => match j.work with
      | .copy x => if x.uid == uid && !x.dead then some x else none
      | _ => none with
  | none => []
  | some x =>
    let one := fun (k : Option (BitVec 3)) (set : Bool) => match k with
      | some k => [(k, !set, true)]
      | none => []
    if x.kr == x.kv then one x.kv (x.readSet && x.writeSet) else one x.kr x.readSet ++ one x.kv x.writeSet

/-- Whether a task in its slot can take a refusal of an instruction of an engine now: at a boundary of the engine (R111). -/
def Task.takesRefusal (t : Task) (e : Engine) : Bool :=
  t.mode != .asleep && t.mode != .atBarrier && !(t.mode == .ready && e == .s && t.midScalar)

/-- A task in the ready set traps; one that is being saved keeps the refusal (R379). -/
def Task.refusedBy (t : Task) (clock : Nat) (l : Fin 1024) (note : RefusalNote) : Task :=
  if t.mode == .ready then takeTrap { note.trap l with clock } t else { t with refusals := t.refusals ++ [note] }

/-- A chunk of an iteration is refused (R317, R326): it counts as acknowledged; the `mdrr` that sent it traps, once; a walker's
collective is aborted with cause 4 and the address goes to the supervisor (R342). -/
def refuseChunk (x : CollSend) (cause : Cause) : M Unit := do
  let s ← getState
  let mine := fun (y : CollSend) => y.name == x.name && y.iter == x.iter
  setDev fun d => { d with collSends := d.collSends.map fun y => if mine y then { y with note := none } else y }
  chunkAcked x.name x.iter
  match x.note with
  | none => pure ()
  | some r =>
    let r := { r with cause }
    match (collEntry s.dev x.name).filter fun e => e.info.walker with
    | some e => do
      setEntry x.name fun e => some { e with faulted := true }
      sendAbort x.name 4 e.info.coordinator
      notify (.collectiveFault x.name.tenant r.addr)
    | none => match findTask s x.tid with
      | some l => setTask l fun t => t.refusedBy s.dev.clock l r
      | none => setDev fun d => { d with saved := d.saved.map fun v =>
          if v.task.tid == x.tid then { v with task := { v.task with refusals := v.task.refusals ++ [r] } } else v }

/-- POSTED_REFUSAL (R111, R185, R294, R379): a refusal reaches its originator.  A task in the ready set traps at the
refused engine's next boundary; one that is being saved or is saved keeps the refusal. -/
def execPostedRefusal (n : Nat) (s : State) : Host.Outcome State Fault Refusal :=
  conclude (do
    let p ← rxAt n
    match p.body with
    | .refuse uid tid note => do
      let st ← getState
      match findTask st tid with
      | some l => do
        let t ← getTask l
        enabled (t.takesRefusal note.eng)
        rxDrop n
        dropParts uid
        setTask l fun t => (t.refuse uid).refusedBy st.dev.clock l note
      | none => do
        rxDrop n
        dropParts uid
        setDev fun d => { d with saved := d.saved.map fun v =>
          if v.task.tid == tid then
            { v with acks := if v.task.uids.contains uid then v.acks + 1 else v.acks
                     tokens := v.tokens ++ v.task.lostTokens uid
                     task := { (v.task.refuse uid) with unack := v.task.unack, refusals := v.task.refusals ++ [note] } }
          else v }
    | .chunkRefused name iter cause => do
      let st ← getState
      match st.dev.collSends.find? fun x => x.name == name && x.iter == iter with
      | none => rxDrop n
      | some x => do
        enabled (match (findTask st x.tid).bind fun l => st.tasks.get l with
          | some t => x.note.isNone || t.takesRefusal .m
          | none => true)
        rxDrop n
        refuseChunk x cause
    | _ => notNow) s

end Sys2Proof.Machine
end

