-- ==== Sys2Proof/Machine/ScalarSys.lean ====
section
/-!
DEFINITION. Streams, routing and x registers, system registers, `trap`, `eret`, sealing, invalidation and `end` of the
scalar engine (06, R138 to R144, R146 to R149; 05, R99, R105, R106), and words that are no instruction or cannot be
fetched (04, R64 to R68).
-/

namespace Sys2Proof.Machine

/-- A field of a stream is set from a register (R138); a grant beyond the task's raises ILLEGAL, a bit that must be zero
RESERVED with the value in TRAPADDR. -/
def setStream (word : BitVec 32) (q : BitVec 4) (a : BitVec 6) (limit : Nat) (f : Stream → Word → Stream) : M Unit := do
  let c ← issueAfter .s word (needQ · [q])
  let x ← useS c a
  c.check (x.toNat < 2 ^ limit) .reserved x
  setTask c.loc fun t => { t with q := t.q.set q.toNat (f (t.q.get q.toFin) x) q.isLt }
  advance c

/-- `st fn=base`: base, extent, and a cursor of 0 (R138). -/
def execStBase (q : BitVec 4) (a b : BitVec 6) (s : State) : Host.Outcome State Fault Refusal :=
  conclude (do
    let c ← issueAfter .s (encode (.stBase q a b)) (needQ · [q])
    let x ← useS c a
    let y ← useS c b
    setTask c.loc fun t =>
      { t with q := t.q.set q.toNat { t.q.get q.toFin with base := x, extent := y, cursor := 0 } q.isLt }
    advance c) s

/-- `st fn=lay` (R138, R215). -/
def execStLay (q : BitVec 4) (a : BitVec 6) (s : State) : Host.Outcome State Fault Refusal :=
  conclude (setStream (encode (.stLay q a)) q a 52 fun st x => { st with layout := x }) s

/-- `st fn=fmt` (R138, R216). -/
def execStFmt (q : BitVec 4) (a : BitVec 6) (s : State) : Host.Outcome State Fault Refusal :=
  conclude (setStream (encode (.stFmt q a)) q a 19 fun st x => { st with format := x.setWidth 32 }) s

/-- `st fn=scl` (R138). -/
def execStScl (q : BitVec 4) (a : BitVec 6) (s : State) : Host.Outcome State Fault Refusal :=
  conclude (setStream (encode (.stScl q a)) q a 16 fun st x => { st with tscale := x.setWidth 16 }) s

/-- `st fn=flag` (R138). -/
def execStFlag (q : BitVec 4) (a : BitVec 6) (s : State) : Host.Outcome State Fault Refusal :=
  conclude (setStream (encode (.stFlag q a)) q a 64 fun st x => { st with flag := x }) s

/-- `st fn=link`: the stream follows the named one, or the one that it follows; naming itself unlinks (R138, R139).  An
unlinked stream's leader is itself. -/
def execStLink (q : BitVec 4) (b : BitVec 6) (s : State) : Host.Outcome State Fault Refusal :=
  conclude (do
    let c ← issueAfter .s (encode (.stLink q b)) (needQ · [q])
    let x ← useS c b
    c.check (x.toNat < 16) .reserved x
    let n := x.setWidth 4
    setTask c.loc fun t =>
      let leader := if n == q then q else (t.q.get n.toFin).leader
      { t with q := t.q.set q.toNat { t.q.get q.toFin with leader } q.isLt }
    advance c) s

/-- `st fn=pos` (R138, R140). -/
def execStPos (q : BitVec 4) (a : BitVec 6) (s : State) : Host.Outcome State Fault Refusal :=
  conclude (setStream (encode (.stPos q a)) q a 64 fun st x => { st with cursor := x }) s

/-- `st fn=fill` (R138). -/
def execStFill (q : BitVec 4) (a : BitVec 6) (s : State) : Host.Outcome State Fault Refusal :=
  conclude (setStream (encode (.stFill q a)) q a 64 fun st x => { st with fill := x }) s

/-- `rtset` (R141). -/
def execRtset (r : BitVec 2) (a : BitVec 6) (s : State) : Host.Outcome State Fault Refusal :=
  conclude (do
    let c ← issue .s (encode (.rtset r a))
    let x ← useS c a
    setTask c.loc fun t => { t with rt := t.rt.set r.toNat x r.isLt }
    advance c) s

/-- `xset` (R141). -/
def execXset (x : BitVec 4) (a : BitVec 6) (s : State) : Host.Outcome State Fault Refusal :=
  conclude (do
    let c ← issue .s (encode (.xset x a))
    let v ← useS c a
    setTask c.loc fun t => { t with x := t.x.set x.toNat (v.setWidth 32) x.isLt }
    advance c) s

/-- The kernel on this device with a handle (R35, R350). -/
def kernelOf (d : Device) (handle : Word) : Option Kernel :=
  d.kernels.toList.findSome? fun k => match k with
    | some x => if x.handle == handle then some x else none
    | none => none

/-- Whether a user task may read a system register (R142). -/
def userReads (sys : BitVec 12) : Bool := sys != 0x050 && sys != 0x055

/-- Whether a user task may write a system register (R142). -/
def userWrites (sys : BitVec 12) : Bool := sys == 0x044 || sys == 0x051 || sys == 0x054

/-- QDONE (R142): the phase-end flag, an outstanding post and the count of unacknowledged writes. -/
def qdone (t : Task) : Word :=
  BitVec.ofNat 64 ((if t.phaseEnd then 1 else 0) + (if t.posted then 2 else 0) + t.unack.toNat * 2 ^ 32)

/-- The value of a system register as a task reads it (R142, R395). -/
def readSys (s : State) (l : Fin 1024) (t : Task) (sys : BitVec 12) : Word :=
  let core := coreOf l
  let k := s.cores.get core
  let n := fun (x : Nat) => BitVec.ofNat 64 x
  match sys.toNat with
  | 0x000 => t.taskid
  | 0x001 => n (slotOf l).val
  | 0x002 => n core.val
  | 0x003 => n (core.val / 4)
  | 0x004 => n (core.val / 64)
  | 0x005 => s.dev.devid.setWidth 64
  | 0x006 => s.dev.domid.setWidth 64
  | 0x010 => s.dev.cycle
  | 0x020 => match kernelOf s.dev t.handle with | some x => x.energy | none => 0
  | 0x021 => s.dev.energy
  | 0x030 => k.throttle.setWidth 64
  | 0x031 => match kernelOf s.dev t.handle with | some x => x.throttled | none => 0
  | 0x032 => (s.rampcfg.get core).setWidth 64
  | 0x040 => t.trapcause
  | 0x041 => t.trappc
  | 0x042 => t.trapword
  | 0x043 => t.trapaddr
  | 0x044 => t.trapvec
  | 0x050 => k.frame
  | 0x051 => t.vctl.setWidth 64
  | 0x052 => (s.leasemax.get core).setWidth 64
  | 0x053 => qdone t
  | 0x054 => t.tflags.setWidth 64
  | 0x055 => k.resume.get (slotOf l)
  | _ => 0

/-- Test 4 of R66 for a system register that user tasks may or may not name (R142). -/
def allowed (user : Bool) (c : Ctx) : M Unit := do
  let t ← getTask c.loc
  c.check (t.level || user) .privileged 0

/-- `sget` (R142). -/
def execSget (d : BitVec 6) (sys : BitVec 12) (s : State) : Host.Outcome State Fault Refusal :=
  conclude (do
    let c ← issueAfter .s (encode (.sget d sys)) (allowed (userReads sys))
    let t ← getTask c.loc
    let st ← getState
    putS c d (readSys st c.loc t sys)
    advance c) s

/-- What a write of a system register does at supervisor level, or at user level where it is allowed (R142, R143).
Read-only registers ignore it. -/
def writeSys (c : Ctx) (sys : BitVec 12) (v : Word) : M Unit := do
  let core := coreOf c.loc
  let t ← getTask c.loc
  match sys.toNat with
  | 0x032 => emit (.rampcfg core v)
  | 0x040 => setTask c.loc fun t => { t with trapcause := v &&& 0x7FF }
  | 0x041 => setTask c.loc fun t => { t with trappc := v }
  | 0x042 => setTask c.loc fun t => { t with trapword := v &&& 0xFFFFFFFFFFFF }
  | 0x043 => setTask c.loc fun t => { t with trapaddr := v }
  | 0x044 => setTask c.loc fun t => { t with trapvec := v }
  | 0x050 => setCore core fun k => { k with frame := v, frameTenant := t.tenant }
  | 0x051 => setTask c.loc fun t => { t with vctl := v.setWidth 2 }
  | 0x052 => writeLeasemax core v
  | 0x054 => setTask c.loc fun t => { t with tflags := v.setWidth 8 }
  | 0x055 => setCore core fun k => { k with resume := k.resume.set (slotOf c.loc) v }
  | _ => pure ()

/-- `sset` (R142). -/
def execSset (a : BitVec 6) (sys : BitVec 12) (s : State) : Host.Outcome State Fault Refusal :=
  conclude (do
    let c ← issueAfter .s (encode (.sset a sys)) (allowed (userWrites sys))
    let x ← useS c a
    writeSys c sys x
    advance c) s

/-- `trap`: SWTRAP, with the instruction counted as completed (R144). -/
def execTrap (imm : BitVec 14) (s : State) : Host.Outcome State Fault Refusal :=
  conclude (do
    let c ← issue .s (encode (.trap imm))
    advance c
    raise { loc := c.loc, eng := .s, pc := c.pc, word := c.word, cause := .swtrap, addr := imm.signExtend 64 }) s

/-- The fields of a context frame's header that a restore needs (R361), from its first 64 bytes. -/
structure FrameHead where
  ok : Bool
  groupPart : Bool
  exposed : Bool
  level : Bool
  length : Nat
  handle : Word
  taskid : Word
  tenant : BitVec 6
  prio : BitVec 2
  cause : BitVec 8
  unack : BitVec 32
  firstTile : Nat
  tiles : Nat
  spadBase : Nat
  spad : Nat
  deriving DecidableEq, Repr, Inhabited

/-- The header of a frame from its bytes as a number (R361): the group field is four words of 4 bytes. -/
def frameHead (v : Nat) : FrameHead :=
  let f := fun off n => v / 2 ^ (8 * off) % 2 ^ (8 * n)
  { ok := f 0 4 == 0x5854434B && f 4 2 == 1
    groupPart := f 6 2 % 2 == 1
    exposed := f 6 2 / 2 % 2 == 1
    level := f 6 2 / 8 % 2 == 1
    length := f 8 8
    handle := BitVec.ofNat 64 (f 0x10 8)
    taskid := BitVec.ofNat 64 (f 0x18 8)
    tenant := BitVec.ofNat 6 (f 0x20 1)
    prio := BitVec.ofNat 2 (f 0x21 1)
    cause := BitVec.ofNat 8 (f 0x22 1)
    unack := BitVec.ofNat 32 (f 0x28 8)
    firstTile := f 0x30 4
    tiles := f 0x34 4
    spadBase := f 0x38 4
    spad := f 0x3C 4 }

/-- The launch controller takes a frame that it does not hold: a group of its own, with what the header names and the
grants of the kernel's record (R147, R360). -/
def adoptFrame (frame : Word) (tenant : BitVec 6) (h : FrameHead) (d : Device) : Device :=
  let g : Grant := match kernelOf d h.handle with
    | some k =>
      { vbanks := k.launch.vbanks, streams := k.launch.streams, acc := k.launch.acc, tiles := h.tiles,
        tileBase := h.firstTile, spad := h.spad, spadBase := h.spadBase }
    | none => { tiles := h.tiles, tileBase := h.firstTile, spad := h.spad, spadBase := h.spadBase }
  let task : Task :=
    { tid := d.nextTid, gid := d.nextGid, handle := h.handle, taskid := h.taskid &&& 0x3FFFF, tenant := h.tenant, prio := h.prio,
      level := h.level, grant := g, exposed := h.exposed, unack := h.unack }
  { d with
    saved := d.saved ++ [{ slot := 0, task, frame, frameTenant := tenant, cause := h.cause, hasGroup := h.groupPart,
                           withSupervisor := true }]
    nextGid := d.nextGid + 1
    nextTid := d.nextTid + 1 }

/-- The supervisor has moved a frame that the controller holds: the saved task of the same kernel and place stands there now
(R147). -/
def moveFrame (frame : Word) (tenant : BitVec 6) (h : FrameHead) (d : Device) : Option Device :=
  match d.saved.find? fun v => v.withSupervisor && !v.queued && !v.ended && v.task.handle == h.handle &&
      v.task.taskid == h.taskid with
  | none => none
  | some v => some { d with saved := d.saved.map fun w => if w == v then { w with frame, frameTenant := tenant } else w }

/-- `eret` (R147, R360). -/
def execEret (s : State) : Host.Outcome State Fault Refusal :=
  conclude (do
    let c ← issueAfter .s (encode .eret) privileged
    let k ← getCore (coreOf c.loc)
    let frame := k.resume.get (slotOf c.loc)
    c.check (frame.toNat % 64 == 0) .align frame
    let v ← readRecordPast c frame 1
    let t ← getTask c.loc
    let d ← getDev
    match returnFrame frame d with
    | some d' => setDev fun _ => d'
    | none => setDev fun d =>
        let d := (moveFrame frame t.tenant (frameHead v) d).getD (adoptFrame frame t.tenant (frameHead v) d)
        (returnFrame frame d).getD d
    advance c) s

/-- Every monitor wakes: a translation or a migration state has changed (R276).  That also those on other pages wake is
seen by no task, since each rereads its word (R126). -/
def wakeAll : M Unit := do
  let s ← getState
  let cs := (List.finRange 256).filter fun c => !(s.cores.get c).monitors.isEmpty
  cs.forM fun c => setCore c fun k => { k with monitors := k.monitors.map fun m => { m with woken := true } }

/-- An invalidation starts: every core is to acknowledge it, and monitors wake (R99, R149, R276).  A `seal` names the frame
words whose sealed bit is set with it. -/
def startInval (kind : InvalKind) (words : List Nat := []) : M Nat := do
  let d ← getDev
  setDev fun d => { d with
    nextUid := d.nextUid + 1
    invals := d.invals ++ [{ id := d.nextUid, kind, waiting := List.range 256, words }] }
  wakeAll
  pure d.nextUid

/-- `tlbi` and the end of `seal`: the invalidation starts, and the instruction completes when every core has
acknowledged (R99, R149). -/
def invalidate (c : Ctx) (kind : InvalKind) (words : List Nat := []) : M Unit := do
  let id ← startInval kind words
  setTask c.loc fun t => { t with held := .invalidate id }
  emit .held

/-- The instruction waits for its invalidation, or completes. -/
def awaitInval (c : Ctx) (id : Nat) : M Unit := do
  let d ← getDev
  waitFor (!d.invals.any fun v => v.id == id)
  setTask c.loc fun t => { t with held := .none }
  advance c

/-- A form of `tlbi` (R149): its kind is worked out from the register it reads. -/
def tlbi (word : BitVec 32) (kind : Ctx → M InvalKind) : M Unit := do
  let c ← issueAfter .s word privileged
  let t ← getTask c.loc
  match t.held with
  | .invalidate id => awaitInval c id
  | _ => do
    let k ← kind c
    invalidate c k

/-- `tlbi` fn 0 (R149). -/
def execTlbiAll (s : State) : Host.Outcome State Fault Refusal :=
  conclude (tlbi (encode .tlbiAll) fun _ => pure .all) s

/-- `tlbi` fn 1 (R149).  DESIGN CHOICE (log 80): a tenant beyond 63 raises RESERVED with the value in TRAPADDR. -/
def execTlbiTenant (a : BitVec 6) (s : State) : Host.Outcome State Fault Refusal :=
  conclude (tlbi (encode (.tlbiTenant a)) fun c => do
    let x ← useS c a
    c.check (x.toNat < 64) .reserved x
    pure (.tenant (x.setWidth 6))) s

/-- `tlbi` fn 2 (R149). -/
def execTlbiPositionPage (a : BitVec 6) (s : State) : Host.Outcome State Fault Refusal :=
  conclude (tlbi (encode (.tlbiPositionPage a)) fun c => do
    let x ← useS c a
    pure (.page (posOf x))) s

/-- `tlbi` fn 3 (R149). -/
def execTlbiPlaneFrame (a : BitVec 6) (s : State) : Host.Outcome State Fault Refusal :=
  conclude (tlbi (encode (.tlbiPlaneFrame a)) fun c => do
    let x ← useS c a
    pure (.plane (posOf x) (BitVec.ofNat 4 (planeOf x)))) s

/-- The records of the leaves of an object in the table at `tab`, for positions in [lo, hi) (R93, R94, R105).  The index
runs over the entries that positions of the object select. -/
def objectRecords (s : State) (object lo hi : Nat) : Nat → Nat → Nat → Nat → List Nat
  | 0, _, _, _ => []
  | k + 1, lvl, tab, start =>
    let shift := match lvl with
      | 0 => 46
      | 1 => 36
      | 2 => 26
      | _ => 16
    (List.range (if lvl == 0 then 2048 else 1024)).flatMap fun i =>
      let at_ := start + i * 2 ^ shift
      if hi ≤ at_ || at_ + 2 ^ shift ≤ lo then []
      else
        match readTable s (tab + 16 * i) 16 with
        | .error _ => []
        | .ok e =>
          match (if lvl ≤ 2 then tableEntry e else none), (if 2 ≤ lvl then leafEntry e else none) with
          | some next, _ => objectRecords s object lo hi k (lvl + 1) next at_
          | none, some (r, _, o) => if o == object then [r] else []
          | none, none => []

/-- The sealed bit of one plane is set or cleared in every page of one object of a tenant's tables (R105, R106, R148): the
frame words changed. -/
def sealPlane (tenant : BitVec 6) (plane : Nat) (leaf : Leaf) (on : Bool) : M (List Nat) := do
  let s ← getState
  match tenantTables s tenant with
  | .error _ => pure []
  | .ok (l3, _, _) =>
    let words := (objectRecords s leaf.object leaf.first (leaf.first + leaf.length) 4 0 l3 0).map fun r => r + 8 * plane
    words.forM fun a =>
      let w := readBytes s.mem a 8
      writeBytes a 8 (if on then w ||| 2 ^ 28 else w - w / 2 ^ 28 % 2 * 2 ^ 28)
    pure words

/-- `seal` and `unseal` (R105, R106, R148): the walk for the tenant named, the bits, then the invalidation, whose
acknowledgements also say that every earlier write has been applied.  Until then SEAL reads do not see a bit set
(R268). -/
def sealing (word : BitVec 32) (a b : BitVec 6) (on : Bool) : M Unit := do
  let c ← issueAfter .s word privileged
  let t ← getTask c.loc
  match t.held with
  | .invalidate id => awaitInval c id
  | _ => do
    let x ← useS c a
    let y ← useS c b
    c.check (y.toNat < 64) .reserved y
    let s ← getState
    let tenant := y.setWidth 6
    let f ← c.lift x (walk s none tenant .s .read .element (planeOf x) (posOf x))
    let words ← sealPlane tenant (planeOf x) f.leaf on
    invalidate c (.tenant tenant) (if on then words else [])

/-- `seal` fn 0 (R105, R148). -/
def execSeal (a b : BitVec 6) (s : State) : Host.Outcome State Fault Refusal :=
  conclude (sealing (encode (.seal a b)) a b true) s

/-- `seal` fn 1 (R106, R148). -/
def execUnseal (a b : BitVec 6) (s : State) : Host.Outcome State Fault Refusal :=
  conclude (sealing (encode (.unseal a b)) a b false) s

/-- `end` (R15, R146). -/
def execEndS (s : State) : Host.Outcome State Fault Refusal :=
  conclude (do
    let c ← issue .s (encode .endS)
    advance c
    setTask c.loc fun t => { t with endS := true }
    let t ← getTask c.loc
    noteEnds t.handle) s

/-- Whether a word of an engine is a privileged instruction (R70, R142). -/
def needsSupervisor : Instr → Bool
  | .eret => true
  | .seal _ _ => true
  | .unseal _ _ => true
  | .tlbiAll => true
  | .tlbiTenant _ => true
  | .tlbiPositionPage _ => true
  | .tlbiPlaneFrame _ => true
  | .cmig _ _ _ _ _ _ => true
  | .ckey _ _ _ _ _ _ => true
  | .sget _ sys => !userReads sys
  | .sset _ sys => !userWrites sys
  | _ => false

/-- A word at the head of an engine that fails a test of R66 raises its trap (R66 to R68). -/
def execIllegalWord (eng : Engine) (word : BitVec 32) (s : State) : Host.Outcome State Fault Refusal :=
  conclude (do
    let c ← atHead eng word
    match decode eng word with
    | .illegal => c.trap .illegal 0
    | .reserved => c.trap .reserved 0
    | .ok i => do
      let t ← getTask c.loc
      enabled (needsSupervisor i && !t.level)
      c.trap .privileged 0) s

end Sys2Proof.Machine
end

