-- ==== Sys2Proof/Machine/Launch.lean ====
section
/-!
DEFINITION. Kernels from their launch to the queues: LAUNCH, LAUNCH_HANDOVER, SCOREBOARD_EXAMINE, DEPENDENCE_MET,
STAGING and SHADOW_DONE (02, R31 to R35; 06, R137; 21, R350 to R352).
-/

namespace Sys2Proof.Machine

/-- Qword i of a record given as a number (R2). -/
def qword (v i : Nat) : Nat := v / 2 ^ (64 * i) % 2 ^ 64

/-- Residents entry i of a launch record: source, destination, length, reserved bytes (R32). -/
def residentAt (v i : Nat) : Nat × Nat × Nat × Nat :=
  let q := fun j => qword v (14 + 3 * i + j)
  (q 0, q 1, q 2 % 2 ^ 32, q 2 / 2 ^ 32)

/-- Reason 1 of R34: a reserved field of the record is not zero. -/
def launchReserved (v : Nat) : Bool :=
  let p := qword v 4
  let r := qword v 5
  let c := qword v 6
  bits p 63 41 != 0 || bits r 63 52 != 0 || bits r 31 29 != 0 || bits r 23 21 != 0 || bits r 15 15 != 0 ||
  bits r 7 2 != 0 || bits c 63 44 != 0 || bits c 31 27 != 0 || bits c 23 23 != 0 || bits c 19 17 != 0 ||
  bits c 15 14 != 0 || bits c 7 2 != 0 || qword v 9 != 0 || v / 2 ^ (8 * 0xD0) != 0 ||
  (List.range 4).any fun i => (residentAt v i).2.2.2 != 0

/-- The record's fields (R31, R32); the device list is read apart. -/
def launchFields (v : Nat) : LaunchRec :=
  let p := qword v 4
  let r := qword v 5
  let c := qword v 6
  { entry := .ofFn fun i => BitVec.ofNat 64 (qword v i.val)
    devices := bits p 40 32, dies := bits p 31 24, vaults := bits p 23 16, cores := bits p 15 8, tasks := bits p 7 0
    spad := bits r 51 32, streams := bits r 28 24, acc := bits r 20 16, tiles := bits r 14 8, vbanks := bits r 1 0
    doneOn := bits c 43 43 == 1, doneLevel := BitVec.ofNat 3 (bits c 42 40), doneNumber := BitVec.ofNat 8 (bits c 39 32)
    exposed := bits c 16 16 == 1, tenant := BitVec.ofNat 6 (bits c 13 8), prio := BitVec.ofNat 2 (bits c 1 0)
    arg := BitVec.ofNat 64 (qword v 7)
    deps := (List.range (bits c 22 20)).map fun i => BitVec.ofNat 64 (qword v (10 + i))
    residents := (List.range (bits c 26 24)).map fun i =>
      let (a, b, n, _) := residentAt v i
      (BitVec.ofNat 64 a, BitVec.ofNat 64 b, n) }

/-- Reason 2 of R34: a count, resource or level outside its range in R32. -/
def launchRange (v : Nat) : Bool :=
  let l := launchFields v
  let within := fun n hi => decide (1 ≤ n) && decide (n ≤ hi)
  !(within l.devices 256 && within l.dies 4 && within l.vaults 16 && within l.cores 4 && within l.tasks 4 &&
    decide (l.spad ≤ 524288) && l.spad % 64 == 0 && decide (l.streams ≤ 16) && decide (l.acc ≤ 16) &&
    decide (l.tiles ≤ 64) && decide (l.vbanks ≤ 2) && decide (l.deps.length ≤ 4) && decide (l.residents.length ≤ 4) &&
    (!l.doneOn || decide (l.doneNumber.toNat < barrierCount l.doneLevel.toNat)) &&
    l.residents.all fun x => decide (256 ≤ x.2.2) && decide (x.2.2 ≤ 12 * 2 ^ 20) && x.2.2 % 256 == 0)

/-- Reason 3 of R34: one core group's grant exceeds a core. -/
def launchTooBig (l : LaunchRec) : Bool :=
  decide (64 < l.tiles + l.vbanks * l.tasks) || decide (16 < l.acc * l.tasks)

/-- Reason 4 of R34. -/
def launchForeign (t : Task) (l : LaunchRec) : Bool :=
  !t.level && (l.tenant != t.tenant || decide (t.prio.toNat < l.prio.toNat))

/-- The device list at a pointer (R32); none when it cannot be read (R34). -/
def readDevices (c : Ctx) (p : Word) (n : Nat) : M (Option (List (BitVec 8))) := do
  let r ← orTrap ((List.range n).mapM fun i => do
    match positionAdd p (i : Nat) with
    | none => c.trap .padd p
    | some a => do
      let g ← readSpot c a (.bytes 1)
      c.check (!g.poison) .mcheck a
      pure (BitVec.ofNat 8 g.val))
  pure (match r with | .ok l => some l | .error _ => none)

/-- Whether a device list names devices of the domain, each once (R34). -/
def devicesOk (d : Device) (l : List (BitVec 8)) : Bool := l.dedup.length == l.length && l.all fun x => inDomain d x.toNat

/-- The lowest empty entry of a die's scoreboard (R350). -/
def freeEntry (d : Device) (die : Nat) : Option Nat :=
  ((List.range 64).map (64 * die + ·)).find? fun e => if h : e < 256 then (d.kernels.get ⟨e, h⟩).isNone else false

/-- A kernel handle (R35). -/
def makeHandle (serial : BitVec 32) (entry : Nat) (dev : BitVec 8) : Word :=
  BitVec.ofNat 64 (serial.toNat * 2 ^ 16 + entry % 64 * 2 ^ 10 + entry / 64 * 2 ^ 8 + dev.toNat)

/-- The kernel of an entry is replaced or freed. -/
def putKernel (entry : Nat) (k : Option Kernel) : M Unit :=
  setDev fun d => { d with kernels := if h : entry < 256 then d.kernels.set entry k h else d.kernels }

/-- `launch` returns a refusal with its reason (R34). -/
def refuseLaunch (c : Ctx) (d : BitVec 6) (reason : Nat) : M Unit := do
  putS c d (BitVec.ofNat 64 (2 ^ 63 + reason))
  advance c

/-- The launch controller of a die accepts a record (R35, R137, R350): it takes an entry and hands the kernel to the other
devices listed.  What level the tasks of a supervisor's launch run at is free (log 25). -/
def acceptLaunch (c : Ctx) (d : BitVec 6) (die entry : Nat) (l : LaunchRec) : M Unit := do
  let t ← getTask c.loc
  let w ← freeValue
  let order ← newUid
  let dv ← getDev
  let l := { l with level := t.level && w.getLsbD 0 }
  let serial := dv.serials.toList.getD die 0 + 1
  let handle := makeHandle serial entry dv.devid
  let away := l.deviceList.filter fun x => x != dv.devid
  let here := l.deviceList.isEmpty || l.deviceList.contains dv.devid
  putKernel entry (some { state := .posted, handle, serial, launch := l, order, shadowsOut := away.length, localDone := !here })
  setDev fun d =>
    let next : Fin 4 → BitVec 32 := fun i => if i.val == die then serial else d.serials.get i
    { d with serials := .ofFn next, launched := true }
  away.forM fun x => send x 5 (.handover l handle)
  putS c d handle
  advance c

/-- `launch` (R31 to R35, R137): a record that is not aligned is refused unread; one that cannot be read traps as a `ld`
does; every store before it is performed before it is accepted; of several reasons the lowest is returned. -/
def execLaunch (d a : BitVec 6) (s : State) : Host.Outcome State Fault Refusal :=
  conclude (do
    let c ← issue .s (encode (.launch d a))
    let x ← useS c a
    if x.toNat % 64 != 0 then refuseLaunch c d 1
    else do
      let v ← readRun c x 32
      let dw ← getDev
      let tw ← getTask c.loc
      awaitMid c (!writesOut dw tw c.eng)
      let t ← getTask c.loc
      let l := launchFields v
      if launchReserved v then refuseLaunch c d 1
      else if launchRange v then refuseLaunch c d 2
      else if launchTooBig l then refuseLaunch c d 3
      else if launchForeign t l then refuseLaunch c d 4
      else do
        let list ← if l.devices == 1 then pure (some []) else readDevices c (BitVec.ofNat 64 (qword v 8)) l.devices
        let dv ← getDev
        let die := (coreOf c.loc).val / 64
        match list with
        | none => refuseLaunch c d 5
        | some ds =>
          if !devicesOk dv ds then refuseLaunch c d 5
          else match freeEntry dv die with
            | none => refuseLaunch c d 6
            | some entry => acceptLaunch c d die entry { l with deviceList := ds }) s

/-- LAUNCH_HANDOVER (R32, R350): the controller of die 0 takes the n-th waiting message, a kernel of another device, into a
shadow entry; with none free it waits. -/
def execLaunchHandover (n : Nat) (s : State) : Host.Outcome State Fault Refusal :=
  conclude (do
    let p ← rxAt n
    rxFirst n p
    match p.body with
    | .handover l handle => do
      let d ← getDev
      match freeEntry d 0 with
      | none => notNow
      | some entry => do
        let order ← newUid
        rxDrop n
        putKernel entry (some { state := .posted, handle, serial := BitVec.ofNat 32 (bits handle.toNat 47 16), launch := l,
                                order, shadow := true })
        setDev fun d => { d with launched := true }
    | _ => notNow) s

/-- The entries of a die's scoreboard that hold kernels. -/
def entriesOf (d : Device) (die : Nat) : List (Nat × Kernel) :=
  (List.range 64).filterMap fun i =>
    let e := 64 * die + i
    if h : e < 256 then (d.kernels.get ⟨e, h⟩).map fun k => (e, k) else none

/-- Devices that asked about a kernel are told that it is over (R351). -/
def answerAsked (handle : Word) (failed : Bool) : M Unit := do
  let d ← getDev
  setDev fun d => { d with depAsked := d.depAsked.filter fun x => x.1 != handle }
  d.depAsked.forM fun x => if x.1 == handle then send x.2 5 (.depAnswer handle failed) else pure ()

/-- The kernel of an entry has changed (R350 to R352): the entry is freed once it and every shadow are done; a shadow reports
it, and of a kernel launched here, whether it failed is remembered and told to the devices that asked. -/
def settle (entry : Nat) (k : Kernel) : M Unit :=
  if k.state != .done || k.shadowsOut != 0 then putKernel entry (some k)
  else if k.shadow then do
    putKernel entry none
    send (BitVec.ofNat 8 (k.handle.toNat % 256)) 5 (.shadowDone k.handle k.failed)
  else do
    putKernel entry none
    (if k.failed then setDev fun d => { d with failed := d.failed ++ [k.handle] } else pure ())
    answerAsked k.handle k.failed

/-- Whether a dependence names a kernel of this device. -/
def depHere (d : Device) (h : Word) : Bool := h.toNat % 256 == d.devid.toNat

/-- SCOREBOARD_EXAMINE (R350, R351): the posted entry of a die that was accepted first is examined and waits; the devices of
its dependences are asked. -/
def execScoreboardExamine (die : Nat) (s : State) : Host.Outcome State Fault Refusal :=
  conclude (do
    let d ← getDev
    let posted := (entriesOf d die).filter fun x => x.2.state == .posted
    match posted.find? fun x => posted.all fun y => decide (x.2.order ≤ y.2.order) with
    | none => notNow
    | some (e, k) => do
      putKernel e (some { k with state := .waiting })
      (k.launch.deps.filter fun h => !depHere d h).forM fun h => send (BitVec.ofNat 8 (h.toNat % 256)) 5 (.depAsk h)) s

/-- A kernel whose streams are staged is ready and enters the queue of its record priority (R350, R353).  The part of a
kernel whose launching device is not listed has nothing to place. -/
def makeReady (entry : Nat) (k : Kernel) : M Unit :=
  if k.localDone then settle entry { k with state := .done }
  else do
    putKernel entry (some { k with state := .ready })
    setDev fun d =>
      let p := k.launch.prio
      { d with queues := d.queues.set p.toNat (d.queues.get p.toFin ++ [.kernel entry d.nanos]) p.isLt }

/-- A dependence of a kernel as known here (R351): not over, or over and whether it failed. -/
def depState (d : Device) (h : Word) : Option Bool :=
  if depHere d h then (if depMet d h then some (depFailed d h) else none)
  else (d.depAnswers.find? fun x => x.1 == h).map Prod.snd

/-- DEPENDENCE_MET (R350, R351): every dependence is met and the kernel stages its streams, which take
vault bytes that no collective has reserved, when none waits for any (R338), or one failed and so does it.  What the event says of the answers of other
devices is not used: the answers that came are kept (log 71). -/
def execDependenceMet (die entry : Nat) (_remoteMet _remoteFailed : Bool) (s : State) : Host.Outcome State Fault Refusal :=
  conclude (do
    let d ← getDev
    match (entriesOf d die).find? fun x => x.1 == 64 * die + entry with
    | none => notNow
    | some (e, k) => do
      enabled (k.state == .waiting)
      let deps := k.launch.deps.map (depState d)
      if deps.contains (some true) then settle e { k with state := .done, localDone := true, failed := true }
      else do
        enabled (!deps.contains none)
        if k.launch.residents.isEmpty || k.localDone then makeReady e k
        else do
          enabled (vaultWanted d == 0 && runsApart k.vaultRuns (collRuns d))
          putKernel e (some { k with state := .staging })) s

/-- An element of a declared-resident stream, of the width of its plane (R296, R297), or the cause of its failing. -/
def stageElement (s : State) (k : Kernel) (w : Nat) (a : Word) : W Nat := do
  match (← locate s none {} k.launch.tenant .c .read (.width w) a) with
  | .here _ _ true => pure 0
  | .here bit _ false => do
    let real := readPlace s.dev.migrations bit
    require .access (bitsGranted s k.launch.tenant k.launch.level .read bit w)
    require .mcheck (!rangePoisoned s.dev.poison (real / 8) ((w + 7) / 8))
    pure (readBits s.mem real w)
  | _ => throw (.cause .path)

/-- Chunk `c` of a declared-resident stream of `n` bytes, read as `cpre` reads it (R292, R296, R352): its bytes as a number, or
the address of the first element that fails. -/
def stageRead (s : State) (k : Kernel) (src : Word) (n c : Nat) : M (Except Word Nat) :=
  match (if pathOf src == 0 then planeWord s k.launch.tenant src (planeOf src) else none).map planeWidth with
  | none => pure (.error src)
  | some w =>
    let per := 32768 / w
    (List.range (min per (8 * n / w - c * per))).foldlM (fun (acc : Except Word Nat) i => match acc with
      | .error a => pure (.error a)
      | .ok v =>
        let a := src + BitVec.ofNat 64 (c * per + i)
        match stageElement s k w a with
        | .ok x => pure (.ok (v + x * 2 ^ (w * i)))
        | .error (.cause _) => pure (.error a)
        | .error (.absent b) => stop (.fault (.absentStorage b))) (.ok 0)

/-- Where the bytes of a declared-resident stream from `lo` on go: 256-byte units of a vault through its staging port (R32,
R296), or the address of the first unit that fails. -/
def stageTarget (s : State) (k : Kernel) (dst : Word) (lo n : Nat) : Except Word Nat :=
  match (if pathOf dst == 2 then bytePath 0 {} dst (lo + n) else throw (.cause .path)) with
  | .ok b =>
    if b % 256 == 0 then
      match ((List.range (n / 256)).map fun i => lo + 256 * i).find? fun i =>
          !bitsGranted s k.launch.tenant k.launch.level .write (8 * (b + i)) 2048 with
      | none => .ok (b + lo)
      | some i => .error (dst + BitVec.ofNat 64 i)
    else .error dst
  | .error _ => .error dst

/-- STAGING (R350, R352): the next chunk of the declared-resident entry that a kernel copies; after the last entry the kernel is
ready.  A fault makes it failed, and the supervisor is told; the chunks before stay (R293). -/
def execStaging (die entry : Nat) (s : State) : Host.Outcome State Fault Refusal :=
  conclude (do
    let st ← getState
    match (entriesOf st.dev die).find? fun x => x.1 == 64 * die + entry with
    | none => notNow
    | some (e, k) => do
      enabled (k.state == .staging)
      match k.launch.residents[k.staged]? with
      | none => makeReady e k
      | some (src, dst, n) => do
        let lo := 4096 * k.chunk
        let len := min 4096 (n - lo)
        let r ← stageRead st k src n k.chunk
        let fail := fun a => do
          settle e { k with state := .done, localDone := true, failed := true }
          notify (.stagingFailed k.staged a)
        match r, stageTarget st k dst lo len with
        | .error a, _ => fail a
        | .ok _, .error a => fail a
        | .ok v, .ok b => do
          applyWrites [] [{ bit := 8 * b, width := 8 * len, value := v, addr := dst + BitVec.ofNat 64 lo }]
          let whole := decide (n ≤ lo + len)
          let k := if whole then { k with staged := k.staged + 1, chunk := 0 } else { k with chunk := k.chunk + 1 }
          if k.staged == k.launch.residents.length then makeReady e k else putKernel e (some k)) s

/-- SHADOW_DONE (R350): the n-th waiting message reports a shadow of a kernel of this device done. -/
def execShadowDone (n : Nat) (s : State) : Host.Outcome State Fault Refusal :=
  conclude (do
    let p ← rxAt n
    rxFirst n p
    match p.body with
    | .shadowDone handle failed => do
      rxDrop n
      let d ← getDev
      match ((List.range 4).flatMap (entriesOf d)).find? fun x => x.2.handle == handle && !x.2.shadow with
      | none => pure ()
      | some (e, k) => settle e { k with shadowsOut := k.shadowsOut - 1, failed := k.failed || failed }
    | _ => notNow) s

end Sys2Proof.Machine
end

