-- ==== Sys2Proof/Machine/EngineEvents.lean ====
section
/-!
DEFINITION. The steps of the engines, barriers and monitors that no word issues: FETCH_FAULT, INSTRUCTION_FINISH,
VECTOR_RESULT_LAND, MONITOR_WAKE, WAITA_TIMEOUT, PHASE_END, BARRIER_ARRIVAL, SWAP_ON_WAIT, WATCHDOG, and the writes
TFLAGS and FRAME (02, R20, R24; 04, R64, R65; 06, R126, R136; 07, R161; 08, R167; 15; 21, R361; 24, R380).
-/

namespace Sys2Proof.Machine

/-- FETCH_FAULT (R64, R65, R376): the fetch at the head of an engine fails and raises its trap, with the program counter in
TRAPADDR.  No word was read, so TRAPWORD holds a free value (log 9). -/
def execFetchFault (eng : Engine) (s : State) : Host.Outcome State Fault Refusal :=
  conclude (do
    let c ← atHead eng 0
    let st ← getState
    match fetchWord st c.loc eng with
    | .ok _ => notNow
    | .error (.absent b) => stop (.fault (.absentStorage b))
    | .error (.cause k) => do
      let w ← freeValue
      raise { loc := c.loc, eng, pc := c.pc, word := w.setWidth 32, cause := k, addr := c.pc }) s

/-- A tile becomes ready when the instruction that writes it finishes (R24). -/
def tileReady (core : Fin 256) (tile : Option Nat) : M Unit :=
  match tile with
  | some n => setCore core fun k => k.setTile n fun x => { x with state := 2 }
  | none => pure ()

/-- The reserved places of several instructions become tokens, in order (R20). -/
def Task.redeemAll (t : Task) (e : Engine) (masks : List (BitVec 3)) : Task := masks.foldl (fun t m => t.redeemTokens e m) t

/-- What an instruction gives when it finishes: its own tokens, and those of what was completed behind it at a save (R20,
R250, R307). -/
def MJob.masks (j : MJob) : List (BitVec 3) := j.gives :: j.carry
def CJob.masks (j : CJob) : List (BitVec 3) := j.gives :: j.carry

/-- The effect of an M instruction when it completes, but for its tokens: a codebook slot or epilogue set is written, its tile
becomes ready, its bits of TFLAGS are set (R20, R24, R241, R246). -/
def completeMJob (l : Fin 1024) (j : MJob) : M Unit := do
  (match j.work with
   | .book n b => setCore (coreOf l) fun k => { k with books := k.books.set n.toNat b n.isLt }
   | .epi n e => setCore (coreOf l) fun k => { k with epis := k.epis.set n.toNat e n.isLt }
   | _ => pure ())
  tileReady (coreOf l) j.tile
  setTask l fun t => t.raiseFlags j.flags

/-- The finish of an M instruction: its effect, and its tokens are given (R20). -/
def endMJob (l : Fin 1024) (j : MJob) : M Unit := do
  completeMJob l j
  setTask l fun t => t.redeemAll .m j.masks

/-- Whether nothing keeps an M instruction from finishing but those before it (R20, R232, R236). -/
def MJob.finished (j : MJob) (d : Device) : Bool :=
  match j.work with
  | .mma m => decide (m.slices ≤ m.next)
  | .done (some uid) => performed d uid
  | _ => true

/-- The first unfinished instruction of M finishes (R20). -/
def finishM (l : Fin 1024) (t : Task) : M Unit := do
  let d ← getDev
  match t.mjobs with
  | [] => notNow
  | j :: js => do
    enabled (j.finished d)
    setTask l fun t => { t with mjobs := js, markM := t.markM - 1 }
    endMJob l j

/-- Whether nothing of a copy is left to do but to free its tiles (R20, R294). -/
def Copy.finished (x : Copy) (d : Device) : Bool := x.readSet && x.writeSet && (!x.dead || performed d x.uid)

/-- The first unfinished instruction of C finishes (R20, R24, R306), once the tiles that it read are freed; a `cabort` once its
abort has been sent (R303). -/
def finishC (l : Fin 1024) (t : Task) : M Unit := do
  let d ← getDev
  match t.cjobs with
  | [] => notNow
  | j :: js => do
    (match j.work with
     | .copy x => do
       enabled (x.finished d && x.srcTiles.isEmpty)
       tileReady (coreOf l) x.dstTile
     | .aborting _ => notNow
     | _ => pure ())
    setTask l fun t => ({ t with cjobs := js, markC := t.markC - 1 }.redeemAll .c j.masks).raiseFlags j.flags

/-- INSTRUCTION_FINISH (R20): the first unfinished instruction of M or C of a task finishes, its tokens are given, its
tile becomes ready, its bits of TFLAGS are set. -/
def execInstructionFinish (core slot : Nat) (eng : Engine) (s : State) : Host.Outcome State Fault Refusal :=
  conclude (do
    let (l, t) ← eventTask core slot
    match eng with
    | .m => finishM l t
    | .c => finishC l t
    | _ => notNow) s

/-- VECTOR_RESULT_LAND (R167, R169): the results of exposed mode whose count has come land. -/
def execVectorResultLand (core slot : Nat) (s : State) : Host.Outcome State Fault Refusal :=
  conclude (do
    let (l, t) ← eventTask core slot
    enabled (t.pending.any fun p => decide (p.due ≤ t.vcount))
    setTask l Task.landDue) s

/-! Monitors. -/

/-- The n-th entry of a core's monitor table, and the sleeper it serves. -/
def sleeper (core n : Nat) : M (Fin 256 × Monitor × Fin 1024 × Task) := do
  let c ← coreAt core
  let k ← getCore c
  match k.monitors[n]? with
  | none => notNow
  | some m => do
    let l := place c m.slot
    let t? ← task? l
    match t? with
    | some t => pure (c, m, l, t)
    | none => notNow

/-- A `waita` completes: its entry is freed, the task returns to the ready set (R26, R126, R276). -/
def endWaita (c : Ctx) (n : Nat) (d : BitVec 6) (status : Word) : M Unit := do
  setCore (coreOf c.loc) fun k => { k with monitors := k.monitors.eraseIdx n }
  setTask c.loc fun t => { t with mode := .ready, held := .none }
  putS c d status
  advance c

/-- MONITOR_WAKE (R126, R276): the task rereads its word; it completes, or sleeps again on the same entry, or, when the
entry was reclaimed, on a fresh one or with status 1.  The entry follows the word's storage (log 23). -/
def execMonitorWake (core n : Nat) (s : State) : Host.Outcome State Fault Refusal :=
  conclude (do
    let (k, m, l, t) ← sleeper core n
    enabled (m.woken && t.mode == .asleep)
    match t.held with
    | .waita word d addr cmp fn _ expires => do
      let c : Ctx := { loc := l, eng := .s, pc := t.pcS, word }
      let (v, block) ← waitRead c addr
      if !waitHolds fn v cmp then endWaita c n d 0
      else if m.reclaimed then do
        setCore k fun x => { x with monitors := x.monitors.eraseIdx n }
        let x ← getCore k
        let dv ← getDev
        if monitorFree x dv.monitorsKept t.level then do
          armMonitor l block
          setTask l fun t => { t with held := .waita word d addr cmp fn block expires }
        else do
          setTask l fun t => { t with mode := .ready, held := .none }
          putS c d 1
          advance c
      else do
        setCore k fun x => { x with monitors := (List.range x.monitors.length).zip x.monitors |>.map fun (i, y) =>
          if i == n then { y with woken := false, block } else y }
        setTask l fun t => { t with held := .waita word d addr cmp fn block expires }
    | _ => notNow) s

/-- WAITA_TIMEOUT (R126): the timeout has passed; the word is read once more. -/
def execWaitaTimeout (core n : Nat) (s : State) : Host.Outcome State Fault Refusal :=
  conclude (do
    let (_, _, l, t) ← sleeper core n
    let dv ← getDev
    match t.held with
    | .waita word d addr cmp fn _ expires => do
      enabled (t.mode == .asleep && expires != 0 && decide (expires ≤ dv.clock))
      let c : Ctx := { loc := l, eng := .s, pc := t.pcS, word }
      let (v, _) ← waitRead c addr
      endWaita c n d (if waitHolds fn v cmp then 2 else 0)
    | _ => notNow) s

/-! Phase end and barriers. -/

/-- PHASE_END (R136, R277): the markers of the outstanding post have retired and the writes counted before it are
acknowledged, so the phase-end flag is set. -/
def execPhaseEnd (core slot : Nat) (s : State) : Host.Outcome State Fault Refusal :=
  conclude (do
    let (l, t) ← eventTask core slot
    enabled (t.posted && t.markM == 0 && t.markC == 0 && t.postUids.isEmpty)
    setTask l fun t => { t with phaseEnd := true, posted := false }) s

/-- The ids of the domain's other devices (R308). -/
def otherDevices (d : Device) : List (BitVec 8) :=
  ((List.range d.rows).flatMap fun r => (List.range d.cols).map fun c => BitVec.ofNat 8 (16 * r + c)).filter
    fun x => x != d.devid

/-- The other devices of the domain are told how a DOM barrier stands (R269, R273). -/
def tellDomain (b : BarRef) (y : Barrier) : M Unit := do
  let d ← getDev
  if b.level == 5 then (otherDevices d).forM fun dev => send dev 5 (.barPhase b y.phase y.completed y.swap)
  else pure ()

/-- Where a request to a barrier stands among those of its clock: arrivals and reads before inits, then by slot and core,
then by device (R271). -/
def barKey (op : BarOp) (x : BarTime) (src : BitVec 8) : Nat :=
  (match op with
   | .init _ => 2 ^ 18
   | _ => 0) + (x.slot * 256 + x.core) * 256 + src.toNat

/-- Whether a barrier serves another waiting request before one of a clock and a key: it came in an earlier clock, or in
the same one with a lower key, or with the same key ahead of it (R271). -/
def barBefore (b : BarRef) (clock key : Nat) (ahead : Bool) (q : Packet) : Bool :=
  match q.body with
  | .barrier r op _ _ _ _ x =>
    r == b && (decide (x.clock < clock) || (x.clock == clock &&
      (decide (barKey op x q.src < key) || (barKey op x q.src == key && ahead))))
  | _ => false

/-- Whether a barrier's next event is the n-th waiting message: its clock is over, so that every request of the clock is
here, and no other request comes before it (R270, R271). -/
def barTurn (d : Device) (n : Nat) (b : BarRef) (op : BarOp) (x : BarTime) (src : BitVec 8) : Bool :=
  decide (x.clock < d.clock) &&
  !((List.range d.rx.length).zip d.rx).any fun (i, q) => i != n && barBefore b x.clock (barKey op x src) (decide (i < n)) q

/-- BARRIER_ARRIVAL (R37, R133, R270, R271): a barrier of this device serves the n-th waiting message, an arrival or
another request, and answers with the phase before it.  A phase change is told to who waits. -/
def execBarrierArrival (n : Nat) (s : State) : Host.Outcome State Fault Refusal :=
  conclude (do
    let p ← rxAt n
    match p.body with
    | .barrier b op tid back tenant level time => do
      let st ← getState
      enabled (heldHere st.dev b && barTurn st.dev n b op time p.src)
      rxDrop n
      let x := barrierAt st b
      let ok := mayUse level tenant x
      (if ok then serveBarrier b op else pure ())
      (match op with
       | .arrive _ (some handle) => if ok then pure () else send back 5 (.doneRefused handle)
       | _ => send back 5 (.barAnswer tid b x.phase x.completed ok x.swap))
      let st' ← getState
      let y := barrierAt st' b
      if y.phase == x.phase then pure ()
      else do
        phaseChanged b
        tellDomain b y
    | _ => notNow) s

/-- The tasks of a core group in their slots (R356). -/
def groupPlaces (s : State) (gid : Nat) (core : Fin 256) : List (Fin 1024) :=
  ((List.finRange 4).map fun k => place core k).filter fun l => match s.tasks.get l with
    | some t => t.gid == gid
    | none => false

/-- The tasks of a core group leave the ready set to be saved together (R356, R358). -/
def stopGroup (gid : Nat) (core : Fin 256) (cause : BitVec 8) : M Unit := do
  let s ← getState
  (groupPlaces s gid core).forM fun l => setTask l fun t =>
    match t.mode with
    | .saving _ => t
    | _ => { t with mode := .saving cause }

/-- SWAP_ON_WAIT (R273): a task that has waited for 50 µs on a barrier whose swap bit is set is saved with its core
group. -/
def execSwapOnWait (core slot : Nat) (s : State) : Host.Outcome State Fault Refusal :=
  conclude (do
    let (l, t) ← eventTask core slot
    let st ← getState
    match t.held with
    | .barrier b phase _ since => do
      enabled (t.mode == .atBarrier && swapOf st b && phaseOf st b == phase && decide (since + 50000 ≤ st.dev.nanos))
      setTask l fun t => { t with swapped := true }
      stopGroup t.gid (coreOf l) 4
    | _ => notNow) s

/-- The first engine of S, V, M and C that holds an unissued instruction at its head, and its word (R380): S holds none while it
is in the middle of one. -/
def firstHead (s : State) (l : Fin 1024) (t : Task) : Option (Engine × BitVec 32) :=
  [Engine.s, .v, .m, .c].findSome? fun e =>
    if t.ended e || (e == .s && t.midScalar) then none
    else match fetchWord s l e with
      | .ok w => some (e, w)
      | .error _ => none

/-- WATCHDOG (R380): a task in the ready set that has stalled for the limit traps in the first engine that holds an
instruction. -/
def execWatchdog (core slot : Nat) (s : State) : Host.Outcome State Fault Refusal :=
  conclude (do
    let (l, t) ← eventTask core slot
    let st ← getState
    enabled (t.mode == .ready && st.dev.watchdog != 0 && decide (st.dev.watchdog ≤ t.stall))
    match firstHead st l t with
    | none => notNow
    | some (e, w) => raise { loc := l, eng := e, pc := t.pc e, word := w, cause := .watchdog, addr := 0 }) s

/-- TFLAGS (R143, R161): a write of the register, with the bits that setters set in the same clock. -/
def execTflags (core slot : Nat) (value : BitVec 64) (setters : BitVec 8) (s : State) :
    Host.Outcome State Fault Refusal :=
  conclude (do
    let (l, _) ← eventTask core slot
    setTask l fun t => { t with tflags := value.setWidth 8 ||| setters }) s

/-- FRAME (R142, R361): a write of the register; a save that found it 0 goes on. -/
def execFrame (core : Nat) (value : BitVec 64) (tenant : BitVec 6) (s : State) : Host.Outcome State Fault Refusal :=
  conclude (do
    let c ← coreAt core
    setCore c fun k => { k with frame := value, frameTenant := tenant }) s

end Sys2Proof.Machine
end

