-- ==== Sys2Proof/Machine/Vector.lean ====
section
/-!
DEFINITION. What the vector instructions share: issue under the two latency modes, how a result is delivered, and the
lane-by-lane and element-by-element shapes of results (08, R163 to R169).
-/

namespace Sys2Proof.Machine

/-- A vector instruction issues; results whose count has come have landed (R166, R167). -/
def issueV (word : BitVec 32) : M Ctx := do
  let c ← issue .v word
  setTask c.loc Task.landDue
  pure c

/-- A vector instruction has issued: the issue count of exposed mode rises and the program counter moves (R14, R167). -/
def finishV (c : Ctx) : M Unit :=
  setTask c.loc fun t => { t.goto .v (c.pc + 4) with vcount := if t.exposed then t.vcount + 1 else t.vcount }

/-- A result is delivered: at once in interlocked mode, after `latency` issue counts in exposed mode (R166, R167). -/
def Task.deliver (t : Task) (latency : Nat) (r : VResult) : Task :=
  if t.exposed && latency != 0 then { t with pending := t.pending ++ [{ result := r, due := t.vcount + latency }] }
  else t.landResult r

/-- Delivers a result and ends the instruction. -/
def deliver (c : Ctx) (latency : Nat) (r : VResult) : M Unit := do
  setTask c.loc fun t => t.deliver latency r
  finishV c

/-- Poisoned data in active lanes of a source raises MCHECK with TRAPADDR 0 (R386, R387). -/
def useLanes (c : Ctx) (active : Mask) (rs : List (BitVec 6)) : M Unit := do
  let t ← getTask c.loc
  c.check (rs.all fun r => t.vPoison.get r.toFin &&& active == 0) .mcheck 0

/-- The lane that holds element e of width w (R163). -/
def laneOf (w e : Nat) : Nat := e * w / 32

/-- A result made element by element in the active lanes: bits and flags of each element (R159, R163, R165). -/
def elementResult (w : Nat) (d : BitVec 6) (active : Mask) (noFlags : Bool) (f : Nat → Nat × LFlags) : VResult :=
  let rs := (List.range (8192 / w)).map fun e => if active.getLsbD (laneOf w e) then f e else (0, 0)
  { dest := .reg d
    bits := laneBits active
    value := vregOf w fun e => (rs.getD e (0, 0)).1
    lanes := active
    flags := if noFlags then .replicate 256 0 else laneFlagsOf w active fun e => (rs.getD e (0, 0)).2 }

/-- A result that moves whole lanes, poison with them (R179, R386): lane i of d comes from what `f i` names. -/
def laneResult (d : BitVec 6) (active : Mask) (f : Nat → Nat × Bool) : VResult :=
  { dest := .reg d
    bits := laneBits active
    value := vregOf 32 fun i => (f i).1
    lanes := active
    poison := maskOf fun i => (f i).2 }

/-- Lane i of a vector register and whether it is poisoned. -/
def Task.lane (t : Task) (r : BitVec 6) (i : Nat) : Nat × Bool :=
  (elemOf 32 (t.v.get r.toFin) i, (t.vPoison.get r.toFin).getLsbD i)

/-- An instruction on the elements of registers a and b in active lanes (R163, R165, R171, R172): `f` takes the elements
of d, a and b. -/
def elementwise (word : BitVec 32) (regs : List (BitVec 6)) (d a b : BitVec 6) (m : BitVec 3) (w latency : Nat)
    (noFlags : Bool) (f : Task → Nat → Nat → Nat → Nat × LFlags) : M Unit := do
  let c ← issueV word
  needV c (d :: regs)
  let t ← getTask c.loc
  let active := t.readM m
  useLanes c active regs
  let vd := t.v.get d.toFin
  let va := t.v.get a.toFin
  let vb := t.v.get b.toFin
  deliver c latency (elementResult w d active noFlags fun e => f t (elemOf w vd e) (elemOf w va e) (elemOf w vb e))

end Sys2Proof.Machine
end

