-- ==== Sys2Proof/Machine/VectorInt.lean ====
section
/-!
DEFINITION. Integer arithmetic, comparisons and mask operations of the vector engine (08, R172 to R174).
-/

namespace Sys2Proof.Machine

/-- An integer operation on the elements of registers, without flags (R172): `f` takes the width, the signedness and the
elements of a and b. -/
def vectorInt (word : BitVec 32) (regs : List (BitVec 6)) (d a b : BitVec 6) (m : BitVec 3) (ty : BitVec 4)
    (f : Nat → Bool → Nat → Nat → Nat) : M Unit :=
  let (w, sg) := (intFmt ty.toNat).getD (32, true)
  elementwise word regs d a b m w 4 true fun _ _ x y => (f w sg x y, 0)

/-- The high half of a product (R172). -/
def mulHigh (w : Nat) (sg : Bool) (x y : Nat) : Nat :=
  intBits w (readInt w sg x * readInt w sg y / (2 ^ w : Nat))

/-- Less-than of two integer elements, signed or not (R172, R173). -/
def intLess (w : Nat) (sg : Bool) (x y : Nat) : Bool := decide (readInt w sg x < readInt w sg y)

/-- `viadd` (R172). -/
def execViadd (d a b : BitVec 6) (m : BitVec 3) (ty : BitVec 4) (s : State) :
    Host.Outcome State Fault Refusal :=
  conclude (vectorInt (encode (.viadd d a b m ty)) [a, b] d a b m ty fun w _ x y => intBits w ((x : Int) + y)) s

/-- `visub` (R172). -/
def execVisub (d a b : BitVec 6) (m : BitVec 3) (ty : BitVec 4) (s : State) :
    Host.Outcome State Fault Refusal :=
  conclude (vectorInt (encode (.visub d a b m ty)) [a, b] d a b m ty fun w _ x y => intBits w ((x : Int) - y)) s

/-- `vimul` (R172). -/
def execVimul (d a b : BitVec 6) (m : BitVec 3) (ty : BitVec 4) (s : State) :
    Host.Outcome State Fault Refusal :=
  conclude (vectorInt (encode (.vimul d a b m ty)) [a, b] d a b m ty fun w _ x y => intBits w ((x : Int) * y)) s

/-- `vimulh` (R172). -/
def execVimulh (d a b : BitVec 6) (m : BitVec 3) (ty : BitVec 4) (s : State) :
    Host.Outcome State Fault Refusal :=
  conclude (vectorInt (encode (.vimulh d a b m ty)) [a, b] d a b m ty fun w sg x y => mulHigh w sg x y) s

/-- `vand` (R172). -/
def execVand (d a b : BitVec 6) (m : BitVec 3) (ty : BitVec 4) (s : State) :
    Host.Outcome State Fault Refusal :=
  conclude (vectorInt (encode (.vand d a b m ty)) [a, b] d a b m ty fun _ _ x y => x &&& y) s

/-- `vor` (R172). -/
def execVor (d a b : BitVec 6) (m : BitVec 3) (ty : BitVec 4) (s : State) :
    Host.Outcome State Fault Refusal :=
  conclude (vectorInt (encode (.vor d a b m ty)) [a, b] d a b m ty fun _ _ x y => x ||| y) s

/-- `vxor` (R172). -/
def execVxor (d a b : BitVec 6) (m : BitVec 3) (ty : BitVec 4) (s : State) :
    Host.Outcome State Fault Refusal :=
  conclude (vectorInt (encode (.vxor d a b m ty)) [a, b] d a b m ty fun _ _ x y => x ^^^ y) s

/-- `vshl` (R172). -/
def execVshl (d a b : BitVec 6) (m : BitVec 3) (ty : BitVec 4) (s : State) :
    Host.Outcome State Fault Refusal :=
  conclude (vectorInt (encode (.vshl d a b m ty)) [a, b] d a b m ty fun w _ x y => x * 2 ^ (y % w) % 2 ^ w) s

/-- `vshr` (R172). -/
def execVshr (d a b : BitVec 6) (m : BitVec 3) (ty : BitVec 4) (s : State) :
    Host.Outcome State Fault Refusal :=
  conclude (vectorInt (encode (.vshr d a b m ty)) [a, b] d a b m ty fun w _ x y => x / 2 ^ (y % w)) s

/-- `vsra` (R172). -/
def execVsra (d a b : BitVec 6) (m : BitVec 3) (ty : BitVec 4) (s : State) :
    Host.Outcome State Fault Refusal :=
  conclude (vectorInt (encode (.vsra d a b m ty)) [a, b] d a b m ty fun w _ x y => intBits w (readInt w true x / (2 ^ (y % w) : Nat))) s

/-- `vimin` (R172). -/
def execVimin (d a b : BitVec 6) (m : BitVec 3) (ty : BitVec 4) (s : State) :
    Host.Outcome State Fault Refusal :=
  conclude (vectorInt (encode (.vimin d a b m ty)) [a, b] d a b m ty fun w sg x y => if intLess w sg y x then y else x) s

/-- `vimax` (R172). -/
def execVimax (d a b : BitVec 6) (m : BitVec 3) (ty : BitVec 4) (s : State) :
    Host.Outcome State Fault Refusal :=
  conclude (vectorInt (encode (.vimax d a b m ty)) [a, b] d a b m ty fun w sg x y => if intLess w sg x y then y else x) s

/-- `viabs`: of a signed type the magnitude modulo 2^w, of an unsigned one the element itself (R172). -/
def execViabs (d a : BitVec 6) (m : BitVec 3) (ty : BitVec 4) (s : State) : Host.Outcome State Fault Refusal :=
  conclude (vectorInt (encode (.viabs d a m ty)) [a] d a a m ty fun w sg x _ =>
    intBits w ((readInt w sg x).natAbs : Nat)) s

/-- Whether a predicate holds of two float elements (R79, R156, R173). -/
def floatPredicate (pr : Nat) (f : FFmt) (x y : Nat) : Bool :=
  let u := decodeFloat f x
  let v := decodeFloat f y
  match pr with
  | 0 => eqVal u v
  | 1 => !eqVal u v
  | 2 => ltVal u v
  | 3 => ltVal u v || eqVal u v
  | 4 => ltVal v u
  | 5 => ltVal v u || eqVal u v
  | _ => u.isNaN || v.isNaN

/-- Whether a predicate holds of two integer elements (R79, R173). -/
def intPredicate (pr w : Nat) (sg : Bool) (x y : Nat) : Bool :=
  match pr with
  | 0 => x == y
  | 1 => x != y
  | 2 => intLess w sg x y
  | 3 => !intLess w sg y x
  | 4 => intLess w sg y x
  | _ => !intLess w sg x y

/-- Whether a predicate holds of two elements of type T (R173). -/
def elementPredicate (pr ty : Nat) (x y : Nat) : Bool :=
  match floatFmt ty with
  | some f => floatPredicate pr f x y
  | none => match intFmt ty with
    | some (w, sg) => intPredicate pr w sg x y
    | none => false

/-- `vcmp`: bit i of md says whether the predicate holds for every element of active lane i (R173). -/
def execVcmp (md pr : BitVec 3) (a b : BitVec 6) (m : BitVec 3) (nf : BitVec 1) (ty : BitVec 4) (s : State) :
    Host.Outcome State Fault Refusal :=
  conclude (do
    let c ← issueV (encode (.vcmp md pr a b m nf ty))
    needV c [a, b]
    let t ← getTask c.loc
    let active := t.readM m
    useLanes c active [a, b]
    let w := fmtWidth ty.toNat
    let va := t.v.get a.toFin
    let vb := t.v.get b.toFin
    deliver c 4
      { dest := .mask md
        bits := active.setWidth 8192
        value := (maskOf fun i => (List.range (32 / w)).all fun j =>
          elementPredicate pr.toNat ty.toNat (elemOf w va (i * (32 / w) + j)) (elemOf w vb (i * (32 / w) + j))).setWidth 8192 }) s

/-- A mask operation that writes a whole mask register (R174). -/
def maskOp (word : BitVec 32) (d : BitVec 6) (f : Task → Mask) : M Unit := do
  let c ← issueV word
  let t ← getTask c.loc
  deliver c 4 { dest := .mask (d.setWidth 3), bits := (BitVec.allOnes 256).setWidth 8192, value := (f t).setWidth 8192 }

/-- The mask register that a field names (R78). -/
def Task.maskReg (t : Task) (r : BitVec 6) : Mask := t.readM (r.setWidth 3)

/-- `mops T=and` (R174). -/
def execMopsAnd (d a b : BitVec 6) (s : State) : Host.Outcome State Fault Refusal :=
  conclude (maskOp (encode (.mopsAnd d a b)) d fun t => t.maskReg a &&& t.maskReg b) s

/-- `mops T=or` (R174). -/
def execMopsOr (d a b : BitVec 6) (s : State) : Host.Outcome State Fault Refusal :=
  conclude (maskOp (encode (.mopsOr d a b)) d fun t => t.maskReg a ||| t.maskReg b) s

/-- `mops T=xor` (R174). -/
def execMopsXor (d a b : BitVec 6) (s : State) : Host.Outcome State Fault Refusal :=
  conclude (maskOp (encode (.mopsXor d a b)) d fun t => t.maskReg a ^^^ t.maskReg b) s

/-- `mops T=andn` (R174). -/
def execMopsAndn (d a b : BitVec 6) (s : State) : Host.Outcome State Fault Refusal :=
  conclude (maskOp (encode (.mopsAndn d a b)) d fun t => t.maskReg a &&& ~~~t.maskReg b) s

/-- `mops T=not` (R174). -/
def execMopsNot (d a : BitVec 6) (s : State) : Host.Outcome State Fault Refusal :=
  conclude (maskOp (encode (.mopsNot d a)) d fun t => ~~~t.maskReg a) s

/-- `mops T=firstn`: a names an x register (R174). -/
def execMopsFirstn (d a : BitVec 6) (s : State) : Host.Outcome State Fault Refusal :=
  conclude (maskOp (encode (.mopsFirstn d a)) d fun t =>
    maskOf fun i => decide (i < (t.x.get (a.setWidth 4).toFin).toNat)) s

/-- `mops T=ones` (R174). -/
def execMopsOnes (d : BitVec 6) (s : State) : Host.Outcome State Fault Refusal :=
  conclude (maskOp (encode (.mopsOnes d)) d fun _ => BitVec.allOnes 256) s

end Sys2Proof.Machine
end

