-- ==== Sys2Proof/Machine/VectorMove.lean ====
section
/-!
DEFINITION. Lane moves, reductions, constants, lane flags, tokens, latency mode, parking and the end of the vector engine
(08, R170, R179 to R182, R192 to R195; 07, R158, R161).
-/

namespace Sys2Proof.Machine

/-- `vmov` (R179). -/
def execVmov (d a : BitVec 6) (m : BitVec 3) (ty : BitVec 4) (s : State) : Host.Outcome State Fault Refusal :=
  conclude (do
    let c ← issueV (encode (.vmov d a m ty))
    needV c [d, a]
    let t ← getTask c.loc
    deliver c 4 (laneResult d (t.readM m) fun i => t.lane a i)) s

/-- `vsel`: every lane is written (R165, R179). -/
def execVsel (d a b : BitVec 6) (m : BitVec 3) (ty : BitVec 4) (s : State) : Host.Outcome State Fault Refusal :=
  conclude (do
    let c ← issueV (encode (.vsel d a b m ty))
    needV c [d, a, b]
    let t ← getTask c.loc
    deliver c 4 (laneResult d (BitVec.allOnes 256) fun i =>
      if (t.readM m).getLsbD i then t.lane a i else t.lane b i)) s

/-- `vperm`: active lanes of the indices are used, every lane of a may be moved (R179, R387). -/
def execVperm (d a b : BitVec 6) (m : BitVec 3) (ty : BitVec 4) (s : State) : Host.Outcome State Fault Refusal :=
  conclude (do
    let c ← issueV (encode (.vperm d a b m ty))
    needV c [d, a, b]
    let t ← getTask c.loc
    let active := t.readM m
    useLanes c active [b]
    deliver c 6 (laneResult d active fun i => t.lane a (elemOf 32 (t.v.get b.toFin) i % 256))) s

/-- A lane move without a mask (R180). -/
def moveLanes (word : BitVec 32) (d : BitVec 6) (rs : List (BitVec 6)) (f : Task → Nat → Nat × Bool) : M Unit := do
  let c ← issueV word
  needV c (d :: rs)
  let t ← getTask c.loc
  deliver c 4 (laneResult d (BitVec.allOnes 256) (f t))

/-- `vrot` (R180). -/
def execVrot (d a : BitVec 6) (imm : BitVec 8) (s : State) : Host.Outcome State Fault Refusal :=
  conclude (moveLanes (encode (.vrot d a imm)) d [a] fun t i => t.lane a ((i + imm.toNat) % 256)) s

/-- `vbcl` (R180). -/
def execVbcl (d a : BitVec 6) (imm : BitVec 8) (s : State) : Host.Outcome State Fault Refusal :=
  conclude (moveLanes (encode (.vbcl d a imm)) d [a] fun t _ => t.lane a imm.toNat) s

/-- `vbcx` (R180). -/
def execVbcx (d : BitVec 6) (x : BitVec 4) (s : State) : Host.Outcome State Fault Refusal :=
  conclude (moveLanes (encode (.vbcx d x)) d [] fun t _ => ((t.x.get x.toFin).toNat, false)) s

/-- One combination of two members of a reduction that may be absent (R158). -/
def combine (f : Nat → Nat → Nat × LFlags) (x y : Option (Nat × LFlags)) : Option (Nat × LFlags) :=
  match x, y with
  | some (a, fa), some (b, fb) =>
    let (r, fr) := f a b
    some (r, fa ||| fb ||| fr)
  | some p, none => some p
  | none, q => q

/-- The tree of R158 over 2^k members: element i is combined with element i + n / 2. -/
def reduceTree (f : Nat → Nat → Nat × LFlags) : Nat → List (Option (Nat × LFlags)) → Option (Nat × LFlags)
  | 0, xs => xs.headD none
  | k + 1, xs => reduceTree f k (List.zipWith (combine f) (xs.take (xs.length / 2)) (xs.drop (xs.length / 2)))

/-- The operation of a reduction (R158, R182): 0 sum, 1 max, 2 min. -/
def reduceOp (op ty : Nat) (mode : Mode) (x y : Nat) : Nat × LFlags :=
  match floatFmt ty with
  | some f => floatOp (match op with | 0 => .add | 1 => .max | _ => .min) f mode 0 x y
  | none =>
    let (w, sg) := (intFmt ty).getD (32, true)
    (match op with
      | 0 => (x + y) % 2 ^ w
      | 1 => if intLess w sg x y then y else x
      | _ => if intLess w sg y x then y else x, 0)

/-- The result of a reduction without a member (R158, R182). -/
def reduceEmpty (op ty : Nat) : Nat :=
  match floatFmt ty with
  | some f => match op with
    | 0 => 0
    | 1 => infBits f true
    | _ => infBits f false
  | none =>
    let (w, sg) := (intFmt ty).getD (32, true)
    match op with
    | 0 => 0
    | 1 => intBits w (intRange w sg).1
    | _ => intBits w (intRange w sg).2

/-- `vred`: the result goes to element 0 whatever mask bit 0 is, the flags to lane 0 (R158, R159, R182). -/
def execVred (d a : BitVec 6) (op m : BitVec 3) (nf : BitVec 1) (ty : BitVec 4) (s : State) :
    Host.Outcome State Fault Refusal :=
  conclude (do
    let c ← issueV (encode (.vred d a op m nf ty))
    needV c [d, a]
    let t ← getTask c.loc
    let active := t.readM m
    useLanes c active [a]
    let w := fmtWidth ty.toNat
    let va := t.v.get a.toFin
    let xs := (List.range (8192 / w)).map fun e =>
      if active.getLsbD (laneOf w e) then some (elemOf w va e, (0 : LFlags)) else none
    let (r, fl) := (reduceTree (reduceOp op.toNat ty.toNat t.mode') (Nat.log2 (8192 / w)) xs).getD
      (reduceEmpty op.toNat ty.toNat, 0)
    deliver c 16
      { dest := .reg d
        bits := BitVec.ofNat 8192 (2 ^ w - 1)
        value := BitVec.ofNat 8192 r
        lanes := if w == 32 then 1 else 0
        flags := laneZeroFlags (if nf == 1 then 0 else fl) }) s

/-- `vidx` (R181). -/
def execVidx (d : BitVec 6) (m : BitVec 3) (ty : BitVec 4) (s : State) : Host.Outcome State Fault Refusal :=
  conclude (do
    let c ← issueV (encode (.vidx d m ty))
    needV c [d]
    let t ← getTask c.loc
    deliver c 4 (elementResult (fmtWidth ty.toNat) d (t.readM m) true fun e => (e, 0))) s

/-- The constant of `vimm` (R181). -/
def immConstant (ty v : Nat) : Nat :=
  let w := fmtWidth ty
  if ty ≤ 2 then v * 2 ^ (w - 10)
  else if w == 8 then v % 256
  else match intFmt ty with
    | some (_, true) => intBits w (readInt 10 true v)
    | _ => v

/-- `vimm` (R181). -/
def execVimm (d : BitVec 6) (ty : BitVec 4) (v : BitVec 10) (s : State) : Host.Outcome State Fault Refusal :=
  conclude (do
    let c ← issueV (encode (.vimm d ty v))
    needV c [d]
    deliver c 4 (elementResult (fmtWidth ty.toNat) d (BitVec.allOnes 256) true fun _ =>
      (immConstant ty.toNat v.toNat, 0))) s

/-- `vfl T=get`: the flags are read at issue and land like any result (R192). -/
def execVflGet (d : BitVec 6) (m : BitVec 3) (s : State) : Host.Outcome State Fault Refusal :=
  conclude (do
    let c ← issueV (encode (.vflGet d m))
    needV c [d]
    let t ← getTask c.loc
    deliver c 4 (laneResult d (t.readM m) fun i =>
      ((t.laneFlags.toList.map BitVec.toNat).getD i 0, false))) s

/-- `vfl T=clear` (R192). -/
def execVflClear (m : BitVec 3) (s : State) : Host.Outcome State Fault Refusal :=
  conclude (do
    let c ← issueV (encode (.vflClear m))
    setTask c.loc fun t => { t with laneFlags := clearLanes t.laneFlags (t.readM m) }
    finishV c) s

/-- `vfl T=collect` (R161, R192). -/
def execVflCollect (m : BitVec 3) (s : State) : Host.Outcome State Fault Refusal :=
  conclude (do
    let c ← issueV (encode (.vflCollect m))
    setTask c.loc fun t => t.raiseFlags ((collectLanes t.laneFlags (t.readM m)).setWidth 8)
    finishV c) s

/-- `vtk` that waits (R193). -/
def execVtkWait (e : BitVec 3) (s : State) : Host.Outcome State Fault Refusal :=
  conclude (do
    let c ← issueV (encode (.vtkWait e))
    awaitTokens c e
    setTask c.loc fun t => t.takeTokens .v e
    finishV c) s

/-- `vtk` that gives (R21, R193). -/
def execVtkGive (e : BitVec 3) (s : State) : Host.Outcome State Fault Refusal :=
  conclude (do
    let c ← issueV (encode (.vtkGive e))
    awaitSeen c
    awaitRoom c e
    setTask c.loc fun t => t.giveTokens .v e
    finishV c) s

/-- `vrgn`: no engine of the task issues until everything issued has finished and landed; then the mode is set and the
issue count restarts at 0 (R170). -/
def execVrgn (e : BitVec 1) (s : State) : Host.Outcome State Fault Refusal :=
  conclude (do
    let c ← issueV (encode (.vrgn e))
    let t ← getTask c.loc
    if t.mjobs.isEmpty && t.cjobs.isEmpty && !t.midScalar then
      setTask c.loc fun t =>
        { (t.landAll).goto .v (c.pc + 4) with exposed := e == 1, vcount := 0, draining := false }
    else do
      setTask c.loc fun t => { t with draining := true }
      emit .held) s

/-- The blocks of 1 KiB that a core's tasks have parked registers in (R194). -/
def parkedBlocks (s : State) (core : Fin 256) : List Nat :=
  (List.finRange 4).flatMap fun k => match s.tasks.get (place core k) with
    | some t => t.spill.toList.filterMap fun x => x.map Spill.block
    | none => []

/-- Whether an accumulator tile of a core is granted to a task there (R194). -/
def accGranted (s : State) (core : Fin 256) (tile : Nat) : Bool :=
  (List.finRange 4).any fun k => match s.tasks.get (place core k) with
    | some t => t.grant.accTiles.contains tile
    | none => false

/-- The accumulator tiles of a core that collectives reserve (R338). -/
def collTiles (d : Device) (core : Fin 256) : List Nat :=
  d.coll.toList.flatMap fun e? => match e? with
    | some e => if coreOf e.loc == core && e.state == .running then e.accAt else []
    | none => []

/-- The blocks of a core in idle register-file banks and in accumulator tiles that are granted to no task and reserved for no
collective (R194, R338), in order. -/
def openBlocks (s : State) (core : Fin 256) : List Nat :=
  ((List.finRange 64).flatMap fun b =>
    if (s.cores.get core).banks.get b == .idle then (List.range 32).map fun k => 32 * b.val + k else []) ++
  ((List.range 16).flatMap fun a =>
    if accGranted s core a || (collTiles s.dev core).contains a then [] else (List.range 64).map fun k => 2048 + 64 * a + k)

/-- `vpark` (R194): an occupied entry frees its block first; the register's poison travels with it. -/
def execVpark (d e : BitVec 6) (s : State) : Host.Outcome State Fault Refusal :=
  conclude (do
    let c ← issueV (encode (.vpark d e))
    needV c [d]
    setTask c.loc fun t => { t with spill := t.spill.set e.toNat none e.isLt }
    let st ← getState
    let core := coreOf c.loc
    let used := parkedBlocks st core
    match (openBlocks st core).find? fun b => !used.contains b with
    | none => c.trap .bounds (e.setWidth 64)
    | some block => do
      setTask c.loc fun t =>
        let x : Spill := { block, data := t.v.get d.toFin, poison := t.vPoison.get d.toFin }
        { t with spill := t.spill.set e.toNat (some x) e.isLt }
      finishV c) s

/-- `vunpark` (R169, R194). -/
def execVunpark (d e : BitVec 6) (s : State) : Host.Outcome State Fault Refusal :=
  conclude (do
    let c ← issueV (encode (.vunpark d e))
    needV c [d]
    let t ← getTask c.loc
    match t.spill.get e.toFin with
    | none => c.trap .bounds (e.setWidth 64)
    | some x => do
      setTask c.loc fun t => { t with spill := t.spill.set e.toNat none e.isLt }
      deliver c 0 { dest := .reg d, bits := BitVec.allOnes 8192, value := x.data, lanes := BitVec.allOnes 256,
                    poison := x.poison }) s

/-- `vend`: every result in flight lands first (R15, R169, R195). -/
def execVend (s : State) : Host.Outcome State Fault Refusal :=
  conclude (do
    let c ← issueV (encode .vend)
    setTask c.loc fun t => { (t.landAll).goto .v (c.pc + 4) with endV := true }
    let t ← getTask c.loc
    noteEnds t.handle) s

end Sys2Proof.Machine
end

