-- ==== Sys2Proof/Machine/Place.lean ====
section
/-!
DEFINITION. Placement: what is free on a core, which units a kernel or a saved group gets, which core groups give way,
how a task starts; PLACE, YIELD and AGING (02, R29, R30, R36, R40; 06, R145; 21, R353 to R357).
-/

namespace Sys2Proof.Machine

/-- What a core group asks of a core: a kernel's share of it, or a saved group that wants its tiles and scratchpad where
they were (R32, R354, R362). -/
structure Share where
  tasks : Nat
  vbanks : Nat
  acc : Nat
  tiles : Nat
  spad : Nat
  tenant : BitVec 6
  level : Bool
  /-- the first tile and scratchpad byte that a saved group needs -/
  fixed : Option (Nat × Nat) := none
  /-- the group whose tiles and scratchpad on the core it joins -/
  joins : Option Nat := none
  /-- a new kernel's share, not a saved group's -/
  fresh : Bool := false
  deriving DecidableEq, Repr

/-- What a core gives it: slots, first tile, first scratchpad byte, and each task's vector banks and accumulator tiles. -/
structure Fit where
  core : Fin 256
  slots : List (Fin 4)
  tileBase : Nat
  spadBase : Nat
  banks : List (List Nat)
  accs : List (List Nat)
  deriving DecidableEq, Repr

/-- The tasks of a core that stay when the groups in `gone` are saved. -/
def tasksOf (s : State) (core : Fin 256) (gone : List Nat) : List (Fin 4 × Task) :=
  (List.finRange 4).filterMap fun k => match s.tasks.get (place core k) with
    | some t => if gone.contains t.gid then none else some (k, t)
    | none => none

/-- The accumulator tiles of a core that are granted to no task of those that stay, reserved for no collective and free of
parked registers (R194, R338). -/
def accFree (s : State) (core : Fin 256) (ts : List (Fin 4 × Task)) (parked : List Nat) : List Nat :=
  (List.range 16).filter fun a => !(ts.any fun (_, t) => t.grant.accTiles.contains a) &&
    !(collTiles s.dev core).contains a && !parked.any fun x => decide (2048 ≤ x) && (x - 2048) / 64 == a

/-- Whether the collective of the ticket at the head of the queue waits for accumulator tiles of a core (R338). -/
def ticketWants (d : Device) (core : Fin 256) : Bool :=
  match d.tickets.head? with
  | none => false
  | some (name, _) => d.coll.toList.any fun e? => match e? with
    | some e => e.name == name && e.state == .ticketed && e.info.walker && decide (0 < e.info.acc) && coreOf e.loc == core
    | none => false

/-- The blocks of a core that hold parked registers of the tasks that stay (R194). -/
def parkedOf (ts : List (Fin 4 × Task)) : List Nat :=
  ts.flatMap fun (_, t) => t.spill.toList.filterMap fun x => x.map Spill.block

/-- The first start of a free run of `n` units of `limit`, in steps, or the one that is fixed. -/
def firstRun (free : Nat → Bool) (limit n step : Nat) (fixed : Option Nat) : Option Nat :=
  let ok := fun a => decide (a + n ≤ limit) && (List.range n).all fun i => free (a + i)
  match fixed with
  | some a => if ok a then some a else none
  | none => if n == 0 then some 0 else ((List.range (limit / step)).map (step * ·)).find? ok

/-- The first start of a free range of scratchpad bytes: 0 or the end of a range in use (R354). -/
def firstSpad (used : List (Nat × Nat)) (n : Nat) (fixed : Option Nat) : Option Nat :=
  let ok := fun a => decide (a + n ≤ 524288) && used.all fun (lo, len) => decide (a + n ≤ lo) || decide (lo + len ≤ a)
  match fixed with
  | some a => if n == 0 || ok a then some a else none
  | none => if n == 0 then some 0 else ((0 :: (used.map fun (lo, len) => lo + len)).filter ok).min?

/-- A list cut into `k` pieces of `n`, when it is long enough. -/
def pieces (xs : List Nat) (n : Nat) : Nat → Option (List (List Nat))
  | 0 => some []
  | k + 1 => if xs.length < n then none else (pieces (xs.drop n) n k).map fun r => xs.take n :: r

/-- What groups hold of a core whose tasks there are saved without their tiles and scratchpad, but for a group that joins its
own and for those in `gone`, whose last tasks take them along (R357, R358, R363). -/
def heldGrants (d : Device) (core : Fin 256) (joins : Option Nat) (gone : List Nat) : List Grant :=
  (d.saved.filter fun v => v.resident && !v.ended && v.core == core && joins != some v.task.gid &&
    !gone.contains v.task.gid).map fun v => v.task.grant

/-- Whether a grant's tiles include a bank (R33). -/
def Grant.hasTile (g : Grant) (b : Nat) : Bool := decide (g.tileBase ≤ b) && decide (b < g.tileBase + g.tiles)

/-- Whether and how a core can hold a share once the groups in `gone` are saved (R32, R33, R355, R362); in early service
only cores 0 to 15 can (R391).  A core holds user tasks of one tenant at a time.  A new kernel waits behind the collective
at the head of the ticket queue (R338). -/
def fitCore (s : State) (gone : List Nat) (r : Share) (core : Fin 256) : Option Fit :=
  let k := s.cores.get core
  let ts := tasksOf s core gone
  let slots := ((List.finRange 4).filter fun i => !ts.any fun (j, _) => j == i).take r.tasks
  let parked := parkedOf ts
  let kept := heldGrants s.dev core r.joins gone
  let bankFree := fun b => decide (b < 64) && !(ts.any fun (_, t) => t.grant.banks.contains b || t.tileOk b) &&
    !kept.any (Grant.hasTile · b) && !parked.any fun x => decide (x < 2048) && x / 32 == b
  let tileBase := match r.joins with
    | some _ => r.fixed.map Prod.fst
    | none => if r.tiles == 0 then some 0 else firstRun bankFree 64 r.tiles 1 (r.fixed.map Prod.fst)
  let spadBase := match r.joins with
    | some _ => r.fixed.map Prod.snd
    | none => firstSpad ((((ts.map fun (x : Fin 4 × Task) => x.2.grant) ++ kept).map fun (g : Grant) => (g.spadBase, g.spad)).filter
        fun (x : Nat × Nat) => x.2 != 0) r.spad
        (r.fixed.map Prod.snd)
  if !k.up || !(s.dev.fullService || (s.dev.earlyService && decide (core.val < 16))) || slots.length < r.tasks || (!r.level && ts.any fun (_, t) => !t.level && t.tenant != r.tenant) ||
      (r.fresh && decide (0 < r.acc) && ticketWants s.dev core) then none
  else
    match tileBase, spadBase with
    | some tb, some sb =>
      let own := if r.joins.isSome then 0 else r.tiles
      let free := (List.range 64).filter fun b => bankFree b && !(decide (tb ≤ b) && decide (b < tb + own))
      match pieces free r.vbanks r.tasks, pieces (accFree s core ts parked) r.acc r.tasks with
      | some bs, some as => some { core, slots, tileBase := tb, spadBase := sb, banks := bs, accs := as }
      | _, _ => none
    | _, _ => none

/-- The core with a number below 256. -/
def coreNo (n : Nat) : Fin 256 := ⟨n % 256, Nat.mod_lt _ (by decide)⟩

/-- The units of a kernel on this device: dies, then vaults, then cores, each the lowest-numbered that can hold its share
(R354); by die, vault and core. -/
def fitKernel (s : State) (gone : List Nat) (l : LaunchRec) : Option (List (List (List Fit))) :=
  let r : Share := { tasks := l.tasks, vbanks := l.vbanks, acc := l.acc, tiles := l.tiles, spad := l.spad,
                     tenant := l.tenant, level := l.level, fresh := true }
  let take := fun {α : Type} (n : Nat) (xs : List α) => if xs.length < n then none else some (xs.take n)
  let vault := fun v => take l.cores ((List.range 4).filterMap fun i => fitCore s gone r (coreNo (4 * v + i)))
  let die := fun d => take l.vaults ((List.range 16).filterMap fun i => vault (16 * d + i))
  take l.dies ((List.range 4).filterMap die)

/-- The saved tasks of a group that are to be restored, in the order of their slots (R360, R361). -/
def queuedOf (d : Device) (gid : Nat) : List Saved :=
  (List.range 4).flatMap fun i => d.saved.filter fun v => v.task.gid == gid && v.queued && v.slot.val == i

/-- The core on which a group's tiles and scratchpad stand: where tasks of it run, or were saved without them. -/
def groupCore (s : State) (gid : Nat) : Option (Fin 256) :=
  match (List.finRange 256).find? fun c => !(groupPlaces s gid c).isEmpty with
  | some c => some c
  | none => (s.dev.saved.find? fun v => v.task.gid == gid && v.resident && !v.ended).map Saved.core

/-- Where a saved group goes (R362): where the others of its group are, else the lowest core that has its tiles and its
scratchpad free. -/
def fitGroup (s : State) (gone : List Nat) (gid : Nat) : Option Fit :=
  match queuedOf s.dev gid with
  | [] => none
  | v :: vs =>
    let g := v.task.grant
    let home := if gone.contains gid then none else groupCore s gid
    let r : Share := { tasks := vs.length + 1, vbanks := g.vbanks, acc := g.acc, tiles := g.tiles, spad := g.spad,
                       tenant := v.task.tenant, level := v.task.level, fixed := some (g.tileBase, g.spadBase),
                       joins := home.map fun _ => gid }
    match home with
    | some c => fitCore s gone r c
    | none => (List.finRange 256).findSome? (fitCore s gone r)

/-- The kernel in an entry. -/
def kernelAt (d : Device) (entry : Nat) : Option Kernel := if h : entry < 256 then d.kernels.get ⟨entry, h⟩ else none

/-- Whether an item can be placed once the groups in `gone` are saved. -/
def canPlace (s : State) (gone : List Nat) (q : QItem) : Bool :=
  match q with
  | .kernel entry _ => match kernelAt s.dev entry with
    | some k => (fitKernel s gone k.launch).isSome
    | none => false
  | .group gid _ => (fitGroup s gone gid).isSome

/-- The item at the head of the queues and its effective priority (R353, R354). -/
def headItem (d : Device) : Option (QItem × Nat) :=
  [3, 2, 1, 0].findSome? fun p => ((d.queues.toList.getD p []).head?).map fun q => (q, p)

/-- The groups that are being saved to free their units. -/
def leaving (s : State) : List Nat :=
  ((List.finRange 1024).filterMap fun l => match s.tasks.get l with
    | some t => match t.mode with
      | .saving c => if c == 2 then none else some t.gid
      | _ => none
    | none => none).dedup

/-- A core group that could give way: its record priority, when its kernel started, its core (R357).  A placed group's
effective priority is its record's (log 24). -/
structure Victim where
  gid : Nat
  prio : Nat
  started : Nat
  core : Fin 256
  deriving DecidableEq, Repr

/-- Whether a victim comes before another (R357). -/
def Victim.before (a b : Victim) : Bool :=
  decide (a.prio < b.prio) || (a.prio == b.prio &&
    (decide (b.started < a.started) || (a.started == b.started && decide (b.core.val < a.core.val))))

/-- A victim put in its place among others (R357). -/
def insertVictim (v : Victim) : List Victim → List Victim
  | [] => [v]
  | w :: ws => if v.before w then v :: w :: ws else w :: insertVictim v ws

/-- The core groups below an effective priority that are not leaving, in the order of R357. -/
def victims (s : State) (p : Nat) (own : Option Word) : List Victim :=
  let all := ((List.finRange 1024).filterMap fun l => match s.tasks.get l with
    | some t =>
      let k := kernelOf s.dev t.handle
      if t.prio.toNat < p && some t.handle != own && !(leaving s).contains t.gid then
        some { gid := t.gid, prio := t.prio.toNat, started := (k.map Kernel.started).getD 0, core := coreOf l }
      else none
    | none => none : List Victim).dedup
  all.foldr insertVictim []

/-- The shortest run of victims from the front that lets an item be placed. -/
def enough (s : State) (q : QItem) (gone : List Nat) : List Victim → Option (List Victim)
  | [] => none
  | v :: vs =>
    if canPlace s (v.gid :: gone) q then some [v] else (enough s q (v.gid :: gone) vs).map fun r => v :: r

/-- Victims that the placement does not need are left out, the last of the order first (R357). -/
def prune (s : State) (q : QItem) (gone : List Nat) : List Victim → List Victim → List Victim
  | _, [] => []
  | kept, v :: vs =>
    let rest := prune s q gone (kept ++ [v]) vs
    if canPlace s (gone ++ (kept ++ rest).map Victim.gid) q then rest else v :: rest

/-- The victims that an item takes (R357); none when no set of them would do. -/
def choose (s : State) (q : QItem) (p : Nat) : Option (List Victim) :=
  let own := match q with
    | .kernel e _ => (kernelAt s.dev e).map Kernel.handle
    | .group gid _ => (queuedOf s.dev gid).head?.map fun v => v.task.handle
  (enough s q (leaving s) (victims s p own)).map (prune s q (leaving s) [])

/-! Starting a kernel. -/

/-- A core takes a group of a tenant: what another tenant, none of whose user tasks is left there, has left in the shared sets
is cleared (R355); caches are emptied, so that the group sees what came before its start (R16, R264). -/
def Core.admits (k : Core) (level users : Bool) (tenant : BitVec 6) : Core :=
  let k := { k with lines := [], code := [] }
  let k := if k.tenant.isNone || k.tenant == some tenant || users then k
    else { k with tenant := none, books := .replicate 8 {}, epis := .replicate 16 {}, monitors := k.monitors.filter Monitor.sup }
  if level then k else { k with tenant := some tenant }

/-- Whether user tasks stand on a core. -/
def usersOn (s : State) (core : Fin 256) : Bool := (tasksOf s core []).any fun (_, t) => !t.level

/-- The bank table of a core with a group's tiles, or some task's vector banks, entered. -/
def Core.setBanks (k : Core) (bs : List Nat) (u : BankUse) : Core :=
  { k with banks := bs.foldl (fun v b => if h : b < 64 then v.set b u h else v) k.banks }

/-- A range of storage is zeroed whole, its poison with it (R386). -/
def zeroRange (lo len : Nat) : M Unit :=
  if len == 0 then pure ()
  else do
    emit (.clear lo len)
    let d ← getDev
    if d.poison.isEmpty then pure ()
    else setDev fun d => { d with poison := d.poison.filter fun u => decide (u < lo) || decide (lo + len ≤ u) }

/-- The storage that a grant zeroes (R36, R355): accumulator tiles, tiles, scratchpad. -/
def zeroGrant (core : Fin 256) (accs : List Nat) (tileBase tiles spadBase spad : Nat) : M Unit := do
  accs.forM fun a => zeroRange (accByte core a 0) 65536
  zeroRange (tileByte core tileBase 0) (32768 * tiles)
  zeroRange (spadByte core spadBase) spad

/-- The index of this device among a kernel's devices (R30, R32). -/
def deviceIndex (d : Device) (l : LaunchRec) : Nat := (l.deviceList.idxOf? d.devid).getD 0

/-- A task as it starts (R30, R36). -/
def startTask (d : Device) (k : Kernel) (f : Fit) (gid tid die vault core i : Nat) : Task :=
  let l := k.launch
  let s : Vector Word 64 := .replicate 64 0
  let s := s.set 1 l.arg
  let s := s.set 2 (BitVec.ofNat 64 (if l.tiles == 0 then 0 else f.tileBase))
  let s := s.set 3 (BitVec.ofNat 64 (3 * 2 ^ 61 + f.spadBase))
  { tid, gid, handle := k.handle, tenant := l.tenant, prio := l.prio, level := l.level
    taskid := BitVec.ofNat 64 (deviceIndex d l * 2 ^ 10 + die * 2 ^ 8 + vault * 2 ^ 4 + core * 2 ^ 2 + i)
    grant := { vbanks := l.vbanks, streams := l.streams, acc := l.acc, accTiles := f.accs.getD i [], tiles := l.tiles
               tileBase := if l.tiles == 0 then 0 else f.tileBase, spad := l.spad, spadBase := f.spadBase
               banks := f.banks.getD i [] }
    pcS := l.entry.get 0, pcV := l.entry.get 1, pcM := l.entry.get 2, pcC := l.entry.get 3, s, exposed := l.exposed }

/-- One core group of a kernel starts (R36, R40, R355). -/
def startGroup (k : Kernel) (die vault core : Nat) (f : Fit) : M Unit := do
  let d ← getDev
  let gid := d.nextGid
  setDev fun d => { d with nextGid := d.nextGid + 1, nextTid := d.nextTid + k.launch.tasks }
  let l := k.launch
  let s ← getState
  zeroGrant f.core f.accs.flatten f.tileBase l.tiles f.spadBase l.spad
  setCore f.core fun x =>
    let x := (x.admits l.level (usersOn s f.core) l.tenant).setBanks ((List.range l.tiles).map (f.tileBase + ·)) .tile
    let x := (List.range l.tiles).foldl (fun x i => x.setTile (f.tileBase + i) fun _ => {}) x
    (f.slots.zip f.banks).foldl (fun x (sl, bs) =>
      { x.setBanks bs (.vector sl.val) with resume := x.resume.set sl 0 }) x
  ((List.range l.tasks).zip f.slots).forM fun (i, sl) =>
    emit (.task (place f.core sl) (some (startTask d k f gid (d.nextTid + i) die vault core i)))

/-- Numbers each element of a list. -/
def numbered {α : Type} (xs : List α) : List (Nat × α) := (List.range xs.length).zip xs

/-- A kernel starts on the units found for it: every task in one step (R40, R354). -/
def startKernel (entry : Nat) (k : Kernel) (fs : List (List (List Fit))) : M Unit := do
  (numbered fs).forM fun (i, vs) => (numbered vs).forM fun (j, cs) => (numbered cs).forM fun (n, f) => startGroup k i j n f
  setDev fun d =>
    let l := k.launch
    let k := { k with state := .running, started := d.starts + 1, live := l.dies * l.vaults * l.cores * l.tasks }
    { d with
      starts := d.starts + 1
      kernels := if h : entry < 256 then d.kernels.set entry (some k) h else d.kernels }

/-- An item leaves the head of its queue. -/
def popHead (p : Nat) : M Unit :=
  setDev fun d =>
    let rest : Fin 4 → List QItem := fun i => (d.queues.get i).drop (if i.val == p then 1 else 0)
    { d with queues := .ofFn rest }

/-- Core groups give way to the head item (R357). -/
def preempt (vs : List Victim) : M Unit := vs.forM fun v => stopGroup v.gid v.core 1

/-- PLACE (R354, R357): the head item of the queues is a kernel that fits, which starts; or an item that does not fit, for
which core groups of lower priority are saved.  A saved group that fits is restored by RESTORE. -/
def execPlace (s : State) : Host.Outcome State Fault Refusal :=
  conclude (do
    let st ← getState
    match headItem st.dev with
    | none => notNow
    | some (q, p) => do
      let fits : Option (Nat × Kernel × List (List (List Fit))) := match q with
        | .kernel entry _ => (kernelAt st.dev entry).bind fun k => (fitKernel st [] k.launch).map fun f => (entry, k, f)
        | .group _ _ => none
      match fits with
      | some (entry, k, f) => do
        popHead p
        startKernel entry k f
      | none => do
        enabled (!canPlace st [] q && !canPlace st (leaving st) q)
        match choose st q p with
        | some vs => preempt vs
        | none => notNow) s

/-- `yield` (R145): when the head item has at least the kernel's record priority and does not fit, the task's core group
is saved, this task past the instruction. -/
def execYield (s : State) : Host.Outcome State Fault Refusal :=
  conclude (do
    let c ← issue .s (encode .yield)
    advance c
    let st ← getState
    let t ← getTask c.loc
    let gives := match headItem st.dev with
      | some (q, p) => decide (t.prio.toNat ≤ p) && !canPlace st [] q
      | none => false
    if gives then stopGroup t.gid (coreOf c.loc) 3 else pure ()) s

/-- When an item entered its queue. -/
def QItem.since : QItem → Nat
  | .kernel _ t => t
  | .group _ t => t

/-- An item enters a queue anew. -/
def QItem.again (now : Nat) : QItem → QItem
  | .kernel e _ => .kernel e now
  | .group g _ => .group g now

/-- AGING (R353): an item that has waited 2 ms moves to the tail of the next higher queue.  n counts through queues 0, 1
and 2. -/
def execAging (n : Nat) (s : State) : Host.Outcome State Fault Refusal :=
  conclude (do
    let d ← getDev
    let items := [0, 1, 2].flatMap fun p => (numbered (d.queues.toList.getD p [])).map fun (i, q) => (p, i, q)
    match items[n]? with
    | none => notNow
    | some (p, i, q) => do
      enabled (decide (q.since + 2000000 ≤ d.nanos))
      setDev fun d =>
        let move : Fin 4 → List QItem := fun j =>
          let old := d.queues.get j
          if j.val == p then old.eraseIdx i else if j.val == p + 1 then old ++ [q.again d.nanos] else old
        { d with queues := .ofFn move }) s

end Sys2Proof.Machine
end

