-- ==== Sys2Proof/Machine/Collective.lean ====
section
/-!
DEFINITION. Collectives: MDRR, CPOST, CABORT, and the steps of their coordinators, of the ticket sequencer and of their
members (12, R244; 17, R303; 20, R330 to R348).
-/

namespace Sys2Proof.Machine

/-! The instructions. -/

/-- The record of a copy-engine instruction: its base is a GEN address aligned to 64 bytes, read as a `ld` reads (R303), after
the earlier copies that write there (R258). -/
def readRecord (c : Ctx) (base : Word) (qwords : Nat) : M Nat := do
  c.check (pathOf base == 0 && (tileHandle base).isNone) .path base
  c.check (base.toNat % 64 == 0) .align base
  awaitCopies c [⟨formOf base, posOf base, posOf base + 8 * qwords⟩] []
  readRun c base qwords

/-- Tokens that an instruction names and whose conditions hold at once (R295, R303). -/
def meetNow (c : Ctx) (ks : List (BitVec 3)) : M Unit :=
  setTask c.loc fun t => ks.dedup.foldl (fun t k => (t.nameToken k).meetToken k false) t

/-- The checks at issue of a completion word (R333). -/
def checkDone (c : Ctx) (a : Word) : M Unit :=
  if a == 0 then pure ()
  else do
    c.check (a.toNat % 8 == 0) .align a
    c.check (pathOf a == 0) .path a
    let t ← getTask c.loc
    let s ← getState
    let _ ← c.lift a (locate s (some (coreOf c.loc)) t.grant t.tenant .c .write (.bytes 8) a)
    pure ()

/-- `cpost` (R303, R333 to R335): the record is checked and copied into a free entry, and the coordinator gets the post. -/
def execCpost (qs : BitVec 4) (kr kv w g : BitVec 3) (s : State) : Host.Outcome State Fault Refusal :=
  conclude (do
    let c ← issueAfter .c (encode (.cpost qs kr kv w g)) (needQ · [qs])
    startC c w g
    let t ← getTask c.loc
    let base := (t.q.get qs.toFin).base
    let v ← readRecord c base 32
    let r := collFields v
    let d ← getDev
    c.check (collLayoutOk v && r.members.contains d.devid && r.rank == r.rankOf d.devid) .reserved base
    let name : CName := { tenant := t.tenant, group := r.group, sequence := r.sequence }
    setDev fun d => { d with coll := d.coll.map fun e? => e?.bind fun e =>
      if e.tid == t.tid && e.record == base && !e.active then none else some e }
    let d ← getDev
    c.check (collEntry d name).isNone .reserved base
    checkDone c r.done
    match (List.finRange 64).find? fun i => (d.coll.get i).isNone with
    | none => hold
    | some i => do
      let e : CEntry := { state := .posted, name, info := r, record := base, tid := t.tid, loc := c.loc, level := t.level }
      setDev fun d => { d with coll := d.coll.set i (some e) }
      sendPost e
      meetNow c [kr, kv]
      queueC c w g .short) s

/-- `cabort` (R303, R348): the abort goes to the coordinator with cause 2; it is finished once the coordinator has sent it to every
rank that posted, and kv waits for the answer of R348 (log 85). -/
def execCabort (qs : BitVec 4) (kv w g : BitVec 3) (s : State) : Host.Outcome State Fault Refusal :=
  conclude (do
    let c ← issueAfter .c (encode (.cabort qs kv w g)) (needQ · [qs])
    startC c w g
    let t ← getTask c.loc
    let base := (t.q.get qs.toFin).base
    let v ← readRecord c base 32
    let r := collFields v
    let d ← getDev
    c.check (collFieldsOk v && r.members.contains d.devid) .reserved base
    let name : CName := { tenant := t.tenant, group := r.group, sequence := r.sequence }
    let id ← newUid
    setDev fun d => { d with cabortWait := d.cabortWait ++ [(id, t.tid, kv)] }
    setTask c.loc fun t => t.nameToken kv
    send r.coordinator 5 (.abortAsk name 2 r.coordinator (some (d.devid, id)))
    queueC c w g (.aborting id)) s

/-- Sends an iteration of a rank to its peer in chunks (R339, R342); `note` is what a refusal of one tells (R326). -/
def sendIteration (e : CEntry) (tile : BitVec 4) (dest : Word) (elems : List Nat) (tid uid : Nat) (note : RefusalNote) :
    M Unit := do
  let d ← getDev
  let r := e.info
  let peer := r.members.getD (r.peer r.rank e.next) 0
  setDev fun d => { d with collSends := d.collSends ++ [{ name := e.name, iter := e.next, left := r.chunks, tid, uid, note := some note }] }
  (List.range r.chunks).forM fun i =>
    send peer 2 (.collChunk e.name r.rank e.next i d.devid tile dest r.fmt (i * r.perChunk)
      ((elems.drop (i * r.perChunk)).take r.perChunk) e.level)
  setEntry e.name fun e => some { e with next := e.next + 1 }

/-- The entry that a routing register names, with the checks of R339. -/
def routedEntry (c : Ctx) (reg : Word) (ep : EpiSet) : M CEntry := do
  let t ← getTask c.loc
  let d ← getDev
  c.check (bits reg.toNat 5 4 == 0) .path reg
  match d.coll.toList.findSome? fun e? => match e? with
    | some e => if e.tid == t.tid && e.record.toNat / 64 == reg.toNat / 64 then some e else none
    | none => none with
  | none => c.trap .path reg
  | some e => do
    c.check (!e.info.walker && ep.fmt == e.info.fmt && decide (ep.fmt.toNat ≤ 4)) .path reg
    pure e

/-- `mdrr` (R244, R339): held while the entry is posted or ticketed; running, it sends the tile as the rank's next
iteration; else it sends nothing. -/
def execMdrr (acc : BitVec 4) (rt : BitVec 2) (ep : BitVec 4) (fl : BitVec 1) (w g : BitVec 3) (s : State) :
    Host.Outcome State Fault Refusal :=
  conclude (do
    let c ← headAfter .m (encode (.mdrr acc rt ep fl w g)) (needA · acc)
    startM c true w g
    let t ← getTask c.loc
    let k ← getCore (coreOf c.loc)
    let reg := t.rt.get rt.toFin
    let set := k.epis.get ep.toFin
    let e ← routedEntry c reg set
    waitKeeping (e.state != .posted && e.state != .ticketed)
    awaitArray c
    let old ← readAcc c acc 0
    let uid ← newUid
    let flags ← if e.state == .running && decide (e.next < e.info.iterations) then do
        let outs := tileCells.map fun (i, j) => quantOne set.fmt.toNat [] set.saturate (drainValue set (old i j))
        countWrite c uid
        sendIteration e (BitVec.ofNat 4 (reg.toNat % 16)) 0 (outs.map Prod.fst) t.tid uid
          { eng := .m, pc := c.pc, word := c.word, index := 0, addr := reg, cause := .access }
        pure ((outs.map Prod.snd).foldl (· ||| ·) 0)
      else pure 0
    (if fl == 1 then writeAcc c acc fun _ _ => 0 else pure ())
    countedIssue c
    queueM c w g (.done none) none flags []) s

/-! Coordinators and the sequencer. -/

/-- The names that a coordinator keeps: the last 256 (R336, R347). -/
def keepNames {α : Type} (xs : List α) (x : α) : List α := (xs ++ [x]).drop (xs.length + 1 - 256)

/-- A coordinator aborts a collective that has not committed: the members that have posted are told, and it waits for their
acknowledgements for who asked (R347, R348). -/
def coordinatorAbort (name : CName) (cause : BitVec 8) (asker : Option (BitVec 8 × Nat)) : M Unit := do
  let d ← getDev
  let posted := match d.gathers.find? fun g => g.name == name with
    | some g => g.posts.map Prod.fst
    | none => []
  setDev fun d => { d with
    gathers := d.gathers.filter fun g => g.name != name
    abortedNames := keepNames d.abortedNames (name, cause)
    abortWait := if posted.isEmpty then d.abortWait else d.abortWait ++ [(name, posted, asker)] }
  hubRoom
  posted.forM fun x => send x 5 (.abort name cause d.devid)
  match asker with
  | some (dev, id) => do
    send dev 5 (.cabortSent id)
    if posted.isEmpty then send dev 5 (.cabortDone id) else pure ()
  | none => pure ()

/-- COLLECTIVE_POST (R336, R347): the coordinator takes the n-th waiting message, a member's post; one that finds the hub full
is held at its device, which sends it again once there is room. -/
def execCollectivePost (n : Nat) (s : State) : Host.Outcome State Fault Refusal :=
  conclude (do
    let p ← rxAt n
    rxFirst n p
    match p.body with
    | .collPost name _ digest members => do
      let d ← getDev
      if d.committed.contains name then do
        rxDrop n
        send p.src 5 (.abort name 4 d.devid)
      else match d.abortedNames.find? fun x => x.1 == name with
        | some (_, cause) => do
          rxDrop n
          send p.src 5 (.abort name cause d.devid)
        | none => do
          let old := d.gathers.find? fun g => g.name == name
          rxDrop n
          if old.isNone && decide (256 ≤ d.gathers.length) then
            setDev fun d => { d with postWait := d.postWait ++ [(p.src, name)] }
          else do
          let g : Gather := old.getD { name, members, posts := [] }
          let g := { g with posts := g.posts ++ [(p.src, digest)] }
          let full := g.members.all fun m => g.posts.any fun x => x.1 == m
          let agree := g.posts.all fun x => x.2 == digest
          setDev fun d => { d with
            gathers := (d.gathers.filter fun h => h.name != name) ++ [{ g with asked := full && agree }] }
          if !full then pure ()
          else if agree then send d.sequencer 5 (.ticketAsk name members)
          else coordinatorAbort name 4 none
    | _ => notNow) s

/-- TICKET_ISSUE (R337): the sequencer gives the n-th waiting message, a request, the next ticket, which goes to every
member. -/
def execTicketIssue (n : Nat) (s : State) : Host.Outcome State Fault Refusal :=
  conclude (do
    let p ← rxAt n
    rxFirst n p
    match p.body with
    | .ticketAsk name members => do
      let d ← getDev
      enabled (d.sequencer == d.devid)
      rxDrop n
      setDev fun d => { d with nextTicket := d.nextTicket + 1 }
      members.forM fun m => send m 5 (.ticket name d.nextTicket)
    | _ => notNow) s

/-- TICKET_ARRIVAL (R334, R337): the n-th waiting message, a ticket, joins the ticket queue, and a posted entry is
ticketed. -/
def execTicketArrival (n : Nat) (s : State) : Host.Outcome State Fault Refusal :=
  conclude (do
    let p ← rxAt n
    rxFirst n p
    match p.body with
    | .ticket name number => do
      rxDrop n
      setDev fun d => { d with tickets := d.tickets ++ [(name, number)] }
      setEntry name fun e => some { e with state := if e.state == .posted then .ticketed else e.state }
    | _ => notNow) s

/-- The head ticket leaves its queue. -/
def popTicket : M Unit := setDev fun d => { d with tickets := d.tickets.drop 1 }

/-- TICKET_START (R337, R338, R343): the ticket at the head starts its collective once what it reserves is free; for an
aborted entry, or none, it is skipped.  A walker reduction whose arrivals would not fit is aborted. -/
def execTicketStart (s : State) : Host.Outcome State Fault Refusal :=
  conclude (do
    let st ← getState
    match st.dev.tickets.head? with
    | none => notNow
    | some (name, _) =>
      match collEntry st.dev name with
      | none => popTicket
      | some e =>
        if e.state != .ticketed then popTicket
        else do
          let core := coreOf e.loc
          let ts := tasksOf st core []
          let free := accFree st core ts (parkedOf ts)
          let vault := if e.info.vault == 0 then none else vaultRoom st.dev e.info.vault
          enabled (decide (e.info.acc ≤ free.length) && (e.info.vault == 0 || vault.isSome))
          popTicket
          setEntry name fun e => some { e with
            state := .running, accAt := free.take e.info.acc, vaultAt := vault, faulted := e.info.tooFew }
          if e.info.tooFew then sendAbort name 4 e.info.coordinator else pure ()) s

/-! Chunks. -/

/-- An access of a walker to one element through GEN, by the posting task's tenant with the copy engine's permission
(R342): where it stands. -/
def walkerSpot (s : State) (e : CEntry) (k : Acc) (a : Word) : M (Except Cause (Nat × Bool)) := do
  let r ← atTarget (if pathOf a == 0 then locate s none {} e.name.tenant .c k (.width (fmtWidth e.info.fmt.toNat)) a
                    else throw (.cause .path))
  match r with
  | .error k => pure (.error k)
  | .ok (.here bit w zero) =>
    if !zero && !bitsGranted s e.name.tenant e.level k bit w then pure (.error .access) else pure (.ok (bit, zero))
  | .ok _ => pure (.error .path)

/-- One element that a walker reads. -/
def walkerRead (e : CEntry) (a : Word) : M (Except Cause Nat) := do
  let s ← getState
  let r ← walkerSpot s e .read a
  match r with
  | .error k => pure (.error k)
  | .ok (bit, zero) => do
    let w := fmtWidth e.info.fmt.toNat
    let real := readPlace s.dev.migrations bit
    if zero then pure (.ok 0)
    else if rangePoisoned s.dev.poison (real / 8) ((real % 8 + w + 7) / 8) then pure (.error .mcheck)
    else pure (.ok (readBits s.mem real w))

/-- The elements of a walker's transfer, or the address that fails (R342). -/
def walkerReads (e : CEntry) (base : Word) (start : Int) (n : Nat) : M (Except Word (List Nat)) :=
  (List.range n).foldlM (fun (acc : Except Word (List Nat)) i => match acc with
    | .error a => pure (.error a)
    | .ok vs => match positionAdd base (start + i) with
      | none => pure (.error base)
      | some a => do
        let r ← walkerRead e a
        match r with
        | .ok v => pure (.ok (vs ++ [v]))
        | .error _ => pure (.error a)) (.ok [])

/-- A walker meets a fault: the collective is aborted with cause 4 and the address goes to the supervisor (R342). -/
def walkerFault (e : CEntry) (a : Word) : M Unit := do
  setEntry e.name fun e => some { e with faulted := true }
  sendAbort e.name 4 e.info.coordinator
  notify (.collectiveFault e.name.tenant a)

/-- WALKER_TRANSFER (R342): the loop walker sends the next iteration of a running entry. -/
def execWalkerTransfer (entry : Nat) (s : State) : Host.Outcome State Fault Refusal :=
  conclude (do
    let d ← getDev
    match d.coll.toList.getD entry none with
    | none => notNow
    | some e => do
      enabled (e.state == .running && e.info.walker && !e.faulted && decide (e.next < e.info.iterations))
      let r ← walkerReads e e.info.source (e.info.offset e.next Level.src) e.info.length
      match r, positionAdd e.info.dest (e.info.offset e.next Level.dst) with
      | .ok vs, some dest =>
        sendIteration e 0 dest vs 0 0
          { eng := .c, pc := 0, word := 0, index := 0, addr := dest, cause := .access }
      | .ok _, none => walkerFault e e.info.dest
      | .error a, _ => walkerFault e a) s

/-- The elements of a chunk written to a destination, or the address that fails: every element is checked first. -/
def walkerWrites (e : CEntry) (dest : Word) (first : Nat) (elems : List Nat) : M (Option Word) := do
  let s ← getState
  let w := fmtWidth e.info.fmt.toNat
  let r ← (numbered elems).foldlM (fun (acc : Except Word (List Wr)) (i, v) => match acc with
    | .error a => pure (.error a)
    | .ok ws => match positionAdd dest (first + i : Nat) with
      | none => pure (.error dest)
      | some a => do
        let x ← walkerSpot s e .write a
        match x with
        | .ok (bit, _) => pure (.ok (ws ++ [{ bit, width := w, value := v, addr := a }]))
        | .error _ => pure (.error a)) (.ok [])
  match r with
  | .ok ws => do
    applyWrites [] ws
    pure none
  | .error a => pure (some a)

/-- The elements of an epilogue-driven chunk applied to a tile of the posting task, in its place, each converted exactly to F32
(R288, R340).  What is added to poisoned elements leaves them poisoned (R386, R387). -/
def applyChunk (e : CEntry) (l : Fin 1024) (t : Task) (tile : BitVec 4) (fmt : BitVec 5) (first : Nat) (elems : List Nat) : M Unit := do
  let s ← getState
  let adds := e.info.op != 3
  applyWrites [coreOf l] ((numbered elems).map fun (k, v) =>
    let i := (first + k) / 128
    let j := (first + k) % 128
    let bit := accBit (coreOf l) t tile i j
    let x := decodeFloat ((floatFmt fmt.toNat).getD fmtF32) v
    let value := if e.info.op == 3 then rneBits fmtF32 x
      else rneBits fmtF32 (addVal false (decodeFloat fmtF32 (readBits s.mem bit 32)) x)
    { bit, width := 32, value, addr := accAddr tile i j })
  if adds then setDev fun d => { d with poison := s.dev.poison } else pure ()

/-- The arrivals that a walker reduction expects, by source rank and then iteration: each has L elements of its vault bytes,
in this order (R342, R344; log 56). -/
def CollRec.expected (r : CollRec) (me : Nat) : List (Nat × Nat) :=
  (List.range r.members.length).flatMap fun k => (((List.range r.iterations).filter fun i => r.peer k i == me).map fun i => (k, i))

/-- The bit of the vault bytes where an arrival's element is staged (R342). -/
def CEntry.stageBit (e : CEntry) (src iter i : Nat) : Nat :=
  let w := fmtWidth e.info.fmt.toNat
  8 * e.vaultAt.getD 0 + ((((e.info.expected e.info.rank).idxOf? (src, iter)).getD 0) * e.info.length + i) * w

/-- A chunk of a walker reduction is staged in the reserved vault bytes (R342). -/
def stageChunk (e : CEntry) (src iter first : Nat) (elems : List Nat) : M Unit :=
  let w := fmtWidth e.info.fmt.toNat
  applyWrites [] ((numbered elems).map fun (i, v) =>
    { bit := e.stageBit src iter (first + i), width := w, value := v, addr := e.info.dest })

/-- Whether a chunk comes before every other waiting one for the accumulators of its core: remote arrivals are added in arrival
order (R230). -/
def chunkFirst (s : State) (n : Nat) (name : CName) : Bool :=
  let coreFor := fun (name : CName) => match collEntry s.dev name with
    | some e => if e.info.walker then none else (findTask s e.tid).map coreOf
    | none => none
  coreFor name == none || !(s.dev.rx.take n).any fun p => match p.body with
    | .collChunk m _ _ _ _ _ _ _ _ _ _ => coreFor m == coreFor name
    | _ => false

/-- CHUNK_ARRIVAL (R325, R326, R340, R342): the n-th waiting message, a chunk of a collective, is applied, staged, dropped or
refused: as not yet, or at the ingress, by the level of its sender.  One for a task that is saved waits: the abort that its saving
sent decides it, or its restore; one for an entry that waits for its abort is dropped. -/
def execChunkArrival (n : Nat) (s : State) : Host.Outcome State Fault Refusal :=
  conclude (do
    let p ← rxAt n
    match p.body with
    | .collChunk name src iter chunk back tile dest fmt first elems level => do
      let st ← getState
      enabled (chunkFirst st n name)
      let done : M Unit := do
        rxDrop n
        send back 4 (.chunkDone name iter chunk)
      if p.src != st.dev.devid && !ingressGrants st name.tenant level .write p.src then do
        rxDrop n
        send back 4 (.chunkRefused name iter .access)
      else match collEntry st.dev name with
      | none => done
      | some e =>
        if e.faulted || e.state == .done || e.state == .aborted then done
        else if e.state != .running then do
          rxDrop n
          send back 4 (.chunkNotYet name st.dev.devid src iter chunk tile dest fmt first elems level st.dev.nanos)
        else if e.arrived.contains (src, iter, chunk) then done
        else do
          let note := setEntry name fun e => some { e with arrived := e.arrived ++ [(src, iter, chunk)] }
          (if !e.info.walker then
             match findTask st e.tid with
             | none => notNow
             | some l => do
               let t ← getTask l
               if t.grant.acc ≤ tile.toNat then sendAbort name 4 e.info.coordinator
               else do
                 applyChunk e l t tile fmt first elems
                 note
           else if e.info.op == 3 then do
             let bad ← walkerWrites e dest first elems
             match bad with
             | some a => walkerFault e a
             | none => note
           else do
             stageChunk e src iter first elems
             note)
          done
          reportComplete name
    | _ => notNow) s

/-- CHUNK_RESEND (R340): the n-th waiting message, a chunk refused as not yet, is sent again after 1 µs. -/
def execChunkResend (n : Nat) (s : State) : Host.Outcome State Fault Refusal :=
  conclude (do
    let p ← rxAt n
    match p.body with
    | .chunkNotYet name dst src iter chunk tile dest fmt first elems level since => do
      let d ← getDev
      enabled (decide (since + 1000 ≤ d.nanos))
      rxDrop n
      send dst 2 (.collChunk name src iter chunk d.devid tile dest fmt first elems level)
    | _ => notNow) s

/-! Commit and abort. -/

/-- LOCAL_COMPLETE (R345): the coordinator takes the n-th waiting message, a report; with one from every member it
commits. -/
def execLocalComplete (n : Nat) (s : State) : Host.Outcome State Fault Refusal :=
  conclude (do
    let p ← rxAt n
    rxFirst n p
    match p.body with
    | .localDone name dev => do
      rxDrop n
      let d ← getDev
      match d.gathers.find? fun g => g.name == name with
      | none => pure ()
      | some g =>
        let reports := if g.reports.contains dev then g.reports else g.reports ++ [dev]
        if g.members.all fun m => reports.contains m then do
          setDev fun d => { d with
            gathers := d.gathers.filter fun h => h.name != name
            committed := keepNames d.committed name }
          hubRoom
          g.members.forM fun m => send m 5 (.commit name)
        else
          setDev fun d => { d with gathers := d.gathers.map fun h => if h.name == name then { h with reports } else h }
    | _ => notNow) s

/-- The contributions that a walker reduction has staged, by source rank and then iteration: the offset of each element from the
destination base, and the bit where it is staged (R342, R344). -/
def stagedElems (e : CEntry) : List (Int × Nat) :=
  (e.info.expected e.info.rank).flatMap fun (src, iter) =>
    (List.range e.info.length).map fun (i : Nat) => (e.info.offset iter Level.dst + (i : Int), e.stageBit src iter i)

/-- A staged element; none when it is poisoned (R386). -/
def stagedValue (s : State) (bit w : Nat) : Option Nat :=
  if rangePoisoned s.dev.poison (bit / 8) ((bit % 8 + w + 7) / 8) then none else some (readBits s.mem bit w)

/-- REDUCE of R344 on the bits of the contributions, the destination's own first. -/
def reduceAll (op fmt : Nat) (cs : List Nat) : Nat :=
  match floatFmt fmt with
  | none => 0
  | some f =>
    let xs := cs.map (decodeFloat f)
    if xs.any FVal.isNaN || (xs.any (fun x => x.isInf && x.negative) && xs.any fun x => x.isInf && !x.negative) then canonNaN f
    else match xs with
      | [] => 0
      | x :: ys => rneBits f (ys.foldl (fun x y => match op with
        | 0 => decodeFloat fmtF32 (rneBits fmtF32 (addVal false x y))
        | 1 => minMax true x y
        | _ => minMax false x y) x)

/-- A walker reduction writes its results (R344, R345).  An element whose access fails, or that takes a poisoned contribution, is
left, and the address goes to the supervisor: the collective has committed (log 26). -/
def writeReduction (e : CEntry) : M Unit := do
  let all := stagedElems e
  let offs := (all.map Prod.fst).dedup
  let out ← offs.mapM fun o => match positionAdd e.info.dest o with
    | none => do
      notify (.collectiveFault e.name.tenant e.info.dest)
      pure none
    | some a => do
      let own ← walkerRead e a
      let s ← getState
      let spot ← walkerSpot s e .write a
      let w := fmtWidth e.info.fmt.toNat
      let staged := (all.filter fun x => x.1 == o).mapM fun x => stagedValue s x.2 w
      match own, spot, staged with
      | .ok v, .ok (bit, _), some cs =>
        pure (some { bit, width := w, value := reduceAll e.info.op.toNat e.info.fmt.toNat (v :: cs), addr := a })
      | _, _, _ => do
        notify (.collectiveFault e.name.tenant a)
        pure none
  applyWrites [] (out.filterMap (id : Option Wr → Option Wr))

/-- The completion word is written, or the supervisor hears why not (R345, R346). -/
def writeDone (e : CEntry) (status cause : Nat) : M Unit :=
  if e.info.done == 0 then pure ()
  else do
    let s ← getState
    let a := e.info.done
    let r ← atTarget (locate s none {} e.name.tenant .c .write (.bytes 8) a)
    let fail := fun k => notify (.completionRefused e.name.tenant a k)
    match r with
    | .error k => fail k
    | .ok (.here bit w _) =>
      if !bitsGranted s e.name.tenant e.level .write bit w then fail .access
      else applyWrites [] [{ bit, width := w, addr := a
                             value := e.info.sequence.toNat * 2 ^ 32 + cause * 2 ^ 8 + status }]
    | .ok _ => fail .path

/-- An entry is over: its reservations are released with its state, its completion word is written, and it is freed when
its task is no more (R335, R338, R345, R347). -/
def endEntry (e : CEntry) (state : CState) (status cause : Nat) : M Unit := do
  let s ← getState
  let gone := (knownTask s e.tid).isNone
  setEntry e.name fun e => if gone then none else some { e with state }
  writeDone e status cause

/-- COMMIT (R345): the n-th waiting message, a commit, reaches a member. -/
def execCommit (n : Nat) (s : State) : Host.Outcome State Fault Refusal :=
  conclude (do
    let p ← rxAt n
    rxFirst n p
    match p.body with
    | .commit name => do
      rxDrop n
      let d ← getDev
      match collEntry d name with
      | none => pure ()
      | some e =>
        if e.state == .running then do
          (if e.info.walker && e.info.op != 3 then writeReduction e else pure ())
          endEntry e .done 1 0
        else pure ()
    | _ => notNow) s

/-- ABORT_REQUEST (R347, R348): the coordinator takes the n-th waiting message, an abort.  A committed or aborted collective
stays as it is, and who asked is answered. -/
def execAbortRequest (n : Nat) (s : State) : Host.Outcome State Fault Refusal :=
  conclude (do
    let p ← rxAt n
    rxFirst n p
    match p.body with
    | .abortAsk name cause _ asker => do
      rxDrop n
      let d ← getDev
      if d.committed.contains name || d.abortedNames.any fun x => x.1 == name then
        match asker with
        | some (dev, id) => do
          send dev 5 (.cabortSent id)
          send dev 5 (.cabortDone id)
        | none => pure ()
      else coordinatorAbort name cause asker
    | _ => notNow) s

/-- ABORT_ARRIVAL (R334, R347): the n-th waiting message, an abort, reaches a member, which acknowledges it. -/
def execAbortArrival (n : Nat) (s : State) : Host.Outcome State Fault Refusal :=
  conclude (do
    let p ← rxAt n
    rxFirst n p
    match p.body with
    | .abort name cause coord => do
      rxDrop n
      let d ← getDev
      (match collEntry d name with
       | none => pure ()
       | some e => if e.active then endEntry e .aborted 2 cause.toNat else pure ())
      send coord 5 (.abortAck name d.devid)
    | _ => notNow) s

end Sys2Proof.Machine
end

