-- ==== Sys2Proof/Machine/Chain.lean ====
section
/-!
DEFINITION. Chained loads: CHL, CHAIN_PACKET and CHAIN_RETURN (17, R303; 18, R310 to R312, R325; 23).
-/

namespace Sys2Proof.Machine

/-! The record. -/

/-- A step entry of a chain record (R366): offset, reserved bytes, mask. -/
def chainStep (v i : Nat) : Int × Nat × Nat :=
  let o := 0x20 + 16 * i
  (fieldInt v o 4, field v (o + 4) 4, field v (o + 8) 8)

/-- The limits of a chain record (R366), but for the completion block's address. -/
def chainRecordOk (v : Nat) : Bool :=
  let n := field v 0x10 1
  let len := field v 0x12 2
  field v 0x11 1 == 0 && field v 0x14 12 == 0 && decide (1 ≤ n) && decide (n ≤ 6) && len % 8 == 0 && decide (8 ≤ len) &&
  decide (len ≤ 256) && field v 8 8 != 0 &&
  (List.range 6).all fun i =>
    let (off, res, mask) := chainStep v i
    res == 0 && (decide (i < n) || (off == 0 && mask == 0))

/-- The conditions on a chain's qd stream (R367). -/
def checkChainDest (c : Ctx) (q : Stream) : M Unit := do
  let t ← getTask c.loc
  let s ← getState
  c.check ((tileHandle q.base).isNone && [0, 2, 3].contains (pathOf q.base) && basePathOk s.dev q.base) .path q.base
  c.check (decide (q.fmt ≤ 14) && q.width == 8 && q.block == 0 && q.scaleFmt == 0) .path q.base
  (if pathOf q.base == 0 then
    match planeWord s t.tenant q.base (planeOf q.base) with
    | some pw => c.check (bits pw 0 0 == 1 && planeWidth pw == 8) .path q.base
    | none => c.trap .path q.base
   else pure ())
  c.check (q.rowLen == 0 && !q.transpose && spanOk q 8) .layout 0

/-- The completion block's address at issue: aligned, on byte memory through GEN, checked as a store of 32 bytes (R366). -/
def checkBlock (c : Ctx) (a : Word) : M Unit := do
  let t ← getTask c.loc
  let s ← getState
  c.check (a.toNat % 32 == 0) .align a
  c.check (pathOf a == 0) .path a
  let _ ← c.lift a (locate s (some (coreOf c.loc)) t.grant t.tenant .c .write (.bytes 32) a)
  pure ()

/-- `chl` (R258, R303, R366, R367, R374): the record is read and checked, the packet leaves, and one write is counted.  With kr =
kv the token is named once; else kr's condition holds at once.  Earlier copies come first where it writes. -/
def execChl (qs qd : BitVec 4) (kr kv w g : BitVec 3) (s : State) : Host.Outcome State Fault Refusal :=
  conclude (do
    let c ← issueAfter .c (encode (.chl qs qd kr kv w g)) (needQ · [qs, qd])
    startC c w g
    let t ← getTask c.loc
    waitFor (decide (t.chlOut < 8))
    let base := (t.q.get qs.toFin).base
    let q := t.q.get qd.toFin
    let v ← readRecord c base 16
    c.check (chainRecordOk v) .reserved base
    let block := BitVec.ofNat 64 (field v 8 8)
    checkBlock c block
    checkChainDest c q
    let d ← getDev
    let wait : ChainWait := { id := 0, tid := t.tid, qd := q, block, kr, kv, origin := originOf c t d }
    awaitCopies c [] wait.writesAt
    let id ← newUid
    countWrite c id
    (if kr == kv then setTask c.loc fun t => t.nameToken kv
     else do
      meetNow c [kr]
      setTask c.loc fun t => t.nameToken kv)
    setDev fun d => { d with chainWaits := d.chainWaits ++ [{ wait with id }] }
    sendSelf 3 (.chain id
      { origin := d.devid, core := (coreOf c.loc).val, slot := (slotOf c.loc).val, tid := t.tid, tenant := t.tenant, level := t.level
        steps := (List.range (field v 0x10 1)).map fun i => ((chainStep v i).1, BitVec.ofNat 64 (chainStep v i).2.2)
        fetch := field v 0x12 2, pointer := BitVec.ofNat 64 (field v 0 8), obtained := d.devid, step := 0, hops := 0 })
    setTask c.loc fun t => { t with chlOut := t.chlOut + 1 }
    queueC c w g .handed) s

/-! The walk. -/

/-- The owner of a chain's pointer (R369); none when the walk ends there. -/
def chainOwner (d : Device) (c : Chain) : Option (BitVec 8) :=
  match pathOf c.pointer with
  | 5 =>
    let dev := bits c.pointer.toNat 56 49
    if inDomain d dev then some (BitVec.ofNat 8 dev) else none
  | 0 => some c.obtained
  | 6 => some c.obtained
  | _ => none

/-- A chain's packet goes one hop (R370). -/
def sendHop (x : BitVec 8) (b : Body) : M Unit :=
  setDev fun d => d.leave { src := d.devid, dst := x, vc := 3, via := x, body := b }

/-- The packet with one more hop, in the dimension that its way to the owner goes, and the detour that begins there (R311,
R370, R372). -/
def Chain.hop (c : Chain) (d : Device) (owner : BitVec 8) (turns : Bool) : Chain :=
  let row := owner.toNat % 16 != d.devid.toNat % 16
  { c with hops := c.hops + 1, rowDetour := c.rowDetour || (turns && row), colDetour := c.colDetour || (turns && !row) }

/-- Whether an earlier copy or chained load of the chain's task still has a write to make where the chain reads on the
originating device (R258, R373). -/
def chainBehind (s : State) (id : Nat) (c : Chain) (a : Word) (n : Nat) : Bool :=
  let here : Region := ⟨formOf a, positionOf a, positionOf a + n⟩
  c.origin == s.dev.devid && ((match knownTask s c.tid with
    | none => false
    | some t => t.cjobs.any fun j => match j.work with
        | .copy y => decide (y.uid < id) && y.writesLeft s.dev && y.writesAt.any here.same
        | _ => false) ||
    s.dev.chainWaits.any fun w => w.tid == c.tid && decide (w.id < id) && w.writesAt.any here.same)

/-- Memory as a chain reads it on a device: at its originator with its task's writes that are performed at TSK scope (R257,
R373). -/
def chainMem (s : State) (c : Chain) : List Host.Cell := if c.origin == s.dev.devid then memOfTask s c.tid else s.mem

/-- `n` elements from an address that is to be a multiple of `m`, as a chain reads them at the owner (R371): the walk, the access
tables, then size, alignment and poison. -/
def chainRead (s : State) (c : Chain) (a : Word) (n m : Nat) : W Nat := do
  let spot ← locate s none {} c.tenant .c .read (.run n) a
  match spot with
  | .here bit w zero => do
    require .access (c.origin == s.dev.devid || ingressGrants s c.tenant c.level .read c.origin)
    require .access (zero || bitsGranted s c.tenant c.level .read bit w)
    require .path (w == 8 * n)
    require .align (a.toNat % m == 0)
    if zero then pure 0
    else do
      let real := readPlace s.dev.migrations bit
      require .mcheck (!rangePoisoned s.dev.poison (real / 8) n)
      pure (readBytes (chainMem s c) (real / 8) n)
  | _ => throw (.cause .path)

/-- The bytes that a chain fetches, or the address and cause of the first that fails (R370). -/
def chainFetch (s : State) (c : Chain) : M (Except (Cause × Word) (List Byte)) :=
  (List.range c.fetch).foldlM (fun (acc : Except (Cause × Word) (List Byte)) i => match acc with
    | .error e => pure (.error e)
    | .ok l =>
      match positionAdd c.pointer i with
      | none => pure (.error (.padd, c.pointer))
      | some a => do
        let r ← atTarget (chainRead s c a 1 (if i == 0 then 8 else 1))
        match r with
        | .error k => pure (.error (k, a))
        | .ok v => pure (.ok (l ++ [BitVec.ofNat 8 v]))) (.ok [])

/-- A walk ends: the packet turns back, and the supervisor of an owner hears of a fault (R368, R371, R374). -/
def endChain (id : Nat) (c : Chain) (status cause : Nat) (addr : Word) (notice : Option Cause) (bytes : List Byte) :
    M Unit := do
  let d ← getDev
  send c.origin 4 (.chainBack id
    { status := BitVec.ofNat 8 status, cause := BitVec.ofNat 8 cause, addr, step := c.step, lastGood := c.pointer
      hops := c.hops, bytes })
  match notice with
  | some k => if c.origin == d.devid then pure () else notify (.chainFault c.tenant addr k)
  | none => pure ()

/-- A walk ends with a fault (R368). -/
def failChain (id : Nat) (c : Chain) (k : Cause) (a : Word) : M Unit := endChain id c 2 k.code a (some k) []

/-- CHAIN_PACKET (R369 to R372): the n-th waiting message, a chain's packet, is read for here or sent one hop on; with its way
closed it waits (R311). -/
def execChainPacket (n : Nat) (s : State) : Host.Outcome State Fault Refusal :=
  conclude (do
    let p ← rxAt n
    match p.body with
    | .chain id c => do
      let st ← getState
      rxDrop n
      match chainOwner st.dev c with
      | none => failChain id c .path c.pointer
      | some owner =>
        if owner != st.dev.devid then
          if c.hops == 8 then endChain id c 3 0 0 none []
          else match nextHop st.dev owner false c.rowDetour c.colDetour with
            | none => notNow
            | some (x, turns) => sendHop x (.chain id (c.hop st.dev owner turns))
        else match c.steps[c.step]? with
          | none => do
            enabled (!chainBehind st id c c.pointer c.fetch)
            let r ← chainFetch st c
            match r with
            | .error (k, a) => failChain id c k a
            | .ok bs => endChain id c 1 0 0 none bs
          | some (off, mask) =>
            match positionAdd c.pointer off with
            | none => failChain id c .padd c.pointer
            | some a => do
              enabled (!chainBehind st id c a 8)
              let r ← atTarget (chainRead st c a 8 8)
              match r with
              | .error k => failChain id c k a
              | .ok v => sendSelf 3 (.chain id
                  { c with pointer := BitVec.ofNat 64 v &&& mask, obtained := st.dev.devid, step := c.step + 1
                           rowDetour := false, colDetour := false })
    | _ => notNow) s

/-! The return. -/

/-- A write that a returning chain makes, or why it cannot (R374). -/
def chainWrite (s : State) (core : Option (Fin 256)) (t : Task) (a : Word) (n v : Nat) : W Wr := do
  let spot ← locate s core t.grant t.tenant .c .write (.bytes n) a
  match spot with
  | .here bit w _ => do
    require .access (bitsGranted s t.tenant t.level .write bit w)
    pure { bit, width := w, value := v, addr := a }
  | _ => throw (.cause .path)

/-- The writes of a list of bytes or words to addresses, sums from a base; or the first address that fails, the base where a sum
does (R376). -/
def chainWrites (s : State) (core : Option (Fin 256)) (t : Task) (base : Word) (n : Nat) :
    List (Option Word × Nat) → M (Except (Cause × Word) (List Wr))
  | [] => pure (.ok [])
  | (none, _) :: _ => pure (.error (.padd, base))
  | (some a, v) :: rest => do
    let r ← atTarget (chainWrite s core t a n v)
    match r with
    | .error k => pure (.error (k, a))
    | .ok w => do
      let ws ← chainWrites s core t base n rest
      pure (ws.map (w :: ·))

/-- Where the fetched bytes go (R367): bytes at or beyond the extent are dropped. -/
def chainTargets (q : Stream) (bytes : List Byte) : List (Option Word × Nat) :=
  ((List.range bytes.length).zip bytes).filterMap fun (i, b) =>
    let idx : Int := q.at' + i
    if idx < 0 ∨ (q.extent.toNat : Int) ≤ idx then none
    else match memElem q 8 idx.toNat with
      | .mem a _ => some (some a, b.toNat)
      | _ => some (none, b.toNat)

/-- The words of the completion block, the first last (R368, R374). -/
def blockWords (a : Word) (e : ChainEnd) : List (Option Word × Nat) :=
  let w0 := e.status.toNat + e.cause.toNat * 2 ^ 8 + e.step % 256 * 2 ^ 16
  [(some (a + 8), e.addr.toNat), (some (a + 16), e.lastGood.toNat), (some (a + 24), e.hops % 256), (some a, w0)]

/-- The chain of a task has returned: its token or tokens are set, its write is acknowledged, and a failed check traps at
the copy engine's next boundary or is held (R374, R375, R379). -/
def finishChain (w : ChainWait) (error : Option (Cause × Word)) : M Unit := do
  setDev fun d => { d with chainWaits := d.chainWaits.filter fun x => x.id != w.id }
  (if error.isSome && w.kr != w.kv then markTokenOf w.tid w.kr false true else pure ())
  markTokenOf w.tid w.kv true error.isSome
  acknowledge w.tid w.id
  let s ← getState
  let notes := match error with
    | some (k, a) => [w.origin.note k a 0]
    | none => []
  match findTask s w.tid with
  | some l => setTask l fun t =>
      let t := { t with chlOut := t.chlOut - 1 }
      match notes with
      | r :: _ => t.refusedBy s.dev.clock l r
      | [] => t
  | none => setDev fun d => { d with saved := d.saved.map fun v =>
      if v.task.tid == w.tid then
        { v with task := { v.task with chlOut := v.task.chlOut - 1, refusals := v.task.refusals ++ notes } }
      else v }

/-- The core whose memory the writes of a returning chain of a task reach: the one that the task is on or, for one that is saved, the
one that it was on (R375). -/
def chainCore (s : State) (tid : Nat) : Option (Fin 256) :=
  match findTask s tid with
  | some l => some (coreOf l)
  | none => (s.dev.saved.find? fun v => v.task.tid == tid).map Saved.core

/-- Whether the scratchpad of a saved task stands on no core (R375). -/
def spadAway (s : State) (tid : Nat) : Bool :=
  s.dev.saved.any fun v => v.task.tid == tid && !v.resident

/-- The bytes that a chain brings are written; those for a scratchpad that is on no core are kept, and written when the task is
restored (R375). -/
def chainBytes (w : ChainWait) (core : Option (Fin 256)) (ws : List Wr) : M Unit := do
  let s ← getState
  if ws.isEmpty then pure ()
  else if pathOf w.qd.base == 3 && spadAway s w.tid then
    setDev fun d => { d with saved := d.saved.map fun v =>
      if v.task.tid == w.tid then { v with late := v.late ++ ws.map fun x => (x.addr, BitVec.ofNat 8 x.value) } else v }
  else applyWrites core.toList ws

/-- CHAIN_RETURN (R374, R375): the n-th waiting message, a packet come back: the bytes, then the block, then kv.  Only a trap
waits, for a boundary of the copy engine. -/
def execChainReturn (n : Nat) (s : State) : Host.Outcome State Fault Refusal :=
  conclude (do
    let p ← rxAt n
    match p.body with
    | .chainBack id e => do
      let st ← getState
      match st.dev.chainWaits.find? fun w => w.id == id with
      | none => rxDrop n
      | some w =>
        match knownTask st w.tid with
        | none => do
          rxDrop n
          setDev fun d => { d with chainWaits := d.chainWaits.filter fun x => x.id != id }
        | some t => do
          rxDrop n
          let core := chainCore st w.tid
          let traps := fun x => do
            enabled ((findTask st w.tid).isNone || t.takesRefusal .c)
            finishChain w (some x)
          let bytes ← chainWrites st core t w.qd.base 1 (if e.status == 1 then chainTargets w.qd e.bytes else [])
          match bytes with
          | .error x => traps x
          | .ok ws => do
            chainBytes w core ws
            let block ← chainWrites st core t w.block 8 (blockWords w.block e)
            match block with
            | .error x => traps x
            | .ok ws => do
              applyWrites core.toList ws
              finishChain w none
    | _ => notNow) s

end Sys2Proof.Machine
end

