-- ==== Sys2Proof/Machine/Link.lean ====
section
/-!
DEFINITION. The links of the fabric: flits, replay, compression rings, encryption and key switching: CKEY, FLIT_TRANSMIT,
FLIT_RECEIVE, RETRY_REQUEST and REKEYAT (17, R305; 18, R309, R315 to R323).
-/

namespace Sys2Proof.Machine

/-! Bytes of a flit. -/

/-- The bytes of a number, least significant first (R2). -/
def bytesOf : Nat → Nat → List Byte
  | 0, _ => []
  | n + 1, v => BitVec.ofNat 8 v :: bytesOf n (v / 256)

/-- The number that bytes hold, least significant first (R2). -/
def numberOf (bs : List Byte) : Nat := bs.foldr (fun b n => b.toNat + 256 * n) 0

/-- One bit of CRC-32C, reflected (R315; log 14). -/
def crcBit (c : BitVec 32) : BitVec 32 := if c.getLsbD 0 then (c >>> 1) ^^^ 0x82F63B78 else c >>> 1

/-- One byte of CRC-32C. -/
def crcByte (c : BitVec 32) (b : Byte) : BitVec 32 :=
  (List.range 8).foldl (fun c _ => crcBit c) (c ^^^ b.setWidth 32)

/-- CRC-32C of bytes (R315; log 14). -/
def crc32c (bs : List Byte) : BitVec 32 := ~~~(bs.foldl crcByte (BitVec.allOnes 32))

/-- The link header (R315). -/
structure Header where
  seq : BitVec 16
  ackseq : BitVec 16 := 0
  vc : BitVec 3
  slot : BitVec 1 := 0
  marker : Bool := false
  compressed : Bool := false
  ackv : Bool := false
  retry : Bool := false
  deriving DecidableEq, Repr, Inhabited

/-- One bit as a number. -/
def bitOf (b : Bool) (i : Nat) : Nat := if b then 2 ^ i else 0

/-- The header's word (R315). -/
def Header.word (h : Header) : Nat :=
  h.seq.toNat * 2 ^ 48 + h.ackseq.toNat * 2 ^ 32 + h.vc.toNat * 2 ^ 29 + h.slot.toNat * 2 ^ 28 + bitOf h.marker 27 +
    bitOf h.compressed 26 + bitOf h.ackv 25 + bitOf h.retry 24

/-- The header that a word holds (R315). -/
def headerOf (w : Nat) : Header :=
  { seq := BitVec.ofNat 16 (bits w 63 48), ackseq := BitVec.ofNat 16 (bits w 47 32), vc := BitVec.ofNat 3 (bits w 31 29)
    slot := BitVec.ofNat 1 (bits w 28 28), marker := bits w 27 27 == 1, compressed := bits w 26 26 == 1
    ackv := bits w 25 25 == 1, retry := bits w 24 24 == 1 }

/-- A flit from its header, 224 bytes of payload and 16 of tag (R315). -/
def makeFlit (h : Header) (payload tag : List Byte) : BitVec 2048 :=
  let body := bytesOf 8 h.word ++ bytesOf 224 (numberOf payload) ++ bytesOf 16 (numberOf tag)
  BitVec.ofNat 2048 (numberOf (body ++ bytesOf 4 (crc32c body).toNat))

/-- The parts of a flit (R315): bytes 0 to 247, payload, tag, CRC. -/
def flitBody (f : BitVec 2048) : List Byte := bytesOf 248 f.toNat
def flitPayload (f : BitVec 2048) : List Byte := bytesOf 224 (f.toNat / 2 ^ 64)
def flitTag (f : BitVec 2048) : List Byte := bytesOf 16 (f.toNat / 2 ^ (8 * 232))
def flitCrc (f : BitVec 2048) : BitVec 32 := BitVec.ofNat 32 (f.toNat / 2 ^ (8 * 248))

/-! Compression rings (R318). -/

/-- A ring with a literal word entered. -/
def ringEnter (r : Vector (BitVec 128) 256 × BitVec 8) (w : BitVec 128) : Vector (BitVec 128) 256 × BitVec 8 :=
  (r.1.set r.2.toFin w, r.2 + 1)

/-- Words compressed against a ring: for each, the index of an entry that holds it or the word itself. -/
def compressWords : List (BitVec 128) → Vector (BitVec 128) 256 × BitVec 8 →
    List (Nat ⊕ BitVec 128) × (Vector (BitVec 128) 256 × BitVec 8)
  | [], r => ([], r)
  | w :: ws, r =>
    match r.1.toList.idxOf? w with
    | some i =>
      let (l, r') := compressWords ws r
      (.inl i :: l, r')
    | none =>
      let (l, r') := compressWords ws (ringEnter r w)
      (.inr w :: l, r')

/-- The bytes of compressed words: count, map, words (R318). -/
def compressedBytes (l : List (Nat ⊕ BitVec 128)) : List Byte :=
  let map := ((List.range l.length).zip l).foldl (fun n (i, x) => match x with | .inl _ => n + 2 ^ i | .inr _ => n) 0
  bytesOf 1 l.length ++ bytesOf 8 map ++ l.flatMap fun x => match x with
    | .inl i => bytesOf 1 i
    | .inr w => bytesOf 16 w.toNat

/-- The words of a compressed payload, rebuilt in order with the ring (R318): `n` words, the map, the rest of the bytes. -/
def expandWords : Nat → Nat → List Byte → Vector (BitVec 128) 256 × BitVec 8 →
    List (BitVec 128) × (Vector (BitVec 128) 256 × BitVec 8)
  | 0, _, _, r => ([], r)
  | n + 1, map, bs, r =>
    if map % 2 == 1 then
      let w := r.1.get ((bs.headD 0).toFin)
      let (l, r') := expandWords n (map / 2) (bs.drop 1) r
      (w :: l, r')
    else
      let w := BitVec.ofNat 128 (numberOf (bs.take 16))
      let (l, r') := expandWords n (map / 2) (bs.drop 16) (ringEnter r w)
      (w :: l, r')

/-- The words of a payload and the ring after them (R318). -/
def payloadWords (compressed : Bool) (bs : List Byte) (r : Vector (BitVec 128) 256 × BitVec 8) :
    List (BitVec 128) × (Vector (BitVec 128) 256 × BitVec 8) :=
  if compressed then expandWords (min 64 (bs.headD 0).toNat) (numberOf ((bs.drop 1).take 8)) (bs.drop 9) r
  else expandWords 14 0 bs r

/-! Encryption (R319, R320). -/

/-- The key slot with a number. -/
def Port.key (p : Port) (slot : BitVec 1) : KeySlot := if slot == 0 then p.keyA else p.keyB

/-- The salt of a direction: the device with the lower id sends under the salt as loaded (R319). -/
def linkSalt (k : KeySlot) (sender peer : BitVec 8) : BitVec 32 :=
  if sender.toNat < peer.toNat then k.salt else k.salt ^^^ 0x80000000

/-- The IV of an invocation (R319). -/
def linkIv (salt : BitVec 32) (counter : BitVec 64) : List Byte :=
  (bytesOf 4 salt.toNat).reverse ++ (bytesOf 8 counter.toNat).reverse

/-- The device at the other end of a port (R309). -/
def peerOf (me : BitVec 8) (port : Nat) : BitVec 8 :=
  let r := me.toNat / 16
  let c := me.toNat % 16
  if port < 15 then BitVec.ofNat 8 (16 * r + (if port < c then port else port + 1))
  else BitVec.ofNat 8 (16 * (if port - 15 < r then port - 15 else port - 14) + c)

/-- The port that an event or command names. -/
def portAt (port : Nat) : M (Fin 30) := if h : port < 30 then pure ⟨port, h⟩ else notNow

/-- A port changes. -/
def setPort (n : Fin 30) (f : Port → Port) : M Unit :=
  setDev fun d => { d with ports := d.ports.set n (f (d.ports.get n)) }

/-- A flit goes out on a link. -/
def putWire (n : Fin 30) (f : BitVec 2048) : M Unit := setDev fun d => { d with wireOut := d.wireOut ++ [(n.val, f)] }

/-- What the hub returns, and to which device, when a message is dropped with its link: MCHECK with the request's address to the
originator of a request (R317); none for a response or ordered traffic. -/
def Packet.lost (p : Packet) : Option (BitVec 8 × Body) :=
  match p.body with
  | .read uid o a _ => some (o.dev, .reply uid o.tid o.eng a (.refused .mcheck))
  | .write uid o ws f =>
    let first := match ws with
      | w :: _ => (w.1, w.2.2.2)
      | [] => (f.getD 0, 0)
    some (o.dev, .refuse uid o.tid (o.note .mcheck first.1 first.2))
  | .remoteAtomic uid o _ _ _ posted a =>
    some (o.dev, if posted then .refuse uid o.tid (o.note .mcheck a 0) else .reply uid o.tid o.eng a (.refused .mcheck))
  | .flagAsk uid o a => some (p.src, .flagRefuse uid o.dev (o.note .mcheck a 0))
  | .collChunk name _ iter _ back _ _ _ _ _ _ => some (back, .chunkRefused name iter .mcheck)
  | .chain id c => some (c.origin, .chainBack id
      { status := 2, cause := BitVec.ofNat 8 Cause.mcheck.code, addr := c.pointer, step := c.step, lastGood := c.pointer
        hops := c.hops, bytes := [] })
  | _ => none

/-- A port that is down, with nothing in flight (R309, R317). -/
def Port.closed (p : Port) (stopped : Bool) (cause : BitVec 2) : Port :=
  { p with up := false, stopped := p.stopped || stopped, cause, replay := [], carried := [], switchWanted := false }

/-- The device once a link is down (R312, R317, R323): what the link had not had acknowledged is dropped, and the requests in it are
refused.  DESIGN CHOICE (log 14): what else was in it, and what waited for it, is sent again in order by the way that is open, or
held before what came later. -/
def Device.cut (d : Device) (n : Fin 30) (stopped : Bool) (cause : BitVec 2) : Device :=
  let peer := peerOf d.devid n.val
  let carried := (d.ports.get n).carried.map Prod.snd
  let lost := carried.filter fun p => p.lost.isSome
  let waits := d.unsent.filter fun p => p.via == peer
  let again := (carried.filter fun p => p.lost.isNone) ++ waits
  let d := { d with
    ports := d.ports.set n ((d.ports.get n).closed stopped cause)
    unsent := d.unsent.filter fun p => p.via != peer
    outstanding := d.outstanding.filter fun q => !lost.contains q && !waits.contains q
    netHeld := again.map (fun (p : Packet) => { p with via := 0, rowDetour := false, colDetour := false }) ++ d.netHeld }
  (lost.filterMap Packet.lost).foldl (fun d x => d.post { src := d.devid, dst := x.1, vc := 4, body := x.2 }) d.release

/-- A link goes down, and the supervisor hears of it (R317, R323). -/
def linkDown (n : Fin 30) (stopped : Bool) (cause : BitVec 2) : M Unit := do
  notify (.linkDown n.val cause)
  setDev fun d => d.cut n stopped cause

/-- Whether a port may send a new flit: it is up, holds a key, has room in its replay buffer and has not reached REKEYAT (R316,
R321). -/
def maySend (s : State) (n : Fin 30) : Bool :=
  let p := s.dev.ports.get n
  p.up && (p.key p.txSlot).loaded && decide (p.replay.length < 128) && decide (p.counter.toNat < (s.rekeyat.get n).toNat)

/-- A new flit is built, kept and sent (R315, R316, R319).  It carries the number of flits accepted so far as its
acknowledgement. -/
def sendFlit (n : Fin 30) (vc : BitVec 3) (marker compressed : Bool) (payload : List Byte) (retry : Bool := false) : M Unit := do
  let d ← getDev
  let p := d.ports.get n
  let k := p.key p.txSlot
  let h : Header := { seq := p.sendSeq, ackseq := p.recvSeq, vc, slot := p.txSlot, marker, compressed, ackv := true, retry }
  let iv := linkIv (linkSalt k d.devid (peerOf d.devid n.val)) p.counter
  let (cipher, tag) := Config.gcmSeal k.key iv (bytesOf 8 h.word) payload
  let f := makeFlit h cipher tag
  setPort n fun p => { p with sendSeq := p.sendSeq + 1, counter := p.counter + 1, replay := p.replay ++ [(p.sendSeq, f, 0)] }
  putWire n f

/-- A link-only flit, on channel 7: it acknowledges, asks for resending from the number expected, or is idle.  Like every flit it
has its place in the sequence and its tag (R315, R316, R319; log 14). -/
def sendLinkOnly (n : Fin 30) (retry : Bool) : M Unit := sendFlit n 7 false false (bytesOf 224 0) retry

/-- The link-only flit of the agenda: an acknowledgement, or idle (R315). -/
def linkOnly (n : Fin 30) (s : State) : State := if maySend s n then afterAll (sendLinkOnly n false) s else s

/-- The messages on a channel that wait for the link of a port. -/
def onLink (d : Device) (n : Fin 30) (vc : BitVec 3) : List Packet := d.unsent.filter fun p => p.vc == vc && p.via == peerOf d.devid n.val

/-- Those of some messages that end in a flit: they leave in order, and since no rule places messages in payloads, a free value says
how many end there (R313; log 14). -/
def endsIn (draws : Nat) (ms : List Packet) : List Packet := ms.take ((Config.freeWord draws).toNat % (ms.length + 1))

/-- FLIT_TRANSMIT (R313, R315 to R319): a port sends a new flit of words of one channel: 14 plain ones, or up to 64 compressed ones
that fit. -/
def execFlitTransmit (port : Nat) (vc : BitVec 3) (words : List (BitVec 128)) (compress : Bool) (s : State) :
    Host.Outcome State Fault Refusal :=
  conclude (do
    let n ← portAt port
    let st ← getState
    let p := st.dev.ports.get n
    enabled (maySend st n && decide (vc.toNat ≤ 5))
    let plain := bytesOf 224 (numberOf (words.flatMap fun w => bytesOf 16 w.toNat))
    let (l, ring) := if compress then compressWords words (p.txRing, p.txPtr)
      else (words.map Sum.inr, words.foldl ringEnter (p.txRing, p.txPtr))
    let payload := if compress then compressedBytes l else plain
    enabled (if compress then decide (1 ≤ words.length) && decide (words.length ≤ 64) && decide (payload.length ≤ 224)
      else words.length == 14)
    let ends := endsIn st.dev.draws (onLink st.dev n vc)
    setPort n fun p => { p with
      txRing := ring.1, txPtr := ring.2, carried := p.carried ++ ends.map fun m => (p.sendSeq, m) }
    setDev fun d => { d with draws := d.draws + 1, unsent := ends.foldl List.erase d.unsent }
    sendFlit n vc false compress (bytesOf 224 (numberOf payload))) s

/-- The sender goes back (R316, R317): every unacknowledged flit from a number onward is sent again as stored; a flit that
has been resent 16 times takes the link down. -/
def goBack (n : Fin 30) (seq : BitVec 16) : M Unit := do
  let d ← getDev
  let p := d.ports.get n
  let again := fun (f : BitVec 16 × BitVec 2048 × Nat) => decide ((f.1 - seq).toNat < 2 ^ 15)
  if p.replay.any fun f => again f && decide (16 ≤ f.2.2) then linkDown n false 1
  else do
    (p.replay.filter again).forM fun f => putWire n f.2.1
    setPort n fun p => { p with replay := p.replay.map fun f => if again f then (f.1, f.2.1, f.2.2 + 1) else f }

/-- RETRY_REQUEST (R316): a retry request names the next flit that the other end expects. -/
def execRetryRequest (port : Nat) (seq : BitVec 16) (s : State) : Host.Outcome State Fault Refusal :=
  conclude (do
    let n ← portAt port
    let d ← getDev
    enabled (d.ports.get n).up
    goBack n seq) s

/-- A flit is discarded; the first time after an accepted one, or when a tag failed, a retry is requested (R316, R322), or at the
next discard when no new flit can be sent. -/
def discardFlit (n : Fin 30) (tagFailed : Bool) : M Unit := do
  let s ← getState
  if ((s.dev.ports.get n).asked && !tagFailed) || !maySend s n then pure ()
  else do
    sendLinkOnly n true
    setPort n fun p => { p with asked := true }

/-- A slot that neither direction uses any more holds no key: what was used under it is not used again (R320, R321; log 86). -/
def Port.dropIdle (p : Port) : Port :=
  if p.txSlot != p.rxSlot then p else if p.txSlot == 0 then { p with keyB := {} } else { p with keyA := {} }

/-- A flit is accepted (R316, R318, R320): its acknowledgement counts, its words go up, a retry request is met, or a marker turns
the receive slot over, which needs a key there. -/
def acceptFlit (n : Fin 30) (h : Header) (payload : List Byte) : M Unit := do
  let d ← getDev
  let p := d.ports.get n
  let (words, ring) := if h.marker || h.vc == 7 then ([], (p.rxRing, p.rxPtr)) else payloadWords h.compressed payload (p.rxRing, p.rxPtr)
  setPort n fun p =>
    let p := if h.ackv then p.acked h.ackseq else p
    let p := { p with
      recvSeq := p.recvSeq + 1, rxRing := ring.1, rxPtr := ring.2, asked := false, tagFail := none
      rxCounter := if h.marker then 0 else p.rxCounter + 1
      rxSlot := if h.marker then ~~~p.rxSlot else p.rxSlot }
    if h.marker then p.dropIdle else p
  if h.marker then
    if (p.key (~~~p.rxSlot)).loaded then pure () else linkDown n true 3
  else do
    (if h.vc == 7 then pure () else setDev fun d => { d with passedUp := d.passedUp ++ [(n.val, h.vc, words)] })
    if h.retry then goBack n h.ackseq else pure ()

/-- FLIT_RECEIVE (R316, R319, R320, R322): a flit in sequence whose CRC is correct and whose tag verifies under the receive
slot is accepted; another is discarded; a tag that fails twice stops the link. -/
def execFlitReceive (port : Nat) (flit : BitVec 2048) (s : State) : Host.Outcome State Fault Refusal :=
  conclude (do
    let n ← portAt port
    let d ← getDev
    let p := d.ports.get n
    enabled p.up
    let h := headerOf (flit.toNat % 2 ^ 64)
    if flitCrc flit != crc32c (flitBody flit) then discardFlit n false
    else if h.seq != p.recvSeq then discardFlit n false
    else do
      let k := p.key p.rxSlot
      let iv := linkIv (linkSalt k (peerOf d.devid n.val) d.devid) p.rxCounter
      match (if h.slot == p.rxSlot && k.loaded then
          Config.gcmOpen k.key iv (bytesOf 8 (flit.toNat % 2 ^ 64)) (flitPayload flit) (flitTag flit) else none) with
      | some payload => acceptFlit n h payload
      | none =>
        if p.tagFail == some h.seq then linkDown n true 2
        else do
          setPort n fun p => { p with tagFail := some h.seq }
          discardFlit n true) s

/-- A key of a slot has come into use for transmitting (R321). -/
def Port.useKey (p : Port) (slot : BitVec 1) : Port :=
  if slot == 0 then { p with keyA := { p.keyA with sent := true } } else { p with keyB := { p.keyB with sent := true } }

/-- A key switch of the sender (R320, R321): a marker under the old key, then the other slot with its counter at 0; with no
key there the link stops. -/
def switchKey (n : Fin 30) : M Unit := do
  let d ← getDev
  let p := d.ports.get n
  let other := ~~~p.txSlot
  if !(p.key other).loaded then linkDown n true 3
  else do
    sendFlit n 5 true false (bytesOf 224 0)
    setPort n fun p => { (p.useKey other) with txSlot := other, counter := 0, switchWanted := false }.dropIdle

/-- REKEYAT (R321): the counter has reached REKEYAT, or a requested switch had to wait for the replay buffer.  While the other
direction still uses the key that this one has left, no slot is idle and the switch waits. -/
def execRekeyat (port : Nat) (s : State) : Host.Outcome State Fault Refusal :=
  conclude (do
    let n ← portAt port
    let st ← getState
    let p := st.dev.ports.get n
    enabled (p.up && decide (p.replay.length < 128) && !((p.key (~~~p.txSlot)).loaded && (p.key (~~~p.txSlot)).sent) &&
      (p.switchWanted || decide ((st.rekeyat.get n).toNat ≤ p.counter.toNat)))
    switchKey n) s

/-- `ckey` (R70, R305, R320): the record's key and salt go into the port's idle slot; while both slots are in use the
instruction is held. -/
def execCkey (qs qd : BitVec 4) (kr kv w g : BitVec 3) (s : State) : Host.Outcome State Fault Refusal :=
  conclude (do
    let c ← issueAfter .c (encode (.ckey qs qd kr kv w g)) fun c => do
      privileged c
      needQ c [qs, qd]
    startC c w g
    let t ← getTask c.loc
    let base := (t.q.get qs.toFin).base
    let x := (t.q.get qd.toFin).base
    let v ← readRecord c base 8
    c.check (field v 36 28 == 0) .reserved base
    c.check (decide (x.toNat < 32)) .reserved x
    if h : x.toNat < 30 then do
      let n : Fin 30 := ⟨x.toNat, h⟩
      let d ← getDev
      let p := d.ports.get n
      waitFor (p.txSlot == p.rxSlot)
      let k : KeySlot := { loaded := true, key := bytesOf 32 (field v 0 32), salt := BitVec.ofNat 32 (field v 32 4) }
      setPort n fun p => if p.txSlot == 0 then { p with keyB := k } else { p with keyA := k }
      meetNow c [kr, kv]
      queueC c w g .short
    else c.trap .path x) s

end Sys2Proof.Machine
end

