-- ==== Sys2Proof/Machine/Boot.lean ====
section
/-!
DEFINITION. Reset, start-up, the host port, power and scrubbing: RESET, LPDDR_READY, BOOT, VERIFICATION,
HOST_REGISTER_WRITE, HOST_REQUEST, CORE_WAVE, GDDR_TRAINED, POWER_TICK and SCRUB (03, R56 to R61; 24, R384, R385; 25).
-/

namespace Sys2Proof.Machine

/-- RESET (R389): the device is as it is right after reset; its fuses keep the security version (R397). -/
def execReset (s : State) : Host.Outcome State Fault Refusal := conclude (emit .restart) s

/-- LPDDR_READY (R389, R392): training of tier 1 has ended. -/
def execLpddrReady (ok : Bool) (s : State) : Host.Outcome State Fault Refusal :=
  conclude (do
    let d ← getDev
    enabled (d.boot == .reset)
    setDev fun d => if ok then { d with lpddrReady := true, boot := .ready } else { d with error := 4 }) s

/-- A write of the boot register (R388, R389): 1 starts verification once tier 1 is ready. -/
def bootWrite (v : Word) : M Unit :=
  setDev fun d => if v == 1 && d.lpddrReady && d.boot == .ready then { d with boot := .verifying } else d

/-- BOOT (R389): the host writes 1 to the boot register. -/
def execBoot (s : State) : Host.Outcome State Fault Refusal := conclude (bootWrite 1) s

/-- Whether the registers that are written before boot only still are (R388). -/
def beforeBoot (d : Device) : Bool := d.boot == .reset || d.boot == .ready

/-- A host write of a register (R388): none for one that takes no write now. -/
def hostRegister (offset : Nat) (v : Word) (d : Device) : Option Device :=
  match offset with
  | 0x008 => if beforeBoot d then some { d with fwLocation := v } else none
  | 0x010 => if beforeBoot d then some { d with fwLength := v } else none
  | 0x020 => if beforeBoot d then some { d with hostQueue := v } else none
  | 0x018 => some (if v == 1 && d.lpddrReady && d.boot == .ready then { d with boot := .verifying } else d)
  | _ => none

/-- The offset of a host register in the host's window (R388). -/
def tier3 (offset : BitVec 40) : BitVec 42 := BitVec.ofNat 42 (3 * 2 ^ 40 + offset.toNat)

/-- An answer to the host: bytes, or a refusal. -/
def answerHost (offset : BitVec 42) (r : Option (List Byte)) : M Unit :=
  setDev fun d => { d with hostOut := d.hostOut ++ [(offset, r)] }

/-- HOST_REGISTER_WRITE (R388): a write that the register does not take is refused. -/
def execHostRegisterWrite (offset : BitVec 40) (value : BitVec 64) (s : State) : Host.Outcome State Fault Refusal :=
  conclude (do
    let d ← getDev
    match hostRegister offset.toNat value d with
    | some d' => do
      setDev fun _ => d'
      answerHost (tier3 offset) (some [])
    | none => answerHost (tier3 offset) none) s

/-! Verification (R389). -/

/-- The image's bytes as a number: `n` of them from an offset. -/
def imageField (s : State) (off n : Nat) : Nat := readBytes s.mem (2 ^ 40 + s.dev.fwLocation.toNat + off) n

/-- The image's bytes from an offset. -/
def imageBytes (s : State) (off n : Nat) : List Byte := bytesOf n (imageField s off n)

/-- The parts of the section table entry with a number (R57): type, file offset, size. -/
def imageSection (s : State) (i : Nat) : Nat × Nat × Nat :=
  let o := imageField s 0x10 8 + 32 * i
  (imageField s (o + 4) 2, imageField s (o + 8) 8, imageField s (o + 16) 8)

/-- The flags, alignment and link of a section table entry (R57). -/
def imageFlags (s : State) (i : Nat) : Nat × Nat × Nat :=
  let o := imageField s 0x10 8 + 32 * i
  (imageField s (o + 6) 2, imageField s (o + 24) 4, imageField s (o + 28) 4)

/-- What tells apart the kinds of section of which a file holds at most one: the type, the engine of a code section, the
section that relocations patch (R57). -/
def imageKind (s : State) (i : Nat) : Nat × Nat :=
  let (ty, _, _) := imageSection s i
  let (flags, _, link) := imageFlags s i
  (ty, if ty == 1 then flags % 4 else if ty == 8 then link else 0)

/-- The string table of the image: its file offset and size (R56). -/
def imageStrings (s : State) : Nat × Nat := (imageSection s (imageField s 0x18 4)).2

/-- The size of an entry of a section of a type that holds whole entries, else 1 (R57 to R60). -/
def imageEntrySize (ty : Nat) : Nat :=
  match ty with
  | 1 => 4
  | 4 => 272
  | 6 => 72
  | 8 => 24
  | 9 => 24
  | _ => 1

/-- Whether a section table entry after entry 0 keeps R57, in a file of `len` bytes and `n` entries.  DESIGN CHOICE (log 89): the
engine bits [1:0] of the flags of a section that holds no code may hold anything. -/
def imageEntryOk (s : State) (len n i : Nat) : Bool :=
  let (ty, off, size) := imageSection s i
  let (flags, align, link) := imageFlags s i
  decide (imageField s (imageField s 0x10 8 + 32 * i) 4 < (imageStrings s).2) &&
  decide (1 ≤ ty) && decide (ty ≤ 11) && flags / 4 == 0 && decide (off + size ≤ len) && size % imageEntrySize ty == 0 &&
  (List.range 32).any (fun k => align == 2 ^ k) &&
  (if ty == 8 then decide (1 ≤ link) && decide (link < n) else link == 0) &&
  (List.range i).all fun j => j == 0 || imageKind s j != imageKind s i

/-- Whether the string table holds strings that end in NUL, the first of them empty (R57). -/
def imageStringsOk (s : State) : Bool :=
  let (off, size) := imageStrings s
  decide (1 ≤ size) && imageField s off 1 == 0 && imageField s (off + size - 1) 1 == 0

/-- Whether the symbol table keeps R60: symbol 0 all zero, and in every other a name of the string table, a section that exists,
a binding and a kind of its tables, nothing reserved, and an entry of the `.alloy` section for an alloy object.  DESIGN CHOICE
(log 90): an alloy object may be undefined, with section 0. -/
def imageSymbolsOk (s : State) (n : Nat) : Bool :=
  let (_, syms, size) := imageSection s (imageField s 0xC 4)
  decide (24 ≤ size) && imageField s syms 24 == 0 &&
  (List.range (size / 24)).all fun i =>
    let e := syms + 24 * i
    let sec := imageField s (e + 4) 4
    let kind := imageField s (e + 21) 1
    let value := imageField s (e + 8) 8
    decide (imageField s e 4 < (imageStrings s).2) &&
    (decide (sec < n) || sec == 0xFFFFFFFF) && decide (imageField s (e + 20) 1 ≤ 2) && decide (kind ≤ 9) &&
    imageField s (e + 22) 2 == 0 && (i == 0 || kind != 2 || sec == 0 || (decide (sec < n) && (imageSection s sec).1 == 4 &&
      value % 272 == 0 && decide (value < (imageSection s sec).2.2)))

/-- Step 1 of R389: a linked supervisor KOF file of the length written, in installed storage and free of poison (R56,
R57, R60). -/
def imageWellFormed (s : State) : Bool :=
  let len := s.dev.fwLength.toNat
  let a := 2 ^ 40 + s.dev.fwLocation.toNat
  let n := imageField s 8 4
  let t := imageField s 0x10 8
  decide (64 ≤ len) && decide (s.dev.fwLocation.toNat + len ≤ Config.lpddrBytes) && !rangePoisoned s.dev.poison a len &&
  imageField s 0 4 == 0x39464F4B && imageField s 4 2 == 1 && imageField s 6 2 == 3 && imageField s 0x1C 4 == 0 &&
  imageField s 0x28 8 == len && imageField s 0x30 16 == 0 && decide (t + 32 * n ≤ len) && imageField s t 32 == 0 &&
  ((List.range n).all fun i => i == 0 || imageEntryOk s len n i) &&
  decide (imageField s 0xC 4 < n) && (imageSection s (imageField s 0xC 4)).1 == 9 &&
  decide (imageField s 0x18 4 < n) && (imageSection s (imageField s 0x18 4)).1 == 10 &&
  imageStringsOk s && imageSymbolsOk s n

/-- Steps 2 and 3 of R389: the hash of the signature block and its two signatures (R61). -/
def imageSigned (s : State) : Bool :=
  let o := imageField s 0x20 8
  let hash := imageBytes s (o + 24) 48
  o != 0 && decide (o + 3448 == s.dev.fwLength.toNat) && imageField s o 4 == 0x4749534B && imageField s (o + 4) 4 == 3448 &&
  imageField s (o + 3445) 3 == 0 && hash == Config.sha384 (imageBytes s 0 o) &&
  Config.edVerify (BitVec.ofNat 64 (imageField s (o + 8) 8)) hash (imageBytes s (o + 72) 64) &&
  Config.mldsaVerify (BitVec.ofNat 64 (imageField s (o + 16) 8)) hash (imageBytes s (o + 136) 3309)

/-- The name `vyver_id` as a number, with its closing zero. -/
def vyverName : Nat := 0x64695F7265767976

/-- The offset in the image of the descriptor at symbol `vyver_id` in `.rodata` (R57, R60, R389).  DESIGN CHOICE: of several
symbols of that name there, the first of the table counts, which the spec does not say (log 73). -/
def imageDescriptor (s : State) : Option Nat :=
  let (_, syms, size) := imageSection s (imageField s 0xC 4)
  let (strings, room) := imageStrings s
  (List.range (size / 24)).findSome? fun i =>
    let e := syms + 24 * i
    let name := strings + imageField s e 4
    let (ty, off, len) := imageSection s (imageField s (e + 4) 4)
    let at_ := off + imageField s (e + 8) 8
    if i != 0 && decide (imageField s (e + 4) 4 < imageField s 8 4) && decide (imageField s e 4 + 9 ≤ room) && imageField s name 8 == vyverName &&
        imageField s (name + 8) 1 == 0 && ty == 3 && decide (at_ + 24 ≤ off + len) then some at_
    else none

/-- What verification finds: an error code of R392, or the descriptor's offset. -/
def verifyImage (s : State) : Nat ⊕ Nat :=
  if !imageWellFormed s then .inl 1
  else if !imageSigned s then .inl 2
  else match imageDescriptor s with
    | none => .inl 1
    | some o => if imageField s o 4 < s.dev.fused.toNat then .inl 3 else .inr o

/-- VERIFICATION (R389, R390, R397): an error leaves the device in boot; else the hub and management controller are up, and
the descriptor gives the security version and the two queues. -/
def execVerification (s : State) : Host.Outcome State Fault Refusal :=
  conclude (do
    let st ← getState
    enabled (st.dev.boot == .verifying)
    match verifyImage st with
    | .inl code => setDev fun d => { d with boot := .ready, error := BitVec.ofNat 8 code }
    | .inr o => setDev fun d => { d with
        boot := .verified
        error := 0
        version := BitVec.ofNat 32 (imageField st o 4)
        superQueue := BitVec.ofNat 64 (imageField st (o + 8) 8)
        noticeQueue := BitVec.ofNat 64 (imageField st (o + 16) 8)
        measurement := Config.sha384 (imageBytes st 0 (imageField st 0x20 8)) }) s

/-- Full service begins when every core is up and GDDR 7 is trained (R390). -/
def Device.service (d : Device) : Device :=
  { d with earlyService := d.earlyService || decide (16 ≤ d.coresUp)
           fullService := d.fullService || (decide (256 ≤ d.coresUp) && d.gddrReady) }

/-- CORE_WAVE (R390): the next 8 cores come up. -/
def execCoreWave (s : State) : Host.Outcome State Fault Refusal :=
  conclude (do
    let d ← getDev
    enabled (d.boot == .verified && decide (d.coresUp < 256))
    ((List.finRange 256).filter fun c => decide (d.coresUp ≤ c.val) && decide (c.val < d.coresUp + 8)).forM fun c =>
      setCore c fun k => { k with up := true }
    setDev fun d => { d with coresUp := d.coresUp + 8 }.service) s

/-- GDDR_TRAINED (R390, R392): a failure leaves the device in early service, with error 5. -/
def execGddrTrained (ok : Bool) (s : State) : Host.Outcome State Fault Refusal :=
  conclude (do
    let d ← getDev
    enabled (d.boot == .verified && !d.gddrReady && d.error != 5)
    setDev fun d => if ok then { d with gddrReady := true }.service else { d with error := 5 }) s

/-- The status word (R392). -/
def statusWord (d : Device) : Word :=
  BitVec.ofNat 64
    (d.version.toNat * 2 ^ 32 + d.error.toNat * 2 ^ 16 + d.coresUp % 2 ^ 12 * 2 ^ 4 + bitOf (d.error != 0) 3 +
      bitOf d.lpddrReady 2 + bitOf d.fullService 1 + bitOf d.earlyService 0)

/-! Host requests. -/

/-- Whether the host port serves a request (R325, R388, R389, R391), which lies in one tier: before verification only reads and
writes of tier 1 once it is ready, and of the registers; afterwards what the tenant's windows at the port grant. -/
def hostServed (s : State) (kind : HostKind) (tenant : BitVec 6) (tier off len : Nat) : Bool :=
  let grants := fun k => targetGrants s .hostPort tenant k off && (pagesOf off len).all (targetGrants s .hostPort tenant k)
  let atomic := match kind with
    | .atomic _ _ _ => true
    | _ => false
  decide (off + len ≤ 2 ^ 40) &&
  if s.dev.boot == .verified then
    (tier != 0 || s.dev.fullService) &&
    (match kind with
     | .read => grants .read
     | .write => grants .write
     | .atomic _ _ _ => grants .read && grants .write)
  else !atomic && (tier == 3 || (tier == 1 && s.dev.lpddrReady))

/-- The first byte of storage that a request names; none where some byte of it is not. -/
def hostByte (tier off len : Nat) : Option Nat :=
  let a := tier * 2 ^ 40 + off
  if decide (tier < 3) && decide (1 ≤ len) && (List.range len).all fun i => byteExists (a + i) then some a else none

/-- Where the bytes that a host request reads stand while frames migrate (R103). -/
def hostPlaces (s : State) (a len : Nat) : List Nat :=
  (List.range len).map fun i => readPlace s.dev.migrations (8 * (a + i)) / 8

/-- HOST_REQUEST (R388): a read, write or atomic of the host.  Poisoned data is not returned; an atomic names a standard slot and
a word of tier 0 or 1, and waits for the atomics that its handler engine serves before it (R280). -/
def execHostRequest (kind : HostKind) (tenant : BitVec 6) (offset : BitVec 42) (length : Nat) (data : List (BitVec 8))
    (s : State) : Host.Outcome State Fault Refusal :=
  conclude (do
    let st ← getState
    let tier := bits offset.toNat 41 40
    let off := bits offset.toNat 39 0
    if !hostServed st kind tenant tier off length then answerHost offset none
    else if tier == 3 then
      match kind with
      | .read => answerHost offset (if off == 0 && length == 8 then some (bytesOf 8 (statusWord st.dev).toNat) else none)
      | .write =>
        match (if length == 8 then hostRegister off (BitVec.ofNat 64 (numberOf (data.take 8))) st.dev else none) with
        | some d' => do
          setDev fun _ => d'
          answerHost offset (some [])
        | none => answerHost offset none
      | .atomic _ _ _ => answerHost offset none
    else
      match hostByte tier off length with
      | none => answerHost offset none
      | some a =>
        match kind with
        | .read =>
          let at_ := hostPlaces st a length
          answerHost offset (if at_.any fun b => rangePoisoned st.dev.poison b 1 then none else some (at_.map (Mem.read st.mem)))
        | .write => do
          applyWrites [] ((List.range length).map fun i =>
            { bit := 8 * (a + i), width := 8, value := (data.getD i 0).toNat, addr := 0 })
          answerHost offset (some [])
        | .atomic slot h4 h5 =>
          let o : Origin := { dev := st.dev.devid, tid := 0, core := 256, eng := .s, pc := 0, word := 0, tenant, level := true }
          if decide (24 ≤ slot.toNat) || off % 8 != 0 || (atomicRefused st o a slot.toNat).isSome then answerHost offset none
          else do
            enabled (engineTurn st.dev a hostKey)
            let r ← serveAtomic o a slot.toNat h4 h5 0
            setDev fun d => d.servedAt a hostKey
            answerHost offset (some (bytesOf 8 r.toNat))) s

/-! Power and scrubbing. -/

/-- The throttle step after 1 µs (R395). -/
def nextThrottle (limit watts : Nat) (n : BitVec 3) : BitVec 3 :=
  if limit < watts then (if n == 7 then 7 else n + 1)
  else if watts * 100 < limit * 95 then (if n == 0 then 0 else n - 1)
  else n

/-- The instructions that a core has issued since the power controller last counted, of each kernel (R396). -/
def workOn (s : State) (c : Fin 256) : List (Word × Nat) :=
  (s.cores.get c).worked ++ (List.finRange 4).filterMap fun k => (s.tasks.get (place c k)).map fun t => (t.handle, t.work)

/-- The part of an energy that falls to a kernel, in proportion to the instructions issued (R396). -/
def shareOf (nanojoules : Nat) (work : List (Word × Nat)) (handle : Word) : Nat :=
  let sum := fun (l : List (Word × Nat)) => l.foldl (fun n x => n + x.2) 0
  nanojoules * sum (work.filter fun x => x.1 == handle) / max 1 (sum work)

/-- What an interval charges to the kernel of an entry: its share of what each core used, and what its bytes used, both measured:
entry c of `charges` is core c's, entry 256 + i the bytes' of kernel i (R396; log 107). -/
def kernelCharge (s : State) (charges : List Nat) (i : Nat) (handle : Word) : Nat :=
  (List.finRange 256).foldl (fun n c => n + shareOf (charges.getD c.val 0) (workOn s c) handle) (charges.getD (256 + i) 0)

/-- POWER_TICK (R395, R396), every 1 µs: the measured power moves every core's throttle step; the energy of the interval is added
to the module's count, its charges to each kernel's, and the throttled clocks of the slices in it to each kernel's count. -/
def execPowerTick (watts nanojoules : Nat) (charges : List Nat) (s : State) : Host.Outcome State Fault Refusal :=
  conclude (do
    let st ← getState
    enabled (decide (st.dev.powered + 1000 ≤ st.dev.nanos) && decide (charges.foldl (· + ·) 0 ≤ nanojoules))
    (List.finRange 256).forM fun c => setCore c fun k =>
      { k with throttle := nextThrottle st.dev.powerLimit watts k.throttle, worked := [] }
    (List.finRange 1024).forM fun l => setTask l fun t => { t with work := 0 }
    setDev fun d =>
      let charged : Fin 256 → Option Kernel := fun i => (d.kernels.get i).map fun k =>
        { k with energy := k.energy + BitVec.ofNat 64 (kernelCharge st charges i.val k.handle)
                 throttled := k.throttled + k.throttledNew, throttledNew := 0 }
      { d with energy := d.energy + BitVec.ofNat 64 nanojoules, powered := d.powered + 1000, kernels := .ofFn charged }) s

/-- SCRUB (R384, R385): idle storage of a unit is read; a correctable error is corrected, which changes no data, and counted
up to 2^32 - 1. -/
def execScrub (unit : Nat) (found : Bool) (s : State) : Host.Outcome State Fault Refusal :=
  conclude (setDev fun d =>
    if !found then d
    else
      let n := match d.errors.find? fun e => e.1 == unit with
        | some e => e.2
        | none => 0
      { d with errors := (unit, if n == BitVec.allOnes 32 then n else n + 1) :: d.errors.filter fun e => e.1 != unit }) s

end Sys2Proof.Machine
end

