-- ==== Sys2Proof/Machine/Mgmt.lean ====
section
/-!
DEFINITION. The management interface: the two command queues and their commands (25, R394, R397; and the rules that each
command cites).  A command's arguments come with the event: the record's own layout of them is not given (log 27).
-/

namespace Sys2Proof.Machine

/-! Serving a queue. -/

/-- The byte of the record that a queue has to serve next, when one is posted (R397). -/
def postedRecord (s : State) (src : MgmtSource) : Option Nat :=
  let served := (queueOf s.dev src).2
  match queueAt s.dev src with
  | none => none
  | some q => if readBytes s.mem q 8 != served % 2 ^ 64 then some (q + 64 + 64 * (served % 64)) else none

/-- Whether the command that a queue has to serve next has arrived before those of the other (R397); one whose count was not raised
by an atomic has arrived when it is served (log 27). -/
def mayServe (s : State) (src : MgmtSource) : Bool :=
  match s.dev.arrivals.find? fun x => (postedRecord s x).isSome with
  | some x => x == src
  | none => true

/-- The device once one more record of a queue has been served (R397). -/
def Device.servedOne (d : Device) (src : MgmtSource) : Device :=
  let d := { d with arrivals := d.arrivals.erase src }
  match src with
  | .host => { d with servedHost := d.servedHost + 1 }
  | .supervisor => { d with servedSuper := d.servedSuper + 1 }

/-- Whether the next record of a queue holds a command with an opcode, for a tenant where the command names one, and with
status 0 (R397). -/
def recordIs (s : State) (opcode : Nat) (tenant : Option (BitVec 6)) (rec_ : Nat) : Bool :=
  readBytes s.mem rec_ 2 == opcode && readBytes s.mem (rec_ + 4) 4 == 0 &&
  (match tenant with
   | some t => readBytes s.mem (rec_ + 2) 1 == t.toNat
   | none => true)

/-- The answer of a command: result words, then the status (R397). -/
def answerCommand (rec_ : Nat) (status : Nat) (r1 r2 : Word) : M Unit :=
  applyWrites []
    [{ bit := 8 * (rec_ + 8), width := 64, value := r1.toNat, addr := 0 },
     { bit := 8 * (rec_ + 16), width := 64, value := r2.toNat, addr := 0 },
     { bit := 8 * (rec_ + 4), width := 32, value := status, addr := 0 }]

/-- The controller serves the next record of a queue: the command is done, or refused and without effect (R397). -/
def command (src : MgmtSource) (opcode : Nat) (tenant : Option (BitVec 6)) (ok : State → Bool)
    (act : M Word) : M Unit := do
  let s ← getState
  match postedRecord s src with
  | none => notNow
  | some r => do
    enabled (mayServe s src && recordIs s opcode tenant r)
    setDev fun d => d.servedOne src
    if ok s then do
      let w ← act
      answerCommand r 1 w 0
    else answerCommand r 2 0 0

/-- A command that only changes the device. -/
def setCommand (src : MgmtSource) (opcode : Nat) (tenant : Option (BitVec 6)) (ok : State → Bool)
    (f : Device → Device) : M Unit :=
  command src opcode tenant ok do
    setDev f
    pure 0

/-! The commands. -/

/-- TENANT (R92, R397): only the supervisor writes the tenant translation table. -/
def execTenant (src : MgmtSource) (tenant : BitVec 6) (q0 q1 q2 q3 : BitVec 64) (s : State) :
    Host.Outcome State Fault Refusal :=
  conclude (setCommand src 1 (some tenant) (fun _ => src == .supervisor) fun d =>
    { d with tenants := d.tenants.set tenant.toFin #v[q0, q1, q2, q3] }) s

/-- Whether a target is there (R278, R324). -/
def targetThere : Target → Bool
  | .gddr n => decide (n < 48)
  | .lpddr n => decide (n < Config.lpddrControllers)
  | .gddrHandler n => decide (n < 48)
  | .lpddrHandler n => decide (n < Config.lpddrControllers)
  | .vault n => decide (n < 64)
  | .ingress => true
  | .hostPort => true

/-- Whether a request that was granted before, by this device or for a flag on it, is still to be applied (R327). -/
def grantsOut (d : Device) : Bool :=
  !d.flagsAsked.isEmpty || !d.granted.isEmpty || !d.flagsGranted.isEmpty || d.rx.any fun p => match p.body with
    | .store u o _ _ => o.dev == d.devid && d.tskSeen.contains u
    | .atomic _ _ _ _ _ _ _ granted _ => granted
    | _ => false

/-- WINDOW (R324, R327): only the supervisor writes windows; the window stands for every request served after it, and every one
granted before it has been applied when it is answered. -/
def execWindow (src : MgmtSource) (target : Target) (tenant : BitVec 6) (index : BitVec 3) (q0 q1 : BitVec 64) (s : State) :
    Host.Outcome State Fault Refusal :=
  conclude (do
    let d ← getDev
    enabled (!grantsOut d)
    setCommand src 2 (some tenant) (fun _ => src == .supervisor && targetThere target) fun d =>
      { d with windows := (target, tenant, index, q0, q1) ::
          d.windows.filter fun w => !(w.1 == target && w.2.1 == tenant && w.2.2.1 == index) }) s

/-- Whether a barrier exists (R133, R269). -/
def barrierExists (level : BitVec 3) (unit number : Nat) : Bool :=
  decide (number < barrierCount level.toNat) &&
  (match level.toNat with
   | 1 => decide (unit < 256)
   | 2 => decide (unit < 64)
   | 3 => decide (unit < 4)
   | _ => unit == 0)

/-- BARRIER (R269): owner and swap bit. -/
def execBarrier (src : MgmtSource) (level : BitVec 3) (unit number : Nat) (owner : Option (BitVec 6)) (swap : Bool)
    (s : State) : Host.Outcome State Fault Refusal :=
  conclude (command src 3 owner (fun _ => barrierExists level unit number) do
    let r : BarRef := { level, unit, number }
    setBarrier r fun b => { b with owner, swap }
    let s ← getState
    (if heldHere s.dev r then tellDomain r (barrierAt s r) else pure ())
    pure 0) s

/-- MONITORS (R274). -/
def execMonitors (src : MgmtSource) (count : Nat) (s : State) : Host.Outcome State Fault Refusal :=
  conclude (setCommand src 4 none (fun _ => decide (count ≤ 28)) fun d => { d with monitorsKept := count }) s

/-- SLOT (R286): a tenant slot of every handler engine is emptied. -/
def execSlot (src : MgmtSource) (tenant : BitVec 6) (slot : BitVec 5) (s : State) : Host.Outcome State Fault Refusal :=
  conclude (setCommand src 5 (some tenant)
    (fun s => decide (24 ≤ slot.toNat) && (tenantSlot s.dev slot.toNat).owner == some tenant) fun d =>
    { d with handlers := .ofFn fun i => if i.val + 24 == slot.toNat then {} else d.handlers.get i }) s

/-- The status word of a port (R323). -/
def portStatus (d : Device) (n : Fin 30) : Word :=
  let p := d.ports.get n
  BitVec.ofNat 64
    (bitOf p.up 63 + bitOf p.stopped 62 + p.cause.toNat * 2 ^ 60 + p.txSlot.toNat * 2 ^ 59 + p.rxSlot.toNat * 2 ^ 58 +
      bitOf p.keyA.loaded 57 + bitOf p.keyB.loaded 56 + (peerOf d.devid n.val).toNat * 2 ^ 41 + p.counter.toNat % 2 ^ 41)

/-- A port command; one that names no port is refused. -/
def portCommand (src : MgmtSource) (port : Nat) (ok : State → Fin 30 → Bool) (act : Fin 30 → M Word) :
    M Unit :=
  command src 6 none (fun s => if h : port < 30 then ok s ⟨port, h⟩ else false)
    (if h : port < 30 then act ⟨port, h⟩ else pure 0)

/-- PORT_STATUS (R323). -/
def execPortStatus (src : MgmtSource) (port : Nat) (s : State) : Host.Outcome State Fault Refusal :=
  conclude (portCommand src port (fun _ _ => true) fun n => do
    let d ← getDev
    pure (portStatus d n)) s

/-- PORT_REKEYAT (R321). -/
def execPortRekeyat (src : MgmtSource) (port value : Nat) (s : State) : Host.Outcome State Fault Refusal :=
  conclude (portCommand src port (fun _ _ => true) fun n => do
    emit (.rekeyat n value)
    pure 0) s

/-- PORT_KEY_SWITCH (R320, R321): the switch begins at once, or as soon as the replay buffer has room and the
other slot is not one that this direction has left. -/
def execPortKeySwitch (src : MgmtSource) (port : Nat) (s : State) : Host.Outcome State Fault Refusal :=
  conclude (portCommand src port (fun s n => (s.dev.ports.get n).up) fun n => do
    let d ← getDev
    let p := d.ports.get n
    let old := (p.key (~~~p.txSlot)).loaded && (p.key (~~~p.txSlot)).sent
    (if p.replay.length < 128 && !old then switchKey n
     else setPort n fun p => { p with switchWanted := true })
    pure 0) s

/-- A port comes up: fresh rings, nothing in flight, sequence numbers from 0; when its slots hold no key and the other does,
that key comes into use (R318, R319; log 14). -/
def Port.bringUp (p : Port) : Port :=
  let turn := !(p.key p.txSlot).loaded && (p.key (~~~p.txSlot)).loaded
  let p := p.useKey (if turn then ~~~p.txSlot else p.txSlot)
  { p with
    up := true, stopped := false, cause := 0, sendSeq := 0, recvSeq := 0, replay := [], carried := [], asked := false
    tagFail := none
    txRing := .replicate 256 0, txPtr := 0, rxRing := .replicate 256 0, rxPtr := 0, switchWanted := false
    txSlot := if turn then ~~~p.txSlot else p.txSlot, rxSlot := if turn then ~~~p.txSlot else p.rxSlot
    counter := if turn then 0 else p.counter, rxCounter := if turn then 0 else p.rxCounter }

/-- PORT_BRING_UP (R309, R317, R318): a port whose peer lies outside the domain stays down; what was held for want
of a way is sent (R311, R312). -/
def execPortBringUp (src : MgmtSource) (port : Nat) (s : State) : Host.Outcome State Fault Refusal :=
  conclude (portCommand src port (fun s n => inDomain s.dev (peerOf s.dev.devid n.val).toNat) fun n => do
    setPort n Port.bringUp
    setDev Device.release
    pure 0) s

/-- WATCHDOG_LIMIT (R380): 0 disables the watchdog. -/
def execWatchdogLimit (src : MgmtSource) (limit : Nat) (s : State) : Host.Outcome State Fault Refusal :=
  conclude (setCommand src 7 none
    (fun _ => limit == 0 || (decide (2 ^ 20 ≤ limit) && decide (limit ≤ 2 ^ 40))) fun d => { d with watchdog := limit }) s

/-- The count of corrected errors of a counter (R385). -/
def errorCount (d : Device) (counter : Nat) : BitVec 32 :=
  match d.errors.find? fun e => e.1 == counter with
  | some e => e.2
  | none => 0

/-- ERRORS (R385): the count is returned and cleared. -/
def execErrors (src : MgmtSource) (counter : Nat) (s : State) : Host.Outcome State Fault Refusal :=
  conclude (command src 8 none (fun _ => true) do
    let d ← getDev
    setDev fun d => { d with errors := d.errors.filter fun e => e.1 != counter }
    pure ((errorCount d counter).setWidth 64)) s

/-- POWER (R395). -/
def execPower (src : MgmtSource) (watts : Nat) (s : State) : Host.Outcome State Fault Refusal :=
  conclude (setCommand src 9 none (fun _ => decide (900 ≤ watts) && decide (watts ≤ 1800)) fun d =>
    { d with powerLimit := watts }) s

/-- The 64 bytes of a tenant slot (R58, R394). -/
def slotBytes (h : Handler) : List Byte := bytesOf 64 (numberOf (h.program.flatMap fun w => bytesOf 2 w.toNat))

/-- The words of the standard handler in slot 15, which the spec gives (R84, R285). -/
def add192Words : List (BitVec 16) := [0x1DF8, 0xB17A, 0x1C00, 0x6E38, 0x2020, 0x3268, 0x34B0, 0xD1C0]

/-- The standard handlers in their slots: each has exactly the instructions of its length (R285). -/
def standardSlots : List Handler :=
  (numbered standardLengths).map fun (i, n) =>
    { program := if i == 15 then add192Words else (List.range n).map (Config.standardWord i) }

/-- The bytes of every handler slot of every handler engine, in engine then slot order (R394). -/
def handlerBytes (d : Device) : List Byte :=
  (List.replicate (48 + Config.lpddrControllers) ((standardSlots ++ d.handlers.toList).flatMap slotBytes)).flatten

/-- The targets in an order (R324; log 14). -/
def allTargets : List Target :=
  (List.range 48).map .gddr ++ (List.range Config.lpddrControllers).map .lpddr ++ (List.range 48).map .gddrHandler ++
  (List.range Config.lpddrControllers).map .lpddrHandler ++ (List.range 64).map .vault ++ [.ingress, .hostPort]

/-- The bytes of every access-table window, in target then tenant order (R394); one not set is zeros. -/
def windowBytes (d : Device) : List Byte :=
  allTargets.flatMap fun t => (List.range 64).flatMap fun te => (List.range 8).flatMap fun i =>
    match d.windows.find? fun w => w.1 == t && w.2.1.toNat == te && w.2.2.1.toNat == i with
    | some w => bytesOf 8 w.2.2.2.1.toNat ++ bytesOf 8 w.2.2.2.2.toNat
    | none => bytesOf 16 0

/-- The attestation report (R394): 256 bytes. -/
def attestReport (d : Device) (nonce : BitVec 256) : List Byte :=
  bytesOf 4 0x5454414B ++ bytesOf 1 1 ++ bytesOf 1 d.devid.toNat ++ bytesOf 2 d.domid.toNat ++ bytesOf 32 nonce.toNat ++
  bytesOf 48 (numberOf d.measurement) ++ bytesOf 48 (numberOf (Config.sha384 (handlerBytes d))) ++
  bytesOf 48 (numberOf (Config.sha384 (windowBytes d))) ++ bytesOf 4 d.fused.toNat ++ bytesOf 68 0

/-- ATTEST (R393, R394): the report with its signatures, and the certificates, are returned. -/
def execAttest (src : MgmtSource) (nonce : BitVec 256) (s : State) : Host.Outcome State Fault Refusal :=
  conclude (setCommand src 10 none (fun _ => true) fun d =>
    let r := attestReport d nonce
    { d with reports := d.reports ++ [(r, Config.identitySign d.measurement r, Config.certificates d.measurement)] }) s

/-- FUSE (R397): the fused security version rises to the running one, and never falls. -/
def execFuse (src : MgmtSource) (s : State) : Host.Outcome State Fault Refusal :=
  conclude (setCommand src 11 none (fun _ => true) fun d =>
    { d with fused := if d.fused.ult d.version then d.version else d.fused }) s

/-- The device with the ports down whose peers its domain does not have (R309). -/
def Device.closePorts (d : Device) : Device :=
  (List.finRange 30).foldl (fun d n =>
    if (d.ports.get n).up && !inDomain d (peerOf d.devid n.val).toNat then d.cut n false 0 else d) d

/-- DOMAIN (R308, R309, R397): accepted only before the first launch. -/
def execDomain (src : MgmtSource) (rows cols : Nat) (domid : BitVec 16) (sequencer barrierHub : BitVec 8) (s : State) :
    Host.Outcome State Fault Refusal :=
  conclude (setCommand src 12 none
    (fun s => !s.dev.launched && decide (1 ≤ rows) && decide (rows ≤ 16) && decide (1 ≤ cols) && decide (cols ≤ 16))
    fun d => { d with rows, cols, domid, sequencer, barrierHub }.closePorts) s

end Sys2Proof.Machine
end

