-- ==== Sys2Proof/Machine/Saving.lean ====
section
/-!
DEFINITION. The context frame and what is saved in it and restored from it: TASK_SAVE and RESTORE (06, R112; 12, R250;
14, R277; 17, R307; 21, R358 to R363; 24, R377 to R379).  What the layout of R361 places is written to and read back from
memory; what it only names is kept in the device's own copy of the task (log 21).
-/

namespace Sys2Proof.Machine

/-! The frame as a number. -/

/-- The bytes of a frame (R361). -/
def frameLength (g : Grant) (parked : Nat) (group : Bool) : Nat :=
  0x9000 + g.vbanks * 32768 + parked * 1024 + g.acc * 65536 + (if group then 4096 + g.tiles * 32768 + g.spad else 0)

/-- Fields of a frame: offset, bytes, value. -/
abbrev Fields := List (Nat × Nat × Nat)

/-- Equal fields in a row from an offset. -/
def fieldRow (off size : Nat) (vs : List Nat) : Fields :=
  ((List.range vs.length).zip vs).map fun (i, v) => (off + size * i, size, v)

/-- A number with the fields in their places (R2). -/
def packFields (fs : Fields) : Nat := fs.foldl (fun n f => n + f.2.2 % 2 ^ (8 * f.2.1) * 2 ^ (8 * f.1)) 0

/-- A stream in its 64 bytes (R361): the format's qword also holds the tensor scale, in [47:32] (log 21). -/
def streamWords (q : Stream) : List Nat :=
  [q.base.toNat, q.extent.toNat, q.layout.toNat, q.format.toNat + q.tscale.toNat * 2 ^ 32, q.flag.toNat, q.leader.toNat,
   q.cursor.toNat, q.fill.toNat]

/-- A binding as its descriptor (R265); an empty slot is zeros. -/
def bindingWords : Option Binding → List Nat
  | none => [0, 0, 0, 0, 0, 0, 0, 0]
  | some b => [b.base.toNat, b.length.toNat, b.planes.toNat, b.sync.toNat, 0, 0, 0, 0]

/-- A scoreboard token (R361). -/
def tokenWord (k : KTok) : Nat := (if k.set then 1 else 0) + (if k.err then 2 else 0) + k.pend % 256 * 2 ^ 8

/-- The first `mma` of the task with slices left (R250). -/
def Task.savedMma (t : Task) : Option (MJob × Mma) :=
  t.mjobs.findSome? fun j => match j.work with
    | .mma m => some (j, m)
    | _ => none

/-- The copies of the task (R307). -/
def Task.copies (t : Task) : List (CJob × Copy) :=
  t.cjobs.filterMap fun j => match j.work with
    | .copy x => some (j, x)
    | _ => none

/-- The phase of an arrived `bar sub=sync`, with bit 16 set (R112, R361; log 21). -/
def heldWord : HeldS → Nat
  | .resumeSync p => p.toNat + 2 ^ 16
  | _ => 0

/-- What the header of a frame says of the save (R361). -/
structure SaveNote where
  cause : BitVec 8
  count : Nat
  group : Bool
  lease : Bool
  leaseCount : Nat
  deriving DecidableEq, Repr

/-- The parked registers of a task, in the order of the spill map. -/
def Task.parked (t : Task) : List Spill := t.spill.toList.filterMap id

/-- Values packed one after another, each in its number of bits, the first lowest. -/
def packBits : List (Nat × Nat) → Nat
  | [] => 0
  | (w, v) :: fs => v % 2 ^ w + 2 ^ w * packBits fs

/-- The value of a field of some bits, at a bit. -/
def bitField (n at_ w : Nat) : Nat := n / 2 ^ at_ % 2 ^ w

/-- Base, extent, layout, format and cursor of a stream in 263 bits. -/
def streamBits (q : Stream) : List (Nat × Nat) :=
  [(64, q.base.toNat), (64, q.extent.toNat), (52, q.layout.toNat), (19, q.format.toNat), (64, q.cursor.toNat)]

/-- The stream in 263 bits. -/
def streamOfBits (n at_ : Nat) : Stream :=
  { base := BitVec.ofNat 64 (bitField n at_ 64), extent := BitVec.ofNat 64 (bitField n (at_ + 64) 64)
    layout := BitVec.ofNat 64 (bitField n (at_ + 128) 52), format := BitVec.ofNat 32 (bitField n (at_ + 180) 19)
    cursor := BitVec.ofNat 64 (bitField n (at_ + 199) 64) }

/-- How far a copy has come, in 8 bits. -/
def copyStatus (x : Copy) : Nat :=
  packBits ([x.readSet, x.writeSet, x.allRead, x.flagSent, x.exposed, x.dead,
    decide (1 ≤ x.srcTiles.length), decide (2 ≤ x.srcTiles.length)].map fun b => (1, if b then 1 else 0))

/-- A saved copy in its 128 bytes (R307, R361): word, address, n, next chunk, flags, status, source and destination, then the
index stream or what other copies have instead (log 21). -/
def copyBits (j : CJob) (x : Copy) : Nat :=
  packBits ([(32, j.word.toNat), (64, j.pc.toNat), (73, x.count), (50, x.next), (8, j.flags.toNat), (8, copyStatus x)] ++
    streamBits x.qs ++ streamBits x.qd ++
    (if x.kind == .gather || x.kind == .scatter then streamBits x.idx
     else [(16, x.qs.tscale.toNat), (64, x.qd.flag.toNat), (64, x.qd.fill.toNat)]))

/-- The part of a frame below 0x9000 (R361); s0 reads as zero (R110).  The program counter of an engine that trapped in a slice
or a chunk addresses its `mma` or copy (R377). -/
def frameState (t : Task) (n : SaveNote) : Fields :=
  let g := t.grant
  let flags := (if n.group then 1 else 0) + (if t.exposed then 2 else 0) + (if n.lease then 4 else 0) +
    (if t.level then 8 else 0)
  [(0, 4, 0x5854434B), (4, 2, 1), (6, 2, flags), (8, 8, frameLength g t.parked.length n.group), (0x10, 8, t.handle.toNat),
   (0x18, 8, t.taskid.toNat), (0x20, 1, t.tenant.toNat), (0x21, 1, t.prio.toNat), (0x22, 1, n.cause.toNat),
   (0x23, 1, n.count), (0x28, 8, t.unack.toNat), (0x30, 4, g.tileBase), (0x34, 4, g.tiles), (0x38, 4, g.spadBase),
   (0x3C, 4, g.spad)] ++
  fieldRow 0x40 8 [t.pcS.toNat, t.pcV.toNat, (t.backM.getD t.pcM).toNat, (t.backC.getD t.pcC).toNat] ++
  fieldRow 0x60 8 (0 :: (t.s.toList.drop 1).map BitVec.toNat) ++
  fieldRow 0x260 4 (t.x.toList.map BitVec.toNat) ++
  fieldRow 0x2A0 32 (t.m.toList.map BitVec.toNat) ++
  fieldRow 0x3A0 1 (t.laneFlags.toList.map BitVec.toNat) ++
  fieldRow 0x4A0 8 (t.q.toList.flatMap streamWords) ++
  fieldRow 0x8A0 8 (t.rt.toList.map BitVec.toNat) ++
  fieldRow 0x8C0 1 (t.tok.toList.map BitVec.toNat ++ t.tokRsv.toList.map BitVec.toNat) ++
  fieldRow 0x8E0 4 (t.k.toList.map tokenWord) ++
  fieldRow 0x900 8 [t.trapcause.toNat, t.trappc.toNat, t.trapword.toNat, t.trapaddr.toNat, t.trapvec.toNat, t.vctl.toNat,
    t.tflags.toNat, n.leaseCount] ++
  fieldRow 0x940 8 (t.bindings.toList.flatMap bindingWords) ++
  fieldRow 0xD40 8 (t.spill.toList.map fun x => match x with | some _ => 2 ^ 63 | none => 0) ++
  [(0xF40, 8, heldWord t.held)] ++
  (match t.savedMma with
   | none => []
   | some (j, m) =>
     fieldRow 0xF80 8 [j.word.toNat, m.next, m.qa.cursor.toNat, m.qb.cursor.toNat, j.gives.toNat, j.pc.toNat, j.flags.toNat] ++
     fieldRow 0x1000 2 ((m.bookA.entries.toList ++ m.bookB.entries.toList).map BitVec.toNat)) ++
  fieldRow 0x1040 128 ((t.copies.take 8).map fun (j, x) => copyBits j x) ++
  [(0x2000, 8, t.pending.length)] ++
  ((List.range 24).zip t.pending).flatMap (fun (i, p) =>
    let o := 0x2040 + 1088 * i
    [(o, 1024, p.result.value.toNat),
     (o + 1024, 2, match p.result.dest with | .reg d => d.toNat | .mask m => 256 + m.toNat),
     (o + 1026, 1, p.due), (o + 1027, 1, (orFlags p.result.flags.toList).toNat), (o + 1028, 32, p.result.lanes.toNat)])

/-- The offsets in a frame of the parked registers, of the accumulator tiles behind so many of them, and of the group part
(R361). -/
def frameParked (g : Grant) : Nat := 0x9000 + g.vbanks * 32768
def frameAccAt (g : Grant) (parked : Nat) : Nat := frameParked g + parked * 1024
def frameGroup (g : Grant) (parked : Nat) : Nat := frameAccAt g parked + g.acc * 65536

/-- The whole frame of a task on a core (R361). -/
def frameOf (s : State) (core : Fin 256) (t : Task) (n : SaveNote) : Nat :=
  let g := t.grant
  let k := s.cores.get core
  let regs := (t.v.toList.take (32 * g.vbanks)).map BitVec.toNat
  let parked := t.parked.map fun x => x.data.toNat
  let o1 := frameParked g
  let o2 := frameAccAt g parked.length
  let accs := (g.accTiles.take g.acc).map fun a => readBytes s.mem (accByte core a 0) 65536
  let o3 := frameGroup g parked.length
  let tiles := (List.range g.tiles).map (g.tileBase + ·)
  packFields (frameState t n ++ fieldRow 0x9000 1024 regs ++ fieldRow o1 1024 parked ++ fieldRow o2 65536 accs ++
    (if n.group then
      fieldRow o3 1 (tiles.flatMap fun i => [(k.tileState i).toNat, (k.tileSpan i).toNat]) ++
      fieldRow (o3 + 4096) 32768 (tiles.map fun i => readBytes s.mem (tileByte core i 0) 32768) ++
      [(o3 + 4096 + g.tiles * 32768, g.spad, readBytes s.mem (spadByte core g.spadBase) g.spad)]
     else []))

/-- The fields of a frame that hold poisoned data, each by its offset and bytes: scalar registers, the lanes of vector registers, of
parked registers and of results in flight, and the words of accumulators, tiles and scratchpad (R386). -/
def poisonFields (s : State) (core : Fin 256) (t : Task) (group : Bool) : List (Nat × Nat) :=
  let g := t.grant
  let lanes := fun (off : Nat) (m : Mask) =>
    if m == 0 then [] else ((List.range 256).filter fun i => m.getLsbD i).map fun i => (off + 4 * i, 4)
  let words := fun (off lo len : Nat) => show List (Nat × Nat) from
    (s.dev.poison.filter fun u => decide (lo ≤ u) && decide (u < lo + len)).map fun u => (off + (u - lo), 8)
  let n := t.parked.length
  (((List.range 64).filter fun i => t.sPoison.getLsbD i).map fun i => (0x60 + 8 * i, 8)) ++
  (t.vPoison.toList.take (32 * g.vbanks)).zipIdx.flatMap (fun (m, i) => lanes (0x9000 + 1024 * i) m) ++
  t.parked.zipIdx.flatMap (fun (x, i) => lanes (frameParked g + 1024 * i) x.poison) ++
  (t.pending.take 24).zipIdx.flatMap (fun (p, i) => lanes (0x2040 + 1088 * i) p.result.poison) ++
  (g.accTiles.take g.acc).zipIdx.flatMap (fun (a, i) => words (frameAccAt g n + 65536 * i) (accByte core a 0) 65536) ++
  (if group then
    words (frameGroup g n + 4096) (tileByte core g.tileBase 0) (32768 * g.tiles) ++
    words (frameGroup g n + 4096 + 32768 * g.tiles) (spadByte core g.spadBase) g.spad
   else [])

/-- The units of poison that hold the fields of a page of a frame which stands at a byte of storage. -/
def pageUnits (bad : List (Nat × Nat)) (page byte : Nat) : List Nat :=
  (bad.filter fun f => f.1 / 4096 == page).map fun f => poisonUnit (byte + f.1 % 4096)

/-- The first 4 KiB boundary at or after an address. -/
def pageUp (a : Word) : Word := BitVec.ofNat 64 ((a.toNat + 4095) / 4096 * 4096)

/-- The byte of storage where a 4 KiB piece of a frame stands: a GEN address in byte memory (R361; log 11). -/
def framePage (s : State) (tenant : BitVec 6) (k : Acc) (a : Word) : W Nat := do
  require .path (pathOf a == 0)
  let x ← locate s none {} tenant .s k (.bytes 8) a
  let y ← locate s none {} tenant .s k (.bytes 8) (a + 4088)
  match x, y with
  | .here b _ false, .here e _ false => do
    require .path (e == b + 8 * 4088)
    pure (b / 8)
  | _, _ => throw (.cause .path)

/-- A frame is written, piece by piece; none when a piece cannot be (R361).  What holds its poisoned fields is poisoned (R386,
R387). -/
def writeFrame (tenant : BitVec 6) (a : Word) (len v : Nat) (bad : List (Nat × Nat)) : M Bool :=
  (List.range ((len + 4095) / 4096)).foldlM (fun (ok : Bool) i => do
    let s ← getState
    let at_ := a + BitVec.ofNat 64 (4096 * i)
    match framePage s tenant .write at_ with
    | .error (.absent b) => stop (.fault (.absentStorage b))
    | .error (.cause _) => pure false
    | .ok b => do
      applyWrites [] [{ bit := 8 * b, width := 32768, value := v / 2 ^ (32768 * i) % 2 ^ 32768, addr := at_ }]
      let units := ((writePlaces s.dev.migrations (8 * b)).flatMap fun p => pageUnits bad i (p / 8)).dedup
      (if units.isEmpty then pure () else setDev fun d => { d with poison := d.poison.filter (fun u => !units.contains u) ++ units })
      pure ok) true

/-! Saving. -/

/-- Whether an M instruction is an `mma` with slices left, which is carried to the restore (R250). -/
def MJob.carried (j : MJob) : Bool :=
  match j.work with
  | .mma m => decide (m.next < m.slices)
  | _ => false

/-- Whether a `cabort` of the task waits until its abort has been sent (R303). -/
def Task.aborts (t : Task) : Bool :=
  t.cjobs.any fun j => match j.work with
    | .aborting _ => true
    | _ => false

/-- Whether a write of a task to its core's own memory, or of a chunk that it is applying, is on its way here. -/
def writesHome (d : Device) (t : Task) : Bool :=
  d.rx.any fun p => match p.body with
    | .store u o ws _ => o.dev == d.devid && o.tid == t.tid &&
        (t.cjobs.any (fun j => match j.work with | .copy x => x.uid == u | _ => false) ||
          ws.any fun w => decide (8 * 2 ^ 42 ≤ w.bit))
    | .aliasStore u o _ => o.dev == d.devid && o.tid == t.tid &&
        t.cjobs.any fun j => match j.work with | .copy x => x.uid == u | _ => false
    | _ => false

/-- Whether the engines of a task have drained so far that it can be saved (R112, R250, R307, R358 step 3). -/
def Task.drained (t : Task) (d : Device) : Bool :=
  !t.midScalar && t.mjobs.all (fun j => j.carried || j.finished d) && !t.aborts && !writesHome d t

/-- The `mma` that are carried to the restore, each with the tokens of what completes behind it at the save, and the tokens of
what completes before the first of them: tokens of one engine are given in program order (R20, R21, R250; log 63). -/
def carryM : List MJob → List (BitVec 3) × List MJob
  | [] => ([], [])
  | j :: js =>
    let (ms, ks) := carryM js
    if j.carried then ([], { j with carry := j.carry ++ ms } :: ks) else (j.masks ++ ms, ks)

/-- Likewise the copies (R307). -/
def carryC : List CJob → List (BitVec 3) × List CJob
  | [] => ([], [])
  | j :: js =>
    let (ms, ks) := carryC js
    if j.isCopy then ([], { j with carry := j.carry ++ ms } :: ks) else (j.masks ++ ms, ks)

/-- Issued instructions that complete before the save do so: all but an `mma` with slices left and copies (R250, R307,
R358, R378). -/
def settleJobs (l : Fin 1024) : M Unit := do
  let t ← getTask l
  (t.mjobs.filter fun j => !j.carried).forM (completeMJob l)
  (t.cjobs.filter fun j => !j.isCopy).forM fun j => setTask l fun t => t.raiseFlags j.flags
  setTask l fun x =>
    { (x.redeemAll .m (carryM t.mjobs).1).redeemAll .c (carryC t.cjobs).1 with
      markM := ((t.mjobs.take t.markM).filter MJob.carried).length
      markC := ((t.cjobs.take t.markC).filter CJob.isCopy).length
      mjobs := (carryM t.mjobs).2
      cjobs := (carryC t.cjobs).2 }

/-- What becomes of a held scalar instruction (R112). -/
def HeldS.saved : HeldS → HeldS
  | .barrier _ phase true _ => .resumeSync phase
  | .resumeSync phase => .resumeSync phase
  | _ => .none

/-- The task as it is saved (R358, R359): results in flight carry their distance, what was asked for unissued
instructions is forgotten. -/
def Task.forSave (t : Task) : Task :=
  let t := t.landDue
  { t with
    pending := t.pending.map fun p => { p with due := p.due - t.vcount }
    vcount := 0
    asked := []
    answers := []
    held := t.held.saved
    mode := .ready
    swapped := false
    saveStep := 0
    saveLease := none
    trapAt := none
    work := 0
    stall := 0 }

/-- The tasks that are saved with the task in a place: a trapped task alone, else its group (R356, R360). -/
def savedWith (s : State) (l : Fin 1024) (t : Task) : List (Fin 1024) :=
  if t.mode == .saving 2 then [l]
  else (groupPlaces s t.gid (coreOf l)).filter fun x => match s.tasks.get x with
    | some y => y.mode != .saving 2
    | none => false

/-- A core loses a task: its lease passes, its vector banks are idle, its monitor entry is free, what it has issued stays counted
(R28, R112, R249, R358, R396). -/
def Core.without (k : Core) (slot : Fin 4) (t : Task) (clock : Nat) : Core :=
  let k := { k with leaseWaiting := k.leaseWaiting &&& ~~~(oneBit 4 slot.val)
                    monitors := k.monitors.filter fun m => m.slot != slot
                    worked := if t.work == 0 then k.worked else k.worked ++ [(t.handle, t.work)] }
  let k := if k.leaseHolder == some slot then k.passLease clock else k
  k.setBanks t.grant.banks .idle

/-- A group's tiles on a core are free once none of its tasks is left there, in a slot or saved without them (R37, R358 step
6). -/
def freeGroup (core : Fin 256) (t : Task) : M Unit := do
  let s ← getState
  let held := !(groupPlaces s t.gid core).isEmpty ||
    s.dev.saved.any fun v => v.task.gid == t.gid && v.resident && !v.ended
  if held then pure ()
  else setCore core fun k => k.setBanks ((List.range t.grant.tiles).map (t.grant.tileBase + ·)) .idle

/-- The slot of a task is free; its group's tiles are with its last task (R37, R358 step 6). -/
def freeTask (l : Fin 1024) (t : Task) : M Unit := do
  emit (.task l none)
  let s ← getState
  setCore (coreOf l) fun k => k.without (slotOf l) t s.dev.clock
  freeGroup (coreOf l) t

/-- The barrier that a task was swapped out on, and whether its phase has changed since (R273). -/
def swappedOn (s : State) (t : Task) : Option (BarRef × Bool) :=
  match t.swapped, t.held with
  | true, .barrier b phase _ _ => some (b, phaseOf s b != phase)
  | _, _ => none

/-- The tasks of a group: in slots, and saved (R361). -/
def groupSize (s : State) (gid : Nat) : Nat :=
  (s.tasks.toList.filter fun t? => match t? with
    | some t => t.gid == gid
    | none => false).length + (s.dev.saved.filter fun v => v.task.gid == gid && !v.ended).length

/-- One task's frame is written at FRAME, and the task leaves its slot (R358 steps 5 to 7).  False when the frame cannot
be written. -/
def saveTask (l : Fin 1024) (cause : BitVec 8) (count : Nat) (group last : Bool) : M Bool := do
  let t ← getTask l
  let s ← getState
  let core := coreOf l
  let k := s.cores.get core
  let swap := swappedOn s t
  let x := t.forSave
  let bad := poisonFields s core x group
  let note : SaveNote := { cause, count, group, lease := t.saveLease.isSome, leaseCount := t.saveLease.getD 0 }
  let frame := pageUp k.frame
  let len := frameLength x.grant x.parked.length group
  let ok ← writeFrame k.frameTenant frame len (frameOf s core x note) bad
  setCore core fun k => { k with frame := pageUp (frame + BitVec.ofNat 64 len), resume := k.resume.set (slotOf l) 0 }
  setDev fun d => { d with
    saved :=
      (if group then d.saved.map fun v => if v.task.gid == t.gid then { v with resident := false } else v else d.saved) ++
      [{ resident := !last, core, slot := slotOf l, task := x, frame, frameTenant := k.frameTenant, cause, hasGroup := group,
         poisoned := bad, books := k.books, epis := k.epis, barrier := swap.map Prod.fst, withSupervisor := cause == 2 }] }
  notify (.saved frame cause)
  freeTask l t
  pure ok

/-- Step 4 of R358: the lease passes, and what the frame says of it is kept. -/
def leaveLease (l : Fin 1024) : M Unit := do
  let s ← getState
  let core := coreOf l
  let k := s.cores.get core
  let count := if k.leaseHolder == some (slotOf l) then some k.leaseCount else none
  setCore core fun k =>
    let k := { k with leaseWaiting := k.leaseWaiting &&& ~~~(oneBit 4 (slotOf l).val) }
    if count.isSome then k.passLease s.dev.clock else k
  setTask l fun t => { t with saveStep := 2, saveLease := count }

/-- TASK_SAVE (R358, R361): the next step in saving a task that is stopped, with its core group unless it trapped: its
collectives are aborted; once its engines have drained, its lease passes; once FRAME holds an address, it is written.  A
trapped task of a group is saved before the others, so that these carry the group part (R363). -/
def execTaskSave (core slot : Nat) (s : State) : Host.Outcome State Fault Refusal :=
  conclude (do
    let (l, t) ← eventTask core slot
    let st ← getState
    match t.mode with
    | .saving cause => do
      let ls := savedWith st l t
      let group := (groupPlaces st t.gid (coreOf l)).length == ls.length
      let ts := ls.filterMap fun x => st.tasks.get x
      enabled (ls.head? == some l && (cause == 2 || group) &&
        ts.all fun x => match x.mode with | .saving _ => true | _ => false)
      if t.saveStep == 0 then do
        ts.forM fun x => abortPosted x.tid 1
        ls.forM fun x => setTask x fun t => { t with saveStep := 1 }
      else if t.saveStep == 1 then do
        enabled (ts.all fun x => x.drained st.dev)
        ls.forM settleJobs
        ls.forM leaveLease
      else do
      enabled ((st.cores.get (coreOf l)).frame != 0)
      let changed := ts.any fun x => match swappedOn st x with
        | some (_, c) => c
        | none => false
      (numbered ls).forM fun (i, x) => do
        let ok ← saveTask x cause (groupSize st t.gid) (group && i == 0) group
        enabled ok
      if cause == 1 || cause == 3 || (cause == 4 && changed) then setDev fun d => queueGroup t.gid d else pure ()
    | _ => notNow) s

/-! Restoring. -/

/-- The entries of a frame's spill map that are occupied. -/
def frameUsed (v : Nat) : List Nat := (List.range 64).filter fun i => field v (0xD40 + 8 * i) 8 / 2 ^ 63 == 1

/-- Whether a frame's header keeps magic, version and length (R362 step 1), and its reserved fields are zero (R4, R361), from its
first 4 KiB. -/
def frameGood (g : Grant) (group : Bool) (v : Nat) : Bool :=
  field v 0 4 == 0x5854434B && field v 4 2 == 1 && field v 6 2 / 2 ^ 4 == 0 && field v 0x24 4 == 0 &&
  field v 8 8 == frameLength g (frameUsed v).length group

/-- A page of a saved frame, and those of its fields that are poisoned still; other poison there makes it unreadable (R362,
R386). -/
def readFramePage (s : State) (x : Saved) (i : Nat) : W (Nat × List (Nat × Nat)) := do
  let b ← framePage s x.frameTenant .read (x.frame + BitVec.ofNat 64 (4096 * i))
  let real := readPlace s.dev.migrations (8 * b) / 8
  let known := pageUnits x.poisoned i real
  require .mcheck (!rangePoisoned (s.dev.poison.filter fun u => !known.contains u) real 4096)
  pure (readBytes s.mem real 4096,
    x.poisoned.filter fun f => f.1 / 4096 == i && s.dev.poison.contains (poisonUnit (real + f.1 % 4096)))

/-- A frame is read whole, with the fields of it that are poisoned (R362 step 1). -/
def readFrame (s : State) (x : Saved) : W (Nat × List (Nat × Nat)) := do
  let (v, bad) ← readFramePage s x 0
  require .path (frameGood x.task.grant x.hasGroup v)
  (List.range ((field v 8 8 + 4095) / 4096 - 1)).foldlM (fun (n, bad) i => do
    let (p, more) ← readFramePage s x (i + 1)
    pure (n + p * 2 ^ (32768 * (i + 1)), bad ++ more)) (v, bad)

/-- The poison of so many fields of a frame in a row, by the poisoned fields. -/
def badBits (w : Nat) (bad : List (Nat × Nat)) (off size : Nat) : BitVec w :=
  bad.foldl (fun m f => if f.2 == size && decide (off ≤ f.1) && decide (f.1 < off + size * w)
    then m ||| oneBit w ((f.1 - off) / size) else m) 0

/-- The stream in 64 bytes of a frame (R361). -/
def streamFrom (v off : Nat) : Stream :=
  let w := fun i => BitVec.ofNat 64 (field v (off + 8 * i) 8)
  { base := w 0, extent := w 1, layout := w 2 &&& BitVec.ofNat 64 (2 ^ 52 - 1), format := BitVec.ofNat 32 (field v (off + 24) 4 % 2 ^ 19)
    tscale := BitVec.ofNat 16 (field v (off + 28) 2), flag := w 4, leader := (w 5).setWidth 4, cursor := w 6, fill := w 7 }

/-- The binding in 64 bytes of a frame (R265). -/
def bindingFrom (v off : Nat) : Option Binding :=
  if field v (off + 8) 8 == 0 then none
  else some { base := BitVec.ofNat 64 (field v off 8), length := BitVec.ofNat 64 (field v (off + 8) 8)
              planes := BitVec.ofNat 16 (field v (off + 16) 2), sync := BitVec.ofNat 64 (field v (off + 24) 8) }

/-- The scoreboard token in 4 bytes of a frame (R361). -/
def tokenFrom (n : Nat) : KTok := { set := n % 2 == 1, err := n / 2 % 2 == 1, pend := n / 2 ^ 8 % 256 }

/-- The M instructions of a task with the saved `mma` as its frame has it (R250, R361): the word, next slice, cursors, G
places and codebooks of the frame; the rest is the controller's, or of the task's streams where it has none. -/
def mjobsFrom (t : Task) (v : Nat) (q : BitVec 4 → Stream) : List MJob :=
  let word := field v 0xF80 8 % 2 ^ 32
  let cursor := fun off => BitVec.ofNat 64 (field v off 8)
  let book := fun off => ({ entries := .ofFn fun i => BitVec.ofNat 16 (field v (off + 2 * i.val) 2) } : Codebook)
  let narrow := fun (b : Codebook) => { b with narrow := b.entries.toList.all fun e => e.toNat % 16 == 0 }
  let own : Mma := match t.savedMma with
    | some (_, m) => m
    | none => { qa := q (BitVec.ofNat 4 (bitField word 22 4)), qb := q (BitVec.ofNat 4 (bitField word 18 4)), acc := 0
                mode := 0, slices := 0, next := 0, bookA := {}, bookB := {}, order := 0 }
  let m : Mma := { own with
    qa := { own.qa with cursor := cursor 0xF90 }, qb := { own.qb with cursor := cursor 0xF98 }
    acc := BitVec.ofNat 4 (bitField word 14 4), mode := BitVec.ofNat 2 (bitField word 12 2), slices := bitField word 0 6
    next := field v 0xF88 8, bookA := narrow (book 0x1000), bookB := narrow (book 0x1020) }
  let job : MJob := { word := BitVec.ofNat 32 word, pc := BitVec.ofNat 64 (field v 0xFA8 8)
                      gives := BitVec.ofNat 3 (field v 0xFA0 8), work := .mma m, flags := BitVec.ofNat 8 (field v 0xFB0 8)
                      reads := (tileHandle m.qa.base).toList ++ (tileHandle m.qb.base).toList
                      slotA := some (t.accTile m.acc), carry := (t.mjobs.head?.map MJob.carry).getD [] }
  if word == 0 then t.mjobs.drop 1 else job :: t.mjobs.drop 1

/-- What a copy's word says it is (R81). -/
def copyKind (word : Nat) : CopyKind :=
  let fn := word % 2 == 1
  match bitField word 26 6 with
  | 1 => if fn then .convert else .plain
  | 2 => .add fn
  | 3 => .gather
  | 4 => .scatter
  | 5 => if fn then .fill else .zero
  | 6 => .flagged
  | _ => .staged

/-- The copy in 128 bytes of a frame (R307, R361): what they do not hold is the controller's, and so is how it stands with one that
ended in error while it was saved (R294). -/
def copyFrom (own : Copy) (n : Nat) : Copy :=
  let word := bitField n 0 32
  let kind := copyKind word
  let bit := fun i => bitField n (227 + i) 1 == 1
  let kept := fun i (b : Bool) => bit i || (own.dead && b)
  let qs := streamOfBits n 235
  let qd := streamOfBits n 498
  let indexed := kind == .gather || kind == .scatter
  let idx : Stream := if indexed then streamOfBits n 761 else {}
  let qs := if indexed then qs else { qs with tscale := BitVec.ofNat 16 (bitField n 761 16) }
  let qd := if indexed then qd
    else { qd with flag := BitVec.ofNat 64 (bitField n 777 64), fill := BitVec.ofNat 64 (bitField n 841 64) }
  let tiles := (([qs] ++ (if indexed then [idx] else [])).filterMap fun q => tileHandle q.base).dedup
  { own with
    kind, qs, qd, idx, count := bitField n 96 73, next := bitField n 169 50, exposed := bit 4, allRead := bit 2
    readSet := kept 0 own.readSet, writeSet := kept 1 own.writeSet, dead := kept 5 own.dead, flagSent := bit 3, sc := BitVec.ofNat 3 (bitField word 3 3)
    kr := if bitField word 26 6 == 5 then none else some (BitVec.ofNat 3 (bitField word 15 3))
    kv := some (BitVec.ofNat 3 (bitField word 12 3))
    flag := if kind == .flagged && qd.flag != 0 then some qd.flag else none
    srcTiles := if bit 7 then tiles else if bit 6 then (if own.srcTiles.isEmpty then tiles.take 1 else own.srcTiles) else []
    dstTile := tileHandle qd.base }

/-- The C instructions of a task with its copies as its frame has them (R307): the i-th copy in the frame is the i-th that
the controller holds; one that it does not hold gets a fresh identifier. -/
def cjobsFrom (t : Task) (v uid : Nat) : List CJob :=
  let raw := fun i => field v (0x1040 + 128 * i) 128
  let fresh := fun (i : Nat) =>
    ({ kind := .plain, qs := {}, qd := {}, idx := {}, srcBook := {}, dstBook := {}, exposed := false, count := 0, next := 0
       sc := 0, kr := none, kv := none, uid := uid + i } : Copy)
  let job := fun (i : Nat) (own : Copy) (carry : List (BitVec 3)) =>
    ({ carry, word := BitVec.ofNat 32 (bitField (raw i) 0 32), pc := BitVec.ofNat 64 (bitField (raw i) 32 64)
       gives := BitVec.ofNat 3 (bitField (raw i) 6 3), work := .copy (copyFrom own (raw i))
       flags := BitVec.ofNat 8 (bitField (raw i) 219 8) } : CJob)
  if t.cjobs.isEmpty then ((List.range 8).filter fun i => raw i != 0).map fun i => job i (fresh i) []
  else
    t.cjobs.zipIdx.map fun (j, i) => match j.work with
      | .copy x =>
        let n := ((t.cjobs.take i).filter CJob.isCopy).length
        if raw n == 0 then j else job n x j.carry
      | _ => j

/-- The results in flight in a frame's replay buffer (R359, R361).  The flags of each lane, which its entries have no room for,
and the bits that a result writes are the controller's; where it holds none, whole lanes and the flags of the entry. -/
def pendingFrom (t : Task) (v : Nat) (bad : List (Nat × Nat)) : List Pending :=
  (List.range (min 24 (field v 0x2000 8))).map fun i =>
    let o := 0x2040 + 1088 * i
    let d := field v (o + 1024) 2
    let lanes := BitVec.ofNat 256 (field v (o + 1028) 32)
    let dest : VDest := if d < 256 then .reg (BitVec.ofNat 6 d) else .mask (BitVec.ofNat 3 d)
    let own : VResult := match t.pending[i]? with
      | some p => p.result
      | none =>
        let f := BitVec.ofNat 5 (field v (o + 1027) 1)
        { dest, value := 0, bits := if d < 256 then laneBits lanes else BitVec.allOnes 8192
          flags := .ofFn fun k => if lanes.getLsbD k.val then f else 0 }
    { result := { own with dest, lanes, value := BitVec.ofNat 8192 (field v o 1024), poison := badBits 256 bad o 4 }, due := field v (o + 1026) 1 }

/-- The task with what its frame holds (R361, R362 step 2), the data of some fields poisoned (R386): parked registers take the
blocks given.  A program counter that addresses the `mma` or copy that trapped stands behind what is issued, and the engine goes on
from the saved slice or chunk (R377). -/
def Task.fromFrame (t : Task) (v uid : Nat) (bad : List (Nat × Nat)) (blocks : List Nat) : Task :=
  let w := fun off => BitVec.ofNat 64 (field v off 8)
  let pc := fun off (back : Option Word) (real : Word) => if back == some (w off) then real else w off
  let s : Vector Word 64 := .ofFn fun i => w (0x60 + 8 * i.val)
  let x : Vector (BitVec 32) 16 := .ofFn fun i => BitVec.ofNat 32 (field v (0x260 + 4 * i.val) 4)
  let m : Vector Mask 8 := .ofFn fun i => BitVec.ofNat 256 (field v (0x2A0 + 32 * i.val) 32)
  let fl : Vector (BitVec 5) 256 := .ofFn fun i => BitVec.ofNat 5 (field v (0x3A0 + i.val) 1)
  let q : Vector Stream 16 := .ofFn fun i => streamFrom v (0x4A0 + 64 * i.val)
  let rt : Vector Word 4 := .ofFn fun i => w (0x8A0 + 8 * i.val)
  let tok : Vector (BitVec 4) 12 := .ofFn fun i => BitVec.ofNat 4 (field v (0x8C0 + i.val) 1)
  let rsv : Vector (BitVec 4) 12 := .ofFn fun i => BitVec.ofNat 4 (field v (0x8CC + i.val) 1)
  let k : Vector KTok 8 := .ofFn fun i => tokenFrom (field v (0x8E0 + 4 * i.val) 4)
  let bs : Vector (Option Binding) 16 := .ofFn fun i => bindingFrom v (0x940 + 64 * i.val)
  let regs : Vector VReg 64 := .ofFn fun i =>
    if i.val < 32 * t.grant.vbanks then BitVec.ofNat 8192 (field v (0x9000 + 1024 * i.val) 1024) else t.v.get i
  let vPoison : Vector Mask 64 := .ofFn fun i =>
    if i.val < 32 * t.grant.vbanks then badBits 256 bad (0x9000 + 1024 * i.val) 4 else t.vPoison.get i
  let used := frameUsed v
  let spill : Vector (Option Spill) 64 := .ofFn fun i =>
    match used.idxOf? i.val with
    | none => none
    | some n => some
        { block := blocks.getD n 0
          data := BitVec.ofNat 8192 (field v (frameParked t.grant + 1024 * n) 1024)
          poison := badBits 256 bad (frameParked t.grant + 1024 * n) 4 }
  let h := field v 0xF40 8
  let cjobs := cjobsFrom t v uid
  let fresh := cjobs.filterMap fun j => match j.work with
    | .copy x => if uid ≤ x.uid then some x.uid else none
    | _ => none
  { t with
    mjobs := mjobsFrom t v (fun i => q.get i.toFin), cjobs, uids := t.uids ++ fresh, pending := pendingFrom t v bad
    pcS := w 0x40, pcV := w 0x48, pcM := pc 0x50 t.backM t.pcM, pcC := pc 0x58 t.backC t.pcC, backM := none, backC := none
    s, sPoison := badBits 64 bad 0x60 8, vPoison, x, m, laneFlags := fl, q, rt, tok, tokRsv := rsv, k
    bindings := bs, v := regs, spill, trapcause := w 0x900 &&& 0x7FF, trappc := w 0x908, trapword := w 0x910 &&& 0xFFFFFFFFFFFF, trapaddr := w 0x918
    trapvec := w 0x920, vctl := (w 0x928).setWidth 2, tflags := (w 0x930).setWidth 8, unack := (w 0x28).setWidth 32
    held := if h / 2 ^ 16 % 2 == 1 then .resumeSync (BitVec.ofNat 16 h) else .none }

/-- A range of storage takes the poison of what a frame has for it from an offset on (R386). -/
def repoison (lo len off : Nat) (bad : List (Nat × Nat)) : M Unit :=
  let units := (bad.filter fun f => decide (off ≤ f.1) && decide (f.1 < off + len)).map fun f => lo + (f.1 - off)
  if units.isEmpty then pure () else setDev fun d => { d with poison := d.poison ++ units }

/-- A range of storage comes back from a frame, with its poison (R362 step 2, R386). -/
def fillRange (lo len off v : Nat) (bad : List (Nat × Nat)) : M Unit := do
  emit (.bytes (byteCells lo len (field v off len)))
  repoison lo len off bad

/-- The task takes up what waited for it (R277, R295, R362 steps 3 and 4, R375): acknowledgements, tokens; a saved `mma`
waits for the lease. -/
def Saved.resume (x : Saved) (t : Task) : Task :=
  let t := { t with unack := t.unack - BitVec.ofNat 32 x.acks }
  let t := x.tokens.foldl (fun t (k, met, err) => t.changeToken k met err) t
  { t with mjobs := t.mjobs.map fun j => match j.work with
      | .mma m => { j with work := .mma { m with parked := true } }
      | _ => j }

/-- The first refusal that was held for a task traps at its first boundary after the restore (R379). -/
def Task.raiseHeld (t : Task) (l : Fin 1024) (clock : Nat) : Task :=
  match t.refusals with
  | [] => t
  | r :: rs => { takeTrap { r.trap l with clock } t with refusals := rs }

/-- The tiles and scratchpad of a group come back from the frame that carries them (R362 step 2). -/
def restoreGroup (core : Fin 256) (g : Grant) (v : Nat) (bad : List (Nat × Nat)) : M Unit := do
  let o := frameGroup g (frameUsed v).length
  (List.range g.tiles).forM fun i => do
    setCore core fun k => k.setTile (g.tileBase + i) fun _ =>
      { state := BitVec.ofNat 2 (field v (o + 2 * i) 1), span := BitVec.ofNat 3 (field v (o + 2 * i + 1) 1) }
    fillRange (tileByte core (g.tileBase + i) 0) 32768 (o + 4096 + 32768 * i) v bad
  fillRange (spadByte core g.spadBase) g.spad (o + 4096 + 32768 * g.tiles) v bad

/-- The bytes that chained loads brought for a scratchpad while it stood on no core are written (R375). -/
def landLate (core : Fin 256) (xs : List Saved) : M Unit :=
  applyWrites [core] ((xs.flatMap Saved.late).map fun b =>
    { bit := 8 * spadByte core (bits b.1.toNat 18 0), width := 8, value := b.2.toNat, addr := b.1 })

/-- The codebook slots and epilogue sets of a core to which a task returns (R203, R233, R329, R363; log 108): those that the
task left with, where no user task of another group stands there, and else where the core's is empty. -/
def Core.takesSets (k : Core) (alone : Bool) (x : Saved) : Core :=
  { k with
    books := .ofFn fun i => if alone || k.books.get i == {} then x.books.get i else k.books.get i
    epis := .ofFn fun i => if alone || k.epis.get i == {} then x.epis.get i else k.epis.get i }

/-- A slot, its banks and accumulator tiles are given to a task of a group that comes back (R362). -/
def holdSlot (core : Fin 256) (x : Saved) (slot : Fin 4) (banks accs : List Nat) : M Unit := do
  setCore core fun k => { (k.setBanks banks (.vector slot.val)) with resume := k.resume.set slot 0 }
  let g := { x.task.grant with banks, accTiles := accs }
  emit (.task (place core slot) (some { x.task with grant := g, spill := .replicate 64 none }))

/-- The task that stands in a slot again gets what its frame holds (R362).  DESIGN CHOICE (log 98): with a saved `mma` its core's array
ramps up now (R228). -/
def restoreTask (core : Fin 256) (x : Saved) (v : Nat) (bad : List (Nat × Nat)) (slot : Fin 4) : M Unit := do
  let l := place core slot
  let t ← getTask l
  let g := t.grant
  let s ← getState
  let others := parkedBlocks s core
  let blocks := (openBlocks s core).filter fun b => !others.contains b
  enabled (decide ((frameUsed v).length ≤ blocks.length))
  (numbered g.accTiles).forM fun (i, a) =>
    fillRange (accByte core a 0) 65536 (frameAccAt g (frameUsed v).length + 65536 * i) v bad
  let uid ← newUid
  let t := { x.task with grant := g }.fromFrame v uid bad blocks
  setDev fun d => { d with nextUid := d.nextUid + 8 }
  (if t.savedMma.isSome then setCore core fun k => k.rampUp.1 else pure ())
  emit (.task l (some ((x.resume t).raiseHeld l s.dev.clock)))

/-- A group that cannot be restored goes to the supervisor (R362 step 1). -/
def refuseRestore (gid : Nat) (frame : Word) : M Unit := do
  setDev fun d => { d with saved := d.saved.map fun w =>
    if w.task.gid == gid && w.queued then { w with queued := false, withSupervisor := true } else w }
  notify (.restoreRefused frame)

/-- Every frame of a group, or the address of the first that cannot be read. -/
def readFrames : List Saved → M (Except Word (List (Saved × Nat × List (Nat × Nat))))
  | [] => pure (.ok [])
  | x :: xs => do
    let s ← getState
    match readFrame s x with
    | .error (.absent b) => stop (.fault (.absentStorage b))
    | .error (.cause _) => pure (.error x.frame)
    | .ok v => do
      let rest ← readFrames xs
      pure (rest.map fun r => (x, v) :: r)

/-- RESTORE (R362): the group of the n-th saved task stands at the head of the queues and fits; its frames are read and its
tasks return to the ready set together, or a frame is refused.  Tasks of it that stay saved have their tiles and scratchpad on its
core from now on (R363). -/
def execRestore (n : Nat) (s : State) : Host.Outcome State Fault Refusal :=
  conclude (do
    let st ← getState
    match st.dev.saved[n]?, headItem st.dev with
    | some v, some (.group gid _, p) => do
      enabled (v.task.gid == gid && v.queued)
      match fitGroup st [] gid with
      | none => notNow
      | some f => do
        let frames ← readFrames (queuedOf st.dev gid)
        popHead p
        match frames with
        | .error a => refuseRestore gid a
        | .ok xs => do
          let g := v.task.grant
          let joins := (groupCore st gid).isSome
          let own := if joins then 0 else g.tiles
          zeroGrant f.core f.accs.flatten g.tileBase own g.spadBase (if joins then 0 else g.spad)
          setCore f.core fun k =>
            let k := (k.admits v.task.level (usersOn st f.core) v.task.tenant).setBanks ((List.range own).map (g.tileBase + ·)) .tile
            (List.range own).foldl (fun k i => k.setTile (g.tileBase + i) fun _ => {}) k
          setCore f.core (·.takesSets (!joins && !usersOn st f.core) v)
          xs.forM fun (x, w, bad) => if x.hasGroup && !joins then restoreGroup f.core x.task.grant w bad else pure ()
          landLate f.core (st.dev.saved.filter fun y => y.task.gid == gid)
          ((numbered xs).zip f.slots).forM fun ((i, x, _), sl) =>
            holdSlot f.core x sl (f.banks.getD i []) (f.accs.getD i [])
          (xs.zip f.slots).forM fun ((x, w, bad), sl) => restoreTask f.core x w bad sl
          setDev fun d => { d with saved := (d.saved.filter fun y => !(y.task.gid == gid && y.queued)).map fun y =>
            if y.task.gid == gid && !y.ended then { y with resident := true, core := f.core, late := [] } else y }
    | _, _ => notNow) s

end Sys2Proof.Machine
end

