-- ==== Sys2Proof/Machine/Migrate.lean ====
section
/-!
DEFINITION. Migration of a plane's frame: CMIG, MIGRATION_CHUNK, MIGRATION_STABLE, and the invalidations that it and
`tlbi` wait for: CORE_ACKNOWLEDGE (05, R98, R99, R103, R104; 17, R304).
-/

namespace Sys2Proof.Machine

/-- A frame word in a migration state, with a cursor (R95). -/
def frameMoving (fw state cursor : Nat) : Nat :=
  fw - bits fw 27 26 * 2 ^ 26 - bits fw 22 5 * 2 ^ 5 + state * 2 ^ 26 + cursor % 2 ^ 18 * 2 ^ 5

/-- The destination of a `cmig` (R304): a location in tier 0, 1 or 2, aligned to 256 bytes. -/
def cmigDest (a : Word) : Option Nat :=
  match locByte a.toNat with
  | some b => if b % 256 == 0 then some b else none
  | none => none

/-- The bytes of a frame (R89, R94): one page of elements of the plane. -/
def frameBytes (f : Found) : Nat :=
  ((if f.leaf.large then 2 ^ 26 else 2 ^ 16) / planeRatio f.pw * f.width + 7) / 8

/-- `cmig` (R70, R103, R304): the word goes from stable to moving, which wakes monitors (R276), and the chunks follow in the background. -/
def execCmig (qs qd : BitVec 4) (kr kv w g : BitVec 3) (s : State) : Host.Outcome State Fault Refusal :=
  conclude (do
    let c ← issueAfter .c (encode (.cmig qs qd kr kv w g)) fun c => do
      privileged c
      needQ c [qs, qd]
    startC c w g
    let t ← getTask c.loc
    let st ← getState
    let q := t.q.get qs.toFin
    let dst := (t.q.get qd.toFin).base
    c.check (pathOf q.base == 0 && (tileHandle q.base).isNone) .path q.base
    c.check (decide (q.extent.toNat < 64)) .reserved q.extent
    match cmigDest dst with
    | none => c.trap .path dst
    | some dest => do
      let tenant := q.extent.setWidth 6
      let f ← c.lift q.base (walk st none tenant .c .read .element (planeOf q.base) (posOf q.base))
      c.check (!f.zero && bits f.fw 27 26 == 0) .page q.base
      let page := if f.leaf.large then 2 ^ 26 else 2 ^ 16
      let source := (f.bit - posOf q.base % page / planeRatio f.pw * f.width) / 8
      writeBytes f.fwByte 8 (frameMoving f.fw 1 0)
      wakeAll
      setDev fun d => { d with migrations := d.migrations ++
        [{ tenant, word := f.fwByte, addr := q.base, source, dest, destLoc := dst, length := frameBytes f, next := 0
           tid := t.tid, kr, kv }] }
      setTask c.loc fun t => t.nameTokens (some kr) (some kv)
      queueC c w g .short) s

/-- The poison of a piece of storage moves with its bytes (R386): the units of the destination that take poisoned bytes. -/
def movePoison (poison : List Nat) (src dst n : Nat) : List Nat :=
  let inside := fun (lo u : Nat) => decide (lo ≤ u) && decide (u < lo + n)
  let moved := (poison.filter (inside src)).flatMap fun u =>
    (List.range (if u < 2 * 2 ^ 40 then 8 else 1)).map fun i => poisonUnit (u + 8 * i - src + dst)
  poison.filter (fun u => !inside dst u) ++ moved.dedup

/-- MIGRATION_CHUNK (R103, R104): the next 4 KiB of the n-th migration are copied in one step and the word's cursor moves;
after the last, the word names the destination, and every core is to drop the old one. -/
def execMigrationChunk (n : Nat) (s : State) : Host.Outcome State Fault Refusal :=
  conclude (do
    let st ← getState
    match st.dev.migrations[n]? with
    | none => notNow
    | some m => do
      enabled (!m.forwarding)
      let lo := 4096 * m.next
      let len := min 4096 (m.length - lo)
      (if byteExists (m.dest + lo) && byteExists (m.dest + lo + len - 1) then pure ()
       else stop (.fault (.absentStorage (m.dest + lo))))
      writeBytes (m.dest + lo) len (readBytes st.mem (m.source + lo) len)
      let fw := readBytes st.mem m.word 8
      let last := decide (m.length ≤ lo + len)
      let fw' := if last then frameMoving (frameNaming fw m.dest) 2 0 else frameMoving fw 1 (m.next + 1)
      writeBytes m.word 8 fw'
      let id ← (if last then do
          let id ← startInval (.plane (posOf m.addr) (BitVec.ofNat 4 (planeOf m.addr)))
          pure (some id)
        else pure none)
      setDev fun d => { d with
        poison := movePoison d.poison (m.source + lo) (m.dest + lo) len
        migrations := d.migrations.set n { m with next := m.next + 1, forwarding := last, inval := id } }) s

/-- Whether a waiting request still touches the source frame of a migration, or the increment of a flag that has been granted
to another device is to come there (R103, R104). -/
def touchesSource (d : Device) (m : Migration) : Bool :=
  let inside := fun lo hi => decide (lo < m.source + m.length) && decide (m.source < hi)
  (d.rx.any fun p => p.body.touches.any fun x => inside x.2.1 x.2.2) ||
  d.flagsGranted.any fun x => inside (x.2.2 / 32 * 32) (x.2.2 / 32 * 32 + 32)

/-- A condition of a migration's token is met (R304); while its task is saved, it is in the frame, or recorded where the frame
cannot be written (R307). -/
def migrationToken (tid : Nat) (k : BitVec 3) : M Unit := do
  let s ← getState
  match findTask s tid, s.dev.saved.find? fun v => v.task.tid == tid with
  | none, some v =>
    match framePage s v.frameTenant .write v.frame with
    | .error (.absent b) => stop (.fault (.absentStorage b))
    | .error (.cause _) => markTokenOf tid k true false
    | .ok b =>
      let off := 0x8E0 + 4 * k.toNat
      let old := tokenFrom (readBits s.mem (readPlace s.dev.migrations (8 * (b + off))) 32)
      let t := { v.task with k := v.task.k.set k.toFin old }.meetToken k false
      applyWrites [] [{ bit := 8 * (b + off), width := 32, value := tokenWord (t.k.get k.toFin)
                        addr := v.frame + BitVec.ofNat 64 off }]
  | _, _ => markTokenOf tid k true false

/-- MIGRATION_STABLE (R103, R304): every core has acknowledged, so the word of the n-th migration is stable again and the
source frame is released: kr is set, and kv with it when both are one token. -/
def execMigrationStable (n : Nat) (s : State) : Host.Outcome State Fault Refusal :=
  conclude (do
    let st ← getState
    match st.dev.migrations[n]? with
    | none => notNow
    | some m => do
      enabled (m.forwarding && m.inval.isNone && !touchesSource st.dev m)
      writeBytes m.word 8 (frameMoving (readBytes st.mem m.word 8) 0 0)
      wakeAll
      setDev fun d => { d with migrations := d.migrations.eraseIdx n }
      migrationToken m.tid m.kr) s

/-- What an invalidation removes from a core (R99, R149): translations, and with those of a tenant its instruction cache and its
copies of sealed data (R106). -/
def Core.invalidate (k : Core) (kind : InvalKind) : Core :=
  let size := fun (large : Bool) => if large then 2 ^ 26 else 2 ^ 16
  match kind with
  | .all => { k with posTlb := [], frames := [], code := [], lines := k.lines.filter fun l => l.pathPlane.toNat / 16 != 6 }
  | .tenant t => { k with
      posTlb := k.posTlb.filter fun e => e.tenant != t
      frames := k.frames.filter fun e => e.tenant != t
      code := k.code.filter fun l => l.tenant != t
      lines := k.lines.filter fun l => !(l.tenant == t && l.pathPlane.toNat / 16 == 6) }
  | .page pos => { k with posTlb := k.posTlb.filter fun e => e.page != pos / size e.large }
  | .plane pos p => { k with frames := k.frames.filter fun e => !(e.page == pos / size e.large && e.plane == p) }

/-- Whether a core has posted writes on their way to targets of this device, or flags here that another device is to
increment once their data is written there (R123). -/
def coreWrites (d : Device) (core : Fin 256) : Bool :=
  (d.rx.any fun p => match p.body.origin? with
    | some o => o.dev == d.devid && o.core == core.val
    | none => false) ||
  d.remoteParts.any fun x => match x.here with
    | some (c, _) => c == core.val
    | none => false

/-- Whether a write or atomic of another device stands translated before its target, or a flag's increment has been granted
to one (R105). -/
def guestWrites (d : Device) : Bool :=
  (d.rx.any fun p => match p.body with
    | .store _ o _ _ => o.dev != d.devid
    | .aliasStore _ o _ => o.dev != d.devid
    | .atomic _ o _ _ _ _ _ _ _ => o.dev != d.devid
    | _ => false) || !d.flagsGranted.isEmpty

/-- CORE_ACKNOWLEDGE (R99, R104, R105): a core drops what the n-th invalidation covers and acknowledges it, once its earlier
accesses have completed at their targets, and for a `seal` empties its scalar data cache (R268); the last acknowledgement ends it, that of a `seal` only once what other devices
sent before the bit was set has been applied, and a migration's kv is set. -/
def execCoreAcknowledge (core n : Nat) (s : State) : Host.Outcome State Fault Refusal :=
  conclude (do
    let c ← coreAt core
    let d ← getDev
    match d.invals[n]? with
    | none => notNow
    | some v => do
      enabled (v.waiting.contains core && !coreWrites d c)
      setCore c fun k =>
        let k := k.invalidate v.kind
        if v.words.isEmpty then k else { k with lines := [] }
      let left := v.waiting.erase core
      enabled (!left.isEmpty || v.words.isEmpty || !guestWrites d)
      if !left.isEmpty then setDev fun d => { d with invals := d.invals.set n { v with waiting := left } }
      else do
        let done := d.migrations.filter fun m => m.inval == some v.id
        setDev fun d => { d with
          invals := d.invals.eraseIdx n
          migrations := d.migrations.map fun m => if m.inval == some v.id then { m with inval := none } else m }
        done.forM fun m => if m.kr == m.kv then pure () else migrationToken m.tid m.kv) s

end Sys2Proof.Machine
end

