-- ==== Sys2Proof/Machine/Retire.lean ====
section
/-!
DEFINITION. How a task is over: TASK_RETIRE and TASK_ENDED (02, R37; 11, R228; 21, R350; 24, R383).
-/

namespace Sys2Proof.Machine

/-- A retiring task arrives at the done barrier of its kernel, at the record's level and number and the task's own unit
there (R37, R133). -/
def arriveDone (at_ : Fin 1024) (t : Task) (l : LaunchRec) : M Unit := do
  let core := coreOf at_
  let b := barrierRef core l.doneLevel l.doneNumber.toNat
  if l.doneOn then sendBarrier at_ b (.arrive t.tflags (some t.handle)) t.tid l.tenant false else pure ()

/-- The entry of the scoreboards that holds the kernel with a handle. -/
def entryOf (d : Device) (handle : Word) : Option (Nat × Kernel) :=
  ((List.range 4).flatMap (entriesOf d)).find? fun x => x.2.handle == handle

/-- A kernel has one task fewer; with the last it is over on this device (R37, R350). -/
def kernelLoses (at_ : Fin 1024) (t : Task) : M Unit := do
  let s ← getState
  match entryOf s.dev t.handle with
  | none => pure ()
  | some (e, k) => do
    arriveDone at_ t k.launch
    let k := { k with live := k.live - 1, state := if allEnded s t.handle then .draining else k.state }
    if k.live == 0 then settle e { k with state := .done, localDone := true } else putKernel e (some k)

/-- When the last task on the core that issued a counted instruction has retired and no task waits for the lease, the array
steps down (R228). -/
def rampDown (core : Fin 256) (t : Task) : M Unit := do
  let s ← getState
  let last := t.counted && !(tasksOf s core []).any fun x => x.2.counted
  setCore core fun k => if last && !k.leaseWanted && decide (0 < k.groupsOn) then { k with ramp := .down } else k

/-- Whether a task in its slot retires: its engines have ended, its instructions have finished, its writes are
acknowledged (R37). -/
def Task.canRetire (t : Task) : Bool :=
  t.allEnded && t.mjobs.isEmpty && t.cjobs.isEmpty && t.uids.isEmpty && t.unack == 0

/-- TASK_RETIRE (R37): the lease passes, the collectives it leaves are aborted or freed, its slot and, with the last task
of its group, tiles and scratchpad are freed, and it arrives at the done barrier. -/
def execTaskRetire (core slot : Nat) (s : State) : Host.Outcome State Fault Refusal :=
  conclude (do
    let (l, t) ← eventTask core slot
    enabled (t.canRetire && t.mode == .ready)
    abortPosted t.tid 3
    freePosted t.tid
    freeTask l t
    rampDown (coreOf l) t
    kernelLoses l t) s

/-- TASK_ENDED (R383): the supervisor ends the n-th saved task, which it holds; its collectives are aborted, its frame is
discarded, and what is left of its copies with it.  Its writes drained, it retires: the second time the event names it. -/
def execTaskEnded (n : Nat) (s : State) : Host.Outcome State Fault Refusal :=
  conclude (do
    let d ← getDev
    match d.saved[n]? with
    | none => notNow
    | some v => do
      enabled (v.withSupervisor && !v.queued)
      if !v.ended then do
        abortPosted v.task.tid 3
        setDev fun d => { d with saved := d.saved.set n { v with ended := true } }
        (if v.resident then freeGroup v.core v.task else pure ())
        noteEnds v.task.handle
      else do
        let copies := v.task.uids.filter fun u => v.task.isCopy u && !partsLeft d u
        enabled (copies.length == v.task.uids.length && v.task.unack == BitVec.ofNat 32 (v.acks + copies.length))
        setDev fun d => { d with saved := d.saved.eraseIdx n }
        freePosted v.task.tid
        rampDown v.core v.task
        kernelLoses (place v.core v.slot) v.task) s

end Sys2Proof.Machine
end

