-- ==== Sys2Proof/Machine/ScalarAlu.lean ====
section
/-!
DEFINITION. Integer arithmetic, positions, constants, branches and jumps of the scalar engine (06, R113 to R119).
-/

namespace Sys2Proof.Machine

/-- 1 for true and 0 for false. -/
def flag64 (b : Bool) : Word := if b then 1 else 0

/-- Unsigned division, all ones for a zero divisor (R114). -/
def divU (x y : Word) : Word := if y == 0 then BitVec.allOnes 64 else BitVec.ofNat 64 (x.toNat / y.toNat)

/-- Unsigned remainder, the dividend for a zero divisor (R114). -/
def remU (x y : Word) : Word := if y == 0 then x else BitVec.ofNat 64 (x.toNat % y.toNat)

/-- Signed division truncated toward zero, all ones for a zero divisor; -2^63 by -1 wraps to -2^63 (R114). -/
def divS (x y : Word) : Word := if y == 0 then BitVec.allOnes 64 else BitVec.ofInt 64 (x.toInt.tdiv y.toInt)

/-- Signed remainder with the sign of the dividend, the dividend for a zero divisor (R114). -/
def remS (x y : Word) : Word := if y == 0 then x else BitVec.ofInt 64 (x.toInt.tmod y.toInt)

/-- The number of leading zeros; 64 for 0 (R113). -/
def leadingZeros (x : Word) : Word := if x == 0 then 64 else BitVec.ofNat 64 (63 - Nat.log2 x.toNat)

/-- How many of the bits from bit 0 upward are zero, up to `n`. -/
def zerosUp (x : Nat) : Nat → Nat
  | 0 => 0
  | n + 1 => if x % 2 == 1 then 0 else 1 + zerosUp (x / 2) n

/-- The number of trailing zeros; 64 for 0 (R113). -/
def trailingZeros (x : Word) : Word := BitVec.ofNat 64 (zerosUp x.toNat 64)

/-- How many of the `n` low bits are set. -/
def onesIn (x : Nat) : Nat → Nat
  | 0 => 0
  | n + 1 => x % 2 + onesIn (x / 2) n

/-- The number of set bits (R113). -/
def popCount (x : Word) : Word := BitVec.ofNat 64 (onesIn x.toNat 64)

/-- Two registers to one (R113). -/
def scalarR (word : BitVec 32) (d a b : BitVec 6) (f : Word → Word → Word) : M Unit := do
  let c ← issue .s word
  let x ← useS c a
  let y ← useS c b
  putS c d (f x y)
  advance c

/-- One register to one (R113, R115). -/
def scalarI (word : BitVec 32) (d a : BitVec 6) (f : Word → Word) : M Unit := do
  let c ← issue .s word
  let x ← useS c a
  putS c d (f x)
  advance c

/-- A position add that ends in a register (R116). -/
def scalarPadd (c : Ctx) (d : BitVec 6) (x : Word) (k : Int) : M Unit := do
  match positionAdd x k with
  | some y => do
    putS c d y
    advance c
  | none => c.trap .padd x

/-- A compare and branch (R118). -/
def branch (word : BitVec 32) (a b : BitVec 6) (off : BitVec 14) (f : Word → Word → Bool) : M Unit := do
  let c ← issue .s word
  let x ← useS c a
  let y ← useS c b
  let next := if f x y then c.pc + (off.signExtend 64 <<< 2) else c.pc + 4
  setTask c.loc fun t => t.goto .s next

/-- `add` (R113). -/
def execAdd (d a b : BitVec 6) (s : State) : Host.Outcome State Fault Refusal :=
  conclude (scalarR (encode (.add d a b)) d a b fun x y => x + y) s

/-- `sub` (R113). -/
def execSub (d a b : BitVec 6) (s : State) : Host.Outcome State Fault Refusal :=
  conclude (scalarR (encode (.sub d a b)) d a b fun x y => x - y) s

/-- `and` (R113). -/
def execAnd (d a b : BitVec 6) (s : State) : Host.Outcome State Fault Refusal :=
  conclude (scalarR (encode (.and d a b)) d a b fun x y => x &&& y) s

/-- `or` (R113). -/
def execOr (d a b : BitVec 6) (s : State) : Host.Outcome State Fault Refusal :=
  conclude (scalarR (encode (.or d a b)) d a b fun x y => x ||| y) s

/-- `xor` (R113). -/
def execXor (d a b : BitVec 6) (s : State) : Host.Outcome State Fault Refusal :=
  conclude (scalarR (encode (.xor d a b)) d a b fun x y => x ^^^ y) s

/-- `andn` (R113). -/
def execAndn (d a b : BitVec 6) (s : State) : Host.Outcome State Fault Refusal :=
  conclude (scalarR (encode (.andn d a b)) d a b fun x y => x &&& ~~~y) s

/-- `orn` (R113). -/
def execOrn (d a b : BitVec 6) (s : State) : Host.Outcome State Fault Refusal :=
  conclude (scalarR (encode (.orn d a b)) d a b fun x y => x ||| ~~~y) s

/-- `shl` (R113). -/
def execShl (d a b : BitVec 6) (s : State) : Host.Outcome State Fault Refusal :=
  conclude (scalarR (encode (.shl d a b)) d a b fun x y => x <<< (y.toNat % 64)) s

/-- `shr` (R113). -/
def execShr (d a b : BitVec 6) (s : State) : Host.Outcome State Fault Refusal :=
  conclude (scalarR (encode (.shr d a b)) d a b fun x y => x >>> (y.toNat % 64)) s

/-- `sra` (R113). -/
def execSra (d a b : BitVec 6) (s : State) : Host.Outcome State Fault Refusal :=
  conclude (scalarR (encode (.sra d a b)) d a b fun x y => x.sshiftRight (y.toNat % 64)) s

/-- `slt` (R113). -/
def execSlt (d a b : BitVec 6) (s : State) : Host.Outcome State Fault Refusal :=
  conclude (scalarR (encode (.slt d a b)) d a b fun x y => flag64 (x.slt y)) s

/-- `sltn` (R113). -/
def execSltn (d a b : BitVec 6) (s : State) : Host.Outcome State Fault Refusal :=
  conclude (scalarR (encode (.sltn d a b)) d a b fun x y => flag64 (x.ult y)) s

/-- `seq` (R113). -/
def execSeq (d a b : BitVec 6) (s : State) : Host.Outcome State Fault Refusal :=
  conclude (scalarR (encode (.seq d a b)) d a b fun x y => flag64 (x == y)) s

/-- `sne` (R113). -/
def execSne (d a b : BitVec 6) (s : State) : Host.Outcome State Fault Refusal :=
  conclude (scalarR (encode (.sne d a b)) d a b fun x y => flag64 (x != y)) s

/-- `min` (R113). -/
def execMin (d a b : BitVec 6) (s : State) : Host.Outcome State Fault Refusal :=
  conclude (scalarR (encode (.min d a b)) d a b fun x y => if y.slt x then y else x) s

/-- `max` (R113). -/
def execMax (d a b : BitVec 6) (s : State) : Host.Outcome State Fault Refusal :=
  conclude (scalarR (encode (.max d a b)) d a b fun x y => if x.slt y then y else x) s

/-- `minn` (R113). -/
def execMinn (d a b : BitVec 6) (s : State) : Host.Outcome State Fault Refusal :=
  conclude (scalarR (encode (.minn d a b)) d a b fun x y => if y.ult x then y else x) s

/-- `maxn` (R113). -/
def execMaxn (d a b : BitVec 6) (s : State) : Host.Outcome State Fault Refusal :=
  conclude (scalarR (encode (.maxn d a b)) d a b fun x y => if x.ult y then y else x) s

/-- `mul` (R113). -/
def execMul (d a b : BitVec 6) (s : State) : Host.Outcome State Fault Refusal :=
  conclude (scalarR (encode (.mul d a b)) d a b fun x y => x * y) s

/-- `mulh` (R113). -/
def execMulh (d a b : BitVec 6) (s : State) : Host.Outcome State Fault Refusal :=
  conclude (scalarR (encode (.mulh d a b)) d a b fun x y => BitVec.ofInt 64 (x.toInt * y.toInt / 2 ^ 64)) s

/-- `mulhn` (R113). -/
def execMulhn (d a b : BitVec 6) (s : State) : Host.Outcome State Fault Refusal :=
  conclude (scalarR (encode (.mulhn d a b)) d a b fun x y => BitVec.ofNat 64 (x.toNat * y.toNat / 2 ^ 64)) s

/-- `div` (R113, R114). -/
def execDiv (d a b : BitVec 6) (s : State) : Host.Outcome State Fault Refusal :=
  conclude (scalarR (encode (.div d a b)) d a b fun x y => divS x y) s

/-- `divn` (R113, R114). -/
def execDivn (d a b : BitVec 6) (s : State) : Host.Outcome State Fault Refusal :=
  conclude (scalarR (encode (.divn d a b)) d a b fun x y => divU x y) s

/-- `rem` (R113, R114). -/
def execRem (d a b : BitVec 6) (s : State) : Host.Outcome State Fault Refusal :=
  conclude (scalarR (encode (.rem d a b)) d a b fun x y => remS x y) s

/-- `remn` (R113, R114). -/
def execRemn (d a b : BitVec 6) (s : State) : Host.Outcome State Fault Refusal :=
  conclude (scalarR (encode (.remn d a b)) d a b fun x y => remU x y) s

/-- `clz` (R113). -/
def execClz (d a : BitVec 6) (s : State) : Host.Outcome State Fault Refusal :=
  conclude (scalarI (encode (.clz d a)) d a fun x => leadingZeros x) s

/-- `ctz` (R113). -/
def execCtz (d a : BitVec 6) (s : State) : Host.Outcome State Fault Refusal :=
  conclude (scalarI (encode (.ctz d a)) d a fun x => trailingZeros x) s

/-- `pop` (R113). -/
def execPop (d a : BitVec 6) (s : State) : Host.Outcome State Fault Refusal :=
  conclude (scalarI (encode (.pop d a)) d a fun x => popCount x) s

/-- `padd` (R116). -/
def execPadd (d a b : BitVec 6) (s : State) : Host.Outcome State Fault Refusal :=
  conclude (do
    let c ← issue .s (encode (.padd d a b))
    let x ← useS c a
    let y ← useS c b
    scalarPadd c d x y.toInt) s

/-- An address with its plane field replaced (R113, R115). -/
def withPlane (a : Word) (p : BitVec 4) : Word := (a &&& ~~~(0x1E00000000000000 : Word)) ||| (p.setWidth 64 <<< 57)

/-- An address with its path field replaced (R113). -/
def withPath (a : Word) (p : BitVec 3) : Word := (a &&& 0x1FFFFFFFFFFFFFFF) ||| (p.setWidth 64 <<< 61)

/-- `plane` (R113). -/
def execPlaneOf (d a b : BitVec 6) (s : State) : Host.Outcome State Fault Refusal :=
  conclude (scalarR (encode (.planeOf d a b)) d a b fun x y => withPlane x (y.setWidth 4)) s

/-- `path` (R113). -/
def execPathOf (d a b : BitVec 6) (s : State) : Host.Outcome State Fault Refusal :=
  conclude (scalarR (encode (.pathOf d a b)) d a b fun x y => withPath x (y.setWidth 3)) s

/-- `addi` (R115). -/
def execAddi (d a : BitVec 6) (imm : BitVec 14) (s : State) : Host.Outcome State Fault Refusal :=
  conclude (scalarI (encode (.addi d a imm)) d a fun x => let k := imm.signExtend 64; x + k) s

/-- `andi` (R115). -/
def execAndi (d a : BitVec 6) (imm : BitVec 14) (s : State) : Host.Outcome State Fault Refusal :=
  conclude (scalarI (encode (.andi d a imm)) d a fun x => let k := imm.signExtend 64; x &&& k) s

/-- `ori` (R115). -/
def execOri (d a : BitVec 6) (imm : BitVec 14) (s : State) : Host.Outcome State Fault Refusal :=
  conclude (scalarI (encode (.ori d a imm)) d a fun x => let k := imm.signExtend 64; x ||| k) s

/-- `xori` (R115). -/
def execXori (d a : BitVec 6) (imm : BitVec 14) (s : State) : Host.Outcome State Fault Refusal :=
  conclude (scalarI (encode (.xori d a imm)) d a fun x => let k := imm.signExtend 64; x ^^^ k) s

/-- `slti` (R115). -/
def execSlti (d a : BitVec 6) (imm : BitVec 14) (s : State) : Host.Outcome State Fault Refusal :=
  conclude (scalarI (encode (.slti d a imm)) d a fun x => let k := imm.signExtend 64; flag64 (x.slt k)) s

/-- `sltni` (R115). -/
def execSltni (d a : BitVec 6) (imm : BitVec 14) (s : State) : Host.Outcome State Fault Refusal :=
  conclude (scalarI (encode (.sltni d a imm)) d a fun x => let k := imm.signExtend 64; flag64 (x.ult k)) s

/-- `shli` (R115). -/
def execShli (d a imm : BitVec 6) (s : State) : Host.Outcome State Fault Refusal :=
  conclude (scalarI (encode (.shli d a imm)) d a fun x => x <<< imm.toNat) s

/-- `shri` (R115). -/
def execShri (d a imm : BitVec 6) (s : State) : Host.Outcome State Fault Refusal :=
  conclude (scalarI (encode (.shri d a imm)) d a fun x => x >>> imm.toNat) s

/-- `srai` (R115). -/
def execSrai (d a imm : BitVec 6) (s : State) : Host.Outcome State Fault Refusal :=
  conclude (scalarI (encode (.srai d a imm)) d a fun x => x.sshiftRight imm.toNat) s

/-- `paddi` (R116). -/
def execPaddi (d a : BitVec 6) (imm : BitVec 14) (s : State) : Host.Outcome State Fault Refusal :=
  conclude (do
    let c ← issue .s (encode (.paddi d a imm))
    let x ← useS c a
    scalarPadd c d x imm.toInt) s

/-- `planei` (R115). -/
def execPlanei (d a : BitVec 6) (imm : BitVec 4) (s : State) : Host.Outcome State Fault Refusal :=
  conclude (scalarI (encode (.planei d a imm)) d a fun x => withPlane x imm) s

/-- A constant to a register; it may use the address of the instruction (R117). -/
def scalarU (word : BitVec 32) (d : BitVec 6) (f : Word → Word) : M Unit := do
  let c ← issue .s word
  putS c d (f c.pc)
  advance c

/-- `hi` (R117). -/
def execHi (d : BitVec 6) (imm : BitVec 20) (s : State) : Host.Outcome State Fault Refusal :=
  conclude (scalarU (encode (.hi d imm)) d fun _ => imm.signExtend 64 <<< 12) s

/-- `top` reads and writes d (R117). -/
def execTop (d : BitVec 6) (imm : BitVec 20) (s : State) : Host.Outcome State Fault Refusal :=
  conclude (scalarI (encode (.top d imm)) d d fun x => (x &&& 0x00000FFFFFFFFFFF) ||| (imm.setWidth 64 <<< 44)) s

/-- `pcrel` (R117). -/
def execPcrel (d : BitVec 6) (imm : BitVec 20) (s : State) : Host.Outcome State Fault Refusal :=
  conclude (scalarU (encode (.pcrel d imm)) d fun pc => pc + (imm.signExtend 64 <<< 2)) s

/-- `beq` (R118). -/
def execBeq (a b : BitVec 6) (off : BitVec 14) (s : State) : Host.Outcome State Fault Refusal :=
  conclude (branch (encode (.beq a b off)) a b off fun x y => x == y) s

/-- `bne` (R118). -/
def execBne (a b : BitVec 6) (off : BitVec 14) (s : State) : Host.Outcome State Fault Refusal :=
  conclude (branch (encode (.bne a b off)) a b off fun x y => x != y) s

/-- `blt` (R118). -/
def execBlt (a b : BitVec 6) (off : BitVec 14) (s : State) : Host.Outcome State Fault Refusal :=
  conclude (branch (encode (.blt a b off)) a b off fun x y => x.slt y) s

/-- `bge` (R118). -/
def execBge (a b : BitVec 6) (off : BitVec 14) (s : State) : Host.Outcome State Fault Refusal :=
  conclude (branch (encode (.bge a b off)) a b off fun x y => !x.slt y) s

/-- `bltn` (R118). -/
def execBltn (a b : BitVec 6) (off : BitVec 14) (s : State) : Host.Outcome State Fault Refusal :=
  conclude (branch (encode (.bltn a b off)) a b off fun x y => x.ult y) s

/-- `bgen` (R118). -/
def execBgen (a b : BitVec 6) (off : BitVec 14) (s : State) : Host.Outcome State Fault Refusal :=
  conclude (branch (encode (.bgen a b off)) a b off fun x y => !x.ult y) s

/-- `jal` (R119). -/
def execJal (d : BitVec 6) (off : BitVec 20) (s : State) : Host.Outcome State Fault Refusal :=
  conclude (do
    let c ← issue .s (encode (.jal d off))
    putS c d (c.pc + 4)
    setTask c.loc fun t => t.goto .s (c.pc + (off.signExtend 64 <<< 2))) s

/-- `jalr`: ALIGN for a target that is not word aligned, before d is written (R119). -/
def execJalr (d a : BitVec 6) (imm : BitVec 14) (s : State) : Host.Outcome State Fault Refusal :=
  conclude (do
    let c ← issue .s (encode (.jalr d a imm))
    let x ← useS c a
    let target := x + imm.signExtend 64
    c.check (target.toNat % 4 == 0) .align target
    putS c d (c.pc + 4)
    setTask c.loc fun t => t.goto .s target) s

end Sys2Proof.Machine
end

