-- ==== Sys2Proof/Machine/VectorConv.lean ====
section
/-!
DEFINITION. Conversions and codebooks of the vector engine (08, R175 to R178).
-/

namespace Sys2Proof.Machine

/-- `vcvt`: each lane converts its first elements; the elements of the target beyond the source's are zero (R175,
R176). -/
def execVcvt (d a : BitVec 6) (target : BitVec 4) (sat : BitVec 1) (m : BitVec 3) (nf : BitVec 1) (ty : BitVec 4)
    (s : State) : Host.Outcome State Fault Refusal :=
  conclude (do
    let c ← issueV (encode (.vcvt d a target sat m nf ty))
    needV c [d, a]
    let t ← getTask c.loc
    let active := t.readM m
    useLanes c active [a]
    let ws := fmtWidth ty.toNat
    let wt := fmtWidth target.toNat
    let va := t.v.get a.toFin
    let ks := 32 / ws
    let kt := 32 / wt
    deliver c 4 (elementResult wt d active (nf == 1) fun e =>
      if e % kt < ks then convert ty.toNat target.toNat (sat == 1) t.mode' (elemOf ws va (e / kt * ks + e % kt))
      else (0, 0))) s

/-- The entries of a codebook slot of the core, read whole (R177, R178). -/
def readBook (c : Ctx) (slot : BitVec 3) : M (List Nat) := do
  let k ← getCore (coreOf c.loc)
  pure ((k.books.get slot.toFin).entries.toList.map BitVec.toNat)

/-- `vcbe` (R177). -/
def execVcbe (d a : BitVec 6) (cb m : BitVec 3) (nf : BitVec 1) (ty : BitVec 4) (s : State) :
    Host.Outcome State Fault Refusal :=
  conclude (do
    let c ← issueV (encode (.vcbe d a cb m nf ty))
    needV c [d, a]
    let t ← getTask c.loc
    let active := t.readM m
    useLanes c active [a]
    let book ← readBook c cb
    let fm := (floatFmt ty.toNat).getD fmtF32
    let va := t.v.get a.toFin
    deliver c 4 (elementResult fm.width d active (nf == 1) fun e =>
      let x := encodeBook book (decodeFloat fm (elemOf fm.width va e))
      (x.code, x.flags))) s

/-- A codebook entry as `vcbd` gives it: its bits, or widened to F32, where a NaN becomes the canonical one (R156, R178). -/
def decodedEntry (wide : Bool) (entry : Nat) : Nat :=
  if !wide then entry
  else if (decodeFloat fmtBF16 entry).isNaN then canonNaN fmtF32
  else entry * 2 ^ 16

/-- `vcbd`: a BF16 entry as it stands, or widened to F32 (R178). -/
def execVcbd (d a : BitVec 6) (cb m : BitVec 3) (ty : BitVec 4) (s : State) : Host.Outcome State Fault Refusal :=
  conclude (do
    let c ← issueV (encode (.vcbd d a cb m ty))
    needV c [d, a]
    let t ← getTask c.loc
    let active := t.readM m
    useLanes c active [a]
    let book ← readBook c cb
    let w := fmtWidth ty.toNat
    let va := t.v.get a.toFin
    deliver c 4 (elementResult w d active true fun e =>
      (decodedEntry (ty == 0) (book.getD (elemOf w va e % 16) 0), 0))) s

end Sys2Proof.Machine
end

