-- ==== Sys2Proof/Machine/VectorFloat.lean ====
section
/-!
DEFINITION. Float arithmetic of the vector engine (08, R171; 07, R152 to R157).
-/

namespace Sys2Proof.Machine

/-- A float operation on the elements of registers (R171); the format is T, the mode that of VCTL at issue (R153). -/
def vectorFloat (word : BitVec 32) (op : FOp) (regs : List (BitVec 6)) (d a b : BitVec 6) (m : BitVec 3) (nf : BitVec 1)
    (ty : BitVec 4) (latency : Nat) : M Unit :=
  let fm := (floatFmt ty.toNat).getD fmtF32
  elementwise word regs d a b m fm.width latency (nf == 1) fun t z x y => floatOp op fm t.mode' z x y

/-- `vadd` (R171). -/
def execVadd (d a b : BitVec 6) (m : BitVec 3) (nf : BitVec 1) (ty : BitVec 4) (s : State) :
    Host.Outcome State Fault Refusal :=
  conclude (vectorFloat (encode (.vadd d a b m nf ty)) .add [a, b] d a b m nf ty 4) s

/-- `vsub` (R171). -/
def execVsub (d a b : BitVec 6) (m : BitVec 3) (nf : BitVec 1) (ty : BitVec 4) (s : State) :
    Host.Outcome State Fault Refusal :=
  conclude (vectorFloat (encode (.vsub d a b m nf ty)) .sub [a, b] d a b m nf ty 4) s

/-- `vmul` (R171). -/
def execVmul (d a b : BitVec 6) (m : BitVec 3) (nf : BitVec 1) (ty : BitVec 4) (s : State) :
    Host.Outcome State Fault Refusal :=
  conclude (vectorFloat (encode (.vmul d a b m nf ty)) .mul [a, b] d a b m nf ty 5) s

/-- `vfma` (R171). -/
def execVfma (d a b : BitVec 6) (m : BitVec 3) (nf : BitVec 1) (ty : BitVec 4) (s : State) :
    Host.Outcome State Fault Refusal :=
  conclude (vectorFloat (encode (.vfma d a b m nf ty)) .fma [a, b, d] d a b m nf ty 6) s

/-- `vfms` (R171). -/
def execVfms (d a b : BitVec 6) (m : BitVec 3) (nf : BitVec 1) (ty : BitVec 4) (s : State) :
    Host.Outcome State Fault Refusal :=
  conclude (vectorFloat (encode (.vfms d a b m nf ty)) .fms [a, b, d] d a b m nf ty 6) s

/-- `vnfma` (R171). -/
def execVnfma (d a b : BitVec 6) (m : BitVec 3) (nf : BitVec 1) (ty : BitVec 4) (s : State) :
    Host.Outcome State Fault Refusal :=
  conclude (vectorFloat (encode (.vnfma d a b m nf ty)) .nfma [a, b, d] d a b m nf ty 6) s

/-- `vmin` (R171). -/
def execVmin (d a b : BitVec 6) (m : BitVec 3) (nf : BitVec 1) (ty : BitVec 4) (s : State) :
    Host.Outcome State Fault Refusal :=
  conclude (vectorFloat (encode (.vmin d a b m nf ty)) .min [a, b] d a b m nf ty 4) s

/-- `vmax` (R171). -/
def execVmax (d a b : BitVec 6) (m : BitVec 3) (nf : BitVec 1) (ty : BitVec 4) (s : State) :
    Host.Outcome State Fault Refusal :=
  conclude (vectorFloat (encode (.vmax d a b m nf ty)) .max [a, b] d a b m nf ty 4) s

/-- `vdiv` (R171). -/
def execVdiv (d a b : BitVec 6) (m : BitVec 3) (nf : BitVec 1) (ty : BitVec 4) (s : State) :
    Host.Outcome State Fault Refusal :=
  conclude (vectorFloat (encode (.vdiv d a b m nf ty)) .div [a, b] d a b m nf ty 24) s

/-- `vsqrt` (R171). -/
def execVsqrt (d a : BitVec 6) (m : BitVec 3) (nf : BitVec 1) (ty : BitVec 4) (s : State) :
    Host.Outcome State Fault Refusal :=
  conclude (vectorFloat (encode (.vsqrt d a m nf ty)) .sqrt [a] d a a m nf ty 24) s

/-- `vabs` (R171). -/
def execVabs (d a : BitVec 6) (m : BitVec 3) (nf : BitVec 1) (ty : BitVec 4) (s : State) :
    Host.Outcome State Fault Refusal :=
  conclude (vectorFloat (encode (.vabs d a m nf ty)) .abs [a] d a a m nf ty 4) s

/-- `vneg` (R171). -/
def execVneg (d a : BitVec 6) (m : BitVec 3) (nf : BitVec 1) (ty : BitVec 4) (s : State) :
    Host.Outcome State Fault Refusal :=
  conclude (vectorFloat (encode (.vneg d a m nf ty)) .neg [a] d a a m nf ty 4) s

/-- `vrnd` (R171). -/
def execVrnd (d a : BitVec 6) (m : BitVec 3) (nf : BitVec 1) (ty : BitVec 4) (s : State) :
    Host.Outcome State Fault Refusal :=
  conclude (vectorFloat (encode (.vrnd d a m nf ty)) .rnd [a] d a a m nf ty 4) s

end Sys2Proof.Machine
end

