-- ==== Sys2Proof/Machine/VectorMem.lean ====
section
/-!
DEFINITION. Stream accesses and tile rows of the vector engine (08, R183 to R191).
-/

namespace Sys2Proof.Machine

/-- How a stream format and a register type pair (R184). -/
inductive Pairing where
  | raw | float | int (signed : Bool) | zext | power
  deriving DecidableEq, Repr, Inhabited

/-- The pairing table of R184; none where the pair raises PATH. -/
def pairing (fmt ty : Nat) (store : Bool) : Option Pairing :=
  if fmt == ty then some .raw
  else if (ty == 0 && [1, 2, 3, 4].contains fmt) || ((ty == 1 || ty == 2) && [3, 4].contains fmt) then some .float
  else if ([6, 7, 8, 9].contains fmt && (ty == 10 || ty == 11)) || ([6, 7].contains fmt && (ty == 8 || ty == 9)) then
    some (.int (fmt == 6 || fmt == 8))
  else if (fmt == 5 || fmt == 13) && [7, 9, 11].contains ty then some .zext
  else if fmt == 12 && ty == 0 && !store then some .power
  else none

/-- An element as a load puts it into the register (R184). -/
def loadElement (p : Pairing) (fmt ty v : Nat) : Nat :=
  match p with
  | .raw => v
  | .float => (convert fmt ty false .rne v).1
  | .int sg => intBits (fmtWidth ty) (readInt (fmtWidth fmt) sg v)
  | .zext => v
  | .power => rneBits fmtF32 (scaleExact 12 v)

/-- An element as a store puts it into memory, and the flags that it raises (R184). -/
def storeElement (p : Pairing) (fmt ty : Nat) (mode : Mode) (v : Nat) : Nat × LFlags :=
  match p with
  | .float => convert ty fmt false mode v
  | _ => (v % 2 ^ fmtWidth fmt, 0)

/-- A stream access: the stream, the type, the mask, the number of elements and the stream index of each (R183). -/
structure Access where
  q : Stream
  ty : Nat
  active : Mask
  count : Nat
  index : Nat → Int

namespace Access

/-- The lane of element j: with 256 elements, lane j. -/
def lane (x : Access) (j : Nat) : Nat := j / (x.count / 256)

/-- Whether element j is accessed: its lane is active and it is in extent (R185).  DESIGN CHOICE (log 96): through a tile handle
too, so that a stream access with no element in extent raises no PATH there. -/
def reached (x : Access) (j : Nat) : Bool :=
  x.active.getLsbD (x.lane j) && decide (0 ≤ x.index j) && decide (x.index j < (x.q.extent.toNat : Int))

/-- The elements accessed, in the order of their indices. -/
def elements (x : Access) : List Nat := (List.range x.count).filter x.reached

/-- How far the cursor moves (R186). -/
def step (x : Access) (adv : BitVec 2) : Nat :=
  match adv.toNat with
  | 0 => 0
  | 1 => x.count
  | _ => x.q.pitch

end Access

/-- The checks of one accessed element at the core, in the order of R185: position add, path, alignment, pairing, walk.
They answer where the element lies and how it pairs. -/
def checkElement (c : Ctx) (x : Access) (k : Acc) (j : Nat) : M (Word × Nat × Pairing) := do
  let t ← getTask c.loc
  let s ← getState
  let w := x.q.width
  let i := BitVec.ofNat 16 j
  match elementAddr x.q.base w (x.index j).toNat with
  | none => c.trap .padd x.q.base i
  | some (a, sub) => do
    c.check (pathOf a != 7 && (pathOf a != 5 || inDomain s.dev (bits a.toNat 56 49))) .path a i
    (if onBytePath a then do
      let _ ← c.lift a (bytePath (coreOf c.loc) t.grant a ((sub + w + 7) / 8)) i
      c.check (w < 8 || posOf a % (w / 8) == 0) .align a i
     else pure ())
    match pairing x.q.fmt x.ty (k != .read) with
    | none => c.trap .path a i
    | some p => do
      c.check (pathOf a != 1 || x.q.fmt == 1) .path a i
      let _ ← c.lift a (locate s (some (coreOf c.loc)) t.grant t.tenant .v k (.width w) a sub) i
      pure (a, sub, p)

/-- The stream of an access and its access, from the task as it stands at issue. -/
def accessOf (t : Task) (q : BitVec 4) (m : BitVec 3) (ty : BitVec 4) : Access :=
  let st := t.q.get q.toFin
  { q := st, ty := ty.toNat, active := t.readM m, count := 8192 / fmtWidth ty.toNat, index := fun j => st.at' + j }

/-- The access of a gather or scatter: lane j at the cursor plus the signed index of lane j (R183, R189). -/
def indexedAccess (t : Task) (q : BitVec 4) (b : BitVec 6) (m : BitVec 3) (ty : BitVec 4) : Access :=
  let st := t.q.get q.toFin
  let vb := t.v.get b.toFin
  { q := st, ty := ty.toNat, active := t.readM m, count := 256
    index := fun j => st.at' + readInt 32 true (elemOf 32 vb j) }

/-- The cursor of a stream moves (R186). -/
def moveCursor (c : Ctx) (q : BitVec 4) (k : Nat) : M Unit :=
  setTask c.loc fun t => { t with q := t.q.set q.toNat ((t.q.get q.toFin).moveBy k) q.isLt }

/-- A stream load: every accessed element is checked, then read; active lanes of d are written (R185, R186, R188). -/
def loadAccess (c : Ctx) (d : BitVec 6) (q : BitVec 4) (adv : BitVec 2) (x : Access) : M Unit := do
  let js := x.elements
  let places ← js.mapM fun j => do
    let r ← checkElement c x .read j
    pure (j, r)
  let got ← places.mapM fun (j, a, sub, p) => do
    let g ← readSpot c a (.width x.q.width) (BitVec.ofNat 16 j) sub
    pure (j, loadElement p x.q.fmt x.ty (g.val % 2 ^ x.q.width), g.poison)
  let w := fmtWidth x.ty
  let find := fun j => (got.find? fun g => g.1 == j).map fun g => g.2
  moveCursor c q (x.step adv)
  deliver c (if pathOf x.q.base == 3 then 12 else 0)
    { dest := .reg d
      bits := laneBits x.active
      value := vregOf w fun e => ((find e).map fun g => g.1).getD 0
      lanes := x.active
      poison := maskOf fun i => got.any fun g => g.2.2 && x.lane g.1 == i }

/-- `vld` (R188). -/
def execVld (d : BitVec 6) (q : BitVec 4) (adv : BitVec 2) (m : BitVec 3) (ty : BitVec 4) (s : State) :
    Host.Outcome State Fault Refusal :=
  conclude (do
    let c ← issueV (encode (.vld d q adv m ty))
    needV c [d]
    needQ c [q]
    let t ← getTask c.loc
    loadAccess c d q adv (accessOf t q m ty)) s

/-- `vgth` (R189). -/
def execVgth (d : BitVec 6) (q : BitVec 4) (adv : BitVec 2) (b : BitVec 6) (m : BitVec 3) (ty : BitVec 4) (s : State) :
    Host.Outcome State Fault Refusal :=
  conclude (do
    let c ← issueV (encode (.vgth d q adv b m ty))
    needV c [d, b]
    needQ c [q]
    let t ← getTask c.loc
    useLanes c (t.readM m) [b]
    loadAccess c d q adv (indexedAccess t q b m ty)) s

/-- The flags of rounding that lane i raises in a store: of each of its elements, whether in extent or not, when it is active
(R160, R184). -/
def Access.storeFlags (x : Access) (mode : Mode) (data : VReg) (i : Nat) : LFlags :=
  match pairing x.q.fmt x.ty true with
  | some p =>
    if x.active.getLsbD i then
      orFlags (((List.range x.count).filter fun j => x.lane j == i).map fun j =>
        (storeElement p x.q.fmt x.ty mode (elemOf (fmtWidth x.ty) data j)).2)
    else 0
  | none => 0

/-- A stream store: every accessed element is checked; then one posted write carries them in the order of their
indices, so that of equal places the highest element's value stays (R185 to R187, R189).  Flags of rounding are raised
at issue (R160, R184).  With nothing to write and no flag there is nothing to acknowledge.  DESIGN CHOICE (log 92): the flag word
of `vrst` is checked after the elements. -/
def storeAccess (c : Ctx) (d : BitVec 6) (q : BitVec 4) (adv : BitVec 2) (x : Access) (flag : M (Option FlagRef)) :
    M Unit := do
  let t ← getTask c.loc
  let w := fmtWidth x.ty
  let data := t.v.get d.toFin
  let outs ← x.elements.mapM fun j => do
    let (a, sub, p) ← checkElement c x .write j
    let (v, _) := storeElement p x.q.fmt x.ty t.mode' (elemOf w data j)
    writeSpot c a (.width x.q.width) v (BitVec.ofNat 16 j) sub
  let f ← flag
  moveCursor c q (x.step adv)
  setTask c.loc fun t => { t with laneFlags := raiseLanes t.laneFlags (.ofFn fun i => x.storeFlags t.mode' data i.val) }
  (if outs.isEmpty && f.isNone then pure () else postOne c outs f)
  finishV c

/-- `vst` (R188). -/
def execVst (d : BitVec 6) (q : BitVec 4) (adv : BitVec 2) (m : BitVec 3) (ty : BitVec 4) (s : State) :
    Host.Outcome State Fault Refusal :=
  conclude (do
    let c ← issueV (encode (.vst d q adv m ty))
    needV c [d]
    needQ c [q]
    let t ← getTask c.loc
    useLanes c (t.readM m) [d]
    storeAccess c d q adv (accessOf t q m ty) (pure none)) s

/-- `vsct` (R189). -/
def execVsct (d : BitVec 6) (q : BitVec 4) (adv : BitVec 2) (b : BitVec 6) (m : BitVec 3) (ty : BitVec 4) (s : State) :
    Host.Outcome State Fault Refusal :=
  conclude (do
    let c ← issueV (encode (.vsct d q adv b m ty))
    needV c [d, b]
    needQ c [q]
    let t ← getTask c.loc
    useLanes c (t.readM m) [d, b]
    storeAccess c d q adv (indexedAccess t q b m ty) (pure none)) s

/-- `vrst` (R190): a store whose flag word, when there is one, counts it even with no element accessed. -/
def execVrst (d : BitVec 6) (q : BitVec 4) (adv : BitVec 2) (m : BitVec 3) (ty : BitVec 4) (s : State) :
    Host.Outcome State Fault Refusal :=
  conclude (do
    let c ← issueV (encode (.vrst d q adv m ty))
    needV c [d]
    needQ c [q]
    let t ← getTask c.loc
    useLanes c (t.readM m) [d]
    let x := accessOf t q m ty
    c.check (pathOf x.q.base == 0 || pathOf x.q.base == 5) .path x.q.base
    storeAccess c d q adv x (if x.q.flag == 0 then pure none else some <$> flagSpot c x.q.flag)) s

/-- The offset in a tile of the bytes of lane i (R191). -/
def tileLane (r i : Nat) : Nat := (r + i / 64) % 128 * 256 + 4 * (i % 64)

/-- `vtld` (R191). -/
def execVtld (d a : BitVec 6) (r : BitVec 7) (s : State) : Host.Outcome State Fault Refusal :=
  conclude (do
    let c ← issueV (encode (.vtld d a r))
    needV c [d]
    let t ← getTask c.loc
    c.check (t.tileOk a.toNat) .perm 0
    let st ← getState
    let core := coreOf c.loc
    waitFor ((st.cores.get core).tileState a.toNat == 2)
    let byte := fun i => tileByte core a.toNat (tileLane r.toNat i)
    deliver c 12 (laneResult d (BitVec.allOnes 256) fun i =>
      (readBytes st.mem (byte i) 4, rangePoisoned st.dev.poison (byte i) 4))) s

/-- `vtst` (R24, R191). -/
def execVtst (d a : BitVec 6) (r : BitVec 7) (s : State) : Host.Outcome State Fault Refusal :=
  conclude (do
    let c ← issueV (encode (.vtst d a r))
    needV c [d]
    let t ← getTask c.loc
    c.check (t.tileOk a.toNat) .perm 0
    let st ← getState
    let core := coreOf c.loc
    let now := (st.cores.get core).tileState a.toNat
    waitFor (now == 1 || (now == 0 && !fillsFirst st core .v a.toNat))
    useLanes c (BitVec.allOnes 256) [d]
    (if now == 0 then setCore core fun k => k.setTile a.toNat fun _ => { state := 1, span := 0 } else pure ())
    applyWrites [core] ((List.range 256).map fun i =>
      { bit := 8 * tileByte core a.toNat (tileLane r.toNat i), width := 32, value := (t.lane d i).1, addr := 0 })
    finishV c) s

end Sys2Proof.Machine
end

