-- ==== Sys2Proof/Machine/Dispatch.lean ====
section
/-!
DEFINITION. The dispatch: one arm for each constructor of Instr, in the table's order, each one direct call.
-/

namespace Sys2Proof.Machine

def exec (i : Instr) (s : State) : Host.Outcome State Fault Refusal :=
  match i with
  | .add d a b => Sys2Proof.Machine.execAdd d a b s
  | .sub d a b => Sys2Proof.Machine.execSub d a b s
  | .and d a b => Sys2Proof.Machine.execAnd d a b s
  | .or d a b => Sys2Proof.Machine.execOr d a b s
  | .xor d a b => Sys2Proof.Machine.execXor d a b s
  | .andn d a b => Sys2Proof.Machine.execAndn d a b s
  | .orn d a b => Sys2Proof.Machine.execOrn d a b s
  | .shl d a b => Sys2Proof.Machine.execShl d a b s
  | .shr d a b => Sys2Proof.Machine.execShr d a b s
  | .sra d a b => Sys2Proof.Machine.execSra d a b s
  | .slt d a b => Sys2Proof.Machine.execSlt d a b s
  | .sltn d a b => Sys2Proof.Machine.execSltn d a b s
  | .seq d a b => Sys2Proof.Machine.execSeq d a b s
  | .sne d a b => Sys2Proof.Machine.execSne d a b s
  | .min d a b => Sys2Proof.Machine.execMin d a b s
  | .max d a b => Sys2Proof.Machine.execMax d a b s
  | .minn d a b => Sys2Proof.Machine.execMinn d a b s
  | .maxn d a b => Sys2Proof.Machine.execMaxn d a b s
  | .mul d a b => Sys2Proof.Machine.execMul d a b s
  | .mulh d a b => Sys2Proof.Machine.execMulh d a b s
  | .mulhn d a b => Sys2Proof.Machine.execMulhn d a b s
  | .div d a b => Sys2Proof.Machine.execDiv d a b s
  | .divn d a b => Sys2Proof.Machine.execDivn d a b s
  | .rem d a b => Sys2Proof.Machine.execRem d a b s
  | .remn d a b => Sys2Proof.Machine.execRemn d a b s
  | .clz d a => Sys2Proof.Machine.execClz d a s
  | .ctz d a => Sys2Proof.Machine.execCtz d a s
  | .pop d a => Sys2Proof.Machine.execPop d a s
  | .padd d a b => Sys2Proof.Machine.execPadd d a b s
  | .planeOf d a b => Sys2Proof.Machine.execPlaneOf d a b s
  | .pathOf d a b => Sys2Proof.Machine.execPathOf d a b s
  | .addi d a imm => Sys2Proof.Machine.execAddi d a imm s
  | .andi d a imm => Sys2Proof.Machine.execAndi d a imm s
  | .ori d a imm => Sys2Proof.Machine.execOri d a imm s
  | .xori d a imm => Sys2Proof.Machine.execXori d a imm s
  | .shli d a imm => Sys2Proof.Machine.execShli d a imm s
  | .shri d a imm => Sys2Proof.Machine.execShri d a imm s
  | .srai d a imm => Sys2Proof.Machine.execSrai d a imm s
  | .slti d a imm => Sys2Proof.Machine.execSlti d a imm s
  | .sltni d a imm => Sys2Proof.Machine.execSltni d a imm s
  | .paddi d a imm => Sys2Proof.Machine.execPaddi d a imm s
  | .planei d a imm => Sys2Proof.Machine.execPlanei d a imm s
  | .hi d imm => Sys2Proof.Machine.execHi d imm s
  | .top d imm => Sys2Proof.Machine.execTop d imm s
  | .pcrel d imm => Sys2Proof.Machine.execPcrel d imm s
  | .beq a b off => Sys2Proof.Machine.execBeq a b off s
  | .bne a b off => Sys2Proof.Machine.execBne a b off s
  | .blt a b off => Sys2Proof.Machine.execBlt a b off s
  | .bge a b off => Sys2Proof.Machine.execBge a b off s
  | .bltn a b off => Sys2Proof.Machine.execBltn a b off s
  | .bgen a b off => Sys2Proof.Machine.execBgen a b off s
  | .jal d off => Sys2Proof.Machine.execJal d off s
  | .jalr d a imm => Sys2Proof.Machine.execJalr d a imm s
  | .ld d a sz off => Sys2Proof.Machine.execLd d a sz off s
  | .st d a sz off => Sys2Proof.Machine.execSt d a sz off s
  | .rst d a b f => Sys2Proof.Machine.execRst d a b f s
  | .amo d a b slot => Sys2Proof.Machine.execAmo d a b slot s
  | .amoPosted a b slot => Sys2Proof.Machine.execAmoPosted a b slot s
  | .waita d a b f => Sys2Proof.Machine.execWaita d a b f s
  | .fence sub sc => Sys2Proof.Machine.execFence sub sc s
  | .acq d a sc => Sys2Proof.Machine.execAcq d a sc s
  | .rel a b sc => Sys2Proof.Machine.execRel a b sc s
  | .relAdd a b sc => Sys2Proof.Machine.execRelAdd a b sc s
  | .bind d a slot => Sys2Proof.Machine.execBind d a slot s
  | .unbind d a slot => Sys2Proof.Machine.execUnbind d a slot s
  | .tkWait m => Sys2Proof.Machine.execTkWait m s
  | .tkGive m => Sys2Proof.Machine.execTkGive m s
  | .kw d clear mask => Sys2Proof.Machine.execKw d clear mask s
  | .barArrive d a b sc => Sys2Proof.Machine.execBarArrive d a b sc s
  | .barWait d a b sc => Sys2Proof.Machine.execBarWait d a b sc s
  | .barSync d a b sc => Sys2Proof.Machine.execBarSync d a b sc s
  | .barInit d a b sc => Sys2Proof.Machine.execBarInit d a b sc s
  | .barFlags d a b sc => Sys2Proof.Machine.execBarFlags d a b sc s
  | .barTest1 d a b sc => Sys2Proof.Machine.execBarTest1 d a b sc s
  | .qmPost m => Sys2Proof.Machine.execQmPost m s
  | .qmWait => Sys2Proof.Machine.execQmWait s
  | .launch d a => Sys2Proof.Machine.execLaunch d a s
  | .stBase q a b => Sys2Proof.Machine.execStBase q a b s
  | .stLay q a => Sys2Proof.Machine.execStLay q a s
  | .stFmt q a => Sys2Proof.Machine.execStFmt q a s
  | .stScl q a => Sys2Proof.Machine.execStScl q a s
  | .stFlag q a => Sys2Proof.Machine.execStFlag q a s
  | .stLink q b => Sys2Proof.Machine.execStLink q b s
  | .stPos q a => Sys2Proof.Machine.execStPos q a s
  | .stFill q a => Sys2Proof.Machine.execStFill q a s
  | .rtset r a => Sys2Proof.Machine.execRtset r a s
  | .xset x a => Sys2Proof.Machine.execXset x a s
  | .sget d sys => Sys2Proof.Machine.execSget d sys s
  | .sset a sys => Sys2Proof.Machine.execSset a sys s
  | .trap imm => Sys2Proof.Machine.execTrap imm s
  | .eret => Sys2Proof.Machine.execEret s
  | .seal a b => Sys2Proof.Machine.execSeal a b s
  | .unseal a b => Sys2Proof.Machine.execUnseal a b s
  | .tlbiAll => Sys2Proof.Machine.execTlbiAll s
  | .tlbiTenant a => Sys2Proof.Machine.execTlbiTenant a s
  | .tlbiPositionPage a => Sys2Proof.Machine.execTlbiPositionPage a s
  | .tlbiPlaneFrame a => Sys2Proof.Machine.execTlbiPlaneFrame a s
  | .yield => Sys2Proof.Machine.execYield s
  | .endS => Sys2Proof.Machine.execEndS s
  | .vadd d a b m nf ty => Sys2Proof.Machine.execVadd d a b m nf ty s
  | .vsub d a b m nf ty => Sys2Proof.Machine.execVsub d a b m nf ty s
  | .vmul d a b m nf ty => Sys2Proof.Machine.execVmul d a b m nf ty s
  | .vfma d a b m nf ty => Sys2Proof.Machine.execVfma d a b m nf ty s
  | .vfms d a b m nf ty => Sys2Proof.Machine.execVfms d a b m nf ty s
  | .vnfma d a b m nf ty => Sys2Proof.Machine.execVnfma d a b m nf ty s
  | .vmin d a b m nf ty => Sys2Proof.Machine.execVmin d a b m nf ty s
  | .vmax d a b m nf ty => Sys2Proof.Machine.execVmax d a b m nf ty s
  | .vdiv d a b m nf ty => Sys2Proof.Machine.execVdiv d a b m nf ty s
  | .vsqrt d a m nf ty => Sys2Proof.Machine.execVsqrt d a m nf ty s
  | .vabs d a m nf ty => Sys2Proof.Machine.execVabs d a m nf ty s
  | .vneg d a m nf ty => Sys2Proof.Machine.execVneg d a m nf ty s
  | .vrnd d a m nf ty => Sys2Proof.Machine.execVrnd d a m nf ty s
  | .viadd d a b m ty => Sys2Proof.Machine.execViadd d a b m ty s
  | .visub d a b m ty => Sys2Proof.Machine.execVisub d a b m ty s
  | .vimul d a b m ty => Sys2Proof.Machine.execVimul d a b m ty s
  | .vimulh d a b m ty => Sys2Proof.Machine.execVimulh d a b m ty s
  | .vand d a b m ty => Sys2Proof.Machine.execVand d a b m ty s
  | .vor d a b m ty => Sys2Proof.Machine.execVor d a b m ty s
  | .vxor d a b m ty => Sys2Proof.Machine.execVxor d a b m ty s
  | .vshl d a b m ty => Sys2Proof.Machine.execVshl d a b m ty s
  | .vshr d a b m ty => Sys2Proof.Machine.execVshr d a b m ty s
  | .vsra d a b m ty => Sys2Proof.Machine.execVsra d a b m ty s
  | .vimin d a b m ty => Sys2Proof.Machine.execVimin d a b m ty s
  | .vimax d a b m ty => Sys2Proof.Machine.execVimax d a b m ty s
  | .viabs d a m ty => Sys2Proof.Machine.execViabs d a m ty s
  | .vcmp md pr a b m nf ty => Sys2Proof.Machine.execVcmp md pr a b m nf ty s
  | .vcvt d a target sat m nf ty => Sys2Proof.Machine.execVcvt d a target sat m nf ty s
  | .vcbe d a cb m nf ty => Sys2Proof.Machine.execVcbe d a cb m nf ty s
  | .vcbd d a cb m ty => Sys2Proof.Machine.execVcbd d a cb m ty s
  | .vmov d a m ty => Sys2Proof.Machine.execVmov d a m ty s
  | .vsel d a b m ty => Sys2Proof.Machine.execVsel d a b m ty s
  | .vperm d a b m ty => Sys2Proof.Machine.execVperm d a b m ty s
  | .vrot d a imm => Sys2Proof.Machine.execVrot d a imm s
  | .vbcl d a imm => Sys2Proof.Machine.execVbcl d a imm s
  | .vbcx d x => Sys2Proof.Machine.execVbcx d x s
  | .vred d a op m nf ty => Sys2Proof.Machine.execVred d a op m nf ty s
  | .vidx d m ty => Sys2Proof.Machine.execVidx d m ty s
  | .vimm d ty v => Sys2Proof.Machine.execVimm d ty v s
  | .mopsAnd d a b => Sys2Proof.Machine.execMopsAnd d a b s
  | .mopsOr d a b => Sys2Proof.Machine.execMopsOr d a b s
  | .mopsXor d a b => Sys2Proof.Machine.execMopsXor d a b s
  | .mopsAndn d a b => Sys2Proof.Machine.execMopsAndn d a b s
  | .mopsNot d a => Sys2Proof.Machine.execMopsNot d a s
  | .mopsFirstn d a => Sys2Proof.Machine.execMopsFirstn d a s
  | .mopsOnes d => Sys2Proof.Machine.execMopsOnes d s
  | .vld d q adv m ty => Sys2Proof.Machine.execVld d q adv m ty s
  | .vst d q adv m ty => Sys2Proof.Machine.execVst d q adv m ty s
  | .vgth d q adv b m ty => Sys2Proof.Machine.execVgth d q adv b m ty s
  | .vsct d q adv b m ty => Sys2Proof.Machine.execVsct d q adv b m ty s
  | .vrst d q adv m ty => Sys2Proof.Machine.execVrst d q adv m ty s
  | .vtld d a r => Sys2Proof.Machine.execVtld d a r s
  | .vtst d a r => Sys2Proof.Machine.execVtst d a r s
  | .vflGet d m => Sys2Proof.Machine.execVflGet d m s
  | .vflClear m => Sys2Proof.Machine.execVflClear m s
  | .vflCollect m => Sys2Proof.Machine.execVflCollect m s
  | .vtkWait e => Sys2Proof.Machine.execVtkWait e s
  | .vtkGive e => Sys2Proof.Machine.execVtkGive e s
  | .vrgn e => Sys2Proof.Machine.execVrgn e s
  | .vpark d e => Sys2Proof.Machine.execVpark d e s
  | .vunpark d e => Sys2Proof.Machine.execVunpark d e s
  | .vend => Sys2Proof.Machine.execVend s
  | .mma qa qb acc mode w g ks => Sys2Proof.Machine.execMma qa qb acc mode w g ks s
  | .mzero a w g => Sys2Proof.Machine.execMzero a w g s
  | .mdrain acc qd ep w g => Sys2Proof.Machine.execMdrain acc qd ep w g s
  | .mdrr acc rt ep fl w g => Sys2Proof.Machine.execMdrr acc rt ep fl w g s
  | .mleaseGet w g => Sys2Proof.Machine.execMleaseGet w g s
  | .mleaseRelease w g => Sys2Proof.Machine.execMleaseRelease w g s
  | .mleaseRenew w g => Sys2Proof.Machine.execMleaseRenew w g s
  | .mcbl a b w g => Sys2Proof.Machine.execMcbl a b w g s
  | .mepi a b w g => Sys2Proof.Machine.execMepi a b w g s
  | .macc a b w g => Sys2Proof.Machine.execMacc a b w g s
  | .mtk w g => Sys2Proof.Machine.execMtk w g s
  | .mend => Sys2Proof.Machine.execMend s
  | .cp qs qd kr kv w g sc => Sys2Proof.Machine.execCp qs qd kr kv w g sc s
  | .cpConvert qs qd kr kv w g sc => Sys2Proof.Machine.execCpConvert qs qd kr kv w g sc s
  | .cpadd qs qd kr kv w g sc fn => Sys2Proof.Machine.execCpadd qs qd kr kv w g sc fn s
  | .cpg qs qd kr kv w g sc => Sys2Proof.Machine.execCpg qs qd kr kv w g sc s
  | .cps qs qd kr kv w g sc => Sys2Proof.Machine.execCps qs qd kr kv w g sc s
  | .cpz qd kv w g sc fn => Sys2Proof.Machine.execCpz qd kv w g sc fn s
  | .cpf qs qd kr kv w g sc => Sys2Proof.Machine.execCpf qs qd kr kv w g sc s
  | .cpre qs qd kr kv w g sc => Sys2Proof.Machine.execCpre qs qd kr kv w g sc s
  | .ctile t state w g => Sys2Proof.Machine.execCtile t state w g s
  | .chl qs qd kr kv w g => Sys2Proof.Machine.execChl qs qd kr kv w g s
  | .cpost qs kr kv w g => Sys2Proof.Machine.execCpost qs kr kv w g s
  | .cabort qs kv w g => Sys2Proof.Machine.execCabort qs kv w g s
  | .cmig qs qd kr kv w g => Sys2Proof.Machine.execCmig qs qd kr kv w g s
  | .ckey qs qd kr kv w g => Sys2Proof.Machine.execCkey qs qd kr kv w g s
  | .ctk w g => Sys2Proof.Machine.execCtk w g s
  | .cend => Sys2Proof.Machine.execCend s
  | .atomic n => Sys2Proof.Machine.execAtomic n s
  | .memoryRequest n => Sys2Proof.Machine.execMemoryRequest n s
  | .response n => Sys2Proof.Machine.execResponse n s
  | .writeAck n => Sys2Proof.Machine.execWriteAck n s
  | .postedRefusal n => Sys2Proof.Machine.execPostedRefusal n s
  | .instructionFinish core slot eng => Sys2Proof.Machine.execInstructionFinish core slot eng s
  | .mmaSlice core slot => Sys2Proof.Machine.execMmaSlice core slot s
  | .leaseIdle core => Sys2Proof.Machine.execLeaseIdle core s
  | .copyChunk core slot n clash => Sys2Proof.Machine.execCopyChunk core slot n clash s
  | .copyReadsPerformed core slot n => Sys2Proof.Machine.execCopyReadsPerformed core slot n s
  | .copyWritesPerformed core slot n => Sys2Proof.Machine.execCopyWritesPerformed core slot n s
  | .vectorResultLand core slot => Sys2Proof.Machine.execVectorResultLand core slot s
  | .monitorWake core n => Sys2Proof.Machine.execMonitorWake core n s
  | .waitaTimeout core n => Sys2Proof.Machine.execWaitaTimeout core n s
  | .phaseEnd core slot => Sys2Proof.Machine.execPhaseEnd core slot s
  | .barrierArrival n => Sys2Proof.Machine.execBarrierArrival n s
  | .swapOnWait core slot => Sys2Proof.Machine.execSwapOnWait core slot s
  | .watchdog core slot => Sys2Proof.Machine.execWatchdog core slot s
  | .launchHandover n => Sys2Proof.Machine.execLaunchHandover n s
  | .scoreboardExamine die => Sys2Proof.Machine.execScoreboardExamine die s
  | .dependenceMet die entry remoteMet remoteFailed => Sys2Proof.Machine.execDependenceMet die entry remoteMet remoteFailed s
  | .staging die entry => Sys2Proof.Machine.execStaging die entry s
  | .aging n => Sys2Proof.Machine.execAging n s
  | .place => Sys2Proof.Machine.execPlace s
  | .taskSave core slot => Sys2Proof.Machine.execTaskSave core slot s
  | .restore n => Sys2Proof.Machine.execRestore n s
  | .taskRetire core slot => Sys2Proof.Machine.execTaskRetire core slot s
  | .shadowDone n => Sys2Proof.Machine.execShadowDone n s
  | .coreAcknowledge core n => Sys2Proof.Machine.execCoreAcknowledge core n s
  | .migrationChunk n => Sys2Proof.Machine.execMigrationChunk n s
  | .migrationStable n => Sys2Proof.Machine.execMigrationStable n s
  | .handlerSlotLoad slot tenant program => Sys2Proof.Machine.execHandlerSlotLoad slot tenant program s
  | .collectivePost n => Sys2Proof.Machine.execCollectivePost n s
  | .ticketIssue n => Sys2Proof.Machine.execTicketIssue n s
  | .ticketArrival n => Sys2Proof.Machine.execTicketArrival n s
  | .ticketStart => Sys2Proof.Machine.execTicketStart s
  | .chunkArrival n => Sys2Proof.Machine.execChunkArrival n s
  | .chunkResend n => Sys2Proof.Machine.execChunkResend n s
  | .walkerTransfer entry => Sys2Proof.Machine.execWalkerTransfer entry s
  | .localComplete n => Sys2Proof.Machine.execLocalComplete n s
  | .commit n => Sys2Proof.Machine.execCommit n s
  | .abortRequest n => Sys2Proof.Machine.execAbortRequest n s
  | .abortArrival n => Sys2Proof.Machine.execAbortArrival n s
  | .chainPacket n => Sys2Proof.Machine.execChainPacket n s
  | .chainReturn n => Sys2Proof.Machine.execChainReturn n s
  | .flitTransmit port vc words compress => Sys2Proof.Machine.execFlitTransmit port vc words compress s
  | .flitReceive port flit => Sys2Proof.Machine.execFlitReceive port flit s
  | .retryRequest port seq => Sys2Proof.Machine.execRetryRequest port seq s
  | .rekeyat port => Sys2Proof.Machine.execRekeyat port s
  | .rampInterval core => Sys2Proof.Machine.execRampInterval core s
  | .powerTick watts nanojoules charges => Sys2Proof.Machine.execPowerTick watts nanojoules charges s
  | .scrub unit found => Sys2Proof.Machine.execScrub unit found s
  | .reset => Sys2Proof.Machine.execReset s
  | .lpddrReady ok => Sys2Proof.Machine.execLpddrReady ok s
  | .boot => Sys2Proof.Machine.execBoot s
  | .hostRegisterWrite offset value => Sys2Proof.Machine.execHostRegisterWrite offset value s
  | .hostRequest kind tenant offset length data => Sys2Proof.Machine.execHostRequest kind tenant offset length data s
  | .coreWave => Sys2Proof.Machine.execCoreWave s
  | .gddrTrained ok => Sys2Proof.Machine.execGddrTrained ok s
  | .leasemax core value => Sys2Proof.Machine.execLeasemax core value s
  | .rampcfg core value => Sys2Proof.Machine.execRampcfg core value s
  | .tflags core slot value setters => Sys2Proof.Machine.execTflags core slot value setters s
  | .frame core value tenant => Sys2Proof.Machine.execFrame core value tenant s
  | .tenant src tenant q0 q1 q2 q3 => Sys2Proof.Machine.execTenant src tenant q0 q1 q2 q3 s
  | .window src target tenant index q0 q1 => Sys2Proof.Machine.execWindow src target tenant index q0 q1 s
  | .barrier src level unit number owner swap => Sys2Proof.Machine.execBarrier src level unit number owner swap s
  | .monitors src count => Sys2Proof.Machine.execMonitors src count s
  | .slot src tenant slot => Sys2Proof.Machine.execSlot src tenant slot s
  | .portStatus src port => Sys2Proof.Machine.execPortStatus src port s
  | .portRekeyat src port value => Sys2Proof.Machine.execPortRekeyat src port value s
  | .portKeySwitch src port => Sys2Proof.Machine.execPortKeySwitch src port s
  | .portBringUp src port => Sys2Proof.Machine.execPortBringUp src port s
  | .watchdogLimit src limit => Sys2Proof.Machine.execWatchdogLimit src limit s
  | .errors src counter => Sys2Proof.Machine.execErrors src counter s
  | .power src watts => Sys2Proof.Machine.execPower src watts s
  | .attest src nonce => Sys2Proof.Machine.execAttest src nonce s
  | .fuse src => Sys2Proof.Machine.execFuse src s
  | .domain src rows cols domid sequencer barrierHub => Sys2Proof.Machine.execDomain src rows cols domid sequencer barrierHub s
  | .illegalWord eng word => Sys2Proof.Machine.execIllegalWord eng word s
  | .fetchFault eng => Sys2Proof.Machine.execFetchFault eng s
  | .verification => Sys2Proof.Machine.execVerification s
  | .taskEnded n => Sys2Proof.Machine.execTaskEnded n s

end Sys2Proof.Machine
end

