-- ==== Sys2Proof/Machine/Moves.lean ====
section
/-!
DEFINITION. What the moves of the agenda do that are neither an issue nor a row of the table (log 1): those of Fetch, and what the
management controller and start-up do without one (25, R390, R397, R398).
-/

namespace Sys2Proof.Machine

/-- The task that the supervisor starts with: at supervisor level, with streams and nothing else granted (R390; log 105). -/
def supervisorTask (d : Device) (entry : Vector Word 4) (tenant : BitVec 6) : Task :=
  { tid := d.nextTid, gid := d.nextGid, tenant, level := true, grant := { streams := 16 }
    pcS := entry.get 0, pcV := entry.get 1, pcM := entry.get 2, pcC := entry.get 3 }

/-- The supervisor starts, once, when cores 0 to 15 of die 0 are up (R390).  DESIGN CHOICE (log 105): in a free slot of one of them,
at addresses and for a tenant that no rule gives. -/
def startSupervisor (l : Fin 1024) (entry : Vector Word 4) (tenant : BitVec 6) : State → State :=
  afterAll (do
    let s ← getState
    enabled (s.dev.boot == .verified && s.dev.earlyService && !s.dev.started && decide ((coreOf l).val < 16) && (s.tasks.get l).isNone)
    emit (.task l (some (supervisorTask s.dev entry tenant)))
    setCore (coreOf l) fun k => { k with tenant := some tenant }
    setDev fun d => { d with started := true, nextTid := d.nextTid + 1, nextGid := d.nextGid + 1 })

/-- The controller answers the record that comes next when it is no command: its opcode is none, or its status is not 0.  DESIGN
CHOICE (log 27): it is refused. -/
def refuseRecord (src : MgmtSource) : State → State :=
  afterAll (do
    let s ← getState
    match postedRecord s src with
    | none => notNow
    | some r => do
      let opcode := readBytes s.mem r 2
      enabled (mayServe s src && (opcode == 0 || decide (12 < opcode) || readBytes s.mem (r + 4) 4 != 0))
      setDev fun d => d.servedOne src
      answerCommand r 2 0 0)

/-- The oldest notice that the controller holds is posted, once the queue has room (R398). -/
def postHeld : State → State :=
  afterAll (do
    let s ← getState
    match s.dev.noticesHeld with
    | [] => notNow
    | n :: rest => do
      enabled (noticeRoom s)
      setDev fun d => { d with noticesHeld := rest }
      postNotice n)

/-- The moves of the agenda that are neither an issue nor a row of the table. -/
def otherMove : Move → State → State
  | .tick c n => tick c n
  | .arrive p => arrive p
  | .cachePos c t a => cachePos c t a
  | .cacheFrame c t a => cacheFrame c t a
  | .evictPos c n => changeCore c fun k => { k with posTlb := k.posTlb.eraseIdx n }
  | .evictFrame c n => changeCore c fun k => { k with frames := k.frames.eraseIdx n }
  | .evictLine c n => changeCore c fun k => { k with lines := k.lines.eraseIdx n }
  | .poisonMemory b => poisonMemory b
  | .poisonScalar l r => poisonTask l fun t => { t with sPoison := if r == 0 then t.sPoison else t.sPoison ||| oneBit 64 r.toNat }
  | .poisonLane l r i => poisonTask l fun t =>
      { t with vPoison := t.vPoison.set r.toNat (t.vPoison.get r.toFin ||| oneBit 256 i.toNat) r.isLt }
  | .poisonParked l e i => poisonTask l (poisonParked e i)
  | .discardTile c n => discardTile c n
  | .discardMonitor c n => discardMonitor c n
  | .readAhead l a => readAhead l a
  | .startSupervisor l entry tenant => startSupervisor l entry tenant
  | .refuseRecord src => refuseRecord src
  | .supervisorRequest v => afterAll (notifyHeld (.supervisorRequest v))
  | .postHeld => postHeld
  | .reclaim c n => reclaim c n
  | .flitAck p q => flitAck p q
  | .cacheCode c e t a => cacheCode c e t a
  | .evictCode c n => changeCore c fun k => { k with code := k.code.eraseIdx n }
  | .linkOnly p => linkOnly p
  | .farLink a b up => farLink a b up
  | .congestion p on => congestion p on
  | .issue _ _ => id
  | .event _ => id

end Sys2Proof.Machine
end

