-- ==== Sys2Proof/Machine/Step.lean ====
section
/-!
DEFINITION. One step: what the agenda says comes next, or, with an empty agenda, the current engine issues (R25;
log 1).
-/

namespace Sys2Proof.Machine

/-- An engine of a place runs what stands at its head. -/
def runHead (s : State) (l : Fin 1024) (e : Engine) : Host.Outcome State Fault Refusal :=
  match headOf s l e with
  | .instr i => exec i (turnTo s l e)
  | .word w => Sys2Proof.Machine.execIllegalWord e w (turnTo s l e)
  | .failed => Sys2Proof.Machine.execFetchFault e (turnTo s l e)

/-- The engine of a core issues from the first slot, in the order given, whose instruction is not held (R25).  What a
held instruction has asked for (the lease, another device) stays asked. -/
def trySlots (c : Fin 256) (e : Engine) : List (Fin 4) → State → Host.Outcome State Fault Refusal
  | [], s => .next s
  | k :: ks, s =>
    if canIssue s (place c k) e then
      match runHead s (place c k) e with
      | .next t => if t.held then trySlots c e ks t else .next (issued (place c k) e t)
      | o => o
    else trySlots c e ks s

/-- One step of the machine. -/
def step (s : State) : Host.Outcome State Fault Refusal :=
  match s.agenda with
  | [] => trySlots (coreOf s.cur) s.eng (slotOrder s (coreOf s.cur) s.eng) s
  | m :: rest =>
    let s := { s with agenda := rest, held := false }
    match m with
    | .issue c e => trySlots c e (slotOrder s c e) s
    | .event i => exec i s
    | m => .next (otherMove m s)

/-- The state in which the very next step fetches and runs the word (log 3). -/
def State.withFetchWord (s : State) (_nbits w : Nat) : State := placeWord s w

end Sys2Proof.Machine
end

