-- ==== Sys2Proof/Safety.lean ====
section
/-!
DEFINITION. What counts as a safe run, a sound state and an engine that issues, in the terms the statements use.
-/

namespace Sys2Proof.Machine

/-- The run never stops: for `n` steps the machine answers next states. -/
def RunsFor (n : Nat) (s : State) : Prop := ∃ t, Host.Core.run core n s = .next t

/-- Memory is in its canonical form and the registers of limited range hold values of their range (R28, R321,
R395). -/
structure State.Sound (s : State) : Prop where
  mem : Mem.wf s.mem = true
  leasemax : ∀ c : Fin 256, 1 ≤ (s.leasemax.get c).toNat ∧ (s.leasemax.get c).toNat ≤ 256
  rampcfg : ∀ c : Fin 256, 1 ≤ (s.rampcfg.get c).toNat ∧ (s.rampcfg.get c).toNat ≤ 256
  rekeyat : ∀ p : Fin 30, 1 ≤ (s.rekeyat.get p).toNat ∧ (s.rekeyat.get p).toNat ≤ 2 ^ 40

/-- Engine `e` of the current place issues for task `t`: the task stands there in the ready set, its engine has not
ended, and no `vrgn` holds the task's engines (R15, R25, R26, R170). -/
structure State.Issues (s : State) (e : Engine) (t : Task) : Prop where
  here : s.tasks.get s.cur = some t
  may : t.mayIssue s.dev.clock e = true
  calm : t.draining = false

/-- The context of the instruction at the head of an engine of the current place. -/
def headCtx (s : State) (e : Engine) (t : Task) (w : BitVec 32) : Ctx := { loc := s.cur, eng := e, pc := t.pc e, word := w }

/-- The state with another task in the current place, and nothing else changed. -/
def State.withTask (s : State) (t : Task) : State := { s with tasks := s.tasks.set s.cur (some t) }

/-- The state with another task in the current place and another core around it, and nothing else changed. -/
def State.withTaskCore (s : State) (t : Task) (k : Core) : State :=
  { s with tasks := s.tasks.set s.cur (some t), cores := s.cores.set (coreOf s.cur) k }

/-- The state with another task in the current place and another device around it, and nothing else changed. -/
def State.withTaskDev (s : State) (t : Task) (d : Device) : State :=
  { s with tasks := s.tasks.set s.cur (some t), dev := d }

/-- The core of the current place. -/
def State.core (s : State) : Core := s.cores.get (coreOf s.cur)

/-- The state in which the current task, issuing from engine `e` the word `w`, has taken a trap (R68, R376). -/
def State.trapped (s : State) (e : Engine) (t : Task) (w : BitVec 32) (k : Cause) (a : Word)
    (index : BitVec 16 := 0) : State :=
  s.withTask (takeTrap { loc := s.cur, eng := e, pc := t.pc e, word := w, cause := k, addr := a, index, clock := s.dev.clock } t)

/-- An instruction completes: the next state is not one in which it is held to try again, and it has `P`. -/
def Completes (o : Host.Outcome State Fault Refusal) (P : State → Prop) : Prop :=
  ∃ s', o = .next s' ∧ s'.held = false ∧ P s'

end Sys2Proof.Machine
end

