-- ==== Sys2Proof/Spec/Memory.lean ====
section
/-!
DEFINITION. What the statements say of reads, posted writes and waiting, in the terms of R88, R97, R111 and R127.
-/

namespace Sys2Proof.Spec

open Sys2Proof.Machine

/-- An address leads, for a read of the current task's engine, to bits of this device's storage that the tables grant and
that no atomic of the engine's own is still to change (R88, R97, R111, R124). -/
structure ReadsHere (s : State) (t : Task) (e : Engine) (a : Word) (want : Want) (bit w : Nat) : Prop where
  found : locate s (some (coreOf s.cur)) t.grant t.tenant e .read want a = .ok (.here bit w false)
  calm : ownAtomic s.dev t.tid e (formOf a) (bit / 8) = false
  granted : bitsGranted s t.tenant t.level .read bit w = true

/-- What stands at the place: memory with the engine's own earlier posted writes over it, at the frame's new place once it
has moved; for a vector load, as the core has read the block ahead of it (R103, R122, R187, R252). -/
def valueAt (s : State) (t : Task) (e : Engine) (a : Word) (bit w : Nat) : Nat :=
  let b := readPlace s.dev.migrations bit
  readBits (memRead s (coreOf s.cur) t e (formOf a) (b / 512)) b w

/-- Whether any byte at the place is poisoned (R386). -/
def spoilt (s : State) (bit w : Nat) : Bool :=
  let b := readPlace s.dev.migrations bit
  rangePoisoned s.dev.poison (b / 8) ((b % 8 + w + 7) / 8)

/-- One read by the instruction at the head of an engine of the current place answers `g`, without a trap and without
waiting. -/
def Answers (s : State) (e : Engine) (t : Task) (w : BitVec 32) (a : Word) (want : Want) (g : Got) : Prop :=
  readSpot (headCtx s e t w) a want 0 0 [] s = .ok (g, [])

/-- One write by the instruction at the head of an engine of the current place passes the core's checks, and goes to `x`. -/
def GoesTo (s : State) (e : Engine) (t : Task) (w : BitVec 32) (a : Word) (want : Want) (v : Nat) (x : Dest) : Prop :=
  writeSpot (headCtx s e t w) a want v 0 0 [] s = .ok (x, [])

/-- The task with what was read in register d: poison goes with it (R386). -/
def receives (t : Task) (d : BitVec 6) (v : Word) (g : Got) : Task := if g.poison then t.poisonS d v else t.writeS d v

/-- The task with one more write counted and not acknowledged (R111). -/
def counted (t : Task) (uid : Nat) : Task := { t with unack := t.unack + 1, uids := t.uids ++ [uid] }

/-- The device after a message has left for a device: its own waits in `rx`, another's stands in `netOut` with its next hop, or is
held while its way is closed (R310 to R312). -/
def sends (d : Device) (dst : BitVec 8) (vc : BitVec 3) (b : Body) : Device := d.post { src := d.devid, dst, vc, body := b }

/-- The device after one posted write has left a core (R111, R123): for storage of this device a message to its target, for
another device a request, with the flag word that the target is to count in either; a flag word on this device is counted in
when that target has answered.  A write through ALIAS is made whole at the target. -/
def leaves (d : Device) (o : Origin) (uid : Nat) (flag : Option FlagRef) : Dest → Device
  | .here w => sends d d.devid 0 (.store uid o [w] flag)
  | .block w => sends (if flag.isSome then sends d d.devid 0 (.store uid o [] flag) else d) d.devid 0 (.aliasStore uid o [w])
  | .away dev a want v i =>
    let here := (flag.filter fun f => f.byte.isSome).map fun f => (o.core, f)
    sends { d with remoteParts := d.remoteParts ++ [{ uid, tid := o.tid, eng := o.eng, spans := [(a, want.span)], here }] } dev 0
      (.write uid o [(a, want, v, i)] (flag.map FlagRef.addr))

/-- The device after an identifier has been given out. -/
def named (d : Device) : Device := { d with nextUid := d.nextUid + 1 }

/-- The current task has posted one write with the device's next identifier and its engine has moved on (R111). -/
def posted (s : State) (e : Engine) (t : Task) (w : BitVec 32) (flag : Option FlagRef) (x : Dest) : State :=
  s.withTaskDev ((counted t s.dev.nextUid).goto e (t.pc e + 4))
    (leaves (named s.dev) (originOf (headCtx s e t w) t s.dev) s.dev.nextUid flag x)

/-- The current task has posted one atomic (R111, R124): `h4` and `h5` go to the handler in a slot of the target. -/
def postedAtomic (s : State) (e : Engine) (t : Task) (w : BitVec 32) (target : Nat ⊕ BitVec 8) (slot : BitVec 5)
    (h4 h5 a : Word) : State :=
  let d := named s.dev
  let uid := s.dev.nextUid
  let o := originOf (headCtx s e t w) t s.dev
  s.withTaskDev ((counted t uid).goto e (t.pc e + 4)) <|
    match target with
    | .inl byte => sends d d.devid 1 (.atomic uid o byte slot h4 h5 true false a)
    | .inr dev => sends { d with remoteParts := d.remoteParts ++ [{ uid, tid := t.tid, eng := e, spans := [(a, 8)] }] } dev 1 (.remoteAtomic uid o slot h4 h5 true a)

/-- The core with its scalar data cache as an ordering of later loads at scope `sc` leaves it (R75, R122): at COR or wider
nothing stays cached. -/
def orderedAt (k : Core) (sc : BitVec 4) : Core := if sc.toNat = 0 then k else { k with lines := [] }

/-- The core once its scalar engine has read 8 bytes at an address past the scalar data cache: what the cache holds of that
block through the same form is gone (R256, R259). -/
def pastLines (s : State) (t : Task) (a : Word) : Core :=
  match locate s (some (coreOf s.cur)) t.grant t.tenant .s .read (.bytes 8) a with
  | .ok (.here bit w false) => { s.core with lines := s.core.lines.filter fun ln =>
      !((writePlaces s.dev.migrations bit).any fun b => formOf a == ln.pathPlane.toNat && (partBlocks [(b, w, 0, a)]).contains ln.block) }
  | _ => s.core

/-- The instruction is held and nothing else changes: it tries again (R25). -/
def waits (s : State) : State := { s with held := true }

/-- Whether an engine has a posted write on its way that cannot yet count as performed at TSK scope (R21, R257). -/
def unseen (s : State) (t : Task) (e : Engine) : Bool :=
  s.dev.rx.any (fun p => isWriteOf s.dev t e p && (seeable s t e p).isNone) || awayOut s.dev t e

/-- The device once the other posted writes of an engine have become performed at TSK scope (R21, R257). -/
def seenDev (s : State) (t : Task) (e : Engine) : Device :=
  { s.dev with tskSeen := s.dev.tskSeen ++
      ((s.dev.rx.filterMap (seeable s t e)).map Prod.fst).filter fun u => !s.dev.tskSeen.contains u }

/-- The core then: lines of its scalar data cache that those writes match are gone (R259). -/
def seenCore (s : State) (t : Task) (e : Engine) : Core :=
  let ps := partsOf s.dev.migrations ((s.dev.rx.filterMap (seeable s t e)).flatMap Prod.snd)
  { s.core with lines := s.core.lines.filter fun ln =>
      !(ps.any fun p => formOf p.2.2.2 == ln.pathPlane.toNat && (partBlocks [p]).contains ln.block) }

/-- The state with another task in the current place, another core around it and another device, and nothing else
changed. -/
def withAll (s : State) (t : Task) (k : Core) (d : Device) : State :=
  { s with tasks := s.tasks.set s.cur (some t), cores := s.cores.set (coreOf s.cur) k, dev := d }

/-- The state once an engine of a task has ended: a running kernel on this device whose tasks have all executed their four
ends drains (R350). -/
def drains (s : State) (handle : Word) : State :=
  if allEnded s handle = true then
    { s with dev := { s.dev with kernels := s.dev.kernels.map fun k => k.map fun x =>
        if x.handle = handle then (if x.state = .running then { x with state := .draining } else x) else x } }
  else s

/-- Whether the accesses that a release through a sync word must wait for are performed (R129, R130). -/
def released (s : State) (t : Task) (e : Engine) (sync : Word) : Prop :=
  if t.bound sync = [] then writesOut s.dev t e = false else writesIn s.dev t e (t.bound sync) = false

end Sys2Proof.Spec
end

