-- ==== Sys2Proof/Spec/Vector.lean ====
section
/-!
DEFINITION. What the rules of 08 say of the vector instructions, as tables that the statements use.
-/

namespace Sys2Proof.Spec

open Sys2Proof.Machine

/-- The task after a vector instruction at `pc` has issued (R14, R167). -/
def nextV (t : Task) (pc : Word) : Task :=
  { t.goto .v (pc + 4) with vcount := if t.exposed then t.vcount + 1 else t.vcount }

/-- No active lane of the registers named holds poisoned data (R387). -/
def lanesClean (t : Task) (active : Mask) (rs : List (BitVec 6)) : Prop :=
  ∀ r ∈ rs, ∀ i : Fin 256, active.getLsbD i.val = true → (t.vPoison.get r.toFin).getLsbD i.val = false

/-- An integer of `w` bits, two's complement when signed. -/
def intOf (w : Nat) (sg : Bool) (x : Nat) : Int := if sg ∧ 2 ^ (w - 1) ≤ x then (x : Int) - (2 ^ w : Nat) else x

/-- An integer modulo 2^w. -/
def modOf (w : Nat) (i : Int) : Nat := (i % (2 ^ w : Nat)).toNat

/-- What an elementwise vector instruction names: the source registers that must be granted and clean, d, a, b and the
mask. -/
structure Operands where
  sources : List (BitVec 6)
  d : BitVec 6
  a : BitVec 6
  b : BitVec 6
  m : BitVec 3

/-- The integer instructions (R172): operands, type, and what an element becomes from the width, the signedness and the
elements of a and b. -/
def vectorIntegers : Instr → Option (Operands × BitVec 4 × (Nat → Bool → Nat → Nat → Nat))
  | .viadd d a b m ty => some (⟨[a, b], d, a, b, m⟩, ty, fun w _ x y => (x + y) % 2 ^ w)
  | .visub d a b m ty => some (⟨[a, b], d, a, b, m⟩, ty, fun w _ x y => modOf w ((x : Int) - y))
  | .vimul d a b m ty => some (⟨[a, b], d, a, b, m⟩, ty, fun w _ x y => x * y % 2 ^ w)
  | .vimulh d a b m ty => some (⟨[a, b], d, a, b, m⟩, ty, fun w sg x y => modOf w (intOf w sg x * intOf w sg y / (2 ^ w : Nat)))
  | .vand d a b m ty => some (⟨[a, b], d, a, b, m⟩, ty, fun _ _ x y => x &&& y)
  | .vor d a b m ty => some (⟨[a, b], d, a, b, m⟩, ty, fun _ _ x y => x ||| y)
  | .vxor d a b m ty => some (⟨[a, b], d, a, b, m⟩, ty, fun _ _ x y => x ^^^ y)
  | .vshl d a b m ty => some (⟨[a, b], d, a, b, m⟩, ty, fun w _ x y => x * 2 ^ (y % w) % 2 ^ w)
  | .vshr d a b m ty => some (⟨[a, b], d, a, b, m⟩, ty, fun w _ x y => x / 2 ^ (y % w))
  | .vsra d a b m ty => some (⟨[a, b], d, a, b, m⟩, ty, fun w _ x y => modOf w (intOf w true x / (2 ^ (y % w) : Nat)))
  | .vimin d a b m ty => some (⟨[a, b], d, a, b, m⟩, ty, fun w sg x y => modOf w (min (intOf w sg x) (intOf w sg y)))
  | .vimax d a b m ty => some (⟨[a, b], d, a, b, m⟩, ty, fun w sg x y => modOf w (max (intOf w sg x) (intOf w sg y)))
  | .viabs d a m ty => some (⟨[a], d, a, a, m⟩, ty, fun w sg x _ => modOf w |intOf w sg x|)
  | _ => none

/-- The float instructions (R171): operands, type, whether flags are kept down, the operation and its latency in exposed
mode (R168). -/
def vectorFloats : Instr → Option (Operands × BitVec 4 × Bool × FOp × Nat)
  | .vadd d a b m nf ty => some (⟨[a, b], d, a, b, m⟩, ty, nf == 1, .add, 4)
  | .vsub d a b m nf ty => some (⟨[a, b], d, a, b, m⟩, ty, nf == 1, .sub, 4)
  | .vmul d a b m nf ty => some (⟨[a, b], d, a, b, m⟩, ty, nf == 1, .mul, 5)
  | .vfma d a b m nf ty => some (⟨[a, b, d], d, a, b, m⟩, ty, nf == 1, .fma, 6)
  | .vfms d a b m nf ty => some (⟨[a, b, d], d, a, b, m⟩, ty, nf == 1, .fms, 6)
  | .vnfma d a b m nf ty => some (⟨[a, b, d], d, a, b, m⟩, ty, nf == 1, .nfma, 6)
  | .vmin d a b m nf ty => some (⟨[a, b], d, a, b, m⟩, ty, nf == 1, .min, 4)
  | .vmax d a b m nf ty => some (⟨[a, b], d, a, b, m⟩, ty, nf == 1, .max, 4)
  | .vdiv d a b m nf ty => some (⟨[a, b], d, a, b, m⟩, ty, nf == 1, .div, 24)
  | .vsqrt d a m nf ty => some (⟨[a], d, a, a, m⟩, ty, nf == 1, .sqrt, 24)
  | .vabs d a m nf ty => some (⟨[a], d, a, a, m⟩, ty, nf == 1, .abs, 4)
  | .vneg d a m nf ty => some (⟨[a], d, a, a, m⟩, ty, nf == 1, .neg, 4)
  | .vrnd d a m nf ty => some (⟨[a], d, a, a, m⟩, ty, nf == 1, .rnd, 4)
  | _ => none

/-- The mask operations (R174), from the task: the mask register written and its value. -/
def maskOperations (t : Task) : Instr → Option (BitVec 3 × Mask)
  | .mopsAnd d a b => some (d.setWidth 3, t.maskReg a &&& t.maskReg b)
  | .mopsOr d a b => some (d.setWidth 3, t.maskReg a ||| t.maskReg b)
  | .mopsXor d a b => some (d.setWidth 3, t.maskReg a ^^^ t.maskReg b)
  | .mopsAndn d a b => some (d.setWidth 3, t.maskReg a &&& ~~~t.maskReg b)
  | .mopsNot d a => some (d.setWidth 3, ~~~t.maskReg a)
  | .mopsFirstn d a => some (d.setWidth 3, maskOf fun i => decide (i < (t.x.get (a.setWidth 4).toFin).toNat))
  | .mopsOnes d => some (d.setWidth 3, BitVec.allOnes 256)
  | _ => none

/-- A move of whole lanes (R179, R180, R192), from the task: the registers that must be granted, those whose active lanes
must be clean, d, the lanes written, the latency, and the lane and poison that each takes. -/
structure LaneMove where
  granted : List (BitVec 6)
  clean : List (BitVec 6)
  d : BitVec 6
  lanes : Mask
  latency : Nat
  source : Nat → Nat × Bool

def laneMoves (t : Task) : Instr → Option LaneMove
  | .vmov d a m _ => some ⟨[d, a], [], d, t.readM m, 4, t.lane a⟩
  | .vsel d a b m _ => some ⟨[d, a, b], [], d, BitVec.allOnes 256, 4,
      fun i => if (t.readM m).getLsbD i then t.lane a i else t.lane b i⟩
  | .vperm d a b m _ => some ⟨[d, a, b], [b], d, t.readM m, 6, fun i => t.lane a ((t.lane b i).1 % 256)⟩
  | .vrot d a k => some ⟨[d, a], [], d, BitVec.allOnes 256, 4, fun i => t.lane a ((i + k.toNat) % 256)⟩
  | .vbcl d a k => some ⟨[d, a], [], d, BitVec.allOnes 256, 4, fun _ => t.lane a k.toNat⟩
  | .vbcx d x => some ⟨[d], [], d, BitVec.allOnes 256, 4, fun _ => ((t.x.get x.toFin).toNat, false)⟩
  | .vflGet d m => some ⟨[d], [], d, t.readM m, 4, fun i => (((t.laneFlags.toList.map BitVec.toNat).getD i 0), false)⟩
  | _ => none

/-- The constant of `vimm` (R181): a float's highest ten bits; a byte's low eight bits; else the number, signed when its
type is. -/
def immediateElement (ty v : Nat) : Nat :=
  if ty ≤ 2 then v * 2 ^ (fmtWidth ty - 10)
  else if fmtWidth ty = 8 then v % 256
  else match intFmt ty with
    | some (w, true) => modOf w (intOf 10 true v)
    | _ => v

/-- The access that a stream load or store makes (R183): the stream, the data register, the adder of the cursor, the
registers that must be granted, those whose active lanes must be clean, and the access. -/
structure StreamUse where
  d : BitVec 6
  q : BitVec 4
  adv : BitVec 2
  granted : List (BitVec 6)
  clean : List (BitVec 6)
  mask : Mask
  access : Access
  /-- it counts the stream's flag word when there is one (R190) -/
  flagged : Bool := false

def streamLoads (t : Task) : Instr → Option StreamUse
  | .vld d q adv m ty => some ⟨d, q, adv, [d], [], t.readM m, accessOf t q m ty, false⟩
  | .vgth d q adv b m ty => some ⟨d, q, adv, [d, b], [b], t.readM m, indexedAccess t q b m ty, false⟩
  | _ => none

def streamStores (t : Task) : Instr → Option StreamUse
  | .vst d q adv m ty => some ⟨d, q, adv, [d], [d], t.readM m, accessOf t q m ty, false⟩
  | .vsct d q adv b m ty => some ⟨d, q, adv, [d, b], [d, b], t.readM m, indexedAccess t q b m ty, false⟩
  | .vrst d q adv m ty => some ⟨d, q, adv, [d], [d], t.readM m, accessOf t q m ty, true⟩
  | _ => none

/-- The stream's cursor after an access (R186): unmoved, on by the elements, or on by the pitch. -/
def cursorAfter (t : Task) (u : StreamUse) : Task :=
  let k := match u.adv.toNat with
    | 0 => 0
    | 1 => u.access.count
    | _ => u.access.q.pitch
  { t with q := t.q.set u.q.toNat { t.q.get u.q.toFin with cursor := (t.q.get u.q.toFin).cursor + BitVec.ofNat 64 k } u.q.isLt }

/-- The device after one posted instruction with several writes has left a core (R111, R185, R187): one part for this
device's storage, one for what goes through ALIAS, one for each other device. -/
def leavesAll (d : Device) (o : Origin) (uid : Nat) (flag : Option FlagRef) (xs : List Dest) : Device :=
  let here := xs.filterMap fun x => match x with | .here w => some w | _ => none
  let blocks := xs.filterMap fun x => match x with | .block w => some w | _ => none
  let devs := (xs.filterMap fun x => match x with | .away dev _ _ _ _ => some dev | _ => none).dedup
  let lone := flag.isSome && here.isEmpty && !devs.isEmpty
  let d := if (here.isEmpty && flag.isNone) || lone then d else sends d d.devid 0 (.store uid o here flag)
  let d := if blocks.isEmpty then d else sends d d.devid 0 (.aliasStore uid o blocks)
  let back := if lone then (flag.filter fun f => f.byte.isSome).map fun f => (o.core, f) else none
  devs.foldl (fun d dev => sends { d with remoteParts := d.remoteParts ++ [{ uid, tid := o.tid, eng := o.eng, here := back, spans := xs.filterMap fun x => match x with
      | .away y a want _ _ => if dev = y then some (a, want.span) else none
      | _ => none }] } dev 0
    (.write uid o (xs.filterMap fun x => match x with
      | .away y a want v i => if dev = y then some (a, want, v, i) else none
      | _ => none) (if lone then flag.map FlagRef.addr else none))) d

end Sys2Proof.Spec
end

