-- ==== Sys2Proof/Spec/Engines.lean ====
section
/-!
DEFINITION. What the rules of 11, 12 and 17 say of the matrix and copy engines, in the terms the statements use.
-/

namespace Sys2Proof.Spec

open Sys2Proof.Machine

/-- The state with another core around the current place. -/
def withCore (s : State) (k : Core) : State := { s with cores := s.cores.set (coreOf s.cur) k }

/-- A matrix instruction may issue as far as loads, tokens and room go (R18, R22, R236). -/
structure MatrixReady (t : Task) (w g : BitVec 3) : Prop where
  loaded : t.loading = false
  alive : t.deadWait .m w = false
  tokens : t.hasTokens .m w = true
  room : t.hasRoom .m g = true

/-- The core once the current slot has asked for the lease: a free lease is taken, else the slot is queued (R27). -/
def leaseAsked (s : State) : Core := s.core.askLease (slotOf s.cur) s.dev.clock

/-- The current slot holds the lease once it has asked, and no `mma` of its task that was saved unfinished stands before the
array's other work (R27, R235). -/
def HasLease (s : State) (t : Task) : Prop := (leaseAsked s).leaseHolder = some (slotOf s.cur) ∧ t.parkedMma = false

/-- The task once a matrix instruction has issued: tokens taken, places reserved, the job queued (R18, R236). -/
def queuedM (t : Task) (pc : Word) (word : BitVec 32) (w g : BitVec 3) (work : MWork) (tile : Option Nat := none)
    (reads : List Nat := []) (flags : BitVec 8 := 0) (slotA : Option Nat := none) : Task :=
  let t := (t.takeTokens .m w).reserveTokens .m g
  { t.goto .m (pc + 4) with
    mjobs := t.mjobs ++ [{ word, pc, gives := g, work, tile, flags, reads, slotA }] }

/-- The task and the device once a holder of the lease is about to lose it: a restored `mma` of the task that stands before the
array's other work takes its turn (R235, R245, R249). -/
def settles (s : State) (t : Task) : Bool := decide (s.core.leaseHolder = some (slotOf s.cur)) && t.parkedMma
def turned (t : Task) (order : Nat) : Task :=
  { t with mjobs := t.mjobs.map fun j => match j.work with
      | .mma m => if m.parked = true then { j with work := .mma { m with order, parked := false } } else j
      | _ => j }
def settledTask (s : State) (t : Task) : Task := if settles s t = true then turned t s.dev.nextUid else t
def settledDev (s : State) (t : Task) : Device := if settles s t = true then named s.dev else s.dev

/-- The state once the holder of a core's lease is about to lose it to a waiting task: the same of its task, unless that is being
saved (R235, R250). -/
def holderSettled (s : State) (c : Fin 256) : State :=
  match (s.cores.get c).leaseHolder with
  | none => s
  | some h => match s.tasks.get (place c h) with
    | none => s
    | some t => if t.parkedMma = true ∧ t.acts s.dev.clock .m = true then
        { s with tasks := s.tasks.set (place c h) (some (turned t s.dev.nextUid)), dev := named s.dev } else s

/-- The core after the counted instruction of the current task has issued (R27, R28, R228). -/
def countedCore (s : State) : Core :=
  (leaseAsked s).rampUp.1.countIssue (s.leasemax.get (coreOf s.cur)).toNat s.dev.clock

/-- The device after it: when the array's ramp starts, the kernel is charged for it (R228, R396). -/
def countedDevice (s : State) (t : Task) (d : Device) : Device :=
  if (leaseAsked s).rampUp.2 then
    let e := BitVec.ofNat 64 (Config.rampEnergy (s.rampcfg.get (coreOf s.cur)).toNat)
    { d with kernels := d.kernels.map fun k => k.map fun x => if x.handle = t.handle then { x with energy := x.energy + e } else x }
  else d

/-- The updates that stand once the current slot has asked for the lease. -/
def askedUpds (s : State) : List Upd := [.core (coreOf s.cur) (leaseAsked s)]

/-- The copies (R289, R296 to R301): kind, source, destination, index stream, tokens, masks and scope. -/
structure CopyForm where
  kind : CopyKind
  qs : BitVec 4
  qd : BitVec 4
  ix : Option (BitVec 4)
  kr : Option (BitVec 3)
  kv : Option (BitVec 3)
  w : BitVec 3
  g : BitVec 3
  sc : BitVec 3

def copies : Instr → Option CopyForm
  | .cp qs qd kr kv w g sc => some ⟨.plain, qs, qd, none, some kr, some kv, w, g, sc⟩
  | .cpConvert qs qd kr kv w g sc => some ⟨.convert, qs, qd, none, some kr, some kv, w, g, sc⟩
  | .cpadd qs qd kr kv w g sc fn => some ⟨.add (fn == 1), qs, qd, none, some kr, some kv, w, g, sc⟩
  | .cpg qs qd kr kv w g sc => if qs = 15 then none else some ⟨.gather, qs, qd, some (qs + 1), some kr, some kv, w, g, sc⟩
  | .cps qs qd kr kv w g sc => if qd = 15 then none else some ⟨.scatter, qs, qd, some (qd + 1), some kr, some kv, w, g, sc⟩
  | .cpz qd kv w g sc fn => some ⟨if fn = 1 then .fill else .zero, qd, qd, none, none, some kv, w, g, sc⟩
  | .cpf qs qd kr kv w g sc => some ⟨.flagged, qs, qd, none, some kr, some kv, w, g, sc⟩
  | .cpre qs qd kr kv w g sc => some ⟨.staged, qs, qd, none, some kr, some kv, w, g, sc⟩
  | _ => none

/-- Whether a copy reads a source stream. -/
def CopyForm.reads (f : CopyForm) : Bool := f.kind != .zero && f.kind != .fill

/-- The streams of a copy as the task holds them: a copy without a source has its destination in the source's place. -/
def CopyForm.src (f : CopyForm) (t : Task) : Stream := t.q.get (if f.reads then f.qs else f.qd).toFin
def CopyForm.dst (f : CopyForm) (t : Task) : Stream := t.q.get f.qd.toFin
def CopyForm.idx (f : CopyForm) (t : Task) : Option Stream := f.ix.map fun n => t.q.get n.toFin

/-- The streams that a copy reads: its source and its index stream (R300). -/
def CopyForm.sources (f : CopyForm) (t : Task) : List Stream := (if f.reads then [f.src t] else []) ++ (f.idx t).toList

/-- A copy may issue (R18, R22, R33, R289, R293): its streams are granted, its tokens and room are there, fewer than eight
copies are unfinished, and every check of its streams at issue passes. -/
structure CopyPasses (s : State) (t : Task) (word : BitVec 32) (f : CopyForm) : Prop where
  granted : ∀ q ∈ (if f.reads then f.qs :: f.qd :: f.ix.toList else [f.qd]), q.toNat < t.grant.streams
  alive : t.deadWait .c f.w = false
  tokens : t.hasTokens .c f.w = true
  room : t.hasRoom .c f.g = true
  few : (t.cjobs.filter CJob.isCopy).length < 8
  countable : t.unack ≠ BitVec.allOnes 32
  source : f.reads = true → checkCopyPath (headCtx s .c t word) (sourcePaths f.kind) (sourceTileOk f.kind) false (f.src t) [] s = .ok ((), [])
  target : checkCopyPath (headCtx s .c t word) (targetPaths f.kind) (targetTileOk f.kind) true (f.dst t) [] s = .ok ((), [])
  formats : checkCopyFormats (headCtx s .c t word) f.kind (f.src t) (f.dst t) [] s = .ok ((), [])
  index : ∀ x, f.idx t = some x → (x.fmt = 10 ∨ x.fmt = 11 ∨ x.fmt = 14) ∧ x.formatOk = true ∧
    checkCopyPath (headCtx s .c t word) [0, 1, 2, 3, 4, 5, 6] true false x [] s = .ok ((), []) ∧
    checkCopyLayout (headCtx s .c t word) x x.width [] s = .ok ((), []) ∧
    checkCopyTile (headCtx s .c t word) x [] s = .ok ((), []) ∧
    checkCopyWidth (headCtx s .c t word) x x.width [] s = .ok ((), [])
  sourceLayout : f.reads = true → checkCopyLayout (headCtx s .c t word) (f.src t) (f.src t).width [] s = .ok ((), []) ∧
    checkCopyTile (headCtx s .c t word) (f.src t) [] s = .ok ((), []) ∧
    checkCopyWidth (headCtx s .c t word) (f.src t) (f.src t).width [] s = .ok ((), [])
  targetLayout : checkCopyLayout (headCtx s .c t word) (f.dst t) (f.dst t).width [] s = .ok ((), []) ∧
    checkCopyTile (headCtx s .c t word) (f.dst t) [] s = .ok ((), []) ∧
    checkCopyWidth (headCtx s .c t word) (f.dst t) (f.dst t).width [] s = .ok ((), [])
  aligned : f.kind = .staged → stagedAligned (f.dst t) (copyLength ((f.idx t).getD (f.src t))) = true
  tiles : awaitCopyTiles (headCtx s .c t word) (f.sources t) (f.dst t) [] s = .ok ((), [])

/-- How many elements a copy moves (R291): as many as its index stream has, or its source, or its destination. -/
def CopyForm.count (f : CopyForm) (t : Task) : Nat := copyLength ((f.idx t).getD (f.src t))

/-- The tiles of a copy: those that it reads, which drain, and its destination's, which fills (R24). -/
def CopyForm.srcTiles (f : CopyForm) (t : Task) : List Nat := ((f.sources t).filterMap fun q => tileHandle q.base).dedup
def CopyForm.dstTile (f : CopyForm) (t : Task) : Option Nat := tileHandle (f.dst t).base

/-- The copy as it starts (R289): no chunk moved, no condition met. -/
def CopyForm.start (f : CopyForm) (s : State) (t : Task) (flag : Option Word) : Copy :=
  { kind := f.kind, qs := f.src t, qd := f.dst t, idx := (f.idx t).getD {}, srcBook := s.core.bookOf (f.src t)
    dstBook := s.core.bookOf (f.dst t), exposed := t.exposed, count := f.count t, next := 0, sc := f.sc, kr := f.kr
    kv := f.kv, uid := s.dev.nextUid, flag, srcTiles := f.srcTiles t, dstTile := f.dstTile t }

/-- The core once a copy has issued: the tiles that it reads drain, its destination tile fills with the stream's span (R24,
R223). -/
def CopyForm.core (f : CopyForm) (s : State) (t : Task) : Core :=
  let k := (f.srcTiles t).foldl (fun k n => k.setTile n fun x => { x with state := 3 }) s.core
  match f.dstTile t with
  | some n => k.setTile n fun _ => { state := 1, span := BitVec.ofNat 3 (f.dst t).span }
  | none => k

/-- The task once a copy-engine instruction has issued (R18, R289). -/
def queuedC (t : Task) (pc : Word) (word : BitVec 32) (w g : BitVec 3) (work : CWork) : Task :=
  let t := (t.takeTokens .c w).reserveTokens .c g
  { t.goto .c (pc + 4) with cjobs := t.cjobs ++ [{ word, pc, gives := g, work }] }

/-- The tokens of a copy are named: each named token's set bit clears and its count rises, once when both are one
(R295). -/
def named2 (t : Task) (kr kv : Option (BitVec 3)) : Task :=
  let name := fun (t : Task) (k : BitVec 3) =>
    { t with k := t.k.set k.toNat { t.k.get k.toFin with set := false, pend := (t.k.get k.toFin).pend + 1 } k.isLt }
  match kr, kv with
  | none, none => t
  | some k, none => name t k
  | none, some k => name t k
  | some k, some l => if k = l then name t k else name (name t k) l

/-- A copy-engine instruction may issue as far as tokens and room go (R18, R22, R289). -/
structure CopyReady (t : Task) (w g : BitVec 3) : Prop where
  alive : t.deadWait .c w = false
  tokens : t.hasTokens .c w = true
  room : t.hasRoom .c g = true

/-- Tokens whose conditions hold at once are named and met, each once (R295, R303). -/
def metAtOnce (t : Task) (ks : List (BitVec 3)) : Task :=
  ks.dedup.foldl (fun t k => (t.nameToken k).meetToken k false) t

/-- What a record load of the matrix engine reads, once every check of R246 passes: `n` qwords. -/
structure LoadsRecord (s : State) (t : Task) (w : BitVec 32) (q : Stream) (n v : Nat) : Prop where
  path : (tileHandle q.base).isNone = true ∧ (pathOf q.base = 0 ∨ pathOf q.base = 5 ∨ pathOf q.base = 2 ∨ pathOf q.base = 3)
  names : basePathOk s.dev q.base = true
  aligned : q.base.toNat % (8 * n) = 0
  long : 8 * n ≤ q.extent.toNat
  read : readRun (headCtx s .m t w) q.base n [] s = .ok (v, [])

/-- What a record of the copy engine reads (R303): `n` qwords at a GEN address aligned to 64 bytes. -/
structure ReadsRecord (s : State) (t : Task) (w : BitVec 32) (base : Word) (n v : Nat) : Prop where
  path : pathOf base = 0 ∧ (tileHandle base).isNone = true
  aligned : base.toNat % 64 = 0
  ordered : awaitCopies (headCtx s .c t w) [⟨formOf base, posOf base, posOf base + 8 * n⟩] [] [] s = .ok ((), [])
  read : readRun (headCtx s .c t w) base n [] s = .ok (v, [])

/-- An accumulator element of the current task's tile (R230), as memory holds it. -/
def accElem (s : State) (m : List Host.Cell) (t : Task) (a : BitVec 4) (i j : Nat) : Nat :=
  readBits m (accBit (coreOf s.cur) t a i j) 32

/-- Memory `m'` differs from `m` at most in one accumulator tile of the task at a place's core (R230). -/
def onlyTile (core : Fin 256) (t : Task) (a : BitVec 4) (m m' : List Host.Cell) : Prop :=
  ∀ x, (x < accByte core (t.grant.accTiles.getD a.toNat 0) 0 ∨ accByte core (t.grant.accTiles.getD a.toNat 0) 0 + 65536 ≤ x) →
    Mem.read m' x = Mem.read m x

/-- The next counted instruction of the current task may take effect at issue: its tokens, its lease and its turn are
there (R27, R232, R235, R236). -/
structure CountedReady (s : State) (t : Task) (w g : BitVec 3) : Prop extends MatrixReady t w g where
  lease : HasLease s t
  turn : arrayOrders (withCore s (leaseAsked s)) (coreOf s.cur) = []

/-- The invalidations of R149, and what each covers. -/
def invalidates (t : Task) : Instr → Option InvalKind
  | .tlbiAll => some .all
  | .tlbiTenant a => if t.badS a || decide (64 ≤ (t.readS a).toNat) then none else some (.tenant (BitVec.ofNat 6 (t.readS a).toNat))
  | .tlbiPositionPage a => if t.badS a then none else some (.page ((t.readS a).toNat % 2 ^ 57))
  | .tlbiPlaneFrame a => if t.badS a then none else
      some (.plane ((t.readS a).toNat % 2 ^ 57) (BitVec.ofNat 4 ((t.readS a).toNat / 2 ^ 57)))
  | _ => none

/-- The instructions that start an invalidation and wait for it (R148, R149). -/
def waitsForCores : Instr → Bool
  | .tlbiAll => true
  | .tlbiTenant _ => true
  | .tlbiPositionPage _ => true
  | .tlbiPlaneFrame _ => true
  | .seal _ _ => true
  | .unseal _ _ => true
  | _ => false

/-- Every core's monitors woken (R276). -/
def allWoken (ks : Vector Core 256) : Vector Core 256 :=
  ks.map fun k => { k with monitors := k.monitors.map fun m => { m with woken := true } }

end Sys2Proof.Spec
end

