-- ==== Sys2Proof/Spec/Events.lean ====
section
/-!
DEFINITION. What the statements say of the steps that no engine issues, in the terms they share: messages taken from
`rx` and sent, writes at storage, tasks that change wherever they are.
-/

namespace Sys2Proof.Spec

open Sys2Proof.Machine

/-- A barrier serves the n-th waiting message next: its clock is over, and every other request to the barrier comes later,
in a later clock or, in the same one, behind it in the order of R271. -/
def barComes (d : Device) (n : Nat) (b : BarRef) (op : BarOp) (x : BarTime) (src : BitVec 8) : Prop :=
  x.clock < d.clock ∧ ∀ m q op' tid' back' tenant' level' y, d.rx[m]? = some q → m ≠ n →
    q.body = .barrier b op' tid' back' tenant' level' y →
    x.clock < y.clock ∨ (x.clock = y.clock ∧ (barKey op x src < barKey op' y q.src ∨ (barKey op x src = barKey op' y q.src ∧ n < m)))

/-- A handler engine serves the n-th waiting message next, an atomic on a byte: it has reached the engine, the clock of that is
over, and every other that has reached the engine comes later, in a later clock or, in the same one, behind it by port and
core (R280). -/
def atomComes (d : Device) (n : Nat) (p : Packet) (o : Origin) (byte : Nat) : Prop :=
  ∃ c, p.reached = some c ∧ c < d.clock ∧ ∀ m q uid o' byte' slot h4 h5 posted granted a c', d.rx[m]? = some q → m ≠ n →
    q.body = .atomic uid o' byte' slot h4 h5 posted granted a → q.reached = some c' → handlerEngine d byte' = handlerEngine d byte →
    c < c' ∨ (c = c' ∧ (atomKey d o byte < atomKey d o' byte' ∨ (atomKey d o byte = atomKey d o' byte' ∧ n < m)))

/-- Lane i, of `w` bits, of a word (R282). -/
def laneAt (w : Nat) (x : Word) (i : Nat) : Nat := x.toNat / 2 ^ (i * w) % 2 ^ w

/-- The state with another device, and nothing else changed. -/
def onDev (s : State) (d : Device) : State := { s with dev := d }

/-- Every core's monitors on the 64-byte blocks of some bytes woken (R275, R276). -/
def wokenIn (ks : Vector Core 256) (lo n : Nat) : Vector Core 256 :=
  ks.map fun k => { k with monitors := k.monitors.map fun m =>
    if lo / 64 ≤ m.block ∧ m.block ≤ (lo + n - 1) / 64 then { m with woken := true } else m }

/-- The state with another task in a place, and nothing else changed. -/
def onTask (s : State) (l : Fin 1024) (t : Task) : State := { s with tasks := s.tasks.set l (some t) }

/-- The state with another core, and nothing else changed. -/
def onCore (s : State) (c : Fin 256) (k : Core) : State := { s with cores := s.cores.set c k }

/-- The device once its n-th waiting message has been taken. -/
def takenOut (d : Device) (n : Nat) : Device := d.taken n

/-- Of channel 5 no earlier message of the same sender waits, but for a barrier, which has an order of its own (R271, R312). -/
def inOrder (d : Device) (n : Nat) (p : Packet) : Prop :=
  p.vc = 5 → ∀ q ∈ d.rx.take n, q.vc = 5 → q.src = p.src → q.body.toBarrier = true

/-- Memory after writes of bits, in their order; a write to a frame that migrates goes where R103 says. -/
def writtenAt (ms : List Migration) (m : List Host.Cell) (ws : List Wr) : List Host.Cell :=
  (ws.flatMap fun w => (writePlaces ms w.bit).map fun b => (b, w)).foldl (fun m x => Mem.writeBits m x.1 x.2.width x.2.value) m

/-- Two memories read alike. -/
def sameMem (a b : List Host.Cell) : Prop := ∀ x, Mem.read a x = Mem.read b x

/-- An event completes that changes memory, monitors and poison, no task, and of the device no more than `d` says.  Poison
is at most taken away. -/
def Serves (i : Instr) (s : State) (m : List Host.Cell) (d : Device) : Prop :=
  Completes (exec i s) fun s' =>
    s'.tasks = s.tasks ∧ sameMem s'.mem m ∧ s'.dev = { d with poison := s'.dev.poison } ∧ ∀ u ∈ s'.dev.poison, u ∈ s.dev.poison

/-- The note that a refused access carries back (R376). -/
def noteOf (o : Origin) (k : Cause) (a : Word) (i : BitVec 16) : RefusalNote :=
  { eng := o.eng, pc := o.pc, word := o.word, index := i, addr := a, cause := k }

/-- The copy in a job of the copy engine. -/
def copyOf (j : CJob) : Option Copy :=
  match j.work with
  | .copy x => some x
  | _ => none

/-- A task that no saved or running task shares its identifier with stands in a place. -/
def standsAt (s : State) (l : Fin 1024) (t : Task) : Prop :=
  s.tasks.get l = some t ∧ ∀ l' t', s.tasks.get l' = some t' → t'.tid = t.tid → l' = l

/-- A kernel stands in an entry of the scoreboards. -/
def kernelIn (s : State) (e : Fin 256) (k : Kernel) : Prop := s.dev.kernels.get e = some k

/-- The device with an entry of the scoreboards changed. -/
def putEntry (d : Device) (e : Fin 256) (k : Option Kernel) : Device := { d with kernels := d.kernels.set e k }

/-- The device once the kernel of an entry has changed (R350, R351): the entry is freed when the kernel and every shadow are
done; a shadow reports to the launching device; of a kernel launched here a failure is remembered, and the devices that have
asked are told. -/
def settled (d : Device) (e : Fin 256) (k : Kernel) : Device :=
  if k.state ≠ .done ∨ k.shadowsOut ≠ 0 then putEntry d e (some k)
  else if k.shadow = true then sends (putEntry d e none) (BitVec.ofNat 8 (k.handle.toNat % 256)) 5 (.shadowDone k.handle k.failed)
  else
    let d₁ := { putEntry d e none with
      failed := if k.failed then d.failed ++ [k.handle] else d.failed
      depAsked := d.depAsked.filter fun x => x.1 ≠ k.handle }
    (d.depAsked.filter fun x => x.1 = k.handle).foldl (fun d x => sends d x.2 5 (.depAnswer k.handle k.failed)) d₁

/-- Whether the kernel of a handle is over as far as this device knows, and whether it failed (R351): of one launched here by
its entry, of another by what its device has answered. -/
def overHere (d : Device) (h : Word) : Option Bool :=
  if h.toNat % 256 = d.devid.toNat then
    if d.kernels.toList.any fun x => match x with | some k => !k.shadow && k.handle == h | none => false then none
    else some (d.failed.contains h)
  else (d.depAnswers.find? fun x => x.1 == h).map fun x => x.2

/-- The device with an item more at the tail of a queue (R353). -/
def enters (d : Device) (p : BitVec 2) (q : QItem) : Device :=
  { d with queues := d.queues.set p.toNat (d.queues.get p.toFin ++ [q]) p.isLt }

/-- A core once it has made an invalidation (R99, R106, R149): the translations it covers are gone, and with those of a tenant
its instruction lines and what it holds of sealed data. -/
def dropped (k : Core) : InvalKind → Core
  | .all => { k with posTlb := [], frames := [], code := [], lines := k.lines.filter fun l => l.pathPlane.toNat / 16 ≠ 6 }
  | .tenant t => { k with
      posTlb := k.posTlb.filter (·.tenant ≠ t), frames := k.frames.filter (·.tenant ≠ t), code := k.code.filter (·.tenant ≠ t)
      lines := k.lines.filter fun l => ¬ (l.tenant = t ∧ l.pathPlane.toNat / 16 = 6) }
  | .page pos => { k with posTlb := k.posTlb.filter fun e => e.page ≠ pos / (if e.large then 2 ^ 26 else 2 ^ 16) }
  | .plane pos p => { k with frames := k.frames.filter fun e => ¬ (e.page = pos / (if e.large then 2 ^ 26 else 2 ^ 16) ∧ e.plane = p) }

/-- The device once a management queue has had one more record served (R397): an arrival of that queue that was noted is no
longer. -/
def served (d : Device) (src : MgmtSource) : Device :=
  let d := { d with arrivals := d.arrivals.erase src }
  match src with
  | .host => { d with servedHost := d.servedHost + 1 }
  | .supervisor => { d with servedSuper := d.servedSuper + 1 }

/-- The device once memory has become another: the queues whose counts have thereby gone up by one have a record more, in the
order in which they did (R397). -/
def arrived (d : Device) (before after : List Host.Cell) : Device := { d with arrivals := d.arrivals ++ postedIn d before after }

/-- The writes of a command's answer (R397): result words, then the status. -/
def answerAt (r status : Nat) (word : Word) : List Wr :=
  [{ bit := 8 * (r + 8), width := 64, value := word.toNat, addr := 0 }, { bit := 8 * (r + 16), width := 64, value := 0, addr := 0 },
   { bit := 8 * (r + 4), width := 32, value := status, addr := 0 }]

/-- The instructions that a core has issued since the last count, for the kernels named, by tasks that have left it and that are
on it (R396). -/
def workAt (s : State) (c : Fin 256) (mine : Word → Bool) : Nat :=
  (((s.cores.get c).worked.filter fun x => mine x.1).map Prod.snd).sum +
  ((((List.finRange 4).filterMap fun k => s.tasks.get (place c k)).filter fun t => mine t.handle).map Task.work).sum

/-- What an interval charges to a kernel in an entry: of each core's energy its part by the instructions issued, and what its bytes
used (R396; log 107). -/
def chargeOf (s : State) (charges : List Nat) (e : Nat) (handle : Word) : Nat :=
  charges.getD (256 + e) 0 + ((List.finRange 256).map fun c =>
    charges.getD c.val 0 * workAt s c (· == handle) / max 1 (workAt s c fun _ => true)).sum

/-- The device after the same message has left for each of a list of devices. -/
def tells (d : Device) (ms : List (BitVec 8)) (vc : BitVec 3) (b : Body) : Device := ms.foldl (fun d m => sends d m vc b) d

/-- The device of a coordinator once a gathering is over: with fewer than 256 left, the posts that found the hub full are
asked for again (R336). -/
def roomed (d : Device) : Device :=
  if d.gathers.length < 256 then d.postWait.foldl (fun d x => sends d x.1 5 (.postAgain x.2)) { d with postWait := [] } else d

/-- The device with an entry of the posted-collective table changed. -/
def putColl (d : Device) (i : Fin 64) (e : Option CEntry) : Device := { d with coll := d.coll.set i e }

/-- An entry of the posted-collective table, the only one with its name (R333, R334). -/
def collIn (s : State) (i : Fin 64) (e : CEntry) : Prop :=
  s.dev.coll.get i = some e ∧ ∀ j x, s.dev.coll.get j = some x → x.name = e.name → j = i

/-- No entry has a name. -/
def noEntry (s : State) (name : CName) : Prop := ∀ i x, s.dev.coll.get i = some x → x.name ≠ name

/-- The device after an entry has changed: a member that has sent everything, with all of it acknowledged, and that has all
it expects reports local complete to the coordinator, once (R343, R345). -/
def progressed (d : Device) (i : Fin 64) (e : CEntry) : Device :=
  let n := e.info.iterations
  if e.state = .running ∧ e.reported = false ∧ e.next = n ∧ e.acked = n ∧
      e.arrived.length = e.info.arrivals e.info.rank * e.info.chunks then
    sends (putColl d i (some { e with reported := true })) e.info.coordinator 5 (.localDone e.name d.devid)
  else putColl d i (some e)

/-- The device after the chunks of an iteration have left for a peer (R339, R342). -/
def sendsChunks (d : Device) (e : CEntry) (peer : BitVec 8) (tile : BitVec 4) (dest : Word) (elems : List Nat) : Device :=
  (List.range e.info.chunks).foldl (fun d i => sends d peer 2 (.collChunk e.name e.info.rank e.next i d.devid tile dest e.info.fmt
    (i * e.info.perChunk) ((elems.drop (i * e.info.perChunk)).take e.info.perChunk) e.level)) d

/-- What an entry becomes when its collective is over: freed when its task is no more (R335). -/
def overNow (s : State) (e : CEntry) (x : CState) : Option CEntry :=
  if knownTask s e.tid = none then none else some { e with state := x }

/-- A message stands among those that wait, have left or are held for want of a way. -/
def sent (s : State) (dst : BitVec 8) (vc : BitVec 3) (b : Body) : Prop :=
  ∃ p ∈ s.dev.rx ++ s.dev.netOut ++ s.dev.netHeld, p.src = s.dev.devid ∧ p.dst = dst ∧ p.vc = vc ∧ p.body = b

/-- The token of a copy-engine instruction once one condition that it names has come to hold (R18, R295). -/
def tokenMet (x : KTok) (err : Bool) : KTok :=
  { x with set := x.set || decide (x.pend ≤ 1), pend := x.pend - 1, err := x.err || err }

/-- The device with a port changed. -/
def putPort (d : Device) (n : Fin 30) (p : Port) : Device := { d with ports := d.ports.set n p }

/-- A management command that changes the device alone: its queue, opcode and tenant, when it may be served, when it is done,
what the device becomes and the word it returns. -/
structure Command where
  src : MgmtSource
  opcode : Nat
  tenant : Option (BitVec 6) := none
  may : Device → Prop := fun _ => True
  ok : Device → Prop := fun _ => True
  change : Device → Device := id
  word : Device → Word := fun _ => 0

/-- The device once no port is up whose peer lies outside the domain (R309): each of those goes down as a link does, in the
order of their numbers. -/
def outside (d : Device) : Device :=
  (List.finRange 30).foldl (fun d n =>
    if (d.ports.get n).up = true ∧ inDomain d (peerOf d.devid n.val).toNat = false then d.cut n false 0 else d) d

/-- The commands of R397 that change the device alone. -/
def commands : Instr → Option Command
  | .tenant src t q0 q1 q2 q3 => some { src, opcode := 1, tenant := some t, ok := fun _ => src = .supervisor, change := fun d => { d with tenants := d.tenants.set t.toFin #v[q0, q1, q2, q3] } }
  | .window src target t index q0 q1 => some { src, opcode := 2, tenant := some t, may := fun d => grantsOut d = false, ok := fun _ => src = .supervisor ∧ targetThere target = true, change := fun d => { d with windows := (target, t, index, q0, q1) :: d.windows.filter fun w => !(w.1 == target && w.2.1 == t && w.2.2.1 == index) } }
  | .monitors src count => some { src, opcode := 4, ok := fun _ => count ≤ 28, change := fun d => { d with monitorsKept := count } }
  | .slot src t slot => some { src, opcode := 5, tenant := some t, ok := fun d => 24 ≤ slot.toNat ∧ (tenantSlot d slot.toNat).owner = some t, change := fun d => { d with handlers := .ofFn fun i => if i.val + 24 = slot.toNat then {} else d.handlers.get i } }
  | .portStatus src port => some { src, opcode := 6, ok := fun _ => port < 30, word := fun d => if h : port < 30 then portStatus d ⟨port, h⟩ else 0 }
  | .portBringUp src port => some { src, opcode := 6, ok := fun d => port < 30 ∧ inDomain d (peerOf d.devid port).toNat = true, change := fun d => if h : port < 30 then { d with ports := d.ports.set port (d.ports.get ⟨port, h⟩).bringUp h }.release else d }
  | .watchdogLimit src limit => some { src, opcode := 7, ok := fun _ => limit = 0 ∨ (2 ^ 20 ≤ limit ∧ limit ≤ 2 ^ 40), change := fun d => { d with watchdog := limit } }
  | .errors src counter => some { src, opcode := 8, change := fun d => { d with errors := d.errors.filter fun e => e.1 != counter }, word := fun d => BitVec.ofNat 64 (((d.errors.find? fun e => e.1 == counter).map fun e => e.2.toNat).getD 0) }
  | .power src watts => some { src, opcode := 9, ok := fun _ => 900 ≤ watts ∧ watts ≤ 1800, change := fun d => { d with powerLimit := watts } }
  | .attest src nonce => some { src, opcode := 10, change := fun d => { d with reports := d.reports ++ [(attestReport d nonce, Config.identitySign d.measurement (attestReport d nonce), Config.certificates d.measurement)] } }
  | .fuse src => some { src, opcode := 11, change := fun d => { d with fused := BitVec.ofNat 32 (max d.fused.toNat d.version.toNat) } }
  | .domain src rows cols domid sequencer barrierHub => some { src, opcode := 12, ok := fun d => d.launched = false ∧ 1 ≤ rows ∧ rows ≤ 16 ∧ 1 ≤ cols ∧ cols ≤ 16, change := fun d => outside { d with rows, cols, domid, sequencer, barrierHub } }
  | .barrier src level unit number owner swap => if level = 4 then some { src, opcode := 3, tenant := owner, ok := fun _ => unit = 0 ∧ number < 32, change := fun d => if h : number < 32 then { d with devBarriers := d.devBarriers.set number { d.devBarriers.get ⟨number, h⟩ with owner, swap } h } else d } else none
  | _ => none

/-- The host's registers (R388): what a write of one makes of the device; none where it takes no write now. -/
def hostWrite (d : Device) (v : Word) : Nat → Option Device
  | 0x008 => if d.boot = .reset ∨ d.boot = .ready then some { d with fwLocation := v } else none
  | 0x010 => if d.boot = .reset ∨ d.boot = .ready then some { d with fwLength := v } else none
  | 0x018 => some (if v = 1 ∧ d.lpddrReady = true ∧ d.boot = .ready then { d with boot := .verifying } else d)
  | 0x020 => if d.boot = .reset ∨ d.boot = .ready then some { d with hostQueue := v } else none
  | _ => none

end Sys2Proof.Spec
end

