-- ==== Sys2Proof/Spec/Scalar.lean ====
section
/-!
DEFINITION. What the rules of 06 say of the scalar instructions, as tables that the statements use: for each instruction
its registers and its function, in exact arithmetic on numbers rather than in the machine's terms.
-/

namespace Sys2Proof.Spec

open Sys2Proof.Machine

/-- 1 for a condition that holds, else 0. -/
def one (b : Bool) : Word := if b then BitVec.ofNat 64 1 else BitVec.ofNat 64 0

/-- The quotient of R113 and R114, signed or not. -/
def quotient (sg : Bool) (x y : Word) : Word :=
  if y.toNat = 0 then BitVec.ofNat 64 (2 ^ 64 - 1)
  else if sg then BitVec.ofInt 64 (x.toInt.tdiv y.toInt) else BitVec.ofNat 64 (x.toNat / y.toNat)

/-- The remainder of R113 and R114, `a - b * quotient`. -/
def remainder (sg : Bool) (x y : Word) : Word :=
  if y.toNat = 0 then x
  else if sg then BitVec.ofInt 64 (x.toInt - y.toInt * x.toInt.tdiv y.toInt)
  else BitVec.ofNat 64 (x.toNat - y.toNat * (x.toNat / y.toNat))

/-- The first of the bits 0 to 63 numbered by `f` that is set; 64 when none is. -/
def firstSet (x : Word) (f : Nat → Nat) : Word :=
  BitVec.ofNat 64 (((List.range 64).find? fun i => x.getLsbD (f i)).getD 64)

/-- How many bits are set. -/
def setBits (x : Word) : Word := BitVec.ofNat 64 ((List.range 64).filter fun i => x.getLsbD i).length

/-- An address with `v` for its bits [60:57] (R113, R115). -/
def putPlane (x : Word) (v : Nat) : Word := BitVec.ofNat 64 (x.toNat % 2 ^ 57 + v * 2 ^ 57 + x.toNat / 2 ^ 61 * 2 ^ 61)

/-- An address with `v` for its bits [63:61] (R113). -/
def putPath (x : Word) (v : Nat) : Word := BitVec.ofNat 64 (x.toNat % 2 ^ 61 + v * 2 ^ 61)

/-- The instructions of OP 1 that take two registers (R113): d, a, b and what d becomes. -/
def twoSource : Instr → Option (BitVec 6 × BitVec 6 × BitVec 6 × (Word → Word → Word))
  | .add d a b => some (d, a, b, fun x y => BitVec.ofNat 64 (x.toNat + y.toNat))
  | .sub d a b => some (d, a, b, fun x y => BitVec.ofInt 64 ((x.toNat : Int) - y.toNat))
  | .and d a b => some (d, a, b, fun x y => x &&& y)
  | .or d a b => some (d, a, b, fun x y => x ||| y)
  | .xor d a b => some (d, a, b, fun x y => x ^^^ y)
  | .andn d a b => some (d, a, b, fun x y => x &&& ~~~y)
  | .orn d a b => some (d, a, b, fun x y => x ||| ~~~y)
  | .shl d a b => some (d, a, b, fun x y => BitVec.ofNat 64 (x.toNat * 2 ^ (y.toNat % 64)))
  | .shr d a b => some (d, a, b, fun x y => BitVec.ofNat 64 (x.toNat / 2 ^ (y.toNat % 64)))
  | .sra d a b => some (d, a, b, fun x y => BitVec.ofInt 64 (x.toInt / 2 ^ (y.toNat % 64)))
  | .slt d a b => some (d, a, b, fun x y => one (decide (x.toInt < y.toInt)))
  | .sltn d a b => some (d, a, b, fun x y => one (decide (x.toNat < y.toNat)))
  | .seq d a b => some (d, a, b, fun x y => one (decide (x.toNat = y.toNat)))
  | .sne d a b => some (d, a, b, fun x y => one (decide (x.toNat ≠ y.toNat)))
  | .min d a b => some (d, a, b, fun x y => BitVec.ofInt 64 (min x.toInt y.toInt))
  | .max d a b => some (d, a, b, fun x y => BitVec.ofInt 64 (max x.toInt y.toInt))
  | .minn d a b => some (d, a, b, fun x y => BitVec.ofNat 64 (min x.toNat y.toNat))
  | .maxn d a b => some (d, a, b, fun x y => BitVec.ofNat 64 (max x.toNat y.toNat))
  | .mul d a b => some (d, a, b, fun x y => BitVec.ofNat 64 (x.toNat * y.toNat))
  | .mulh d a b => some (d, a, b, fun x y => BitVec.ofInt 64 (x.toInt * y.toInt / 2 ^ 64))
  | .mulhn d a b => some (d, a, b, fun x y => BitVec.ofNat 64 (x.toNat * y.toNat / 2 ^ 64))
  | .div d a b => some (d, a, b, quotient true)
  | .divn d a b => some (d, a, b, quotient false)
  | .rem d a b => some (d, a, b, remainder true)
  | .remn d a b => some (d, a, b, remainder false)
  | .planeOf d a b => some (d, a, b, fun x y => putPlane x (y.toNat % 16))
  | .pathOf d a b => some (d, a, b, fun x y => putPath x (y.toNat % 8))
  | _ => none

/-- The instructions that make d from one register and the program counter (R113, R115, R117): d, the register read, and
what d becomes from the counter and the register.  A constant form reads none, written as s0. -/
def oneSource : Instr → Option (BitVec 6 × BitVec 6 × (Word → Word → Word))
  | .clz d a => some (d, a, fun _ x => firstSet x fun i => 63 - i)
  | .ctz d a => some (d, a, fun _ x => firstSet x fun i => i)
  | .pop d a => some (d, a, fun _ x => setBits x)
  | .addi d a k => some (d, a, fun _ x => BitVec.ofInt 64 (x.toInt + k.toInt))
  | .andi d a k => some (d, a, fun _ x => x &&& BitVec.ofInt 64 k.toInt)
  | .ori d a k => some (d, a, fun _ x => x ||| BitVec.ofInt 64 k.toInt)
  | .xori d a k => some (d, a, fun _ x => x ^^^ BitVec.ofInt 64 k.toInt)
  | .shli d a k => some (d, a, fun _ x => BitVec.ofNat 64 (x.toNat * 2 ^ k.toNat))
  | .shri d a k => some (d, a, fun _ x => BitVec.ofNat 64 (x.toNat / 2 ^ k.toNat))
  | .srai d a k => some (d, a, fun _ x => BitVec.ofInt 64 (x.toInt / 2 ^ k.toNat))
  | .slti d a k => some (d, a, fun _ x => one (decide (x.toInt < k.toInt)))
  | .sltni d a k => some (d, a, fun _ x => one (decide (x.toNat < (BitVec.ofInt 64 k.toInt).toNat)))
  | .planei d a k => some (d, a, fun _ x => putPlane x k.toNat)
  | .hi d k => some (d, 0, fun _ _ => BitVec.ofInt 64 (k.toInt * 2 ^ 12))
  | .top d k => some (d, d, fun _ x => BitVec.ofNat 64 (x.toNat % 2 ^ 44 + k.toNat * 2 ^ 44))
  | .pcrel d k => some (d, 0, fun pc _ => BitVec.ofInt 64 (pc.toInt + k.toInt * 4))
  | _ => none

/-- The position adds (R116): d, a, and the number added, from the task's registers. -/
def positionAdds (t : Task) : Instr → Option (BitVec 6 × BitVec 6 × Int)
  | .padd d a b => if t.badS b then none else some (d, a, (t.readS b).toInt)
  | .paddi d a k => some (d, a, k.toInt)
  | _ => none

/-- The width of the field that a position add works in (R116). -/
def addField (a : Word) : Nat := if a.toNat / 2 ^ 61 = 2 ∨ a.toNat / 2 ^ 61 = 5 then 49 else 57

/-- The branches (R118): a, b, the offset and the condition. -/
def branches : Instr → Option (BitVec 6 × BitVec 6 × BitVec 14 × (Word → Word → Bool))
  | .beq a b off => some (a, b, off, fun x y => decide (x.toNat = y.toNat))
  | .bne a b off => some (a, b, off, fun x y => decide (x.toNat ≠ y.toNat))
  | .blt a b off => some (a, b, off, fun x y => decide (x.toInt < y.toInt))
  | .bge a b off => some (a, b, off, fun x y => decide (y.toInt ≤ x.toInt))
  | .bltn a b off => some (a, b, off, fun x y => decide (x.toNat < y.toNat))
  | .bgen a b off => some (a, b, off, fun x y => decide (y.toNat ≤ x.toNat))
  | _ => none

/-- An address `k` words on from another (R118, R119). -/
def wordsOn (pc : Word) (k : Int) : Word := BitVec.ofInt 64 (pc.toInt + k * 4)

/-- The fields of a stream that are set from a register (R138, R214): the stream, the register, how many low bits of the
value may be set, and the stream that results. -/
def streamFields : Instr → Option (BitVec 4 × BitVec 6 × Nat × (Stream → Word → Stream))
  | .stLay q a => some (q, a, 52, fun x v => { x with layout := v })
  | .stFmt q a => some (q, a, 19, fun x v => { x with format := BitVec.ofNat 32 v.toNat })
  | .stScl q a => some (q, a, 16, fun x v => { x with tscale := BitVec.ofNat 16 v.toNat })
  | .stFlag q a => some (q, a, 64, fun x v => { x with flag := v })
  | .stPos q a => some (q, a, 64, fun x v => { x with cursor := v })
  | .stFill q a => some (q, a, 64, fun x v => { x with fill := v })
  | _ => none

/-- The task with stream q replaced. -/
def withStream (t : Task) (q : BitVec 4) (x : Stream) : Task := { t with q := t.q.set q.toNat x q.isLt }

/-- What a system register reads as (R142, R395). -/
def systemRegister (s : State) (t : Task) (n : Nat) : Word :=
  let k := s.core
  match n with
  | 0x000 => t.taskid
  | 0x001 => BitVec.ofNat 64 (s.cur.val % 4)
  | 0x002 => BitVec.ofNat 64 (s.cur.val / 4)
  | 0x003 => BitVec.ofNat 64 (s.cur.val / 16)
  | 0x004 => BitVec.ofNat 64 (s.cur.val / 256)
  | 0x005 => BitVec.ofNat 64 s.dev.devid.toNat
  | 0x006 => BitVec.ofNat 64 s.dev.domid.toNat
  | 0x010 => s.dev.cycle
  | 0x020 => ((kernelOf s.dev t.handle).map Kernel.energy).getD 0
  | 0x021 => s.dev.energy
  | 0x030 => BitVec.ofNat 64 k.throttle.toNat
  | 0x031 => ((kernelOf s.dev t.handle).map Kernel.throttled).getD 0
  | 0x032 => BitVec.ofNat 64 (s.rampcfg.get (coreOf s.cur)).toNat
  | 0x040 => t.trapcause
  | 0x041 => t.trappc
  | 0x042 => t.trapword
  | 0x043 => t.trapaddr
  | 0x044 => t.trapvec
  | 0x050 => k.frame
  | 0x051 => BitVec.ofNat 64 t.vctl.toNat
  | 0x052 => BitVec.ofNat 64 (s.leasemax.get (coreOf s.cur)).toNat
  | 0x053 => BitVec.ofNat 64 ((if t.phaseEnd then 1 else 0) + (if t.posted then 2 else 0) + t.unack.toNat * 2 ^ 32)
  | 0x054 => BitVec.ofNat 64 t.tflags.toNat
  | 0x055 => k.resume.get (slotOf s.cur)
  | _ => 0

/-- The system registers that a user task may not read, and those that it may write (R142). -/
def supervisorReads : List Nat := [0x050, 0x055]
def userMayWrite : List Nat := [0x044, 0x051, 0x054]

/-- What a write of a system register that belongs to the task makes of the task (R142): TRAPCAUSE keeps bits [10:0],
TRAPWORD [47:0], VCTL [1:0], TFLAGS [7:0]. -/
def writeTaskRegister (t : Task) (v : Word) : Nat → Option Task
  | 0x040 => some { t with trapcause := BitVec.ofNat 64 (v.toNat % 2 ^ 11) }
  | 0x041 => some { t with trappc := v }
  | 0x042 => some { t with trapword := BitVec.ofNat 64 (v.toNat % 2 ^ 48) }
  | 0x043 => some { t with trapaddr := v }
  | 0x044 => some { t with trapvec := v }
  | 0x051 => some { t with vctl := BitVec.ofNat 2 v.toNat }
  | 0x054 => some { t with tflags := BitVec.ofNat 8 v.toNat }
  | _ => none

/-- The system registers that ignore writes (R142): every one that neither a task nor the supervisor writes. -/
def readOnlyRegisters : List Nat :=
  [0x000, 0x001, 0x002, 0x003, 0x004, 0x005, 0x006, 0x010, 0x020, 0x021, 0x030, 0x031, 0x053]

/-- The instructions that need supervisor level (R70, R142), of the engines S and C. -/
def supervisorOnly : Instr → Option Engine
  | .eret => some .s
  | .seal _ _ => some .s
  | .unseal _ _ => some .s
  | .tlbiAll => some .s
  | .tlbiTenant _ => some .s
  | .tlbiPositionPage _ => some .s
  | .tlbiPlaneFrame _ => some .s
  | .sget _ n => if supervisorReads.contains n.toNat then some .s else none
  | .sset _ n => if userMayWrite.contains n.toNat then none else some .s
  | .cmig _ _ _ _ _ _ => some .c
  | .ckey _ _ _ _ _ _ => some .c
  | _ => none

end Sys2Proof.Spec
end

