-- ==== Sys2Proof/Certificates/Slice0/Obligations.lean ====
section
/-!
DEFINITION. The statements for the provers.
-/

open Sys2Proof Sys2Proof.Machine Sys2Proof.Spec

/-- R113, R114: the two-source instructions of the scalar engine. -/
def Obligations.TwoSourceArithmetic : Prop :=
  ∀ (i : Instr) (d a b : BitVec 6) (f : Word → Word → Word) (s : State) (t : Task),
    twoSource i = some (d, a, b, f) → s.Issues .s t → t.badS a = false → t.badS b = false →
    exec i s = .next (s.withTask ((t.writeS d (f (t.readS a) (t.readS b))).goto .s (t.pcS + 4)))

/-- R113, R115, R117: the one-source instructions and the constants of the scalar engine. -/
def Obligations.OneSourceArithmetic : Prop :=
  ∀ (i : Instr) (d a : BitVec 6) (f : Word → Word → Word) (s : State) (t : Task),
    oneSource i = some (d, a, f) → s.Issues .s t → t.badS a = false →
    exec i s = .next (s.withTask ((t.writeS d (f t.pcS (t.readS a))).goto .s (t.pcS + 4)))

/-- R116: a position add keeps path, plane and what stands above its field, and traps where it leaves the field. -/
def Obligations.PositionAdds : Prop :=
  ∀ (i : Instr) (d a : BitVec 6) (k : Int) (s : State) (t : Task),
    positionAdds t i = some (d, a, k) → s.Issues .s t → t.badS a = false →
    let x := t.readS a
    let n := addField x
    let p : Int := (x.toNat % 2 ^ n : Nat) + k
    exec i s = .next (
      if p < 0 ∨ (2 ^ n : Nat) ≤ p then s.trapped .s t (encode i) .padd x
      else s.withTask ((t.writeS d (BitVec.ofNat 64 (x.toNat / 2 ^ n * 2 ^ n + p.toNat))).goto .s (t.pcS + 4)))

/-- R118, R119: a branch goes on by its offset where its condition holds, else to the next word; `jal` and `jalr` link and
jump, and a misaligned target of `jalr` traps with d unchanged. -/
def Obligations.BranchesAndJumps : Prop :=
  (∀ (i : Instr) (a b : BitVec 6) (off : BitVec 14) (f : Word → Word → Bool) (s : State) (t : Task),
    branches i = some (a, b, off, f) → s.Issues .s t → t.badS a = false → t.badS b = false →
    exec i s = .next (s.withTask (t.goto .s
      (if f (t.readS a) (t.readS b) then wordsOn t.pcS off.toInt else t.pcS + 4)))) ∧
  (∀ (d a : BitVec 6) (off : BitVec 20) (imm : BitVec 14) (s : State) (t : Task), s.Issues .s t →
    exec (.jal d off) s = .next (s.withTask ((t.writeS d (t.pcS + 4)).goto .s (wordsOn t.pcS off.toInt))) ∧
    (t.badS a = false →
      let target := BitVec.ofInt 64 ((t.readS a).toInt + imm.toInt)
      exec (.jalr d a imm) s = .next (
        if target.toNat % 4 = 0 then s.withTask ((t.writeS d (t.pcS + 4)).goto .s target)
        else s.trapped .s t (encode (.jalr d a imm)) .align target)))

/-- R33, R70, R387: an instruction that reads poisoned data takes MCHECK with TRAPADDR 0, one that names a vector register
beyond the grant ILLEGAL, one that needs supervisor level PRIVILEGED at user level, each without effect. -/
def Obligations.RefusedInstructions : Prop :=
  (∀ (i : Instr) (s : State) (t : Task), s.Issues .s t →
    (∀ d a b f, twoSource i = some (d, a, b, f) → (t.badS a || t.badS b) = true →
      exec i s = .next (s.trapped .s t (encode i) .mcheck 0)) ∧
    (∀ d a f, oneSource i = some (d, a, f) → t.badS a = true → exec i s = .next (s.trapped .s t (encode i) .mcheck 0)) ∧
    (∀ a b off f, branches i = some (a, b, off, f) → (t.badS a || t.badS b) = true →
      exec i s = .next (s.trapped .s t (encode i) .mcheck 0))) ∧
  (∀ (i : Instr) (x : Operands) (ty : BitVec 4) (s : State) (t₀ : Task), s.Issues .v t₀ →
    ((∃ f, vectorIntegers i = some (x, ty, f)) ∨ ∃ nf op lat, vectorFloats i = some (x, ty, nf, op, lat)) →
    let t := t₀.landDue
    ((x.d :: x.sources).all t.vregOk = false → exec i s = .next (s.trapped .v t₀ (encode i) .illegal 0)) ∧
    ((x.d :: x.sources).all t.vregOk = true → ¬ lanesClean t (t.readM x.m) x.sources →
      exec i s = .next (s.trapped .v t₀ (encode i) .mcheck 0))) ∧
  (∀ (i : Instr) (e : Engine) (s : State) (t : Task), supervisorOnly i = some e → s.Issues e t → t.level = false →
    exec i s = .next (s.trapped e t (encode i) .privileged 0))

/-- R33, R138, R139, R141: the fields of a granted stream take the register's value, a bit that must be zero raises RESERVED;
base and extent with the cursor at 0; the leader of the stream named; routing and index registers. -/
def Obligations.StreamRegisters : Prop :=
  (∀ (i : Instr) (q : BitVec 4) (a : BitVec 6) (n : Nat) (f : Stream → Word → Stream) (s : State) (t : Task),
    streamFields i = some (q, a, n, f) → s.Issues .s t → t.badS a = false →
    exec i s = .next (
      if t.grant.streams ≤ q.toNat then s.trapped .s t (encode i) .illegal 0
      else if 2 ^ n ≤ (t.readS a).toNat then s.trapped .s t (encode i) .reserved (t.readS a)
      else s.withTask ((withStream t q (f (t.q.get q.toFin) (t.readS a))).goto .s (t.pcS + 4)))) ∧
  (∀ (q : BitVec 4) (a b : BitVec 6) (s : State) (t : Task),
    s.Issues .s t → q.toNat < t.grant.streams → t.badS a = false → t.badS b = false →
    exec (.stBase q a b) s = .next (s.withTask ((withStream t q
      { t.q.get q.toFin with base := t.readS a, extent := t.readS b, cursor := 0 }).goto .s (t.pcS + 4))) ∧
    exec (.stLink q b) s = .next (
      if h : (t.readS b).toNat < 16 then
        s.withTask ((withStream t q { t.q.get q.toFin with
          leader := if (t.readS b).toNat = q.toNat then q else (t.q.get ⟨(t.readS b).toNat, h⟩).leader }).goto .s (t.pcS + 4))
      else s.trapped .s t (encode (.stLink q b)) .reserved (t.readS b))) ∧
  (∀ (r : BitVec 2) (x : BitVec 4) (a : BitVec 6) (s : State) (t : Task), s.Issues .s t → t.badS a = false →
    exec (.rtset r a) s = .next (s.withTask ({ t with rt := t.rt.set r.toNat (t.readS a) r.isLt }.goto .s (t.pcS + 4))) ∧
    exec (.xset x a) s = .next (s.withTask
      ({ t with x := t.x.set x.toNat (BitVec.ofNat 32 (t.readS a).toNat) x.isLt }.goto .s (t.pcS + 4))))

/-- R142, R143: `sget` reads each system register, two of them at supervisor level only; `sset` writes those of the task,
leaves the read-only ones as they are, and writes FRAME, the resume register of its slot, RAMPCFG and LEASEMAX of its core.
In it the model's own reading: logs 11, 81. -/
def Obligations.SystemRegisters : Prop :=
  (∀ (d : BitVec 6) (n : BitVec 12) (s : State) (t : Task), s.Issues .s t →
    exec (.sget d n) s = .next (
      if t.level = false ∧ n.toNat ∈ supervisorReads then s.trapped .s t (encode (.sget d n)) .privileged 0
      else s.withTask ((t.writeS d (systemRegister s t n.toNat)).goto .s (t.pcS + 4)))) ∧
  (∀ (a : BitVec 6) (n : BitVec 12) (s : State) (t : Task), s.Issues .s t → t.badS a = false →
    let v := t.readS a
    (t.level = false → n.toNat ∉ userMayWrite →
      exec (.sset a n) s = .next (s.trapped .s t (encode (.sset a n)) .privileged 0)) ∧
    (t.level = true ∨ n.toNat ∈ userMayWrite →
      (∀ t', writeTaskRegister t v n.toNat = some t' → exec (.sset a n) s = .next (s.withTask (t'.goto .s (t.pcS + 4)))) ∧
      (n.toNat ∈ readOnlyRegisters → exec (.sset a n) s = .next (s.withTask (t.goto .s (t.pcS + 4)))) ∧
      (n.toNat = 0x050 → exec (.sset a n) s = .next (s.withTaskCore (t.goto .s (t.pcS + 4))
        { s.core with frame := v, frameTenant := t.tenant })) ∧
      (n.toNat = 0x055 → exec (.sset a n) s = .next (s.withTaskCore (t.goto .s (t.pcS + 4))
        { s.core with resume := s.core.resume.set (slotOf s.cur).val v (slotOf s.cur).isLt })) ∧
      (n.toNat = 0x032 → exec (.sset a n) s = .next ({ s.withTask (t.goto .s (t.pcS + 4)) with
        rampcfg := if 1 ≤ v.toNat % 2 ^ 16 ∧ v.toNat % 2 ^ 16 ≤ 256 then
          s.rampcfg.set (coreOf s.cur) (BitVec.ofNat 16 v.toNat) else s.rampcfg })) ∧
      (n.toNat = 0x052 → s.core.leaseHolder = none → exec (.sset a n) s = .next ({ s.withTask (t.goto .s (t.pcS + 4)) with
        leasemax := if 1 ≤ v.toNat % 2 ^ 9 ∧ v.toNat % 2 ^ 9 ≤ 256 then
          s.leasemax.set (coreOf s.cur) (BitVec.ofNat 9 v.toNat) else s.leasemax }))))

/-- R64 to R69, R144, R376: what the four trap registers hold once a trap is taken, and that the task stops, to be saved with
cause 2, and keeps all else; one that has recorded a trap keeps it, but for that of a higher engine in the same clock. `trap` takes SWTRAP and counts as completed; a word that
fails a test of R66, and a fetch that fails, take their traps (TRAPWORD is then a free value, log 9). -/
def Obligations.Traps : Prop :=
  (∀ (i : TrapInfo) (t : Task),
    (t.mode ≠ .saving 2 ∨ (∃ x, t.trapAt = some (i.clock, x) ∧ engNum i.eng < engNum x) →
      (takeTrap i t).trapcause.toNat = i.cause.code + 256 * engNum i.eng + (if t.level then 1024 else 0) ∧
      (takeTrap i t).trappc = i.pc ∧
      (takeTrap i t).trapword.toNat = i.word.toNat + 2 ^ 32 * i.index.toNat ∧
      (takeTrap i t).trapaddr = i.addr) ∧
    (t.mode = .saving 2 → (∀ x, t.trapAt = some (i.clock, x) → engNum x ≤ engNum i.eng) →
      (takeTrap i t).trapcause = t.trapcause ∧ (takeTrap i t).trappc = t.trappc ∧
      (takeTrap i t).trapword = t.trapword ∧ (takeTrap i t).trapaddr = t.trapaddr) ∧
    (takeTrap i t).mode = .saving 2 ∧ (takeTrap i t).s = t.s ∧ (takeTrap i t).v = t.v ∧ (takeTrap i t).m = t.m ∧
    (takeTrap i t).q = t.q ∧ (takeTrap i t).tflags = t.tflags ∧ (takeTrap i t).trapvec = t.trapvec ∧
    (∀ e, (takeTrap i t).pc e = t.pc e)) ∧
  (∀ (imm : BitVec 14) (s : State) (t : Task), s.Issues .s t → t.mode ≠ .saving 2 →
    ∃ t', exec (.trap imm) s = .next (s.withTask t') ∧ t'.pcS = t.pcS + 4 ∧ t'.trappc = t.pcS ∧
      t'.trapaddr = BitVec.ofInt 64 imm.toInt ∧ t'.trapword.toNat = (encode (.trap imm)).toNat ∧
      t'.trapcause.toNat = 0x10 + (if t.level then 1024 else 0) ∧ t'.mode = .saving 2 ∧ t'.s = t.s) ∧
  (∀ (e : Engine) (s : State) (t : Task), s.Issues e t →
    (∀ w, (decode e w = .illegal → exec (.illegalWord e w) s = .next (s.trapped e t w .illegal 0)) ∧
      (decode e w = .reserved → exec (.illegalWord e w) s = .next (s.trapped e t w .reserved 0)) ∧
      (∀ i, decode e w = .ok i → supervisorOnly i = some e → t.level = false →
        exec (.illegalWord e w) s = .next (s.trapped e t w .privileged 0))) ∧
    (∀ k, fetchWord s s.cur e = .error (.cause k) → t.mode ≠ .saving 2 →
      ∃ (w : BitVec 32) (d : Device), exec (.fetchFault e) s = .next (onDev (s.trapped e t w k (t.pc e)) d) ∧
        d = { s.dev with draws := d.draws }))

/-- R97, R111, R120 to R122: one read of this device's memory gives what stands there, with the engine's own earlier writes
over it and its poison, a vector load what the core has read ahead, or the trap of the check that fails; `ld` extends what it reads as its size code says. From storage
of this device a line that the scalar data cache of 64 KiB holds answers; else memory does, and the line is filled unless
it is poisoned.
In it the model's own reading: logs 6, 12, 33. -/
def Obligations.ReadsAndLoads : Prop :=
  (∀ (s : State) (e : Engine) (t : Task) (w : BitVec 32) (a : Word) (want : Want) (bit n : Nat),
    s.tasks.get s.cur = some t →
    (ReadsHere s t e a want bit n →
      Answers s e t w a want { val := valueAt s t e a bit n, width := n, poison := spoilt s bit n }) ∧
    (locate s (some (coreOf s.cur)) t.grant t.tenant e .read want a = .ok (.here bit n false) →
      ownAtomic s.dev t.tid e (formOf a) (bit / 8) = false → bitsGranted s t.tenant t.level .read bit n = false →
      readSpot (headCtx s e t w) a want 0 0 [] s =
        .error (.trap { loc := s.cur, eng := e, pc := t.pc e, word := w, cause := .access, addr := a, index := 0 })) ∧
    (∀ k, locate s (some (coreOf s.cur)) t.grant t.tenant e .read want a = .error (.cause k) →
      readSpot (headCtx s e t w) a want 0 0 [] s =
        .error (.trap { loc := s.cur, eng := e, pc := t.pc e, word := w, cause := k, addr := a, index := 0 }))) ∧
  (∀ (d a : BitVec 6) (sz : BitVec 3) (off : BitVec 11) (s : State) (t : Task) (ea : Word),
    s.Issues .s t → t.badS a = false → positionAdd (t.readS a) off.toInt = some ea →
    let put := fun (g : Got) => (receives t d (if sz.toNat = 1 then BitVec.ofInt 64 (readInt g.width true g.val)
      else BitVec.ofNat 64 g.val) g).goto .s (t.pcS + 4)
    (∀ bit w, ReadsHere s t .s ea (sizeWant sz) bit w →
      let real := readPlace s.dev.migrations bit
      (s.core.line t.tenant (formOf ea) (real / 512) = none →
        exec (.ld d a sz off) s = .next (s.withTaskCore (put ⟨valueAt s t .s ea bit w, w, spoilt s bit w⟩)
          (if rangePoisoned s.dev.poison (real / 512 * 64) 64 then s.core
           else
             let kept := s.core.lines.filter fun x => !x.ahead
             { s.core with lines := (s.core.lines.filter fun x => x.ahead) ++ kept.drop (kept.length - 1023) ++
               [{ pathPlane := BitVec.ofNat 7 (formOf ea), tenant := t.tenant, block := real / 512
                  data := BitVec.ofNat 512 (readBytes s.mem (real / 512 * 64) 64) }] }))) ∧
      (∀ ln, s.core.line t.tenant (formOf ea) (real / 512) = some ln →
        exec (.ld d a sz off) s = .next (s.withTask (put ⟨readBits (overlay s.dev.migrations
          (ownWrites s.dev t.tid .s (formOf ea)) (Mem.writeAll s.mem (byteCells (64 * ln.block) 64 ln.data.toNat)))
          real w, w, false⟩)))) ∧
    (∀ g spot, locate s (some (coreOf s.cur)) t.grant t.tenant .s .read (sizeWant sz) ea = .ok spot →
      (∀ bit w, spot ≠ .here bit w false) → Answers s .s t (encode (.ld d a sz off)) ea (sizeWant sz) g →
      exec (.ld d a sz off) s = .next (s.withTask (put g))))

/-- R111, R120, R121, R123: `st` passes the core's checks and leaves as a posted write of the data's low bits; memory itself
does not change yet. `rst` posts its data with the flag word that is counted once the data is visible; with d = s0 there is
no flag.
In it the model's own reading: logs 6, 16. -/
def Obligations.ScalarStores : Prop :=
  (∀ (d a : BitVec 6) (sz : BitVec 3) (off : BitVec 11) (s : State) (t : Task) (ea : Word) (x : Dest),
    s.Issues .s t → t.badS a = false → t.badS d = false → positionAdd (t.readS a) off.toInt = some ea →
    GoesTo s .s t (encode (.st d a sz off)) ea (sizeWant sz) (t.readS d).toNat x → t.unack ≠ BitVec.allOnes 32 →
    exec (.st d a sz off) s = .next (posted s .s t (encode (.st d a sz off)) none x)) ∧
  (∀ (d a b : BitVec 6) (f : BitVec 3) (s : State) (t : Task) (x : Dest),
    s.Issues .s t → t.badS a = false → t.badS b = false → t.badS d = false →
    let w := encode (.rst d a b f)
    (pathOf (t.readS a) ≠ 0 → pathOf (t.readS a) ≠ 5 →
      exec (.rst d a b f) s = .next (s.trapped .s t w .path (t.readS a))) ∧
    (pathOf (t.readS a) = 0 ∨ pathOf (t.readS a) = 5 → GoesTo s .s t w (t.readS a) (sizeWant f) (t.readS b).toNat x →
      t.unack ≠ BitVec.allOnes 32 →
      (d = 0 → exec (.rst d a b f) s = .next (posted s .s t w none x)) ∧
      (∀ fl, d ≠ 0 → flagSpot (headCtx s .s t w) (t.readS d) [] s = .ok (fl, []) →
        exec (.rst d a b f) s = .next (posted s .s t w (some fl) x))))

/-- R111, R124, R125: an atomic that waits is sent once and completes with its answer in d, or takes the trap that came back;
a posted one leaves and the instruction completes.
In it the model's own reading: log 6. -/
def Obligations.ScalarAtomics : Prop :=
  ∀ (d a b : BitVec 6) (slot : BitVec 5) (s : State) (t : Task),
    s.Issues .s t → t.badS a = false → t.badS b = false → t.badS (b + 1) = false →
    let w := encode (.amo d a b slot)
    let x := t.readS a
    (∀ v n p, t.answer .s x (.bytes 8) = some (.value v n p) →
      exec (.amo d a b slot) s = .next (s.withTask ((t.writeS d v).goto .s (t.pcS + 4)))) ∧
    (∀ k, t.answer .s x (.bytes 8) = some (.refused k) → exec (.amo d a b slot) s = .next (s.trapped .s t w k x)) ∧
    (∀ byte, t.answer .s x (.bytes 8) = none → atomicSpot (headCtx s .s t w) x [] s = .ok (.inl byte, []) →
      (t.asked.any fun q => q.eng == .s && q.tag == 0 && q.addr == x && q.want == .bytes 8) = false →
      exec (.amo d a b slot) s = .next (waits (s.withTaskDev
        { t with asked := t.asked ++ [{ eng := .s, tag := 0, uid := s.dev.nextUid, addr := x, want := .bytes 8 }] }
        (sends (named s.dev) s.dev.devid 1 (.atomic s.dev.nextUid (originOf (headCtx s .s t w) t s.dev) byte slot
          (t.readS b) (t.readS (b + 1)) false false x))))) ∧
    (∀ target, atomicSpot (headCtx s .s t (encode (.amoPosted a b slot))) x [] s = .ok (target, []) →
      t.unack ≠ BitVec.allOnes 32 →
      exec (.amoPosted a b slot) s = .next (postedAtomic s .s t (encode (.amoPosted a b slot)) target slot (t.readS b)
        (t.readS (b + 1)) x))

/-- R127 to R130, R257: a fence that orders stores first has them performed, at TSK scope by showing them to the task's
engines, wider by waiting for their targets; one that orders later loads at COR or wider, and every such acquire, leaves
nothing cached; a release waits for what its sync word orders, then leaves as a posted write or as a posted `add64`.
In it the model's own reading: logs 17, 47. -/
def Obligations.FencesAndSyncWords : Prop :=
  ∀ (d a b : BitVec 6) (sub sc : BitVec 4) (s : State) (t : Task), s.Issues .s t →
    (sub.toNat ≤ 1 → sc ≠ 0 → writesOut s.dev t .s = true → exec (.fence sub sc) s = .next (waits s)) ∧
    (sub.toNat ≤ 1 → sc = 0 → exec (.fence sub sc) s = .next (
      if unseen s t .s then waits s else withAll s (t.goto .s (t.pcS + 4)) (seenCore s t .s) (seenDev s t .s))) ∧
    (sub.toNat ≤ 3 → (1 < sub.toNat ∨ (sc ≠ 0 ∧ writesOut s.dev t .s = false)) →
      exec (.fence sub sc) s = .next (s.withTaskCore (t.goto .s (t.pcS + 4))
        (if sub.toNat = 0 ∨ sub.toNat = 2 then orderedAt s.core sc else s.core))) ∧
    (t.badS a = false →
      (∀ g, syncPath false (t.readS a) = true → Answers s .s t (encode (.acq d a sc)) (t.readS a) (.bytes 8) g →
        exec (.acq d a sc) s = .next (s.withTaskCore ((receives t d (BitVec.ofNat 64 g.val) g).goto .s (t.pcS + 4))
          (orderedAt (pastLines s t (t.readS a)) sc))) ∧
      (t.badS b = false →
        (∀ x, syncPath false (t.readS a) = true →
          GoesTo s .s t (encode (.rel a b sc)) (t.readS a) (.bytes 8) (t.readS b).toNat x →
          t.unack ≠ BitVec.allOnes 32 →
          (released s t .s (t.readS a) → exec (.rel a b sc) s = .next (posted s .s t (encode (.rel a b sc)) none x)) ∧
          (¬ released s t .s (t.readS a) → exec (.rel a b sc) s = .next (waits s))) ∧
        (∀ target, syncPath true (t.readS a) = true →
          atomicSpot (headCtx s .s t (encode (.relAdd a b sc))) (t.readS a) [] s = .ok (target, []) →
          t.unack ≠ BitVec.allOnes 32 → released s t .s (t.readS a) →
          exec (.relAdd a b sc) s = .next (postedAtomic s .s t (encode (.relAdd a b sc)) target 0 (t.readS b) 0
            (t.readS a)))))

/-- R126, R256, R274, R275: `waita` completes with 0 when its word is past the condition, with 1 when no entry is free, and
else arms an entry on the word's block and leaves the ready set; the word is read past the scalar data cache.
In it the model's own reading: log 41. -/
def Obligations.WaitOnMemory : Prop :=
  ∀ (d a b : BitVec 6) (f : BitVec 2) (s : State) (t : Task) (v : Word) (block : Nat) (us : List Upd),
    s.Issues .s t → t.badS a = false → t.badS b = false → t.badS (b + 1) = false → f.toNat ≤ 2 →
    (pathOf (t.readS a) = 0 ∨ pathOf (t.readS a) = 2 ∨ pathOf (t.readS a) = 3) →
    waitRead (headCtx s .s t (encode (.waita d a b f))) (t.readS a) [] s = .ok ((v, block), us) →
    let k := pastLines s t (t.readS a)
    let holds : Prop := (f.toNat = 0 ∧ v = t.readS b) ∨ (f.toNat = 1 ∧ v.toNat < (t.readS b).toNat) ∨
      (f.toNat = 2 ∧ v ≠ t.readS b)
    (¬ holds → exec (.waita d a b f) s = .next (s.withTaskCore ((t.writeS d 0).goto .s (t.pcS + 4)) k)) ∧
    (holds → monitorFree s.core s.dev.monitorsKept t.level = false →
      exec (.waita d a b f) s = .next (s.withTaskCore ((t.writeS d 1).goto .s (t.pcS + 4)) k)) ∧
    (holds → monitorFree s.core s.dev.monitorsKept t.level = true →
      exec (.waita d a b f) s = .next (s.withTaskCore
        { t with
          mode := .asleep
          held := .waita (encode (.waita d a b f)) d (t.readS a) (t.readS b) f block
            (if t.readS (b + 1) = 0 then 0 else s.dev.clock + (t.readS (b + 1)).toNat) }
        { k with monitors := k.monitors ++ [{ slot := slotOf s.cur, block, sup := t.level }] }))

/-- R130, R265: `bind` fills a slot of the binding table from an aligned descriptor that keeps its layout and names a sync
word that can be read, with 0 in d; else the table stays and d is 1. Its unbinding form empties the slot. R136, R264,
R277: `qm` sets its markers behind what the engines have issued and the writes counted, and waits for the phase end, past
which nothing cached remains.
In it the model's own reading: logs 34, 48, 88. -/
def Obligations.BindingsAndMarkers : Prop :=
  (∀ (d a : BitVec 6) (slot : BitVec 4) (s : State) (t : Task), s.Issues .s t →
    exec (.unbind d a slot) s = .next (s.withTask
      (({ t with bindings := t.bindings.set slot.toNat none slot.isLt }.writeS d 0).goto .s (t.pcS + 4))) ∧
    ∀ v, t.badS a = false → readRun (headCtx s .s t (encode (.bind d a slot))) (t.readS a) 8 [] s = .ok (v, []) →
      (bindingOf v = none → exec (.bind d a slot) s =
        .next (s.withTaskCore ((t.writeS d 1).goto .s (t.pcS + 4)) (pastLines s t (t.readS a)))) ∧
      ∀ b ok, bindingOf v = some b →
        syncOk (headCtx s .s t (encode (.bind d a slot))) b.sync [] s = .ok (ok, []) →
        exec (.bind d a slot) s = .next (s.withTaskCore (
          if ok = true ∧ (t.readS a).toNat % 64 = 0 then
            ({ t with bindings := t.bindings.set slot.toNat (some b) slot.isLt }.writeS d 0).goto .s (t.pcS + 4)
          else (t.writeS d 1).goto .s (t.pcS + 4)) (pastLines s t (t.readS a)))) ∧
  (∀ (m : BitVec 3) (s : State) (t : Task), s.Issues .s t →
    exec (.qmPost m) s = .next (s.withTask ({ t with
      phaseEnd := false, posted := true
      markM := if m.getLsbD 1 then t.mjobs.length else 0
      markC := if m.getLsbD 2 then t.cjobs.length else 0
      postUids := t.uids }.goto .s (t.pcS + 4))) ∧
    exec .qmWait s = .next (if t.posted && !t.phaseEnd then waits s
      else s.withTaskCore ({ t with phaseEnd := false }.goto .s (t.pcS + 4)) { s.core with lines := [] }))

/-- R18, R21, R22, R131, R193: waits for tokens take one from each queue named, trap with TOKEN where one can never come, and
are held till then; gives have the engine's writes performed at TSK scope, wait for room, and add one to each queue named. R132, R295: `kw` waits
until every token named is set, gives their error bits, and clears both when told; it traps where an ended copy engine can
never set one.
In it the model's own reading: log 17. -/
def Obligations.TokensAndScoreboard : Prop :=
  (∀ (m : BitVec 3) (s : State) (t : Task),
    (s.Issues .s t →
      exec (.tkWait m) s = .next (if t.deadWait .s m then s.trapped .s t (encode (.tkWait m)) .token 0
        else if t.hasTokens .s m then s.withTask ((t.takeTokens .s m).goto .s (t.pcS + 4)) else waits s) ∧
      exec (.tkGive m) s = .next (if unseen s t .s || !t.hasRoom .s m then waits s
        else withAll s ((t.giveTokens .s m).goto .s (t.pcS + 4)) (seenCore s t .s) (seenDev s t .s))) ∧
    (∀ e i, (t.takeTokens e m).tok.get i = t.tok.get i - (if ∃ x ∈ maskEngines e m, queueIx x e = i then 1 else 0) ∧
      (t.giveTokens e m).tok.get i = t.tok.get i + (if ∃ x ∈ maskEngines e m, queueIx e x = i then 1 else 0))) ∧
  (∀ (d : BitVec 6) (clear : BitVec 1) (mask : BitVec 8) (s : State) (t : Task), s.Issues .s t →
    let ks := (List.finRange 8).filter fun k => mask.getLsbD k.val
    let never := t.endC && ks.any fun k => !(t.k.get k).set && (t.k.get k).pend == 0 && !t.copyNames k
    (never = true → exec (.kw d clear mask) s = .next (s.trapped .s t (encode (.kw d clear mask)) .token 0)) ∧
    (never = false → (∃ k ∈ ks, (t.k.get k).set = false) → exec (.kw d clear mask) s = .next (waits s)) ∧
    (never = false → (∀ k ∈ ks, (t.k.get k).set = true) →
      ∃ t', exec (.kw d clear mask) s = .next (s.withTask t') ∧ t'.pcS = t.pcS + 4 ∧
        t'.readS d = (if d = 0 then 0 else
          BitVec.ofNat 64 ((ks.map fun k => if (t.k.get k).err then 2 ^ k.val else 0).sum)) ∧
        (∀ r, r ≠ d → t'.readS r = t.readS r) ∧
        (∀ k, t'.k.get k = (if clear = 1 ∧ k ∈ ks then { t.k.get k with set := false, err := false } else t.k.get k)) ∧
        t'.tok = t.tok ∧ t'.tflags = t.tflags ∧ t'.q = t.q))

/-- R133, R134, R271, R272: with the answer of its barrier a `bar` completes: an arrive with the phase before its arrival, a
flags and a test with the completed flags and the low bit of the phase, an init with 0, or 1 when its count is out of range,
a wait or sync with the new phase
once it has changed, as an acquire; while the phase stays the task leaves the ready set. R133, R270: the answer that a
barrier may not be used raises ACCESS, as a barrier of this device that may not be used does at once; a name outside R133 raises
BOUNDS; an arrive sends its request, with the task's
TFLAGS, once the earlier writes are performed, and so does a sync; an init sends its count, and a wait, a flags or a test of a
barrier on another device asks its hub; of one on this device they read at once.
In it the model's own reading: log 45. -/
def Obligations.BarrierInstructions : Prop :=
  (∀ (d a b : BitVec 6) (sc : BitVec 4) (s : State) (t : Task) (r : BarRef) (phase : BitVec 16) (fl : BitVec 8),
    s.Issues .s t → t.held = .barAnswer r phase fl true →
    let done := fun (v : Word) => ({ t.writeS d v with held := .none }).goto .s (t.pcS + 4)
    exec (.barArrive d a b sc) s = .next (s.withTask (done (BitVec.ofNat 64 phase.toNat))) ∧
    exec (.barInit d a b sc) s = .next (s.withTask (done (if 1 ≤ (t.readS b).toNat ∧ (t.readS b).toNat ≤ 2 ^ 18 then 0 else 1))) ∧
    exec (.barFlags d a b sc) s = .next (s.withTask (done (BitVec.ofNat 64 fl.toNat))) ∧
    exec (.barTest1 d a b sc) s = .next (s.withTask (done (BitVec.ofNat 64 (phase.toNat % 2)))) ∧
    (phaseOf s r ≠ phase → exec (.barSync d a b sc) s =
      .next (s.withTaskCore (done (BitVec.ofNat 64 (phaseOf s r).toNat)) (orderedAt s.core sc))) ∧
    (phaseOf s r = phase → t.mode = .ready → exec (.barSync d a b sc) s =
      .next (waits (s.withTask { t with mode := .atBarrier, held := .barrier r phase true s.dev.nanos }))) ∧
    (t.badS b = false →
      (phaseOf s r ≠ BitVec.ofNat 16 (t.readS b).toNat → exec (.barWait d a b sc) s =
        .next (s.withTaskCore (done (BitVec.ofNat 64 (phaseOf s r).toNat)) (orderedAt s.core sc))) ∧
      (phaseOf s r = BitVec.ofNat 16 (t.readS b).toNat → t.mode = .ready → exec (.barWait d a b sc) s =
        .next (waits (s.withTask { t with mode := .atBarrier
                                          held := .barrier r (BitVec.ofNat 16 (t.readS b).toNat) false s.dev.nanos }))))) ∧
  (∀ (d a b : BitVec 6) (sc : BitVec 4) (s : State) (t : Task), s.Issues .s t →
    let forms : List Instr := [.barArrive d a b sc, .barWait d a b sc, .barSync d a b sc, .barInit d a b sc,
      .barFlags d a b sc, .barTest1 d a b sc]
    (∀ i ∈ forms, ∀ r phase fl, t.held = .barAnswer r phase fl false →
      exec i s = .next (s.trapped .s t (encode i) .access (t.readS a))) ∧
    (t.held = .none → t.badS a = false →
      let x := (t.readS a).toNat
      let limit := [0, 16, 16, 32, 32, 64].getD (x / 256) 0
      (limit ≤ x % 256 → ∀ i ∈ forms, exec i s = .next (s.trapped .s t (encode i) .bounds (t.readS a))) ∧
      (x % 256 < limit →
        let r := barrierRef (coreOf s.cur) (BitVec.ofNat 3 (x / 256)) (x % 256)
        let here := heldHere s.dev r
        let mine := mayUse t.level t.tenant (barrierAt s r)
        (here = true → mine = false → ∀ i ∈ forms, exec i s = .next (s.trapped .s t (encode i) .access (t.readS a))) ∧
        (here = false ∨ mine = true →
          let asks := fun (op : BarOp) => waits (s.withTaskDev { t with held := .barAsked r }
            (sends s.dev (if here then s.dev.devid else s.dev.barrierHub) 5 (.barrier r op t.tid s.dev.devid t.tenant t.level
              { clock := s.dev.clock, slot := (slotOf s.cur).val, core := (coreOf s.cur).val })))
          let arrives := if writesOut s.dev t .s then waits s else asks (.arrive t.tflags none)
          let n := (t.readS b).toNat
          let done := fun (v : Nat) => (t.writeS d (BitVec.ofNat 64 v)).goto .s (t.pcS + 4)
          exec (.barArrive d a b sc) s = .next arrives ∧
          exec (.barSync d a b sc) s = .next arrives ∧
          (t.badS b = false → exec (.barInit d a b sc) s = .next (asks
            (if 1 ≤ n ∧ n ≤ 2 ^ 18 then .init (BitVec.ofNat 19 n) else .read))) ∧
          (here = false →
            (t.badS b = false → exec (.barWait d a b sc) s = .next (asks .read)) ∧
            exec (.barFlags d a b sc) s = .next (asks .read) ∧ exec (.barTest1 d a b sc) s = .next (asks .read)) ∧
          (here = true →
            exec (.barFlags d a b sc) s = .next (s.withTask (done (barrierAt s r).completed.toNat)) ∧
            exec (.barTest1 d a b sc) s = .next (s.withTask (done ((barrierAt s r).phase.toNat % 2))) ∧
            (t.badS b = false →
              (phaseOf s r ≠ BitVec.ofNat 16 n → exec (.barWait d a b sc) s =
                .next (s.withTaskCore (done (phaseOf s r).toNat) (orderedAt s.core sc))) ∧
              (phaseOf s r = BitVec.ofNat 16 n → t.mode = .ready → exec (.barWait d a b sc) s =
                .next (waits (s.withTask { t with
                  mode := .atBarrier, held := .barrier r (BitVec.ofNat 16 n) false s.dev.nanos })))))))))

/-- R163, R165, R172: the integer instructions compute each element of the active lanes modulo its width, without flags. -/
def Obligations.VectorIntegers : Prop :=
  ∀ (i : Instr) (x : Operands) (ty : BitVec 4) (f : Nat → Bool → Nat → Nat → Nat) (w : Nat) (sg : Bool) (s : State)
    (t₀ : Task), vectorIntegers i = some (x, ty, f) → intFmt ty.toNat = some (w, sg) → s.Issues .v t₀ →
    let t := t₀.landDue
    (x.d :: x.sources).all t.vregOk = true → lanesClean t (t.readM x.m) x.sources →
    exec i s = .next (s.withTask (nextV (t.deliver 4 (elementResult w x.d (t.readM x.m) true fun e =>
      (f w sg (elemOf w (t.v.get x.a.toFin) e) (elemOf w (t.v.get x.b.toFin) e), 0))) t₀.pcV))

/-- R152, R153, R165, R168, R171: the float instructions compute each element of the active lanes in the format and mode of
the task, with its flags unless they are kept down. R156: an operand that is a NaN gives the canonical NaN and raises no
flag, whatever its fraction. -/
def Obligations.VectorFloats : Prop :=
  (∀ (i : Instr) (x : Operands) (ty : BitVec 4) (nf : Bool) (op : FOp) (lat : Nat) (fm : FFmt) (s : State) (t₀ : Task),
    vectorFloats i = some (x, ty, nf, op, lat) → floatFmt ty.toNat = some fm → s.Issues .v t₀ →
    let t := t₀.landDue
    (x.d :: x.sources).all t.vregOk = true → lanesClean t (t.readM x.m) x.sources →
    exec i s = .next (s.withTask (nextV (t.deliver lat (elementResult fm.width x.d (t.readM x.m) nf fun e =>
      floatOp op fm (Mode.ofBits t.vctl) (elemOf fm.width (t.v.get x.d.toFin) e) (elemOf fm.width (t.v.get x.a.toFin) e)
        (elemOf fm.width (t.v.get x.b.toFin) e))) t₀.pcV))) ∧
  (∀ (op : FOp) (f : FFmt) (mode : Mode) (d a b : Nat), op ≠ .abs → op ≠ .neg →
    ((decodeFloat f a).isNaN = true ∨
      ((decodeFloat f b).isNaN = true ∧ op ≠ .sqrt ∧ op ≠ .rnd)) →
    floatOp op f mode d a b = (canonNaN f, 0))

/-- R163, R165: an element result that lands gives each element of an active lane its value, and leaves every other element,
register, mask, flag-free lane and token as it was. R166, R167, R169: in interlocked mode, and with latency 0, a result lands
at once; in exposed mode it is in flight until the issue count has risen by its latency.
In it the model's own reading: log 28. -/
def Obligations.VectorResultsLand : Prop :=
  (∀ (t : Task) (w : Nat) (d : BitVec 6) (active : Mask) (nf : Bool) (f : Nat → Nat × LFlags),
    w ∈ [8, 16, 32] →
    let t' := t.landResult (elementResult w d active nf f)
    (∀ e, e < 8192 / w → elemOf w (t'.v.get d.toFin) e =
      if active.getLsbD (e * w / 32) then (f e).1 % 2 ^ w else elemOf w (t.v.get d.toFin) e) ∧
    (∀ r : BitVec 6, r ≠ d → t'.v.get r.toFin = t.v.get r.toFin ∧ t'.vPoison.get r.toFin = t.vPoison.get r.toFin) ∧
    (∀ i : Fin 256, (t'.vPoison.get d.toFin).getLsbD i.val =
      (!active.getLsbD i.val && (t.vPoison.get d.toFin).getLsbD i.val)) ∧
    (∀ i : Fin 256, (nf = true ∨ active.getLsbD i.val = false) → t'.laneFlags.get i = t.laneFlags.get i) ∧
    t'.m = t.m ∧ t'.s = t.s ∧ t'.x = t.x ∧ t'.q = t.q ∧ t'.tok = t.tok ∧ t'.tflags = t.tflags ∧ t'.vctl = t.vctl) ∧
  (∀ (t : Task) (lat : Nat) (r : VResult),
    ((t.exposed = false ∨ lat = 0) → t.deliver lat r = t.landResult r) ∧
    (t.exposed = true → lat ≠ 0 → t.pending = [] →
      (t.deliver lat r).v = t.v ∧ (t.deliver lat r).m = t.m ∧ (t.deliver lat r).laneFlags = t.laneFlags ∧
      (∀ n, n < t.vcount + lat → ({ t.deliver lat r with vcount := n }).landDue = { t.deliver lat r with vcount := n }) ∧
      (({ t.deliver lat r with vcount := t.vcount + lat }).landDue =
        { (t.landResult r) with vcount := t.vcount + lat, pending := [] })))

/-- R173, R174: a comparison and the mask operations write a mask register; a write to m0 is discarded. -/
def Obligations.MaskResults : Prop :=
  ∀ (i : Instr) (s : State) (t₀ : Task), s.Issues .v t₀ →
    let t := t₀.landDue
    (∀ d v, maskOperations t i = some (d, v) →
      exec i s = .next (s.withTask (nextV (t.deliver 4 { dest := .mask d, bits := (BitVec.allOnes 256).setWidth 8192, value := v.setWidth 8192 }) t₀.pcV))) ∧
    (∀ md pr a b m nf ty, i = .vcmp md pr a b m nf ty → t.vregOk a = true → t.vregOk b = true →
      lanesClean t (t.readM m) [a, b] →
      let w := fmtWidth ty.toNat
      let value := maskOf fun l => (List.range (32 / w)).all fun j =>
        elementPredicate pr.toNat ty.toNat (elemOf w (t.v.get a.toFin) (l * (32 / w) + j))
          (elemOf w (t.v.get b.toFin) (l * (32 / w) + j))
      let r : VResult := { dest := .mask md, bits := (t.readM m).setWidth 8192, value := value.setWidth 8192 }
      exec i s = .next (s.withTask (nextV (t.deliver 4 r) t₀.pcV))) ∧
    (∀ r : VResult, r.dest = .mask 0 → (t.landResult r).m = t.m)

/-- R175 to R178: conversions and codebooks of the core, lane by lane. R158, R182: a reduction combines the active elements
by the tree, writes element 0 alone whatever the mask, and sends its flags to lane 0.
In it the model's own reading: log 83. -/
def Obligations.ConversionsAndReductions : Prop :=
  (∀ (d a : BitVec 6) (cb m : BitVec 3) (target : BitVec 4) (sat nf : BitVec 1) (ty : BitVec 4) (s : State) (t₀ : Task),
    s.Issues .v t₀ →
    let t := t₀.landDue
    let book := ((s.core.books.get cb.toFin).entries.toList.map BitVec.toNat)
    t.vregOk d = true → t.vregOk a = true → lanesClean t (t.readM m) [a] →
    exec (.vcvt d a target sat m nf ty) s = .next (s.withTask (nextV (t.deliver 4
      (elementResult (fmtWidth target.toNat) d (t.readM m) (nf == 1) fun e =>
        let k := 32 / fmtWidth target.toNat
        let n := 32 / fmtWidth ty.toNat
        if e % k < n then convert ty.toNat target.toNat (sat == 1) (Mode.ofBits t.vctl)
          (elemOf (fmtWidth ty.toNat) (t.v.get a.toFin) (e / k * n + e % k)) else (0, 0))) t₀.pcV)) ∧
    (∀ fm, floatFmt ty.toNat = some fm → exec (.vcbe d a cb m nf ty) s = .next (s.withTask (nextV (t.deliver 4
      (elementResult fm.width d (t.readM m) (nf == 1) fun e =>
        let x := encodeBook book (decodeFloat fm (elemOf fm.width (t.v.get a.toFin) e))
        (x.code, x.flags))) t₀.pcV))) ∧
    exec (.vcbd d a cb m ty) s = .next (s.withTask (nextV (t.deliver 4
      (elementResult (fmtWidth ty.toNat) d (t.readM m) true fun e =>
        let entry := book.getD (elemOf (fmtWidth ty.toNat) (t.v.get a.toFin) e % 16) 0
        (if ty ≠ 0 then entry else if (decodeFloat fmtBF16 entry).isNaN = true then canonNaN fmtF32 else entry * 65536, 0))) t₀.pcV))) ∧
  (∀ (d a : BitVec 6) (op m : BitVec 3) (nf : BitVec 1) (ty : BitVec 4) (s : State) (t₀ : Task), s.Issues .v t₀ →
    let t := t₀.landDue
    let w := fmtWidth ty.toNat
    t.vregOk d = true → t.vregOk a = true → lanesClean t (t.readM m) [a] →
    let members := (List.range (8192 / w)).map fun e =>
      if (t.readM m).getLsbD (e * w / 32) then some (elemOf w (t.v.get a.toFin) e, (0 : LFlags)) else none
    let r := (reduceTree (reduceOp op.toNat ty.toNat (Mode.ofBits t.vctl)) (Nat.log2 (8192 / w)) members).getD
      (reduceEmpty op.toNat ty.toNat, 0)
    exec (.vred d a op m nf ty) s = .next (s.withTask (nextV (t.deliver 16
      { dest := .reg d, bits := BitVec.ofNat 8192 (2 ^ w - 1), value := BitVec.ofNat 8192 r.1
        lanes := if w = 32 then 1 else 0, flags := laneZeroFlags (if nf = 1 then 0 else r.2) }) t₀.pcV)))

/-- R179 to R181, R192: moves of whole lanes take their poison with them; indexes and constants. -/
def Obligations.LaneMovesAndConstants : Prop :=
  ∀ (i : Instr) (s : State) (t₀ : Task), s.Issues .v t₀ →
    let t := t₀.landDue
    (∀ x, laneMoves t i = some x → x.granted.all t.vregOk = true → lanesClean t x.lanes x.clean →
      exec i s = .next (s.withTask (nextV (t.deliver x.latency (laneResult x.d x.lanes x.source)) t₀.pcV))) ∧
    (∀ d m ty, i = .vidx d m ty → t.vregOk d = true →
      exec i s = .next (s.withTask (nextV (t.deliver 4 (elementResult (fmtWidth ty.toNat) d (t.readM m) true
        fun e => (e, 0))) t₀.pcV))) ∧
    (∀ d ty v, i = .vimm d ty v → t.vregOk d = true →
      exec i s = .next (s.withTask (nextV (t.deliver 4 (elementResult (fmtWidth ty.toNat) d (BitVec.allOnes 256) true
        fun _ => (immediateElement ty.toNat v.toNat, 0))) t₀.pcV)))

/-- R15, R161, R169, R170, R192, R193, R195: lane flags cleared and collected, tokens of the vector engine, a latency mode
set once all has landed, and the engine's end. R194: `vpark` moves a register with its poison into a free block of the core,
or traps when there is none; `vunpark` brings it back and frees the entry, or traps when it holds none.
In it the model's own reading: logs 17, 28, 82. -/
def Obligations.VectorControl : Prop :=
  (∀ (m : BitVec 3) (e : BitVec 1) (s : State) (t₀ : Task), s.Issues .v t₀ →
    let t := t₀.landDue
    (∃ t', exec (.vflClear m) s = .next (s.withTask (nextV { t with laneFlags := t' } t₀.pcV)) ∧
      ∀ i : Fin 256, t'.get i = if (t.readM m).getLsbD i.val then 0 else t.laneFlags.get i) ∧
    (∃ t', exec (.vflCollect m) s = .next (s.withTask (nextV { t with tflags := t' } t₀.pcV)) ∧
      ∀ j : Fin 8, t'.getLsbD j.val = (t.tflags.getLsbD j.val || (List.finRange 256).any fun i =>
        (t.readM m).getLsbD i.val && (t.laneFlags.get i).getLsbD j.val)) ∧
    exec (.vtkWait m) s = .next (if t.deadWait .v m then s.trapped .v t₀ (encode (.vtkWait m)) .token 0
      else if t.hasTokens .v m then s.withTask (nextV (t.takeTokens .v m) t₀.pcV) else waits s) ∧
    exec (.vtkGive m) s = .next (if unseen s t .v || !t.hasRoom .v m then waits s
      else withAll s (nextV (t.giveTokens .v m) t₀.pcV) (seenCore s t .v) (seenDev s t .v)) ∧
    (t.mjobs = [] → t.cjobs = [] → t.midScalar = false →
      exec (.vrgn e) s = .next (s.withTask
        { (t.landAll).goto .v (t₀.pcV + 4) with exposed := e == 1, vcount := 0, draining := false })) ∧
    exec .vend s = .next (drains (s.withTask { (t.landAll).goto .v (t₀.pcV + 4) with endV := true }) t₀.handle)) ∧
  (∀ (d e : BitVec 6) (s : State) (t₀ : Task), s.Issues .v t₀ →
    let t := t₀.landDue
    t.vregOk d = true →
    let t₁ := { t with spill := t.spill.set e.toNat none e.isLt }
    let s₁ := s.withTask t₁
    let free := fun b => b ∈ openBlocks s₁ (coreOf s.cur) ∧ b ∉ parkedBlocks s₁ (coreOf s.cur)
    ((∃ b, free b) → ∃ b, free b ∧ exec (.vpark d e) s = .next (s.withTask (nextV
      { t with spill := t.spill.set e.toNat (some ⟨b, t.v.get d.toFin, t.vPoison.get d.toFin⟩) e.isLt } t₀.pcV))) ∧
    ((∀ b, ¬ free b) → exec (.vpark d e) s = .next (s.trapped .v t₀ (encode (.vpark d e)) .bounds (BitVec.ofNat 64 e.toNat))) ∧
    (∀ x, t.spill.get e.toFin = some x → exec (.vunpark d e) s = .next (s.withTask (nextV (t₁.landResult
      { dest := .reg d, bits := BitVec.allOnes 8192, value := x.data, lanes := BitVec.allOnes 256, poison := x.poison })
      t₀.pcV))) ∧
    (t.spill.get e.toFin = none →
      exec (.vunpark d e) s = .next (s.trapped .v t₀ (encode (.vunpark d e)) .bounds (BitVec.ofNat 64 e.toNat))))

/-- R183 to R188: a stream load reads its accessed elements, converts them as the formats pair, moves the cursor and writes
the active lanes.
In it the model's own reading: logs 6, 96. -/
def Obligations.StreamLoads : Prop :=
  ∀ (i : Instr) (u : StreamUse) (s : State) (t₀ : Task) (at_ : Nat → Word × Nat × Pairing) (g : Nat → Got),
    s.Issues .v t₀ → streamLoads t₀.landDue i = some u →
    let t := t₀.landDue
    let us : List Upd := [.task s.cur (some t)]
    let c := headCtx s .v t₀ (encode i)
    let x := u.access
    u.granted.all t.vregOk = true → u.q.toNat < t.grant.streams → lanesClean t u.mask u.clean →
    (∀ j ∈ x.elements, checkElement c x .read j us s = .ok (at_ j, us) ∧
      readSpot c (at_ j).1 (.width x.q.width) (BitVec.ofNat 16 j) (at_ j).2.1 us s = .ok (g j, us)) →
    exec i s = .next (s.withTask (nextV ((cursorAfter t u).deliver (if pathOf x.q.base = 3 then 12 else 0)
      { dest := .reg u.d, bits := laneBits x.active, lanes := x.active
        value := vregOf (fmtWidth x.ty) fun e =>
          if e ∈ x.elements then loadElement (at_ e).2.2 x.q.fmt x.ty ((g e).val % 2 ^ x.q.width) else 0
        poison := maskOf fun l => x.elements.any fun j => (g j).poison && x.lane j == l }) t₀.pcV))

/-- R183 to R190: a stream store leaves as one posted write of its accessed elements, in the order of their indices, and
moves the cursor; every active lane takes the rounding flags of its elements, accessed or not; with none accessed and no
flag word to count nothing leaves. Memory itself does not change yet.
In it the model's own reading: logs 6, 16, 96. -/
def Obligations.StreamStores : Prop :=
  ∀ (i : Instr) (u : StreamUse) (s : State) (t₀ : Task) (at_ : Nat → Word × Nat × Pairing) (y : Nat → Dest)
    (fo : Option FlagRef), s.Issues .v t₀ → streamStores t₀.landDue i = some u →
    let t := t₀.landDue
    let us : List Upd := [.task s.cur (some t)]
    let c := headCtx s .v t₀ (encode i)
    let x := u.access
    let v := fun j => storeElement (at_ j).2.2 x.q.fmt x.ty (Mode.ofBits t.vctl) (elemOf (fmtWidth x.ty) (t.v.get u.d.toFin) j)
    u.granted.all t.vregOk = true → u.q.toNat < t.grant.streams → lanesClean t u.mask u.clean → t.unack ≠ BitVec.allOnes 32 →
    (∀ j ∈ x.elements, checkElement c x .write j us s = .ok (at_ j, us) ∧
      writeSpot c (at_ j).1 (.width x.q.width) (v j).1 (BitVec.ofNat 16 j) (at_ j).2.1 us s = .ok (y j, us)) →
    (u.flagged = true → pathOf x.q.base = 0 ∨ pathOf x.q.base = 5) →
    (if u.flagged = true ∧ x.q.flag ≠ 0 then ∃ r, fo = some r ∧ flagSpot c x.q.flag us s = .ok (r, us) else fo = none) →
    ∃ fl : Vector LFlags 256, (∀ l : Fin 256, fl.get l = t.laneFlags.get l |||
        match pairing x.q.fmt x.ty true with
        | some p => if x.active.getLsbD l.val then orFlags (((List.range x.count).filter fun j => x.lane j == l.val).map fun j =>
            (storeElement p x.q.fmt x.ty (Mode.ofBits t.vctl) (elemOf (fmtWidth x.ty) (t.v.get u.d.toFin) j)).2) else 0
        | none => 0) ∧
      let t₁ := { cursorAfter t u with laneFlags := fl }
      exec i s = .next (if x.elements = [] ∧ fo = none then s.withTask (nextV t₁ t₀.pcV)
        else s.withTaskDev (nextV (counted t₁ s.dev.nextUid) t₀.pcV)
          (leavesAll (named s.dev) (originOf c t s.dev) s.dev.nextUid fo (x.elements.map y)))

/-- R23, R24, R191: `vtld` takes a ready tile's bytes with their poison; `vtst` writes a filling tile, and makes an empty one
filling unless a copy or drain moves it first; a tile outside the kernel's range takes PERM.
In it the model's own reading: log 78. -/
def Obligations.TileRows : Prop :=
  ∀ (d a : BitVec 6) (r : BitVec 7) (s : State) (t₀ : Task), s.Issues .v t₀ →
    let t := t₀.landDue
    let byte := fun l => tileByte (coreOf s.cur) a.toNat ((r.toNat + l / 64) % 128 * 256 + 4 * (l % 64))
    t.vregOk d = true →
    (t.tileOk a.toNat = false →
      exec (.vtld d a r) s = .next (s.trapped .v t₀ (encode (.vtld d a r)) .perm 0) ∧
      exec (.vtst d a r) s = .next (s.trapped .v t₀ (encode (.vtst d a r)) .perm 0)) ∧
    (t.tileOk a.toNat = true → s.core.tileState a.toNat = 2 →
      exec (.vtld d a r) s = .next (s.withTask (nextV (t.deliver 12 (laneResult d (BitVec.allOnes 256) fun l =>
        (readBytes s.mem (byte l) 4, rangePoisoned s.dev.poison (byte l) 4))) t₀.pcV))) ∧
    (t.tileOk a.toNat = true →
      s.core.tileState a.toNat = 1 ∨ (s.core.tileState a.toNat = 0 ∧ fillsFirst s (coreOf s.cur) .v a.toNat = false) →
      lanesClean t (BitVec.allOnes 256) [d] → s.dev.migrations = [] → s.held = false → Mem.wf s.mem = true →
      Completes (exec (.vtst d a r) s) fun s' =>
        s'.tasks = (s.withTask (nextV t t₀.pcV)).tasks ∧
        (s'.cores.get (coreOf s.cur)).tileState a.toNat = 1 ∧
        ∀ x, Mem.read s'.mem x = match (List.range 256).find? fun l => byte l ≤ x ∧ x < byte l + 4 with
          | some l => BitVec.ofNat 8 ((t.lane d l).1 / 2 ^ (8 * (x - byte l)))
          | none => Mem.read s.mem x)

/-- R31 to R35, R137, R350: `launch` refuses a record with the lowest reason that holds, unread when it is not aligned; one
that passes waits for earlier stores, then takes the lowest free entry of its die, and the other devices listed get the
kernel; its handle goes to d. No memory, core or other task changes.
In it the model's own reading: logs 25, 43, 53. -/
def Obligations.Launch : Prop :=
  ∀ (d a : BitVec 6) (s : State) (t : Task), s.Issues .s t → t.badS a = false →
    let x := t.readS a
    let c := headCtx s .s t (encode (.launch d a))
    let answers := fun (v : Nat) => (t.writeS d (BitVec.ofNat 64 v)).goto .s (t.pcS + 4)
    let refuses := fun (n : Nat) => exec (.launch d a) s = .next (s.withTask (answers (2 ^ 63 + n)))
    (x.toNat % 64 ≠ 0 → refuses 1) ∧
    ∀ (v : Nat), x.toNat % 64 = 0 → readRun c x 32 [] s = .ok (v, []) →
      let l := launchFields v
      (writesOut s.dev t .s = true → exec (.launch d a) s = .next (waits
        (if t.held = .none then s.withTask { t with held := .begun } else s))) ∧
      (writesOut s.dev t .s = false →
        (launchReserved v = true → refuses 1) ∧
        (launchReserved v = false →
          (launchRange v = true → refuses 2) ∧
          (launchRange v = false →
            (64 < l.tiles + l.vbanks * l.tasks ∨ 16 < l.acc * l.tasks → refuses 3) ∧
            (l.tiles + l.vbanks * l.tasks ≤ 64 → l.acc * l.tasks ≤ 16 →
              (t.level = false → (l.tenant ≠ t.tenant ∨ t.prio.toNat < l.prio.toNat) → refuses 4) ∧
              (t.level = true ∨ (l.tenant = t.tenant ∧ l.prio.toNat ≤ t.prio.toNat) →
                ∀ ds, (if l.devices = 1 then ds = [] else
                    readDevices c (BitVec.ofNat 64 (qword v 8)) l.devices [] s = .ok (some ds, [])) →
                  (¬ (ds.Nodup ∧ ∀ y ∈ ds, inDomain s.dev y.toNat = true) → refuses 5) ∧
                  (ds.Nodup → (∀ y ∈ ds, inDomain s.dev y.toNat = true) →
                    let die := s.cur.val / 256
                    let taken := fun (e : Fin 256) => (s.dev.kernels.get e).isSome
                    ((∀ e : Fin 256, e.val / 64 = die → taken e = true) → refuses 6) ∧
                    ∀ e : Fin 256, e.val / 64 = die → taken e = false → (∀ e' : Fin 256, e'.val / 64 = die → e' < e → taken e' = true) →
                      let serial := s.dev.serials.toList.getD die 0 + 1
                      let handle := serial.toNat * 2 ^ 16 + e.val % 64 * 2 ^ 10 + die * 2 ^ 8 + s.dev.devid.toNat
                      ∃ (dv : Device) (k : Kernel), exec (.launch d a) s = .next (s.withTaskDev (answers handle) dv) ∧
                        dv.kernels = s.dev.kernels.set e (some k) ∧ k.state = .posted ∧ k.handle.toNat = handle ∧ k.shadow = false ∧
                        k.launch = { l with deviceList := ds, level := k.launch.level } ∧ (k.launch.level = true → t.level = true) ∧
                        dv.serials.toList.getD die 0 = serial ∧ dv.launched = true ∧
                        let told := tells s.dev (ds.filter (· ≠ s.dev.devid)) 5 (.handover k.launch k.handle)
                        dv.rx = told.rx ∧ dv.netOut = told.netOut ∧ dv.netHeld = told.netHeld))))))

/-- R15, R27, R145, R146, R147, R235, R249, R306, R350, R360: `end` of each engine, where `mend` gives up the lease, and a restored
`mma` of the task takes its turn before, and the last of
a kernel's tasks to end makes it drain; `yield` saves the task's core group when the head of the queues has at least its priority and does not fit; `eret` hands back the frame that
its slot's resume register names.
In it the model's own reading: logs 44, 57. -/
def Obligations.EndsAndReturns : Prop :=
  ∀ (s : State) (t : Task),
    (s.Issues .s t → exec .endS s = .next (drains (s.withTask { t.goto .s (t.pcS + 4) with endS := true }) t.handle)) ∧
    (s.Issues .c t → exec .cend s = .next (drains (s.withTask { t.goto .c (t.pcC + 4) with endC := true }) t.handle)) ∧
    (s.Issues .m t → t.loading = false → exec .mend s = .next (drains
      (withAll s { (settledTask s t).goto .m (t.pcM + 4) with endM := true }
        (if s.core.leaseHolder = some (slotOf s.cur) then s.core.passLease s.dev.clock else s.core) (settledDev s t)) t.handle)) ∧
    (s.Issues .s t →
      let s₁ := s.withTask (t.goto .s (t.pcS + 4))
      let gives := ∃ q p, headItem s.dev = some (q, p) ∧ t.prio.toNat ≤ p ∧ canPlace s₁ [] q = false
      (¬ gives → exec .yield s = .next s₁) ∧
      (gives → ∃ ts, exec .yield s = .next { s with tasks := ts } ∧ ∀ l, ts.get l = (s₁.tasks.get l).map fun x =>
        if coreOf l = coreOf s.cur ∧ x.gid = t.gid then
          match x.mode with
          | .saving _ => x
          | _ => { x with mode := .saving 3 }
        else x)) ∧
    (s.Issues .s t → t.level = true →
      let frame := s.core.resume.get (slotOf s.cur)
      (frame.toNat % 64 ≠ 0 → exec .eret s = .next (s.trapped .s t (encode .eret) .align frame)) ∧
      ∀ v, frame.toNat % 64 = 0 → readRun (headCtx s .s t (encode .eret)) frame 8 [] s = .ok (v, []) →
        ∃ dv, exec .eret s = .next (withAll s (t.goto .s (t.pcS + 4)) (pastLines s t frame) dv) ∧
          (∃ x ∈ dv.saved, x.frame = frame ∧ x.queued = true ∧ x.ended = false) ∧
          ∀ y, (s.dev.saved.find? fun x => x.frame == frame && x.withSupervisor && !x.queued && !x.ended) = some y →
            groupQueued s.dev y.task.gid = false →
            dv.queues = s.dev.queues.set y.task.prio.toFin (s.dev.queues.get y.task.prio.toFin ++ [.group y.task.gid s.dev.nanos]))

/-- R99, R105, R106, R148, R149, R276: a `tlbi`, and a `seal` or `unseal` once it has changed the sealed bits of one plane of
one object, starts an invalidation that every core is to acknowledge, and is held; with no core left to acknowledge it
completes. That of a `seal` names the frame words whose bit is not yet to be seen.
In it the model's own reading: logs 42, 49, 80. -/
def Obligations.Invalidations : Prop :=
  ∀ (i : Instr) (s : State) (t : Task), s.Issues .s t → t.level = true → waitsForCores i = true →
    (∀ id, t.held = .invalidate id → (∃ x ∈ s.dev.invals, x.id = id) → exec i s = .next (waits s)) ∧
    (∀ id, t.held = .invalidate id → (∀ x ∈ s.dev.invals, x.id ≠ id) →
      exec i s = .next (s.withTask ({ t with held := .none }.goto .s (t.pcS + 4)))) ∧
    (t.held = .none →
      let starts := fun (m : List Host.Cell) (kind : InvalKind) (words : List Nat) =>
        exec i s = .next { s with
          mem := m, tasks := s.tasks.set s.cur (some { t with held := .invalidate s.dev.nextUid }), cores := allWoken s.cores
          dev := { named s.dev with invals := s.dev.invals ++ [{ id := s.dev.nextUid, kind, waiting := List.range 256, words }] }
          held := true }
      (∀ kind, invalidates t i = some kind → starts s.mem kind []) ∧
      (∀ a b on f l3 ot n, (i = .seal a b ∧ on = true) ∨ (i = .unseal a b ∧ on = false) →
        t.badS a = false → t.badS b = false → (t.readS b).toNat < 64 →
        let x := t.readS a
        let tenant := BitVec.ofNat 6 (t.readS b).toNat
        walk s none tenant .s .read .element (planeOf x) (posOf x) = .ok f → tenantTables s tenant = .ok (l3, ot, n) →
        let words := (objectRecords s f.leaf.object f.leaf.first (f.leaf.first + f.leaf.length) 4 0 l3 0).map (· + 8 * planeOf x)
        words.Pairwise (fun u v => u + 8 ≤ v ∨ v + 8 ≤ u) → Mem.wf s.mem = true →
        ∃ m, starts m (.tenant tenant) (if on then words else []) ∧
          (∀ u ∈ words, readBytes m u 8 = readBytes s.mem u 8 - readBytes s.mem u 8 / 2 ^ 28 % 2 * 2 ^ 28 + (if on then 2 ^ 28 else 0)) ∧
          (∀ y, (∀ u ∈ words, y < u ∨ u + 8 ≤ y) → Mem.read m y = Mem.read s.mem y)))

/-- R18, R22, R27, R28, R33, R235, R236, R245, R246, R248: tokens, the lease and the loads of the matrix engine. A stream that is
not granted traps, and so does a wait that can never be met; while an earlier load is unfinished, a token or room lacks,
every one waits; `get` stays queued for the lease meanwhile. Before a holder gives the lease up, a restored `mma` of its task
takes its turn.
In it the model's own reading: log 18. -/
def Obligations.MatrixControl : Prop :=
  ∀ (w g : BitVec 3) (a b : BitVec 4) (s : State) (t : Task), s.Issues .m t →
    let queued := fun (i : Instr) (work : MWork) => queuedM t t.pcM (encode i) w g work
    let gone := fun (i : Instr) => queuedM (settledTask s t) t.pcM (encode i) w g (.done none)
    let plain : List Instr := [.mtk w g, .mleaseRelease w g, .mleaseRenew w g] ++
      if a.toNat < t.grant.streams then [.mcbl a b w g, .mepi a b w g] else []
    (t.grant.streams ≤ a.toNat → ∀ i ∈ [.mcbl a b w g, .mepi a b w g], exec i s = .next (s.trapped .m t (encode i) .illegal 0)) ∧
    (t.deadWait .m w = true → ∀ i ∈ .mleaseGet w g :: plain, exec i s = .next (s.trapped .m t (encode i) .token 0)) ∧
    (t.deadWait .m w = false → (t.loading = true ∨ t.hasTokens .m w = false ∨ t.hasRoom .m g = false) →
      (∀ i ∈ plain, exec i s = .next (waits s)) ∧ exec (.mleaseGet w g) s = .next (waits (withCore s (leaseAsked s)))) ∧
    (t.loading = true → exec .mend s = .next (waits s)) ∧
    (MatrixReady t w g →
      exec (.mtk w g) s = .next (s.withTask (queued (.mtk w g) (.done none))) ∧
      (HasLease s t → exec (.mleaseGet w g) s = .next (s.withTaskCore (queued (.mleaseGet w g) (.done none)) (leaseAsked s))) ∧
      (¬ HasLease s t → exec (.mleaseGet w g) s = .next (waits (withCore s (leaseAsked s)))) ∧
      exec (.mleaseRelease w g) s = .next (withAll s (gone (.mleaseRelease w g))
        (if s.core.leaseHolder = some (slotOf s.cur) then s.core.passLease s.dev.clock else s.core) (settledDev s t)) ∧
      exec (.mleaseRenew w g) s = .next (withAll s (gone (.mleaseRenew w g))
        (if s.core.leaseHolder = some (slotOf s.cur) then
          if s.core.leaseWaiting ≠ 0 then (s.core.passLease s.dev.clock).askLease (slotOf s.cur) s.dev.clock
          else { s.core with leaseCount := 0 }
         else s.core) (settledDev s t)) ∧
      (a.toNat < t.grant.streams →
        (∀ v, LoadsRecord s t (encode (.mcbl a b w g)) (t.q.get a.toFin) 4 v →
          exec (.mcbl a b w g) s = .next (s.withTask (queued (.mcbl a b w g) (.book (BitVec.ofNat 3 b.toNat)
            { entries := .ofFn fun i => BitVec.ofNat 16 (v / 2 ^ (16 * i.val))
              narrow := (List.range 16).all fun i => v / 2 ^ (16 * i) % 16 == 0 })))) ∧
        (∀ v, LoadsRecord s t (encode (.mepi a b w g)) (t.q.get a.toFin) 2 v →
          (∀ e, epiOfBytes v = some e → exec (.mepi a b w g) s = .next (s.withTask (queued (.mepi a b w g) (.epi b e)))) ∧
          (epiOfBytes v = none → exec (.mepi a b w g) s =
            .next (s.trapped .m t (encode (.mepi a b w g)) .reserved (t.q.get a.toFin).base)))))

/-- R27, R216, R220, R225, R232, R236, R238: an `mma` whose streams pass their checks issues: it reads its streams and the
codebooks they name, both cursors move along K, and it takes its place in the core's order; memory does not change yet.
In it the model's own reading: logs 18, 35. -/
def Obligations.MatrixMultiply : Prop :=
  ∀ (qa qb acc : BitVec 4) (mode : BitVec 2) (w g : BitVec 3) (ks : BitVec 6) (s : State) (t : Task), s.Issues .m t →
    let i : Instr := .mma qa qb acc mode w g ks
    let c := headCtx s .m t (encode i)
    let us := askedUpds s
    let a := t.q.get qa.toFin
    let b := t.q.get qb.toFin
    (t.grant.acc ≤ acc.toNat ∨ t.grant.streams ≤ qa.toNat ∨ t.grant.streams ≤ qb.toNat →
      exec i s = .next (s.trapped .m t (encode i) .illegal 0)) ∧
    (acc.toNat < t.grant.acc → qa.toNat < t.grant.streams → qb.toNat < t.grant.streams → MatrixReady t w g →
      (¬ HasLease s t → exec i s = .next (waits (withCore s (leaseAsked s)))) ∧
      (HasLease s t → checkOperand c mmaFormats a us s = .ok ((), us) → checkOperand c mmaFormats b us s = .ok ((), us) →
        awaitOperand c a us s = .ok ((), us) → awaitOperand c b us s = .ok ((), us) →
        let moved := if qa = qb then t.stepK qa (32 * ks.toNat) else (t.stepK qa (32 * ks.toNat)).stepK qb (32 * ks.toNat)
        exec i s = .next (withAll s
          (queuedM { moved with counted := true } t.pcM (encode i) w g (.mma
            { qa := a, qb := b, acc, mode, slices := ks.toNat, next := 0, bookA := s.core.bookOf a, bookB := s.core.bookOf b
              order := s.dev.nextUid })
            none ((tileHandle a.base).toList ++ (tileHandle b.base).toList) 0 (some (t.accTile acc)))
          (countedCore s) (countedDevice s t (named s.dev)))))

/-- R207 to R211, R230, R235, R240 to R244, R339: the counted instructions that take their effect at issue. `mzero` clears a
tile; `macc` adds a row to every row of it, rounding each sum; `mdrain` leaves as one posted write of what it drains; `mdrr`
sends the tile while its collective runs and waits for it before, and clears the tile when told. No other memory changes.
In it the model's own reading: logs 18, 35, 55, 83, 94. -/
def Obligations.AccumulatorInstructions : Prop :=
  ∀ (a q e : BitVec 4) (rt : BitVec 2) (fl : BitVec 1) (w g : BitVec 3) (s : State) (t : Task),
    s.Issues .m t → a.toNat < t.grant.acc → CountedReady s t w g → s.held = false →
    Mem.wf s.mem = true → s.dev.migrations = [] → s.dev.poison = [] →
    let us := askedUpds s
    let x := t.q.get q.toFin
    let old := fun i j => accElem s s.mem t a i j
    (Completes (exec (.mzero a w g) s) fun s' =>
      s'.tasks = (s.withTask (queuedM { t with counted := true } t.pcM (encode (.mzero a w g)) w g (.done none) none [] 0
        (some (t.accTile a)))).tasks ∧
      (∀ i j, i < 128 → j < 128 → accElem s s'.mem t a i j = 0) ∧ onlyTile (coreOf s.cur) t a s.mem s'.mem) ∧
    (∀ v : Nat → FVal × Bool, q.toNat < t.grant.streams → x.block = 0 →
      let c := headCtx s .m t (encode (.macc q a w g))
      checkOperand c [0, 1, 2] x us s = .ok ((), us) → awaitOperand c x us s = .ok ((), us) →
      (∀ j, j < 128 → fetchElement c x {} 0 (matrixElem x x.at' x.width 0 j) false us s = .ok (v j, us)) →
      Completes (exec (.macc q a w g) s) fun s' =>
        s'.tasks = (s.withTask (queuedM { t with counted := true } t.pcM (encode (.macc q a w g)) w g (.done none) none
          (tileHandle x.base).toList (if (List.range 128).any fun j => (v j).2 then tFlushed else 0) (some (t.accTile a)))).tasks ∧
        (∀ i j, i < 128 → j < 128 → accElem s s'.mem t a i j =
          rneBits fmtF32 (addVal false (decodeFloat fmtF32 (old i j)) (v j).1)) ∧ onlyTile (coreOf s.cur) t a s.mem s'.mem) ∧
    (∀ spot : Nat → Nat → Option (Dest × Option Dest), q.toNat < t.grant.streams → t.unack ≠ BitVec.allOnes 32 →
      let i : Instr := .mdrain a q e w g
      let c := headCtx s .m t (encode i)
      let set := s.core.epis.get e.toFin
      checkDrain c set x us s = .ok ((), us) →
      (∀ n, tileHandle x.base = some n → s.core.tileState n = 0 ∧ fillsFirst (withCore s (leaseAsked s)) (coreOf s.cur) .m n = false) →
      (∀ i j, i < 128 → j < 128 → drainSpot c x i j us s = .ok (spot i j, us)) →
      let xs := tileCells.filterMap fun ij => (spot ij.1 ij.2).map fun d =>
        { dest := d.1, scale := d.2, value := drainValue set (old ij.1 ij.2), line := if x.transpose then ij.2 else ij.1 : DrainEl }
      let book := (s.core.bookOf x).entries.toList.map BitVec.toNat
      let out := if x.block = 0 then plainWrites set x book xs else blockWrites set x book xs.length xs
      let moved := { t with counted := true, q := t.q.set q.toNat (x.moveBy (drainStep x)) q.isLt }
      let uid := s.dev.nextUid
      let d := named (countedDevice s t s.dev)
      exec i s = .next (withAll s
        (queuedM (if out.1 = [] then moved else counted moved uid) t.pcM (encode i) w g (.done (some uid)) (tileHandle x.base) [] out.2)
        (match tileHandle x.base with
         | some n => (countedCore s).setTile n fun _ => { state := 1, span := BitVec.ofNat 3 x.span }
         | none => countedCore s)
        (if out.1 = [] then d else leavesAll d (originOf c t s.dev) uid none out.1))) ∧
    (let i : Instr := .mdrr a rt e fl w g
     let set := s.core.epis.get e.toFin
     ∀ y : CEntry, routedEntry (headCtx s .m t (encode i)) (t.rt.get rt.toFin) set us s = .ok (y, us) →
      (y.state = .posted ∨ y.state = .ticketed → exec i s = .next (waits (withCore s (leaseAsked s)))) ∧
      (y.state = .done ∨ y.state = .aborted ∨ (y.state = .running ∧ y.info.iterations ≤ y.next) →
        Completes (exec i s) fun s' =>
          s'.tasks = (s.withTask (queuedM { t with counted := true } t.pcM (encode i) w g (.done none))).tasks ∧
          (∀ i j, i < 128 → j < 128 → accElem s s'.mem t a i j = if fl = 1 then 0 else old i j) ∧
          onlyTile (coreOf s.cur) t a s.mem s'.mem) ∧
      (y.state = .running → y.next < y.info.iterations → collEntry s.dev y.name = some y → t.unack ≠ BitVec.allOnes 32 →
        let outs := tileCells.map fun ij => quantOne set.fmt.toNat [] set.saturate (drainValue set (old ij.1 ij.2))
        Completes (exec i s) fun s' =>
          s'.tasks = (s.withTask (queuedM { counted t s.dev.nextUid with counted := true } t.pcM (encode i) w g (.done none) none []
            ((outs.map Prod.snd).foldl (· ||| ·) 0))).tasks ∧
          collEntry s'.dev y.name = some { y with next := y.next + 1 } ∧
          s'.dev.collSends = s.dev.collSends ++ [{
            name := y.name, iter := y.next, left := y.info.chunks, tid := t.tid, uid := s.dev.nextUid
            note := some { eng := .m, pc := t.pcM, word := encode i, index := 0, addr := t.rt.get rt.toFin, cause := .access } }] ∧
          (∀ n, n < y.info.chunks → sent s' (y.info.members.getD (y.info.peer y.info.rank y.next) 0) 2
            (.collChunk y.name y.info.rank y.next n s.dev.devid (BitVec.ofNat 4 (t.rt.get rt.toFin).toNat) 0 y.info.fmt
              (n * y.info.perChunk) (((outs.map Prod.fst).drop (n * y.info.perChunk)).take y.info.perChunk) y.level)) ∧
          (∀ i j, i < 128 → j < 128 → accElem s s'.mem t a i j = if fl = 1 then 0 else old i j) ∧
          onlyTile (coreOf s.cur) t a s.mem s'.mem))

/-- R161, R224 to R229, R235, R238, R250: one slice of an `mma` in its turn combines every element of its tile with the rounded
sum of 32 products, and keeps for its finish whether a value of either operand was flushed. A restored one that has not the
lease asks for it first, and with it takes its place behind the work before.
In it the model's own reading: log 18. -/
def Obligations.MatrixSlices : Prop :=
  ∀ (c : Fin 256) (k : Fin 4) (s : State) (t : Task) (pre post : List MJob) (j : MJob) (m : Mma),
    s.tasks.get (place c k) = some t → t.mjobs = pre ++ j :: post → j.work = .mma m → m.next < m.slices →
    (∀ y ∈ pre, ∀ n, y.work = .mma n → n.slices ≤ n.next) → (∀ n, t.mode ≠ .saving n) →
    let core := s.cores.get c
    (m.parked = true → core.leaseHolder ≠ some k →
      exec (.mmaSlice c.val k.val) s = .next { s with cores := s.cores.set c (core.askLease k s.dev.clock) }) ∧
    (m.parked = true → core.leaseHolder = some k →
      exec (.mmaSlice c.val k.val) s = .next { s with
        tasks := s.tasks.set (place c k) (some { t with mjobs := t.mjobs.map fun y => match y.work with
          | .mma n => if n.parked = true then { y with work := .mma { n with order := s.dev.nextUid, parked := false } } else y
          | _ => y })
        dev := named s.dev }) ∧
    (∀ (xa xb : List (List FVal)) (fa fb : Bool), m.parked = false →
      (∀ o ∈ arrayOrders s c, m.order ≤ o) → Mem.wf s.mem = true → s.dev.migrations = [] → s.dev.poison = [] → s.held = false →
      let x : Ctx := { loc := place c k, eng := .m, pc := j.pc, word := j.word, tag := m.order, back := true }
      fetchSlice x m.qa m.bookA m.next [] s = .ok ((xa, fa), []) → fetchSlice x m.qb m.bookB m.next [] s = .ok ((xb, fb), []) →
      let elem := fun (mem : List Host.Cell) (a b : Nat) => readBits mem (accBit c t m.acc a b) 32
      Completes (exec (.mmaSlice c.val k.val) s) fun s' =>
        (∀ a b, a < 128 → b < 128 →
          let sum := sliceSum (List.zipWith mulVal (xa.getD a []) (xb.getD b []))
          elem s'.mem a b = if m.mode = 0 ∧ m.next = 0 then rneBits fmtF32 sum
            else rneBits fmtF32 (addVal false (decodeFloat fmtF32 (elem s.mem a b)) (if m.mode = 2 then sum.negate else sum))) ∧
        onlyTile c t m.acc s.mem s'.mem ∧
        ∃ t', s'.tasks = s.tasks.set (place c k) (some t') ∧ t'.tflags = t.tflags ∧
          (pre.all (fun y => y != j) → post.all (fun y => y != j) →
            t'.mjobs = pre ++ { j with
              work := .mma { m with next := m.next + 1 }, flags := if fa || fb then j.flags ||| tFlushed else j.flags } :: post) ∧
          t'.s = t.s ∧ t'.v = t.v ∧ t'.q = t.q ∧ t'.tok = t.tok ∧ t'.mode = t.mode ∧ t'.pcM = t.pcM)

/-- R18, R24, R289 to R296, R299 to R301: a copy that passes its checks issues with the streams as they stand, names its
tokens, counts one write, drains its source tile and fills its destination; memory does not change yet. An indexed copy
without a stream for its indices traps.
In it the model's own reading: logs 36, 40. -/
def Obligations.Copies : Prop :=
  (∀ (i : Instr) (f : CopyForm) (s : State) (t : Task), copies i = some f → s.Issues .c t →
    CopyPasses s t (encode i) f →
    (f.kind = .flagged → (f.dst t).flag ≠ 0 → ∃ r, flagSpot (headCtx s .c t (encode i)) (f.dst t).flag [] s = .ok (r, [])) →
    let flag := if f.kind = .flagged ∧ (f.dst t).flag ≠ 0 then some (f.dst t).flag else none
    exec i s = .next (withAll s
      (queuedC (named2 (counted t s.dev.nextUid) f.kr f.kv) t.pcC (encode i) f.w f.g (.copy (f.start s t flag)))
      (f.core s t) (named s.dev))) ∧
  (∀ (i : Instr) (qs qd : BitVec 4) (kr kv w g sc : BitVec 3) (s : State) (t : Task), s.Issues .c t →
    (i = .cpg 15 qd kr kv w g sc ∨ i = .cps qs 15 kr kv w g sc) → exec i s = .next (s.trapped .c t (encode i) .illegal 0))

/-- R24, R103, R302 to R306, R320, R333, R334, R348, R366, R367, R374: the other instructions of the copy engine: the token
that waits, the tile whose state it writes, and the records that it hands on, once they pass their checks.
In it the model's own reading: logs 40, 42, 54, 85. -/
def Obligations.CopyEngineRecords : Prop :=
  ∀ (qs qd : BitVec 4) (kr kv w g : BitVec 3) (n : BitVec 6) (st : BitVec 2) (s : State) (t : Task), s.Issues .c t →
    (t.tileOk n.toNat = false → exec (.ctile n st w g) s = .next (s.trapped .c t (encode (.ctile n st w g)) .perm 0)) ∧
    (CopyReady t w g →
    let base := (t.q.get qs.toFin).base
    let other := (t.q.get qd.toFin).base
    let id := s.dev.nextUid
    let queued := fun (t : Task) (i : Instr) (work : CWork) => queuedC t t.pcC (encode i) w g work
    exec (.ctk w g) s = .next (s.withTask (queued t (.ctk w g) .short)) ∧
    (t.tileOk n.toNat = true → tileWritten s (coreOf s.cur) n.toNat = false →
      (st = 0 → tileRead s (coreOf s.cur) n.toNat 0 = false) →
      exec (.ctile n st w g) s = .next (s.withTaskCore (queued t (.ctile n st w g) .short)
        (s.core.setTile n.toNat fun x => { x with state := st }))) ∧
    (qs.toNat < t.grant.streams → qd.toNat < t.grant.streams →
      (∀ v, ReadsRecord s t (encode (.chl qs qd kr kv w g)) base 16 v →
        let i : Instr := .chl qs qd kr kv w g
        let c := headCtx s .c t (encode i)
        let block := BitVec.ofNat 64 (field v 8 8)
        chainRecordOk v = true → checkBlock c block [] s = .ok ((), []) → checkChainDest c (t.q.get qd.toFin) [] s = .ok ((), []) →
        awaitCopies c [] ({ id := 0, tid := t.tid, qd := t.q.get qd.toFin, block, kr, kv, origin := originOf c t s.dev } : ChainWait).writesAt
          [] s = .ok ((), []) →
        t.chlOut < 8 → t.unack ≠ BitVec.allOnes 32 →
        let t₁ := counted t id
        let t₂ := if kr = kv then t₁.nameToken kv else ((t₁.nameToken kr).meetToken kr false).nameToken kv
        let d := named s.dev
        exec i s = .next (s.withTaskDev (queued { t₂ with chlOut := t.chlOut + 1 } i .handed)
          (sends { d with chainWaits := d.chainWaits ++
              [{ id, tid := t.tid, qd := t.q.get qd.toFin, block, kr, kv, origin := originOf c t d }] }
            d.devid 3 (.chain id { origin := d.devid, core := (coreOf s.cur).val, slot := (slotOf s.cur).val
                                   tid := t.tid, tenant := t.tenant, level := t.level
                                   steps := (List.range (field v 0x10 1)).map fun i => ((chainStep v i).1, BitVec.ofNat 64 (chainStep v i).2.2)
                                   fetch := field v 0x12 2, pointer := BitVec.ofNat 64 (field v 0 8), obtained := d.devid
                                   step := 0, hops := 0 })))) ∧
      (t.level = true → ∀ f dest, pathOf base = 0 → (tileHandle base).isNone = true → (t.q.get qs.toFin).extent.toNat < 64 →
        cmigDest other = some dest →
        let tenant := BitVec.ofNat 6 (t.q.get qs.toFin).extent.toNat
        walk s none tenant .c .read .element (planeOf base) (posOf base) = .ok f → f.zero = false → bits f.fw 27 26 = 0 →
        let i : Instr := .cmig qs qd kr kv w g
        ∃ x : Migration, x.tenant = tenant ∧ x.word = f.fwByte ∧ x.addr = base ∧ x.dest = dest ∧ x.next = 0 ∧ x.forwarding = false ∧
          x.length = frameBytes f ∧ x.tid = t.tid ∧ x.kr = kr ∧ x.kv = kv ∧
          exec i s = .next { s.withTaskDev (queued (named2 t (some kr) (some kv)) i .short)
              { s.dev with migrations := s.dev.migrations ++ [x] } with
            mem := Mem.writeAll s.mem (byteCells f.fwByte 8 (frameMoving f.fw 1 0)), cores := allWoken s.cores }) ∧
      (t.level = true → ∀ v, ReadsRecord s t (encode (.ckey qs qd kr kv w g)) base 8 v → field v 36 28 = 0 →
        let i : Instr := .ckey qs qd kr kv w g
        (32 ≤ other.toNat → exec i s = .next (s.trapped .c t (encode i) .reserved other)) ∧
        (other.toNat = 30 ∨ other.toNat = 31 → exec i s = .next (s.trapped .c t (encode i) .path other)) ∧
        ∀ p : Fin 30, other.toNat = p.val →
          let y := s.dev.ports.get p
          let key : KeySlot := { loaded := true, key := bytesOf 32 (field v 0 32), salt := BitVec.ofNat 32 (field v 32 4), sent := false }
          (y.txSlot ≠ y.rxSlot → exec i s = .next (waits s)) ∧
          (y.txSlot = y.rxSlot → exec i s = .next (s.withTaskDev (queued (metAtOnce t [kr, kv]) i .short)
            { s.dev with ports := s.dev.ports.set p (if y.txSlot = 0 then { y with keyB := key } else { y with keyA := key }) })))) ∧
    (qs.toNat < t.grant.streams →
      (∀ v, ReadsRecord s t (encode (.cpost qs kr kv w g)) base 32 v →
        let i : Instr := .cpost qs kr kv w g
        let r := collFields v
        let name : CName := { tenant := t.tenant, group := r.group, sequence := r.sequence }
        let table := s.dev.coll.map fun e? => e?.bind fun e =>
          if e.tid = t.tid ∧ e.record = base ∧ e.active = false then none else some e
        let bad : Prop := ¬ (collLayoutOk v = true ∧ s.dev.devid ∈ r.members ∧ r.rank = r.rankOf s.dev.devid)
        (bad → exec i s = .next (s.trapped .c t (encode i) .reserved base)) ∧
        (¬ bad → (∀ e ∈ table.toList, ∀ x, e = some x → x.name ≠ name) →
          (let us : List Upd := [.dev { s.dev with coll := table }]
          checkDone (headCtx s .c t (encode i)) r.done us s = .ok ((), us)) →
          ∀ f : Fin 64, table.get f = none → (∀ f' < f, (table.get f').isSome) →
            exec i s = .next (s.withTaskDev (queued (metAtOnce t [kr, kv]) i .short)
              (sends { s.dev with coll := table.set f (some { state := .posted, name, info := r, record := base, tid := t.tid
                                                              loc := s.cur, level := t.level }) }
                r.coordinator 5 (.collPost name r.rank r.digest r.members))))) ∧
      (∀ v, ReadsRecord s t (encode (.cabort qs kv w g)) base 32 v → collFieldsOk v = true → s.dev.devid ∈ (collFields v).members →
        let i : Instr := .cabort qs kv w g
        let r := collFields v
        let d := named s.dev
        exec i s = .next (s.withTaskDev (queued (t.nameToken kv) i (.aborting id))
          (sends { d with cabortWait := d.cabortWait ++ [(id, t.tid, kv)] } r.coordinator 5
            (.abortAsk { tenant := t.tenant, group := r.group, sequence := r.sequence } 2 r.coordinator (some (d.devid, id))))))))

/-- R102, R103, R111, R123, R185, R204, R213, R257, R280, R325 to R327: what a target does with a request on its storage: a posted
write whose every element is granted, once, is made and acknowledged, one with an element that is not is refused whole; a
flag is counted with its data, in its turn at the handler engine; a read is answered, and so is the question for a plane; another
device must pass ingress first; an atomic reaches its handler engine (R280).
In it the model's own reading: logs 6, 16, 22, 30, 88, 101. -/
def Obligations.MemoryTargets : Prop :=
  ∀ (n : Nat) (s : State) (p : Packet), s.dev.rx[n]? = some p → behind s.dev n p.body = false → s.held = false →
    Mem.wf s.mem = true →
    let i : Instr := .memoryRequest n
    let gone := takenOut s.dev n
    let granted := fun (o : Origin) (w : Wr) => bitsGranted s o.tenant o.level .write w.bit w.width
    let refuses := fun (uid : Nat) (o : Origin) (k : Cause) (a : Word) (x : BitVec 16) =>
      exec i s = .next (onDev s (sends gone o.dev 4 (.refuse uid o.tid (noteOf o k a x))))
    let replies := fun (uid : Nat) (o : Origin) (a : Word) (r : Reply) =>
      exec i s = .next (onDev s (sends gone o.dev 4 (.reply uid o.tid o.eng a r)))
    let checked := fun (uid : Nat) (o : Origin) =>
      s.dev.granted.contains (o.dev, uid) || (o.dev == s.dev.devid && s.dev.tskSeen.contains uid)
    let performed := fun (uid : Nat) (o : Origin) => { gone with
      tskSeen := if o.dev = s.dev.devid then s.dev.tskSeen.erase uid else s.dev.tskSeen }
    (∀ uid o ws, p.body = .store uid o ws none → s.dev.flagsAsked.contains (o.dev, uid) = false →
      (checked uid o = true ∨ (∀ w ∈ ws, granted o w = true) →
        Serves i s (writtenAt s.dev.migrations s.mem ws) (sends (performed uid o) o.dev 4 (.ack uid o.tid))) ∧
      (∀ pre w post, checked uid o = false → ws = pre ++ w :: post → (∀ x ∈ pre, granted o x = true) → granted o w = false →
        refuses uid o .access w.addr w.index)) ∧
    (∀ uid o ws a b, p.body = .store uid o ws (some ⟨a, some b⟩) → s.dev.flagsAsked.contains (o.dev, uid) = false →
      (∀ w ∈ ws, granted o w = true) → engineTurn s.dev b (atomKey s.dev o b) = true →
      (∀ k, atomicRefused s o b 0 = some k → refuses uid o k a 0) ∧
      (atomicRefused s o b 0 = none → b % 8 = 0 → s.dev.migrations = [] →
        let m := writtenAt [] s.mem ws
        let m' := Mem.writeBits m (8 * b) 64 ((readBits m (8 * b) 64 + 1) % 2 ^ 64)
        Serves i s m' (sends ((arrived gone m m').servedAt b (atomKey s.dev o b)) o.dev 4 (.ack uid o.tid)))) ∧
    (∀ uid o w rest, p.body = .aliasStore uid o (w :: rest) →
      (∀ k, blockRefused s o w.ref = some k → refuses uid o k w.addr w.index) ∧
      (rest = [] → blockRefused s o w.ref = none → s.dev.migrations = [] →
        let b := w.ref
        let codes := (List.range b.block).map fun i => readBits s.mem (b.bit + i * b.width) b.width
        let out := aliasWriteBlock b.fmt.toNat b.scaleFmt.toNat (b.book.toList.map BitVec.toNat) b.ascale.toNat codes
          (readBits s.mem b.scaleBit b.scaleWidth) w.inBlock w.value.toNat
        Serves i s (Mem.writeBits ((List.range b.block).foldl (fun m i => Mem.writeBits m (b.bit + i * b.width) b.width (out.1.getD i 0)) s.mem)
          b.scaleBit b.scaleWidth out.2) (sends gone o.dev 4 (.ack uid o.tid)))) ∧
    (∀ uid o byte slot h4 h5 posted fl a, p.body = .atomic uid o byte slot h4 h5 posted fl a → p.reached = none →
      exec i s = .next (if mayReach s.dev byte (atomKey s.dev o byte) then
        onDev s { s.dev with rx := s.dev.rx.set n { p with reached := some s.dev.clock } } else s)) ∧
    (∀ uid o a want, p.body = .read uid o a want →
      (∀ w r, want = .plane w r → replies uid o a (.value (if planeThere s o.tenant a w r then 1 else 0) 1 false)) ∧
      (ingressGrants s o.tenant o.level .read p.src = false → (∀ w r, want ≠ .plane w r) → replies uid o a (.refused .access)) ∧
      (ingressGrants s o.tenant o.level .read p.src = true →
        (∀ k, (∀ w r, want ≠ .plane w r) → locateFor s o .read want a = .error (.cause k) → replies uid o a (.refused k)) ∧
        (∀ bit w, (∀ w r, want ≠ .plane w r) → locateFor s o .read want a = .ok (bit, w, false) →
          let b := readPlace s.dev.migrations bit
          replies uid o a (if bitsGranted s o.tenant o.level .read bit w then
            .value (BitVec.ofNat 64 (readBits s.mem b w)) w (rangePoisoned s.dev.poison (b / 8) ((b % 8 + w + 7) / 8))
            else .refused .access)))) ∧
    (∀ uid o a want v x ws, p.body = .write uid o ((a, want, v, x) :: ws) none →
      (ingressGrants s o.tenant o.level .write p.src = false → refuses uid o .access a x) ∧
      (ingressGrants s o.tenant o.level .write p.src = true →
        (∀ k a' x', translateAll s o ((a, want, v, x) :: ws) [] s = .ok (.error (k, a', x'), []) → refuses uid o k a' x') ∧
        (∀ here, translateAll s o ((a, want, v, x) :: ws) [] s = .ok (.ok here, []) → (∀ w ∈ here, granted o w = true) →
          s.dev.flagsAsked.contains (o.dev, uid) = false →
          Serves i s (writtenAt s.dev.migrations s.mem here) (sends (performed uid o) o.dev 4 (.ack uid o.tid))))) ∧
    (∀ uid o slot h4 h5 posted a, p.body = .remoteAtomic uid o slot h4 h5 posted a →
      (∀ byte, flagGranted s.dev o uid = some byte → exec i s = .next (onDev s { s.dev with
        flagsGranted := s.dev.flagsGranted.filter fun x => ¬ (x.1 = o.dev ∧ x.2.1 = uid)
        remoteParts := if o.dev = s.dev.devid then s.dev.remoteParts.eraseP fun x => x.uid == uid else s.dev.remoteParts
        rx := s.dev.rx.set n { p with body := .atomic uid o byte slot h4 h5 posted true a } })) ∧
      (flagGranted s.dev o uid = none → ingressGrants s o.tenant o.level .atomic p.src = true → ∀ bit w z, locateFor s o .atomic (.bytes 8) a = .ok (bit, w, z) →
      exec i s = .next (onDev s { s.dev with rx := s.dev.rx.set n { p with body := .atomic uid o (bit / 8) slot h4 h5 posted false a } }))) ∧
    (∀ uid o a, p.body = .flagAsk uid o a → ingressGrants s o.tenant o.level .atomic p.src = true →
      ∀ bit w z, locateFor s o .atomic (.bytes 8) a = .ok (bit, w, z) →
      exec i s = .next (onDev s (match atomicRefused s o (bit / 8) 0 with
        | some k => sends gone p.src 4 (.flagRefuse uid o.dev (noteOf o k a 0))
        | none => sends { gone with flagsGranted := s.dev.flagsGranted ++ [(o.dev, uid, bit / 8)] } p.src 4 (.flagGrant uid o.dev))))

/-- R124, R278 to R287: a handler engine runs the handler of its slot on the four words of the granule and answers; it
refuses what its tables, its slot and poison refuse, unless it has been granted before; those that reach it go by clock, port and
core or device, and one that posts a management command has it arrive. A program that keeps R86 goes into a tenant slot that is empty or the
tenant's own; the standard handlers do what R285 says, in each of the 24 slots.
In it the model's own reading: logs 16, 38, 39, 101. -/
def Obligations.Atomics : Prop :=
  (∀ (n : Nat) (s : State) (p : Packet) (uid : Nat) (o : Origin) (byte : Nat) (slot : BitVec 5) (h4 h5 : Word) (posted fl : Bool)
      (a : Word), s.dev.rx[n]? = some p → p.body = .atomic uid o byte slot h4 h5 posted fl a → behind s.dev n p.body = false →
    atomComes s.dev n p o byte → s.held = false →
    let gone := takenOut s.dev n
    let tells := fun (d : Device) (r : Reply) (k : Cause) (done : Bool) => sends d o.dev 4 (
      if posted then (if done then .ack uid o.tid else .refuse uid o.tid (noteOf o k a 0)) else .reply uid o.tid o.eng a r)
    (∀ k, fl = false → atomicRefused s o byte slot.toNat = some k → exec (.atomic n) s = .next (onDev s (tells gone (.refused k) k false))) ∧
    (fl = true ∨ atomicRefused s o byte slot.toNat = none → s.dev.migrations = [] → Mem.wf s.mem = true →
      let place := fun (x : Nat) => byte / 32 * 32 + (byte + 8 * x) % 32
      let ws : Vector Word 4 := .ofFn fun x => BitVec.ofNat 64 (readBits s.mem (8 * place x.val) 64)
      let out := handle s.dev slot.toNat ws h4 h5
      let m := (List.finRange 4).foldl (fun m x => Mem.writeBits m (8 * place x.val) 64 (out.1.get x).toNat) s.mem
      Serves (.atomic n) s m (tells (arrived gone s.mem m) (.value out.2 64 false) .access true))) ∧
  (∀ (slot : BitVec 5) (tenant : BitVec 6) (program : List (BitVec 16)) (s : State), 24 ≤ slot.toNat →
    let x := tenantSlot s.dev slot.toNat
    (handlerOk program = true → (x.owner = none ∨ x.owner = some tenant) →
      ∃ hs, exec (.handlerSlotLoad slot tenant program) s = .next (onDev s { s.dev with handlers := hs }) ∧
        ∀ y : Fin 8, hs.get y = if y.val + 24 = slot.toNat then { program, owner := some tenant } else s.dev.handlers.get y) ∧
    (handlerOk program = false ∨ (x.owner ≠ none ∧ x.owner ≠ some tenant) →
      exec (.handlerSlotLoad slot tenant program) s = .next s)) ∧
  (∀ (d : Device) (ws : Vector Word 4) (h4 h5 : Word),
    let w := ws.get 0
    let alone := fun (v : Word) => (ws.set 0 v, w)
    let lanes := fun (slot n : Nat) (f : Nat → Nat → Nat) => ∃ v, handle d slot ws h4 h5 = alone v ∧
      ∀ i, i < 64 / n → laneAt n v i = f (laneAt n w i) (laneAt n h4 i) % 2 ^ n
    let sum := fun (fm : FFmt) (x y : Nat) => rneBits fm (addVal false (decodeFloat fm x) (decodeFloat fm y))
    let signed := fun (x : Nat) => (BitVec.ofNat 32 x).toInt
    let wide := fun (n : Nat) => (ws.get 0).toNat + (ws.get 1).toNat * 2 ^ 64 + (if n = 3 then (ws.get 2).toNat * 2 ^ 128 else 0) +
      h4.toNat + h5.toNat * 2 ^ 64
    lanes 1 32 (fun x y => x + y) ∧ lanes 11 32 (sum fmtF32) ∧ lanes 21 16 (sum fmtBF16) ∧
    lanes 12 32 (fun x y => (floatOp .max fmtF32 .rne 0 x y).1) ∧ lanes 13 32 (fun x y => (floatOp .min fmtF32 .rne 0 x y).1) ∧
    lanes 22 32 (fun x y => (BitVec.ofInt 32 (max (-2147483648) (min 2147483647 (signed x + signed y)))).toNat) ∧
    handle d 14 ws h4 h5 = ((ws.set 0 (BitVec.ofNat 64 (wide 2))).set 1 (BitVec.ofNat 64 (wide 2 / 2 ^ 64)), w) ∧
    (let v := wide 3 + (if h5.toInt < 0 then 2 ^ 192 - 2 ^ 128 else 0)
     handle d 15 ws h4 h5 = (((ws.set 0 (BitVec.ofNat 64 v)).set 1 (BitVec.ofNat 64 (v / 2 ^ 64))).set 2
      (BitVec.ofNat 64 (v / 2 ^ 128)), w)) ∧
    (∃ v : Word, handle d 18 ws h4 h5 = alone v ∧ ∀ i, i < 64 → v.getLsbD i = (w.getLsbD i || i == h4.toNat % 64)) ∧
    (∃ v : Word, handle d 19 ws h4 h5 = alone v ∧ ∀ i, i < 64 → v.getLsbD i = (w.getLsbD i && i != h4.toNat % 64)) ∧
    handle d 20 ws h4 h5 = (if w = h4 then (ws.set 0 (BitVec.ofNat 64 (w.toNat + 1))).set 1 h5 else ws, w) ∧
    handle d 23 ws h4 h5 = ((ws.set 0 (BitVec.ofNat 64 (w.toNat + h4.toNat))).set 1
      (BitVec.ofInt 64 (max (ws.get 1).toInt h5.toInt)), w) ∧
    handle d 0 ws h4 h5 = alone (BitVec.ofNat 64 (w.toNat + h4.toNat)) ∧
    handle d 2 ws h4 h5 = alone (w &&& h4) ∧ handle d 3 ws h4 h5 = alone (w ||| h4) ∧ handle d 4 ws h4 h5 = alone (w ^^^ h4) ∧
    handle d 5 ws h4 h5 = alone h4 ∧ handle d 6 ws h4 h5 = alone (if w = h4 then h5 else w) ∧
    handle d 7 ws h4 h5 = alone (BitVec.ofInt 64 (max w.toInt h4.toInt)) ∧
    handle d 8 ws h4 h5 = alone (BitVec.ofInt 64 (min w.toInt h4.toInt)) ∧
    handle d 9 ws h4 h5 = alone (BitVec.ofNat 64 (max w.toNat h4.toNat)) ∧
    handle d 10 ws h4 h5 = alone (BitVec.ofNat 64 (min w.toNat h4.toNat)) ∧
    handle d 16 ws h4 h5 = alone (if h4.toNat ≤ w.toNat then 0 else BitVec.ofNat 64 (w.toNat + 1)) ∧
    handle d 17 ws h4 h5 = alone (if h4.toNat ≤ w.toNat then BitVec.ofNat 64 (w.toNat - h4.toNat) else w))

/-- R111, R133, R269, R294, R340, R376, R379: what comes back to an originator: an answer reaches the instruction that asked; an
acknowledgement with which every part of a write is performed counts it off; a refusal traps a task of the ready set with
what the refused element was, at a boundary of the engine, and one that is being saved or is saved keeps it.
In it the model's own reading: logs 16, 45, 58. -/
def Obligations.AnswersAndRefusals : Prop :=
  ∀ (n : Nat) (s : State) (p : Packet) (l : Fin 1024) (t : Task), s.dev.rx[n]? = some p → inOrder s.dev n p → standsAt s l t →
    let gone := takenOut s.dev n
    let put := fun (t' : Task) => { s with dev := gone, tasks := s.tasks.set l (some t') }
    (∀ uid e a r q, p.body = .reply uid t.tid e a r → (t.asked.find? fun x => x.uid == uid) = some q →
      exec (.response n) s = .next (put { t with
        asked := t.asked.filter fun x => x.uid != uid
        answers := t.answers ++ [{ eng := q.eng, tag := q.tag, addr := q.addr, want := q.want, reply := r }] })) ∧
    (∀ b phase fl ok swap, p.body = .barAnswer t.tid b phase fl ok swap → t.held = .barAsked b →
      exec (.response n) s = .next { put { t with held := .barAnswer b phase fl ok } with
        dev := if heldHere s.dev b then gone else { gone with
          domPhases := (b.number, phase, fl, swap) :: s.dev.domPhases.filter fun x => x.1 != b.number } }) ∧
    (∀ uid dev, p.body = .flagGrant uid dev →
      exec (.response n) s = .next (onDev s { gone with
        granted := s.dev.granted ++ [(dev, uid)], flagsAsked := s.dev.flagsAsked.erase (dev, uid) })) ∧
    (∀ uid, p.body = .ack uid t.tid → p.src = s.dev.devid →
      (partsLeft gone uid = true → exec (.writeAck n) s = .next (onDev s gone)) ∧
      (partsLeft gone uid = false → t.isCopy uid = false → uid ∈ t.uids →
        exec (.writeAck n) s = .next (put { t with unack := t.unack - 1, uids := t.uids.erase uid, postUids := t.postUids.erase uid }))) ∧
    (∀ uid note, p.body = .refuse uid t.tid note → t.isCopy uid = false → uid ∈ t.uids →
      let cleared := { gone with rx := gone.rx.filter fun q => partUid s.dev.devid q.body != some uid
                                 remoteParts := s.dev.remoteParts.filter fun x => x.uid != uid }
      let t₁ := { t with unack := t.unack - 1, uids := t.uids.erase uid, postUids := t.postUids.erase uid }
      (t.takesRefusal note.eng = false → exec (.postedRefusal n) s = .next s) ∧
      (t.mode = .ready → t.takesRefusal note.eng = true → ∃ t', exec (.postedRefusal n) s = .next { s with dev := cleared, tasks := s.tasks.set l (some t') } ∧
        t'.mode = .saving 2 ∧ t'.trapcause.toNat = note.cause.code + 256 * engNum note.eng + (if t.level then 1024 else 0) ∧
        t'.trappc = note.pc ∧ t'.trapaddr = note.addr ∧ t'.trapword.toNat = note.word.toNat + 2 ^ 32 * note.index.toNat ∧
        t'.s = t.s ∧ t'.uids = t₁.uids ∧ t'.unack = t₁.unack) ∧
      (∀ c, t.mode = .saving c → exec (.postedRefusal n) s =
        .next { s with dev := cleared, tasks := s.tasks.set l (some { t₁ with refusals := t.refusals ++ [note] }) }))

/-- R20, R24, R27, R28, R167, R169, R228, R232, R235, R241, R246: the first unfinished instruction of an engine finishes: what it
loaded is written, its tile becomes ready, once those that a copy read are freed, its tokens are given, and those of what a
save completed behind it, its bits of TFLAGS set; results in flight land; the lease
passes from an idle holder, whose restored `mma` takes its turn before; row groups come on and go off one by one.
In it the model's own reading: logs 2, 18, 28, 63. -/
def Obligations.FinishLeaseAndRamp : Prop :=
  ∀ (c : Fin 256) (k : Fin 4) (s : State) (t : Task), s.tasks.get (place c k) = some t →
    let core := s.cores.get c
    (∀ j js, t.mjobs = j :: js → (∀ m, j.work = .mma m → m.slices ≤ m.next) →
      (∀ uid, j.work = .done (some uid) → performed s.dev uid = true) →
      let core₁ := match j.work with
        | .book b x => { core with books := core.books.set b.toNat x b.isLt }
        | .epi e x => { core with epis := core.epis.set e.toNat x e.isLt }
        | _ => core
      let core₂ := match j.tile with
        | some x => core₁.setTile x fun y => { y with state := 2 }
        | none => core₁
      let t' := (j.gives :: j.carry).foldl (fun t m => t.redeemTokens .m m) { t with mjobs := js, markM := t.markM - 1 }
      exec (.instructionFinish c.val k.val .m) s = .next { s with
        cores := s.cores.set c core₂, tasks := s.tasks.set (place c k) (some { t' with tflags := t.tflags ||| j.flags }) }) ∧
    (∀ j js, t.cjobs = j :: js → copyOf j = none → (∀ id, j.work ≠ .aborting id) →
      let t' := (j.gives :: j.carry).foldl (fun t m => t.redeemTokens .c m) { t with cjobs := js, markC := t.markC - 1 }
      exec (.instructionFinish c.val k.val .c) s = .next (onTask s (place c k) { t' with tflags := t.tflags ||| j.flags })) ∧
    (∀ j js x, t.cjobs = j :: js → copyOf j = some x → x.readSet = true → x.writeSet = true →
      (x.dead = true → performed s.dev x.uid = true) → x.srcTiles = [] →
      let t' := (j.gives :: j.carry).foldl (fun t m => t.redeemTokens .c m) { t with cjobs := js, markC := t.markC - 1 }
      exec (.instructionFinish c.val k.val .c) s = .next { s with
        cores := (match x.dstTile with | some y => s.cores.set c (core.setTile y fun z => { z with state := 2 }) | none => s.cores)
        tasks := s.tasks.set (place c k) (some { t' with tflags := t.tflags ||| j.flags }) }) ∧
    ((∃ x ∈ t.pending, x.due ≤ t.vcount) → exec (.vectorResultLand c.val k.val) s = .next (onTask s (place c k) t.landDue)) ∧
    (∀ h, core.leaseHolder = some h → core.leaseWaiting ≠ 0 → core.leaseClock + 4096 ≤ s.dev.clock →
      ∃ core', exec (.leaseIdle c.val) s = .next (onCore (holderSettled s c) c core') ∧ core'.leaseCount = 0 ∧
        ∀ x : Fin 4, (core.leaseWaiting.getLsbD x.val = true ∧ x ≠ h ∧
            ∀ y : Fin 4, core.leaseWaiting.getLsbD y.val = true → y ≠ h → (x.val + 4 - h.val) % 4 ≤ (y.val + 4 - h.val) % 4) →
          core'.leaseHolder = some x) ∧
    (core.ramp = .up → exec (.rampInterval c.val) s = .next (onCore s c
      { core with groupsOn := min 16 (core.groupsOn + 1), ramp := if 15 ≤ core.groupsOn then .steady else .up })) ∧
    (core.ramp = .down → exec (.rampInterval c.val) s = .next (onCore s c
      { core with groupsOn := core.groupsOn - 1, ramp := if core.groupsOn ≤ 1 then .steady else .down }))

/-- R24, R231, R260, R263, R289, R292 to R296, R299: a chunk of a copy passes its checks and leaves as part of its one posted
write; the last one read sets the token of its reads and empties its draining tiles, the last one performed that of its
writes, and a `cpf` first counts its flag, whose place is then found; in exposed mode a clash of a chunk that would write with
the matrix engine ends the copy with SCHED.
In it the model's own reading: logs 40, 60, 87, 99, 102. -/
def Obligations.CopyProgress : Prop :=
  ∀ (c : Fin 256) (k : Fin 4) (n : Nat) (s : State) (t : Task) (j : CJob) (x : Copy), s.tasks.get (place c k) = some t →
    t.cjobs[n]? = some j → copyOf j = some x →
    (∀ m y, m ≠ n → (t.cjobs[m]?).bind copyOf = some y → y.uid ≠ x.uid) →
    let ctx : Ctx := { loc := place c k, eng := .c, pc := j.pc, word := j.word, tag := x.uid, back := true }
    (∀ ds fl, x.dead = false → x.next * x.perChunk < x.count → performed s.dev x.uid = true → t.copyBehind s.dev n x = false →
      (∀ m, t.mode ≠ .saving m) → (∀ b, x.kind ≠ .add b) → chunkWork ctx x true [] s = .ok (.ok (.post ds fl), []) →
      ∃ t', exec (.copyChunk c.val k.val n false) s = .next { s with
          dev := leavesAll s.dev (originOf ctx t s.dev) x.uid none ds, tasks := s.tasks.set (place c k) (some t') } ∧
        t'.cjobs = t.cjobs.set n { j with
          work := .copy { x with next := x.next + 1, allRead := decide (x.count ≤ (x.next + 1) * x.perChunk) }
          flags := j.flags ||| fl } ∧
        t'.k = t.k ∧ t'.s = t.s ∧ t'.unack = t.unack ∧ t'.mode = t.mode) ∧
    (∀ a, x.dead = false → x.next * x.perChunk < x.count → performed s.dev x.uid = true →
      t.copyBehind s.dev n x = false → (∀ m, t.mode ≠ .saving m) → x.clashAt s (place c k) t = some a →
      (x.exposed = false → exec (.copyChunk c.val k.val n true) s = exec (.copyChunk c.val k.val n false) s) ∧
      (∀ out, x.exposed = true → chunkWork ctx x false [] s = .ok (.ok out, []) →
      ∃ t', exec (.copyChunk c.val k.val n true) s = .next (onTask s (place c k) t') ∧ t'.mode = .saving 2 ∧
        t'.trapcause.toNat = 0x0A + 256 * 3 + (if t.level then 1024 else 0) ∧ t'.trappc = j.pc ∧ t'.trapaddr = a ∧
        ∃ y, (t'.cjobs[n]?).bind copyOf = some y ∧ y.dead = true ∧ y.readSet = true ∧ y.writeSet = true)) ∧
    (let frees := x.srcTiles.filter fun m => !tileRead s c m x.uid
     (x.allRead = true ∨ x.count ≤ x.next * x.perChunk) → x.readSet = false ∨ frees ≠ [] →
      ∃ t', exec (.copyReadsPerformed c.val k.val n) s = .next { s with
          cores := s.cores.set c (frees.foldl (fun y m => y.setTile m fun z => if z.state = 3 then { z with state := 0 } else z) (s.cores.get c))
          tasks := s.tasks.set (place c k) (some t') } ∧
        t'.cjobs = t.cjobs.set n { j with work := .copy { x with
          readSet := true, srcTiles := x.srcTiles.filter fun m => !frees.contains m } } ∧
        (x.readSet = true → t'.k = t.k) ∧
        (∀ r, x.readSet = false → x.kr = some r → x.kr ≠ x.kv → t'.k.get r.toFin = { t.k.get r.toFin with
          set := (t.k.get r.toFin).set || decide ((t.k.get r.toFin).pend ≤ 1), pend := (t.k.get r.toFin).pend - 1 }) ∧
        (x.readSet = false → x.kr = x.kv → x.writeSet = false → t'.k = t.k)) ∧
    ((x.allRead = true ∨ x.count ≤ x.next * x.perChunk) → x.writeSet = false → performed s.dev x.uid = true →
      (∀ a b, x.flag = some a → x.flagSent = false → (∀ m, t.mode ≠ .saving m) →
        flagSpot ctx a [] s = .ok ({ addr := a, byte := b }, []) →
        exec (.copyWritesPerformed c.val k.val n) s = .next { s with
          dev := (match b with
            | some b => sends s.dev s.dev.devid 1 (.atomic x.uid (originOf ctx t s.dev) b 0 1 0 true false a)
            | none => sends { s.dev with remoteParts := s.dev.remoteParts ++ [{ uid := x.uid, tid := t.tid, eng := .c, spans := [(a, 8)] }] }
                (BitVec.ofNat 8 (deviceOf s.dev a)) 1 (.remoteAtomic x.uid (originOf ctx t s.dev) 0 1 0 true a))
          tasks := s.tasks.set (place c k) (some { t with cjobs := t.cjobs.set n { j with work := .copy { x with flagSent := true } } }) }) ∧
      ((x.flag = none ∨ x.flagSent = true) →
        ∃ t', exec (.copyWritesPerformed c.val k.val n) s = .next (onTask s (place c k) t') ∧
          t'.cjobs = t.cjobs.set n { j with work := .copy { x with writeSet := true } } ∧
          (x.uid ∈ t.uids → t'.unack = t.unack - 1 ∧ t'.uids = t.uids.erase x.uid) ∧
          (∀ r, x.kv = some r → x.kr ≠ x.kv → t'.k.get r.toFin = { t.k.get r.toFin with
            set := (t.k.get r.toFin).set || decide ((t.k.get r.toFin).pend ≤ 1), pend := (t.k.get r.toFin).pend - 1 })))

/-- R26, R126, R136, R256, R273, R276, R277, R380: a sleeper whose word has changed, or whose time is over, wakes with its
status, and one whose entry was taken back takes another or wakes with 1;
a quiesce post ends its phase once its markers and writes are done; a task that has waited long on a barrier that swaps is
saved with its group; a task that stalls to the limit traps.
In it the model's own reading: logs 10, 23, 45. -/
def Obligations.WaitingEnds : Prop :=
  ∀ (c : Fin 256) (k : Fin 4) (s : State) (t : Task), s.tasks.get (place c k) = some t →
    let core := s.cores.get c
    let l := place c k
    (∀ n m word d a cmp f block ends v b, core.monitors[n]? = some m → m.slot = k → t.mode = .asleep →
      t.held = .waita word d a cmp f block ends →
      ∀ us, waitRead { loc := l, eng := .s, pc := t.pcS, word } a [] s = .ok ((v, b), us) →
      let core := pastLines { s with cur := l } t a
      let left : Core := { core with monitors := core.monitors.eraseIdx n }
      let wakes := fun (status : Word) => .next { s with
        cores := s.cores.set c left
        tasks := s.tasks.set l (some (({ t with mode := .ready, held := .none }.writeS d status).goto .s (t.pcS + 4))) }
      (m.woken = true → waitHolds f v cmp = false → exec (.monitorWake c.val n) s = wakes 0) ∧
      (m.woken = true → waitHolds f v cmp = true → m.reclaimed = false →
        exec (.monitorWake c.val n) s = .next { s with
          cores := s.cores.set c { core with monitors := core.monitors.set n { m with woken := false, block := b } }
          tasks := s.tasks.set l (some { t with held := .waita word d a cmp f b ends }) }) ∧
      (m.woken = true → waitHolds f v cmp = true → m.reclaimed = true → exec (.monitorWake c.val n) s =
        if monitorFree left s.dev.monitorsKept t.level then .next { s with
          cores := s.cores.set c { left with monitors := left.monitors ++ [{ slot := k, block := b, sup := t.level }] }
          tasks := s.tasks.set l (some { t with held := .waita word d a cmp f b ends }) }
        else wakes 1) ∧
      (ends ≠ 0 → ends ≤ s.dev.clock → exec (.waitaTimeout c.val n) s = wakes (if waitHolds f v cmp then 2 else 0))) ∧
    (t.posted = true → t.markM = 0 → t.markC = 0 → t.postUids = [] →
      exec (.phaseEnd c.val k.val) s = .next (onTask s l { t with phaseEnd := true, posted := false })) ∧
    (∀ b phase sync since, t.mode = .atBarrier → t.held = .barrier b phase sync since →
      swapOf s b = true → phaseOf s b = phase → since + 50000 ≤ s.dev.nanos →
      ∃ ts, exec (.swapOnWait c.val k.val) s = .next { s with tasks := ts } ∧ ∀ x, ts.get x = (s.tasks.get x).map fun z =>
        let y := if x = l then { z with swapped := true } else z
        if coreOf x = c ∧ y.gid = t.gid then
          match y.mode with
          | .saving _ => y
          | _ => { y with mode := .saving 4 }
        else y) ∧
    (∀ e w, t.mode = .ready → s.dev.watchdog ≠ 0 → s.dev.watchdog ≤ t.stall → firstHead s l t = some (e, w) →
      ∃ t', exec (.watchdog c.val k.val) s = .next (onTask s l t') ∧ t'.mode = .saving 2 ∧
        t'.trapcause.toNat = 0x12 + 256 * engNum e + (if t.level then 1024 else 0) ∧ t'.trappc = t.pc e ∧ t'.trapaddr = 0 ∧
        t'.trapword.toNat = w.toNat ∧ t'.s = t.s)

/-- R37, R133, R134, R269 to R271, R273: a barrier of this device serves a request in its turn: an arrival counts, gathers the
task's flags, and as the expected one changes the phase and publishes the gathered flags, which the domain's other devices
hear of its barrier; `init` sets the count expected; the answer is the phase before; a task that may not use the barrier is
told so, and nothing changes.
In it the model's own reading: logs 45, 50. -/
def Obligations.BarrierArrivals : Prop :=
  ∀ (n : Nat) (s : State) (p : Packet) (b : BarRef) (op : BarOp) (tid : Nat) (back : BitVec 8) (tenant : BitVec 6) (level : Bool)
    (time : BarTime), s.dev.rx[n]? = some p → barComes s.dev n b op time p.src → p.body = .barrier b op tid back tenant level time → heldHere s.dev b = true →
    barrierExists b.level b.unit b.number = true →
    let x := barrierAt s b
    let answered := fun (ok : Bool) => sends (takenOut s.dev n) back 5 (.barAnswer tid b x.phase x.completed ok x.swap)
    (mayUse level tenant x = false → (∀ f h, op ≠ .arrive f (some h)) → exec (.barrierArrival n) s = .next (onDev s (answered false))) ∧
    (∀ f h, mayUse level tenant x = false → op = .arrive f (some h) →
      exec (.barrierArrival n) s = .next (onDev s (sends (takenOut s.dev n) back 5 (.doneRefused h)))) ∧
    (mayUse level tenant x = true → s.held = false →
      (op = .read → exec (.barrierArrival n) s = .next (onDev s (answered true))) ∧
      (∀ m, op = .init m → Completes (exec (.barrierArrival n) s) fun s' =>
        s'.mem = s.mem ∧ s'.tasks = s.tasks ∧ barrierAt s' b = { x with expected := m, arrivals := 0, gathered := 0 } ∧
        (∀ b', b' ≠ b → barrierExists b'.level b'.unit b'.number = true → barrierAt s' b' = barrierAt s b') ∧
        s'.dev.rx = (answered true).rx ∧ s'.dev.netOut = (answered true).netOut ∧ s'.dev.netHeld = (answered true).netHeld) ∧
      (∀ f h, op = .arrive f h → Completes (exec (.barrierArrival n) s) fun s' =>
        s'.mem = s.mem ∧
        barrierAt s' b = (if x.expected.toNat ≤ x.arrivals.toNat + 1 then
          { x with phase := x.phase + 1, completed := x.gathered ||| f, arrivals := 0, gathered := 0 }
          else { x with arrivals := x.arrivals + 1, gathered := x.gathered ||| f }) ∧
        (∀ l t, s.tasks.get l = some t → t.mode = .atBarrier → ∃ t', s'.tasks.get l = some t' ∧
          (∀ ph sy si, t.held = .barrier b ph sy si → x.expected.toNat ≤ x.arrivals.toNat + 1 → t'.mode = .ready) ∧
          t'.s = t.s ∧ t'.held = t.held) ∧
        let before := if h = none then answered true else takenOut s.dev n
        let told := if x.arrivals.toNat + 1 < x.expected.toNat ∨ b.level ≠ 5 then before
          else tells before (otherDevices s.dev) 5 (.barPhase b (x.phase + 1) (x.gathered ||| f) x.swap)
        s'.dev.rx = told.rx ∧ s'.dev.netOut = told.netOut ∧ s'.dev.netHeld = told.netHeld))

/-- R32, R35, R292, R293, R350 to R353: how a kernel goes through its scoreboard entry: handed over, examined in the order of
acceptance, when the devices of its dependences are asked, waiting for these, staging its streams chunk by chunk, ready in the
queue of its priority, and reported done by its shadows; a dependence that failed or a chunk that faults makes it failed, once
the notice of that finds room.
In it the model's own reading: logs 52, 62, 71. -/
def Obligations.KernelScoreboard : Prop :=
  ∀ (e : Fin 256) (k : Kernel) (s : State),
    (∀ n p l handle, s.dev.rx[n]? = some p → inOrder s.dev n p → p.body = .handover l handle → e.val < 64 →
      s.dev.kernels.get e = none → (∀ e' < e, s.dev.kernels.get e' ≠ none) →
      exec (.launchHandover n) s = .next (onDev s (putEntry { named (takenOut s.dev n) with launched := true } e
        (some { state := .posted, handle, serial := BitVec.ofNat 32 (handle.toNat / 2 ^ 16), launch := l, order := s.dev.nextUid, shadow := true })))) ∧
    (kernelIn s e k →
      (k.state = .posted → (∀ e' k', kernelIn s e' k' → e'.val / 64 = e.val / 64 → k'.state = .posted → e' ≠ e → k.order < k'.order) →
        exec (.scoreboardExamine (e.val / 64)) s = .next (onDev s
          ((k.launch.deps.filter fun h => h.toNat % 256 ≠ s.dev.devid.toNat).foldl
            (fun d h => sends d (BitVec.ofNat 8 (h.toNat % 256)) 5 (.depAsk h)) (putEntry s.dev e (some { k with state := .waiting }))))) ∧
      (k.state = .waiting →
        ∀ remoteMet remoteFailed, let out := exec (.dependenceMet (e.val / 64) (e.val % 64) remoteMet remoteFailed) s
        let ready := enters (putEntry s.dev e (some { k with state := .ready })) k.launch.prio (.kernel e.val s.dev.nanos)
        let ended := { k with state := .done, localDone := true }
        ((∀ h ∈ k.launch.deps, overHere s.dev h = some false) →
          (k.localDone = true → out = .next (onDev s (settled s.dev e ended))) ∧
          (k.localDone = false → k.launch.residents = [] → out = .next (onDev s ready)) ∧
          (k.localDone = false → k.launch.residents ≠ [] → out = .next (if vaultWanted s.dev = 0 ∧ runsApart k.vaultRuns (collRuns s.dev) = true then
            onDev s (putEntry s.dev e (some { k with state := .staging })) else s))) ∧
        ((∃ h ∈ k.launch.deps, overHere s.dev h = some true) → out = .next (onDev s (settled s.dev e { ended with failed := true }))) ∧
        ((∃ h ∈ k.launch.deps, overHere s.dev h = none) → (∀ h ∈ k.launch.deps, overHere s.dev h ≠ some true) → out = .next s)) ∧
      (∀ src dst n r, k.state = .staging → k.launch.residents[k.staged]? = some (src, dst, n) → s.held = false → Mem.wf s.mem = true →
        let i : Instr := .staging (e.val / 64) (e.val % 64)
        let lo := 4096 * k.chunk
        let len := min 4096 (n - lo)
        stageRead s k src n k.chunk [] s = .ok (r, []) →
        (∀ v b, r = .ok v → stageTarget s k dst lo len = .ok b → k.localDone = false →
          let k' := if n ≤ lo + len then { k with staged := k.staged + 1, chunk := 0 } else { k with chunk := k.chunk + 1 }
          Serves i s (writtenAt s.dev.migrations s.mem [{ bit := 8 * b, width := 8 * len, value := v, addr := dst + BitVec.ofNat 64 lo }])
            (if k'.staged = k.launch.residents.length then
              enters (putEntry s.dev e (some { k' with state := .ready })) k.launch.prio (.kernel e.val s.dev.nanos)
             else putEntry s.dev e (some k'))) ∧
        (∀ a, r = .error a ∨ (∃ v, r = .ok v ∧ stageTarget s k dst lo len = .error a) →
          (noticeRoom s = true → s.dev.noticesHeld = [] → Completes (exec i s) fun s' =>
            .stagingFailed k.staged a ∈ s'.dev.notices ∧ s'.tasks = s.tasks ∧
            s'.dev.kernels = (settled s.dev e { k with state := .done, localDone := true, failed := true }).kernels) ∧
          (noticeRoom s = false ∨ s.dev.noticesHeld ≠ [] → exec i s = .next s))) ∧
      (∀ n p failed, s.dev.rx[n]? = some p → inOrder s.dev n p → p.body = .shadowDone k.handle failed → k.shadow = false →
        (∀ e' k', kernelIn s e' k' → k'.shadow = false → k'.handle = k.handle → e' = e) →
        exec (.shadowDone n) s = .next (onDev s (settled (takenOut s.dev n) e
          { k with shadowsOut := k.shadowsOut - 1, failed := k.failed || failed }))))

/-- R30, R36, R40, R353, R354, R357: an aging step completes for every item that has waited 2 ms, which moves to the tail of
the next higher queue; a placing step completes for a kernel at the head of the queues that fits, which starts whole, each
task with what R36 gives it, and for an item that does not fit, for which core groups of lower priority are to be saved.
In it the model's own reading: logs 20, 24. -/
def Obligations.Placement : Prop :=
  ∀ (s : State),
    (∀ (p : Fin 3) (i : Nat) (q : QItem),
      let queue := fun (x : Nat) => s.dev.queues.toList.getD x []
      (queue p.val)[i]? = some q → q.since + 2000000 ≤ s.dev.nanos →
      let n := (((List.range p.val).map fun x => (queue x).length).sum) + i
      exec (.aging n) s = .next (onDev s { s.dev with
       queues := .ofFn fun x =>
        if x.val = p.val then (queue p.val).eraseIdx i
        else if x.val = p.val + 1 then queue (p.val + 1) ++ [match q with
          | .kernel e _ => .kernel e s.dev.nanos
          | .group g _ => .group g s.dev.nanos]
        else queue x.val })) ∧
    (∀ (e : Fin 256) (k : Kernel) (since p : Nat) (fs : List (List (List Fit))), headItem s.dev = some (.kernel e.val since, p) →
      kernelIn s e k → fitKernel s [] k.launch = some fs → s.held = false →
      let l := k.launch
      ∃ s', exec .place s = .next s' ∧ s'.held = false ∧
        (∃ k', s'.dev.kernels.get e = some k' ∧ k' = { k with state := .running, started := s.dev.starts + 1
                                                              live := l.dies * l.vaults * l.cores * l.tasks }) ∧
        s'.dev.queues.toList.getD p [] = (s.dev.queues.toList.getD p []).drop 1 ∧
        (∀ (i j m n : Nat) (f : Fit) (sl : Fin 4), ((fs.getD i []).getD j [])[m]? = some f → n < l.tasks → f.slots[n]? = some sl →
          ∃ t, s'.tasks.get (place f.core sl) = some t ∧ t.handle = k.handle ∧ t.tenant = l.tenant ∧ t.prio = l.prio ∧
            t.level = l.level ∧ t.exposed = l.exposed ∧ t.mode = .ready ∧
            t.taskid = BitVec.ofNat 64 (deviceIndex s.dev l * 2 ^ 10 + i * 2 ^ 8 + j * 2 ^ 4 + m * 2 ^ 2 + n) ∧
            t.pcS = l.entry.get 0 ∧ t.pcV = l.entry.get 1 ∧ t.pcM = l.entry.get 2 ∧ t.pcC = l.entry.get 3 ∧
            t.s.get 1 = l.arg ∧ t.s.get 2 = BitVec.ofNat 64 (if l.tiles = 0 then 0 else f.tileBase) ∧
            t.s.get 3 = BitVec.ofNat 64 (3 * 2 ^ 61 + f.spadBase) ∧ (∀ r : Fin 64, 4 ≤ r.val → t.s.get r = 0) ∧
            t.endS = false ∧ t.endV = false ∧ t.endM = false ∧ t.endC = false ∧ t.tflags = 0 ∧ t.vctl = 0 ∧ t.unack = 0)) ∧
    (∀ q p vs, headItem s.dev = some (q, p) → canPlace s [] q = false → canPlace s (leaving s) q = false → choose s q p = some vs →
      ∃ ts, exec .place s = .next { s with tasks := ts } ∧ ∀ l, ts.get l = (s.tasks.get l).map fun t =>
        if ∃ v ∈ vs, v.gid = t.gid ∧ v.core = coreOf l then
          match t.mode with
          | .saving _ => t
          | _ => { t with mode := .saving 1 }
        else t)

/-- R112, R142, R250, R307, R358 to R363, R377, R386, R387, R398: a trapped task is saved alone, in three steps: its collectives
are aborted; once its engines have drained, what they have issued completes but for unfinished `mma` and copies, and its lease
passes; once FRAME is not 0, its frame is written there, its poison with it, FRAME moves past it, its slot is free and its frame
goes to the supervisor with a notice, for which the queue has room. A saved group of one task that heads the queues and fits comes
back with what its frame holds; one whose frame cannot be read goes to the supervisor.
In it the model's own reading: logs 11, 21, 57, 62, 63, 108. -/
def Obligations.SaveAndRestore : Prop :=
  (∀ (c : Fin 256) (k : Fin 4) (s : State) (t : Task), s.tasks.get (place c k) = some t → t.mode = .saving 2 →
    let core := s.cores.get c
    let step := exec (.taskSave c.val k.val) s
    (t.saveStep = 0 → (∀ x, s.dev.coll.get x = none) → step = .next (onTask s (place c k) { t with saveStep := 1 })) ∧
    (t.saveStep = 1 → t.drained s.dev = false → step = .next s) ∧
    (t.saveStep = 1 → t.drained s.dev = true → Completes step fun s' =>
      s'.mem = s.mem ∧ s'.dev = s.dev ∧ (∀ l, l ≠ place c k → s'.tasks.get l = s.tasks.get l) ∧
      ∃ t', s'.tasks.get (place c k) = some t' ∧ t'.saveStep = 2 ∧ t'.s = t.s ∧
        t'.mjobs.map MJob.work = (t.mjobs.filter MJob.carried).map MJob.work ∧
        t'.cjobs.map CJob.work = (t.cjobs.filter CJob.isCopy).map CJob.work ∧
        t'.mjobs.flatMap MJob.masks = (t.mjobs.dropWhile fun j => !j.carried).flatMap MJob.masks ∧
        t'.cjobs.flatMap CJob.masks = (t.cjobs.dropWhile fun j => !j.isCopy).flatMap CJob.masks ∧
        t'.tok = ((t.redeemAll .m ((t.mjobs.takeWhile fun j => !j.carried).flatMap MJob.masks)).redeemAll .c
          ((t.cjobs.takeWhile fun j => !j.isCopy).flatMap CJob.masks)).tok ∧
        t'.tflags = (t.cjobs.filter fun j => !j.isCopy).foldl (fun f j => f ||| j.flags)
          ((t.mjobs.filter fun j => !j.carried).foldl (fun f j => f ||| j.flags) t.tflags)) ∧
    (t.saveStep = 1 → t.drained s.dev = true → (∀ j ∈ t.mjobs, j.carried = true) → (∀ j ∈ t.cjobs, j.isCopy = true) →
      t.markM ≤ t.mjobs.length → t.markC ≤ t.cjobs.length →
      let asks := { core with leaseWaiting := core.leaseWaiting &&& ~~~(BitVec.ofNat 4 (2 ^ k.val)) }
      step = .next { s with
        cores := s.cores.set c (if core.leaseHolder = some k then asks.passLease s.dev.clock else asks)
        tasks := s.tasks.set (place c k) (some { t with
          saveStep := 2, saveLease := if core.leaseHolder = some k then some core.leaseCount else none }) }) ∧
    (t.saveStep = 2 → core.frame = 0 → step = .next s) ∧
    (∀ us, t.saveStep = 2 → core.frame ≠ 0 → s.held = false →
      let group := decide (∀ l, l ≠ place c k → coreOf l = c → ∀ u, s.tasks.get l = some u → u.gid ≠ t.gid)
      let note : SaveNote :=
        { cause := 2, count := groupSize s t.gid, group, lease := t.saveLease.isSome, leaseCount := t.saveLease.getD 0 }
      let frame := BitVec.ofNat 64 ((core.frame.toNat + 4095) / 4096 * 4096)
      let len := frameLength t.grant t.parked.length group
      writeFrame core.frameTenant frame len (frameOf s c t.forSave note) (poisonFields s c t.forSave group) [] s = .ok (true, us) →
      (noticeRoom (applyAll us s) = false ∨ s.dev.noticesHeld ≠ [] → step = .next s) ∧
      (noticeRoom (applyAll us s) = true → s.dev.noticesHeld = [] → Completes step fun s' =>
        s'.tasks.get (place c k) = none ∧ (∀ l, l ≠ place c k → s'.tasks.get l = s.tasks.get l) ∧
        (noticeQueueAt s.dev = none → s'.mem = (applyAll us s).mem) ∧
        (∃ v, s'.dev.saved = (s.dev.saved.map fun v => if group ∧ v.task.gid = t.gid then { v with resident := false } else v) ++ [v] ∧
          v.task = t.forSave ∧ v.frame = frame ∧ v.frameTenant = core.frameTenant ∧ v.cause = 2 ∧ v.hasGroup = group ∧
          v.resident = !group ∧ v.core = c ∧ v.slot = k ∧ v.withSupervisor = true ∧ v.queued = false ∧ v.ended = false ∧
          v.poisoned = poisonFields s c t.forSave group ∧ v.books = core.books ∧ v.epis = core.epis) ∧
        .saved frame 2 ∈ s'.dev.notices ∧ (s'.cores.get c).resume.get k = 0 ∧
        (s'.cores.get c).frame = BitVec.ofNat 64 (((frame + BitVec.ofNat 64 len).toNat + 4095) / 4096 * 4096)))) ∧
  (∀ (n p : Nat) (s : State) (v : Saved) (since : Nat) (f : Fit) (sl : Fin 4), s.dev.saved[n]? = some v →
    headItem s.dev = some (.group v.task.gid since, p) → v.queued = true → s.held = false →
    (∀ w ∈ s.dev.saved, w.task.gid = v.task.gid → w = v) → s.dev.saved.count v = 1 → (∀ l t, s.tasks.get l = some t → t.gid ≠ v.task.gid) →
    fitGroup s [] v.task.gid = some f → f.slots = [sl] →
    (∀ w bad, readFrame s v = .ok (w, bad) → frameUsed w = [] → v.task.refusals = [] →
      Completes (exec (.restore n) s) fun s' =>
        (∀ y ∈ s'.dev.saved, y.task.gid ≠ v.task.gid) ∧
        ((∀ l, coreOf l = f.core → s.tasks.get l = none) → v.resident = false →
          (s'.cores.get f.core).books = v.books ∧ (s'.cores.get f.core).epis = v.epis) ∧
        ∃ t, s'.tasks.get (place f.core sl) = some t ∧ t.tid = v.task.tid ∧ t.mode = v.task.mode ∧
          (∀ i : Fin 64, t.s.get i = BitVec.ofNat 64 (field w (0x60 + 8 * i.val) 8)) ∧
          t.pcS = BitVec.ofNat 64 (field w 0x40 8) ∧ t.pcV = BitVec.ofNat 64 (field w 0x48 8) ∧
          let pc := fun (off : Nat) (back : Option Word) (real : Word) =>
            if back = some (BitVec.ofNat 64 (field w off 8)) then real else BitVec.ofNat 64 (field w off 8)
          t.pcM = pc 0x50 v.task.backM v.task.pcM ∧ t.pcC = pc 0x58 v.task.backC v.task.pcC ∧
          (∀ i : Fin 64, i.val < 32 * v.task.grant.vbanks → t.v.get i = BitVec.ofNat 8192 (field w (0x9000 + 1024 * i.val) 1024)) ∧
          (∀ i : Fin 8, t.m.get i = BitVec.ofNat 256 (field w (0x2A0 + 32 * i.val) 32)) ∧
          t.trapcause = BitVec.ofNat 64 (field w 0x900 8 % 2 ^ 11) ∧ t.trappc = BitVec.ofNat 64 (field w 0x908 8) ∧
          t.trapword = BitVec.ofNat 64 (field w 0x910 8 % 2 ^ 48) ∧ t.trapaddr = BitVec.ofNat 64 (field w 0x918 8)) ∧
    (∀ k, readFrame s v = .error (.cause k) →
      (noticeRoom s = false ∨ s.dev.noticesHeld ≠ [] → exec (.restore n) s = .next s) ∧
      (noticeRoom s = true → s.dev.noticesHeld = [] → Completes (exec (.restore n) s) fun s' =>
        s'.tasks = s.tasks ∧ .restoreRefused v.frame ∈ s'.dev.notices ∧
        ∃ y ∈ s'.dev.saved, y.frame = v.frame ∧ y.task = v.task ∧ y.queued = false ∧ y.withSupervisor = true)))

/-- R28, R37, R228, R350, R383: a task that has ended retires: its slot is free, it holds no lease, its kernel has one task fewer
and, with the last, leaves its entry; it arrives at the kernel's done barrier. One that the supervisor ends retires once its
writes are acknowledged; with the last of a core that issued counted instructions the array steps down.
In it the model's own reading: logs 50, 51, 64. -/
def Obligations.Retirement : Prop :=
  (∀ (c : Fin 256) (k : Fin 4) (s : State) (t : Task) (e : Fin 256) (x : Kernel), s.tasks.get (place c k) = some t → t.canRetire = true →
    t.mode = .ready → s.held = false → (∀ y, s.dev.coll.get y = none) → kernelIn s e x → x.handle = t.handle →
    (∀ e' x', kernelIn s e' x' → x'.handle = t.handle → e' = e) →
    Completes (exec (.taskRetire c.val k.val) s) fun s' =>
      s'.mem = s.mem ∧ s'.tasks.get (place c k) = none ∧ (∀ l, l ≠ place c k → s'.tasks.get l = s.tasks.get l) ∧
      (s'.cores.get c).leaseHolder ≠ some k ∧
      (1 < x.live → ∃ x', s'.dev.kernels.get e = some x' ∧ x'.live = x.live - 1 ∧ x'.handle = x.handle) ∧
      (x.live = 1 → x.shadowsOut = 0 → s'.dev.kernels.get e = none) ∧
      (x.launch.doneOn = true →
        let b := barrierRef c x.launch.doneLevel x.launch.doneNumber.toNat
        let hub := if b.level = 5 then s.dev.barrierHub else s.dev.devid
        sent s' hub 5 (.barrier b (.arrive t.tflags (some t.handle)) t.tid s.dev.devid x.launch.tenant false
          { clock := s.dev.clock, slot := k.val, core := c.val }))) ∧
  (∀ (n : Nat) (s : State) (v : Saved), s.dev.saved[n]? = some v → v.withSupervisor = true → v.queued = false →
    (∀ y, s.dev.coll.get y = none) →
    (v.ended = false → ∃ ks, (v.resident = false → ks = s.cores) ∧ (∀ c, c ≠ v.core → ks.get c = s.cores.get c) ∧
      exec (.taskEnded n) s = .next (drains
        { s with cores := ks, dev := { s.dev with saved := s.dev.saved.set n { v with ended := true } } } v.task.handle)) ∧
    (v.ended = true → (∀ u ∈ v.task.uids, v.task.isCopy u = true ∧ partsLeft s.dev u = false) →
      v.task.unack = BitVec.ofNat 32 (v.acks + v.task.uids.length) → (∀ e x, kernelIn s e x → x.handle ≠ v.task.handle) →
      let core := s.cores.get v.core
      let last := v.task.counted = true ∧ (∀ l u, coreOf l = v.core → s.tasks.get l = some u → u.counted = false) ∧
        core.leaseWaiting = 0 ∧ 0 < core.groupsOn
      (last → exec (.taskEnded n) s = .next { s with
        dev := { s.dev with saved := s.dev.saved.eraseIdx n }, cores := s.cores.set v.core { core with ramp := .down } }) ∧
      (¬ last → exec (.taskEnded n) s = .next (onDev s { s.dev with saved := s.dev.saved.eraseIdx n }))))

/-- R98, R99, R103 to R106, R149, R275, R276, R304: a core drops what an invalidation covers and acknowledges it, the last one
of a `seal` once no other device's write stands translated; the next 4 KiB of a migrating frame are copied and the word's
cursor moves, or, with the last, the word names the destination and every core is to drop the old one; once every core has
acknowledged the word is stable and kr is set. Monitors on what is written wake.
In it the model's own reading: logs 42, 65. -/
def Obligations.InvalidationAndMigration : Prop :=
  ∀ (n : Nat) (s : State),
    (∀ (c : Fin 256) (v : Inval), s.dev.invals[n]? = some v → c.val ∈ v.waiting → coreWrites s.dev c = false →
      let cores := s.cores.set c (if v.words = [] then dropped (s.cores.get c) v.kind else { dropped (s.cores.get c) v.kind with lines := [] })
      (v.waiting.erase c.val ≠ [] → exec (.coreAcknowledge c.val n) s = .next { s with
        cores, dev := { s.dev with invals := s.dev.invals.set n { v with waiting := v.waiting.erase c.val } } }) ∧
      (v.waiting.erase c.val = [] → v.words ≠ [] → guestWrites s.dev = true → exec (.coreAcknowledge c.val n) s = .next s) ∧
      (v.waiting.erase c.val = [] → (v.words = [] ∨ guestWrites s.dev = false) → (∀ m ∈ s.dev.migrations, m.inval ≠ some v.id) →
        exec (.coreAcknowledge c.val n) s = .next { s with cores, dev := { s.dev with invals := s.dev.invals.eraseIdx n } })) ∧
    (∀ (m : Migration), s.dev.migrations[n]? = some m → Mem.wf s.mem = true →
      let lo := 4096 * m.next
      let len := min 4096 (m.length - lo)
      (m.forwarding = false → lo < m.length → s.dev.poison = [] → byteExists (m.dest + lo) = true → byteExists (m.dest + lo + len - 1) = true →
        (m.word + 8 ≤ m.dest + lo ∨ m.dest + lo + len ≤ m.word) →
        ∃ mem, (lo + len < m.length → exec (.migrationChunk n) s = .next { s with
            mem, cores := wokenIn (wokenIn s.cores (m.dest + lo) len) m.word 8
            dev := { s.dev with migrations := s.dev.migrations.set n { m with next := m.next + 1, inval := none } } }) ∧
          (m.length ≤ lo + len → exec (.migrationChunk n) s = .next { s with
            mem, cores := allWoken s.cores
            dev := { named s.dev with
              invals := s.dev.invals ++ [{ id := s.dev.nextUid, kind := .plane (posOf m.addr) (BitVec.ofNat 4 (planeOf m.addr))
                                           waiting := List.range 256, words := [] }]
              migrations := s.dev.migrations.set n { m with next := m.next + 1, forwarding := true, inval := some s.dev.nextUid } } }) ∧
          (∀ i, i < len → Mem.read mem (m.dest + lo + i) = Mem.read s.mem (m.source + lo + i)) ∧
          readBytes mem m.word 8 = (if m.length ≤ lo + len then frameMoving (frameNaming (readBytes s.mem m.word 8) m.dest) 2 0
            else frameMoving (readBytes s.mem m.word 8) 1 (m.next + 1)) ∧
          ∀ x, (x < m.word ∨ m.word + 8 ≤ x) → (x < m.dest + lo ∨ m.dest + lo + len ≤ x) → Mem.read mem x = Mem.read s.mem x) ∧
      (∀ l t, m.forwarding = true → m.inval = none → touchesSource s.dev m = false → standsAt s l t → m.tid = t.tid →
        exec (.migrationStable n) s = .next { s with
          mem := Mem.writeAll s.mem (byteCells m.word 8 (frameMoving (readBytes s.mem m.word 8) 0 0)), cores := allWoken s.cores
          dev := { s.dev with migrations := s.dev.migrations.eraseIdx n }
          tasks := s.tasks.set l (some { t with k := t.k.set m.kr.toFin { t.k.get m.kr.toFin with
            set := (t.k.get m.kr.toFin).set || decide ((t.k.get m.kr.toFin).pend ≤ 1), pend := (t.k.get m.kr.toFin).pend - 1 } }) }))

/-- R28, R142, R143, R161, R235, R395: writes of the registers of a core and a task from outside its program: a value out of
range leaves RAMPCFG and LEASEMAX as they are, and a holder whose count has reached the new LEASEMAX loses the lease; a bit of
TFLAGS that a setter sets in the same clock is set.
In it the model's own reading: logs 11, 18, 81. -/
def Obligations.OutsideRegisterWrites : Prop :=
  ∀ (c : Fin 256) (k : Fin 4) (v : BitVec 64) (setters : BitVec 8) (tenant : BitVec 6) (s : State),
    exec (.frame c.val v tenant) s = .next (onCore s c { s.cores.get c with frame := v, frameTenant := tenant }) ∧
    (let new := if 1 ≤ v.toNat % 2 ^ 16 ∧ v.toNat % 2 ^ 16 ≤ 256 then s.rampcfg.set c (BitVec.ofNat 16 v.toNat) else s.rampcfg
     exec (.rampcfg c.val v) s = .next { s with rampcfg := new }) ∧
    (let new := if 1 ≤ v.toNat % 2 ^ 9 ∧ v.toNat % 2 ^ 9 ≤ 256 then s.leasemax.set c (BitVec.ofNat 9 v.toNat) else s.leasemax
     let core := s.cores.get c
     let core' := if core.leaseWaiting ≠ 0 then core.passLease s.dev.clock else { core with leaseCount := 0 }
     let runsOut := core.leaseHolder.isSome && decide ((new.get c).toNat ≤ core.leaseCount)
     let s₁ := if runsOut ∧ core.leaseWaiting ≠ 0 then holderSettled s c else s
     exec (.leasemax c.val v) s = .next { s₁ with leasemax := new, cores := if runsOut then s.cores.set c core' else s.cores }) ∧
    (∀ t, s.tasks.get (place c k) = some t →
      exec (.tflags c.val k.val v setters) s = .next (onTask s (place c k) { t with tflags := BitVec.ofNat 8 v.toNat ||| setters }))

/-- R92, R269, R274, R286, R308, R309, R321, R323, R324, R380, R385, R394, R395, R397: a management command that its queue
has posted is done and answered with status 1, or refused without effect and answered with status 2, in the order in which the
queues' records arrived; a window changes once what was granted before is applied.
In it the model's own reading: logs 27, 86. -/
def Obligations.ManagementCommands : Prop :=
  ∀ (s : State) (r : Nat), s.held = false → Mem.wf s.mem = true →
    (∀ (i : Instr) (c : Command), commands i = some c → postedRecord s c.src = some r → recordIs s c.opcode c.tenant r = true →
      let d := served s.dev c.src
      (mayServe s c.src = false ∨ ¬ c.may s.dev → exec i s = .next s) ∧
      (mayServe s c.src = true → c.may s.dev →
        (c.ok s.dev → Serves i s (writtenAt s.dev.migrations s.mem (answerAt r 1 (c.word s.dev))) (c.change d)) ∧
        (¬ c.ok s.dev → Serves i s (writtenAt s.dev.migrations s.mem (answerAt r 2 0)) d))) ∧
    (∀ (src : MgmtSource) (port : Fin 30) (value : Nat), postedRecord s src = some r → recordIs s 6 none r = true →
      mayServe s src = true →
      let p := s.dev.ports.get port
      (Completes (exec (.portRekeyat src port.val value) s) fun s' =>
        s'.tasks = s.tasks ∧ sameMem s'.mem (writtenAt s.dev.migrations s.mem (answerAt r 1 0)) ∧
        s'.rekeyat = (if 1 ≤ value ∧ value ≤ 2 ^ 40 then s.rekeyat.set port (BitVec.ofNat 41 value) else s.rekeyat)) ∧
      (p.up = true → p.replay.length < 128 → (p.key (~~~p.txSlot)).loaded = true → (p.key (~~~p.txSlot)).sent = false →
        Completes (exec (.portKeySwitch src port.val) s) fun s' =>
          s'.tasks = s.tasks ∧ sameMem s'.mem (writtenAt s.dev.migrations s.mem (answerAt r 1 0)) ∧
          (s'.dev.ports.get port).txSlot = ~~~p.txSlot ∧ (s'.dev.ports.get port).counter = 0 ∧
          (s'.dev.ports.get port).sendSeq = p.sendSeq + 1 ∧ (s'.dev.ports.get port).replay.length = p.replay.length + 1) ∧
      (p.up = true → 128 ≤ p.replay.length ∨ ((p.key (~~~p.txSlot)).loaded = true ∧ (p.key (~~~p.txSlot)).sent = true) → Serves (.portKeySwitch src port.val) s (writtenAt s.dev.migrations s.mem (answerAt r 1 0))
        { served s.dev src with ports := s.dev.ports.set port { p with switchWanted := true } }) ∧
      (p.up = false → Serves (.portKeySwitch src port.val) s (writtenAt s.dev.migrations s.mem (answerAt r 2 0)) (served s.dev src)))

/-- R389 to R392: reset leaves the machine as right after reset but for its fuses; tier 1 trained, a write of 1 starts
verification; its errors leave the device in boot, success gives version, queues and measurement; cores come up by eights;
full service begins with every core up and GDDR trained, and never once its training has failed.
In it the model's own reading: logs 66, 68. -/
def Obligations.StartUp : Prop :=
  ∀ (s : State),
    exec .reset s = .next { State.reset with agenda := s.agenda
                                             dev := { State.reset.dev with fused := s.dev.fused, draws := s.dev.draws } } ∧
    (s.dev.boot = .reset → exec (.lpddrReady true) s = .next (onDev s { s.dev with lpddrReady := true, boot := .ready }) ∧
      exec (.lpddrReady false) s = .next (onDev s { s.dev with error := 4 })) ∧
    exec .boot s = .next (onDev s (if s.dev.lpddrReady = true ∧ s.dev.boot = .ready then { s.dev with boot := .verifying } else s.dev)) ∧
    (s.dev.boot = .verifying →
      (∀ code, verifyImage s = .inl code → exec .verification s = .next (onDev s { s.dev with boot := .ready, error := BitVec.ofNat 8 code })) ∧
      (∀ o, verifyImage s = .inr o → exec .verification s = .next (onDev s { s.dev with
        boot := .verified, error := 0, version := BitVec.ofNat 32 (imageField s o 4)
        superQueue := BitVec.ofNat 64 (imageField s (o + 8) 8), noticeQueue := BitVec.ofNat 64 (imageField s (o + 16) 8)
        measurement := Config.sha384 (imageBytes s 0 (imageField s 0x20 8)) }))) ∧
    (s.dev.boot = .verified →
      (s.dev.coresUp < 256 → ∃ cores, exec .coreWave s = .next { s with cores, dev := { s.dev with
          coresUp := s.dev.coresUp + 8, earlyService := s.dev.earlyService || decide (16 ≤ s.dev.coresUp + 8)
          fullService := s.dev.fullService || (decide (256 ≤ s.dev.coresUp + 8) && s.dev.gddrReady) } } ∧
        ∀ c, cores.get c = if s.dev.coresUp ≤ c.val ∧ c.val < s.dev.coresUp + 8 then { s.cores.get c with up := true } else s.cores.get c) ∧
      (s.dev.error = 5 → ∀ ok, exec (.gddrTrained ok) s = .next s) ∧
      (s.dev.gddrReady = false → s.dev.error ≠ 5 →
        exec (.gddrTrained true) s = .next (onDev s { s.dev with
          gddrReady := true, earlyService := s.dev.earlyService || decide (16 ≤ s.dev.coresUp)
          fullService := s.dev.fullService || decide (256 ≤ s.dev.coresUp) }) ∧
        exec (.gddrTrained false) s = .next (onDev s { s.dev with error := 5 })))

/-- R279, R280, R384, R385, R388, R391, R395, R396: the host's registers and its reads, writes and atomics of storage, an atomic in
its turn at the handler engine; each microsecond the throttle step that each core takes and what is charged to each kernel; a
corrected error that scrubbing finds.
In it the model's own reading: logs 38, 67, 101, 107. -/
def Obligations.HostPowerAndScrub : Prop :=
  ∀ (s : State),
    (∀ (offset : BitVec 40) (v : BitVec 64),
      exec (.hostRegisterWrite offset v) s = .next (onDev s (match hostWrite s.dev v offset.toNat with
        | some d => { d with hostOut := s.dev.hostOut ++ [(BitVec.ofNat 42 (3 * 2 ^ 40 + offset.toNat), some [])] }
        | none => { s.dev with hostOut := s.dev.hostOut ++ [(BitVec.ofNat 42 (3 * 2 ^ 40 + offset.toNat), none)] }))) ∧
    (∀ (kind : HostKind) (tenant : BitVec 6) (offset : BitVec 42) (len : Nat) (data : List (BitVec 8)),
      let tier := offset.toNat / 2 ^ 40
      let off := offset.toNat % 2 ^ 40
      let answers := fun (d : Device) (r : Option (List Byte)) => { d with hostOut := d.hostOut ++ [(offset, r)] }
      (hostServed s kind tenant tier off len = false →
        exec (.hostRequest kind tenant offset len data) s = .next (onDev s (answers s.dev none))) ∧
      (hostServed s kind tenant tier off len = true → tier < 3 → len = 0 ∨ (∃ i < len, byteExists (offset.toNat + i) = false) →
        exec (.hostRequest kind tenant offset len data) s = .next (onDev s (answers s.dev none))) ∧
      (hostServed s kind tenant tier off len = true → tier < 3 → 1 ≤ len → (∀ i < len, byteExists (offset.toNat + i) = true) →
        s.dev.migrations = [] →
        (kind = .read → exec (.hostRequest kind tenant offset len data) s = .next (onDev s (answers s.dev
          (if (List.range len).any fun i => rangePoisoned s.dev.poison (offset.toNat + i) 1 then none
           else some ((List.range len).map fun i => Mem.read s.mem (offset.toNat + i)))))) ∧
        (kind = .write → data.length = len → s.held = false → Mem.wf s.mem = true →
          Serves (.hostRequest kind tenant offset len data) s
            ((List.range len).foldl (fun m i => Mem.write m (offset.toNat + i) (data.getD i 0)) s.mem) (answers s.dev (some []))) ∧
        (∀ slot h4 h5, kind = .atomic slot h4 h5 →
          let i : Instr := .hostRequest kind tenant offset len data
          let o : Origin := { dev := s.dev.devid, tid := 0, core := 256, eng := .s, pc := 0, word := 0, tenant, level := true }
          let a := offset.toNat
          (24 ≤ slot.toNat ∨ a % 8 ≠ 0 ∨ atomicRefused s o a slot.toNat ≠ none → exec i s = .next (onDev s (answers s.dev none))) ∧
          (slot.toNat < 24 → a % 8 = 0 → atomicRefused s o a slot.toNat = none →
            (engineTurn s.dev a hostKey = false → exec i s = .next s) ∧
            (engineTurn s.dev a hostKey = true → s.held = false → Mem.wf s.mem = true →
              let at_ := fun (x : Nat) => a / 32 * 32 + (a + 8 * x) % 32
              let ws : Vector Word 4 := .ofFn fun x => BitVec.ofNat 64 (readBits s.mem (8 * at_ x.val) 64)
              let out := handle s.dev slot.toNat ws h4 h5
              let m := (List.finRange 4).foldl (fun m x => Mem.writeBits m (8 * at_ x.val) 64 (out.1.get x).toNat) s.mem
              Serves i s m (answers ((arrived s.dev s.mem m).servedAt a hostKey) (some (bytesOf 8 out.2.toNat)))))))) ∧
    (∀ (watts nanojoules : Nat) (charges : List Nat),
      (s.dev.nanos < s.dev.powered + 1000 ∨ nanojoules < charges.sum → exec (.powerTick watts nanojoules charges) s = .next s) ∧
      (s.dev.powered + 1000 ≤ s.dev.nanos → charges.sum ≤ nanojoules → ∃ cores ts ks,
        exec (.powerTick watts nanojoules charges) s = .next { s with
          cores, tasks := ts, dev := { s.dev with
            energy := s.dev.energy + BitVec.ofNat 64 nanojoules, powered := s.dev.powered + 1000, kernels := ks } } ∧
        (∀ c, cores.get c = { s.cores.get c with worked := [], throttle :=
          let n := (s.cores.get c).throttle
          if s.dev.powerLimit < watts then BitVec.ofNat 3 (min 7 (n.toNat + 1))
          else if watts * 100 < s.dev.powerLimit * 95 then BitVec.ofNat 3 (n.toNat - 1) else n }) ∧
        (∀ l, ts.get l = (s.tasks.get l).map fun t => { t with work := 0 }) ∧
        ∀ e : Fin 256, ks.get e = (s.dev.kernels.get e).map fun k => { k with
          energy := k.energy + BitVec.ofNat 64 (chargeOf s charges e.val k.handle)
          throttled := k.throttled + k.throttledNew, throttledNew := 0 })) ∧
    (∀ unit, exec (.scrub unit false) s = .next s ∧
      ∃ es, exec (.scrub unit true) s = .next (onDev s { s.dev with errors := es }) ∧
        (errorCount { s.dev with errors := es } unit).toNat = min (2 ^ 32 - 1) ((errorCount s.dev unit).toNat + 1) ∧
        ∀ other, other ≠ unit → errorCount { s.dev with errors := es } other = errorCount s.dev other)

/-- R335 to R345, R347, R348: posts gather at their coordinator, which asks for a ticket or aborts; tickets are handed out
and start in their order; chunks are applied, staged, dropped or sent back; reports gather to a commit; commits and aborts
end entries and write their completion words.  A fault waits for room in the notice queue.
In it the model's own reading: logs 26, 55, 56, 62, 85. -/
def Obligations.Collectives : Prop :=
  (∀ (s : State), let d := s.dev
    (∀ name number rest, d.tickets = (name, number) :: rest →
      (noEntry s name → exec .ticketStart s = .next (onDev s { d with tickets := rest })) ∧
      (∀ i e, collIn s i e → e.name = name →
        (e.state ≠ .ticketed → exec .ticketStart s = .next (onDev s { d with tickets := rest })) ∧
        (e.state = .ticketed →
          let free := accFree s (coreOf e.loc) (tasksOf s (coreOf e.loc) []) (parkedOf (tasksOf s (coreOf e.loc) []))
          e.info.acc ≤ free.length → (e.info.vault ≠ 0 → vaultRoom d e.info.vault ≠ none) →
          ∃ tiles vault,
            let few := decide (e.info.walker = true ∧ e.info.op ≠ 3 ∧
              e.info.vault < e.info.arrivals e.info.rank * (e.info.length * fmtWidth e.info.fmt.toNat / 8))
            let d₁ := putColl { d with tickets := rest } i (some { e with state := .running, accAt := tiles, vaultAt := vault, faulted := few })
            exec .ticketStart s = .next (onDev s
              (if few then
                sends d₁ e.info.coordinator 5 (.abortAsk name 4 e.info.coordinator none) else d₁)) ∧
            tiles.length = e.info.acc ∧ (∀ x ∈ tiles, x ∈ free) ∧
            (e.info.vault ≠ 0 → ∃ v < 64, ∃ o, vault = some (vaultByte v o) ∧ o % 256 = 0 ∧ o + e.info.vault ≤ Config.vaultBytes ∧
              ∀ x ∈ vaultHeld d, vaultByte v o + e.info.vault ≤ x.1 ∨ x.1 + x.2 ≤ vaultByte v o)))) ∧
    (∀ (i : Fin 64) (e : CEntry), collIn s i e → e.state = .running → e.info.walker = true → e.next < e.info.iterations →
      (e.faulted = true → exec (.walkerTransfer i.val) s = .next s) ∧ (e.faulted = false →
      (∀ vs dest, walkerReads e e.info.source (e.info.offset e.next Level.src) e.info.length [] s = .ok (.ok vs, []) →
        positionAdd e.info.dest (e.info.offset e.next Level.dst) = some dest →
        let out : CollSend := { name := e.name, iter := e.next, left := e.info.chunks
                                note := some { eng := .c, pc := 0, word := 0, index := 0, addr := dest, cause := .access } }
        exec (.walkerTransfer i.val) s = .next (onDev s (putColl (sendsChunks { d with collSends := d.collSends ++ [out] } e
          (e.info.members.getD (e.info.peer e.info.rank e.next) 0) 0 dest vs) i (some { e with next := e.next + 1 })))) ∧
      (∀ a, walkerReads e e.info.source (e.info.offset e.next Level.src) e.info.length [] s = .ok (.error a, []) → s.held = false →
        (noticeRoom s = false ∨ d.noticesHeld ≠ [] → exec (.walkerTransfer i.val) s = .next s) ∧
        (noticeRoom s = true → d.noticesHeld = [] → Completes (exec (.walkerTransfer i.val) s) fun s' => s'.tasks = s.tasks ∧
          .collectiveFault e.name.tenant a ∈ s'.dev.notices ∧
          s'.dev.coll = (putColl d i (some { e with faulted := true })).coll ∧
          sent s' e.info.coordinator 5 (.abortAsk e.name 4 e.info.coordinator none)))))) ∧
  ∀ (n : Nat) (s : State) (p : Packet), s.dev.rx[n]? = some p → inOrder s.dev n p →
    let d := s.dev
    let gone := takenOut d n
    (∀ name rank digest members, p.body = .collPost name rank digest members →
      let rest := d.gathers.filter fun h => h.name != name
      (name ∈ d.committed → exec (.collectivePost n) s = .next (onDev s (sends gone p.src 5 (.abort name 4 d.devid)))) ∧
      (∀ x, name ∉ d.committed → (d.abortedNames.find? fun y => y.1 == name) = some x →
        exec (.collectivePost n) s = .next (onDev s (sends gone p.src 5 (.abort name x.2 d.devid)))) ∧
      (∀ g : Gather, name ∉ d.committed → (∀ x ∈ d.abortedNames, x.1 ≠ name) →
        (d.gathers.find? fun h => h.name == name) = some g ∨
          ((∀ h ∈ d.gathers, h.name ≠ name) ∧ d.gathers.length < 256 ∧ g = { name, members, posts := [] }) →
        let posts := g.posts ++ [(p.src, digest)]
        ((∃ m ∈ g.members, ∀ x ∈ posts, x.1 ≠ m) →
          exec (.collectivePost n) s = .next (onDev s { gone with gathers := rest ++ [{ g with posts, asked := false }] })) ∧
        ((∀ m ∈ g.members, ∃ x ∈ posts, x.1 = m) →
          ((∀ x ∈ posts, x.2 = digest) →
            exec (.collectivePost n) s = .next (onDev s (sends { gone with gathers := rest ++ [{ g with posts, asked := true }] }
              d.sequencer 5 (.ticketAsk name members)))) ∧
          ((∃ x ∈ posts, x.2 ≠ digest) →
            exec (.collectivePost n) s = .next (onDev s (tells (roomed { gone with
              gathers := rest, abortWait := d.abortWait ++ [(name, posts.map Prod.fst, none)]
              abortedNames := keepNames d.abortedNames (name, 4) }) (posts.map Prod.fst) 5 (.abort name 4 d.devid)))))) ∧
      (name ∉ d.committed → (∀ x ∈ d.abortedNames, x.1 ≠ name) → (∀ h ∈ d.gathers, h.name ≠ name) → 256 ≤ d.gathers.length →
        exec (.collectivePost n) s = .next (onDev s { gone with postWait := d.postWait ++ [(p.src, name)] }))) ∧
    (∀ name members, p.body = .ticketAsk name members → d.sequencer = d.devid →
      exec (.ticketIssue n) s = .next (onDev s (tells { gone with nextTicket := d.nextTicket + 1 } members 5 (.ticket name d.nextTicket)))) ∧
    (∀ name number, p.body = .ticket name number →
      ∃ es, exec (.ticketArrival n) s = .next (onDev s { gone with tickets := d.tickets ++ [(name, number)], coll := es }) ∧
        ∀ i : Fin 64, es.get i = (d.coll.get i).map fun e =>
          if e.name = name ∧ e.state = .posted then { e with state := .ticketed } else e) ∧
    (∀ name src iter chunk back tile dest fmt first elems level,
      p.body = .collChunk name src iter chunk back tile dest fmt first elems level →
      chunkFirst s n name = true →
      let took := sends gone back 4 (.chunkDone name iter chunk)
      (p.src ≠ d.devid → ingressGrants s name.tenant level .write p.src = false →
        exec (.chunkArrival n) s = .next (onDev s (sends gone back 4 (.chunkRefused name iter .access)))) ∧
      (p.src = d.devid ∨ ingressGrants s name.tenant level .write p.src = true →
       (noEntry s name → exec (.chunkArrival n) s = .next (onDev s took)) ∧
       ∀ i e, collIn s i e → e.name = name →
        (e.state = .done ∨ e.state = .aborted ∨ e.faulted = true → exec (.chunkArrival n) s = .next (onDev s took)) ∧
        (e.faulted = false → e.state = .posted ∨ e.state = .ticketed → exec (.chunkArrival n) s = .next (onDev s
          (sends gone back 4 (.chunkNotYet name d.devid src iter chunk tile dest fmt first elems level d.nanos)))) ∧
        (e.state = .running → (src, iter, chunk) ∈ e.arrived → exec (.chunkArrival n) s = .next (onDev s took)) ∧
        (e.state = .running → e.faulted = false → (src, iter, chunk) ∉ e.arrived → s.held = false →
          let e' := { e with arrived := e.arrived ++ [(src, iter, chunk)] }
          (e.info.walker = true → e.info.op ≠ 3 →
            let ws : List Wr := (List.range elems.length).map fun k =>
              { bit := e.stageBit src iter (first + k), width := fmtWidth e.info.fmt.toNat, value := elems.getD k 0, addr := 0 }
            Serves (.chunkArrival n) s (writtenAt d.migrations s.mem ws) (progressed took i e')) ∧
          (e.info.walker = true → e.info.op = 3 → ∀ ws : List Wr, ws.length = elems.length →
            (∀ k w, ws[k]? = some w → ∃ a, positionAdd dest (first + k : Nat) = some a ∧
              (∃ z, locate s none {} name.tenant .c .write (.width (fmtWidth e.info.fmt.toNat)) a = .ok (.here w.bit (fmtWidth e.info.fmt.toNat) z)) ∧
              pathOf a = 0 ∧ bitsGranted s name.tenant e.level .write w.bit (fmtWidth e.info.fmt.toNat) = true ∧
              w = { bit := w.bit, width := fmtWidth e.info.fmt.toNat, value := elems.getD k 0, addr := a }) →
            Serves (.chunkArrival n) s (writtenAt d.migrations s.mem ws) (progressed took i e')) ∧
          (e.info.walker = false → findTask s e.tid = none → exec (.chunkArrival n) s = .next s) ∧
          (e.info.walker = false → ∀ l t, standsAt s l t → t.tid = e.tid →
            (t.grant.acc ≤ tile.toNat → exec (.chunkArrival n) s = .next (onDev s (progressed (sends (sends gone
              e.info.coordinator 5 (.abortAsk name 4 e.info.coordinator none)) back 4 (.chunkDone name iter chunk)) i e))) ∧
            (tile.toNat < t.grant.acc → ∀ f, floatFmt fmt.toNat = some f →
              let ws : List Wr := (List.range elems.length).map fun k =>
                let bit := accBit (coreOf l) t tile ((first + k) / 128) ((first + k) % 128)
                let x := decodeFloat f (elems.getD k 0)
                { bit, width := 32, addr := 0, value := rneBits fmtF32 (if e.info.op = 3 then x
                    else addVal false (decodeFloat fmtF32 (readBits s.mem bit 32)) x) }
              Serves (.chunkArrival n) s (writtenAt d.migrations s.mem ws) (progressed took i e')))))) ∧
    (∀ name dst src iter chunk tile dest fmt first elems level since,
      p.body = .chunkNotYet name dst src iter chunk tile dest fmt first elems level since → since + 1000 ≤ d.nanos →
      exec (.chunkResend n) s = .next (onDev s (sends gone dst 2 (.collChunk name src iter chunk d.devid tile dest fmt first elems level)))) ∧
    (∀ name dev g, p.body = .localDone name dev → (d.gathers.find? fun h => h.name == name) = some g →
      let reports := if dev ∈ g.reports then g.reports else g.reports ++ [dev]
      ((∀ m ∈ g.members, m ∈ reports) → exec (.localComplete n) s = .next (onDev s (tells (roomed { gone with
        gathers := d.gathers.filter fun h => h.name != name
        committed := keepNames d.committed name }) g.members 5 (.commit name)))) ∧
      ((∃ m ∈ g.members, m ∉ reports) → ∃ gs, exec (.localComplete n) s = .next (onDev s { gone with gathers := gs }) ∧
        gs.length = d.gathers.length ∧ ∀ (k : Nat) (h : Gather), d.gathers[k]? = some h →
          gs[k]? = some (if h.name = name then { h with reports } else h))) ∧
    (∀ name i e, p.body = .commit name → collIn s i e → e.name = name → e.state = .running →
      let ends := putColl gone i (overNow s e .done)
      let s₁ := onDev s ends
      (e.info.walker = false ∨ e.info.op = 3 → e.info.done = 0 → exec (.commit n) s = .next s₁) ∧
      (e.info.walker = false ∨ e.info.op = 3 → e.info.done ≠ 0 → s.held = false → ∀ bit w z,
        locate s₁ none {} name.tenant .c .write (.bytes 8) e.info.done = .ok (.here bit w z) →
        bitsGranted s₁ name.tenant e.level .write bit w = true →
        Serves (.commit n) s (writtenAt d.migrations s.mem
          [{ bit, width := w, value := e.info.sequence.toNat * 2 ^ 32 + 1, addr := e.info.done }]) ends) ∧
      (e.info.walker = true → e.info.op ≠ 3 → e.info.done = 0 → s.held = false →
        let s₀ := onDev s gone
        let w := fmtWidth e.info.fmt.toNat
        let offs := ((stagedElems e).map Prod.fst).dedup
        (∀ x ∈ stagedElems e, rangePoisoned d.poison (x.2 / 8) ((x.2 % 8 + w + 7) / 8) = false) →
        ∀ ws : List Wr, ws.length = offs.length →
          (∀ (k : Nat) (x : Wr), ws[k]? = some x → ∃ o a own z, offs[k]? = some o ∧ positionAdd e.info.dest o = some a ∧ pathOf a = 0 ∧
            walkerRead e a [.dev gone] s = .ok (.ok own, [.dev gone]) ∧
            locate s₀ none {} name.tenant .c .write (.width w) a = .ok (.here x.bit w z) ∧ z = false ∧
            bitsGranted s₀ name.tenant e.level .write x.bit w = true ∧
            x = { bit := x.bit, width := w, addr := a
                  value := reduceAll e.info.op.toNat e.info.fmt.toNat
                    (own :: ((stagedElems e).filter fun y => y.1 == o).map fun y => readBits s.mem y.2 w) }) →
          Serves (.commit n) s (writtenAt d.migrations s.mem ws) ends)) ∧
    (∀ name cause coord asker, p.body = .abortAsk name cause coord asker →
      let told := fun (x : Device) => match asker with
        | some (dev, id) => sends x dev 5 (.cabortSent id)
        | none => x
      let back := fun (x : Device) => match asker with
        | some (dev, id) => sends (sends x dev 5 (.cabortSent id)) dev 5 (.cabortDone id)
        | none => x
      (name ∈ d.committed ∨ (∃ x ∈ d.abortedNames, x.1 = name) → exec (.abortRequest n) s = .next (onDev s (back gone))) ∧
      (name ∉ d.committed → (∀ x ∈ d.abortedNames, x.1 ≠ name) →
        let noted := { gone with gathers := d.gathers.filter fun h => h.name != name
                                 abortedNames := keepNames d.abortedNames (name, cause) }
        ((∀ g ∈ d.gathers, g.name ≠ name) → exec (.abortRequest n) s = .next (onDev s (back (roomed noted)))) ∧
        (∀ g, (d.gathers.find? fun h => h.name == name) = some g → g.posts ≠ [] →
          exec (.abortRequest n) s = .next (onDev s (told (tells (roomed { noted with
            abortWait := d.abortWait ++ [(name, g.posts.map Prod.fst, asker)] }) (g.posts.map Prod.fst) 5 (.abort name cause d.devid))))))) ∧
    (∀ name cause coord, p.body = .abort name cause coord →
      (noEntry s name → exec (.abortArrival n) s = .next (onDev s (sends gone coord 5 (.abortAck name d.devid)))) ∧
      (∀ i e, collIn s i e → e.name = name → e.state = .posted ∨ e.state = .ticketed ∨ e.state = .running →
        let ends := putColl gone i (overNow s e .aborted)
        let s₁ := onDev s ends
        (e.info.done = 0 → exec (.abortArrival n) s = .next (onDev s (sends ends coord 5 (.abortAck name d.devid)))) ∧
        (e.info.done ≠ 0 → s.held = false → ∀ bit w z,
          locate s₁ none {} name.tenant .c .write (.bytes 8) e.info.done = .ok (.here bit w z) →
          bitsGranted s₁ name.tenant e.level .write bit w = true →
          Serves (.abortArrival n) s (writtenAt d.migrations s.mem
            [{ bit, width := w, value := e.info.sequence.toNat * 2 ^ 32 + cause.toNat * 2 ^ 8 + 2, addr := e.info.done }])
            (sends ends coord 5 (.abortAck name d.devid)))))

/-- R366 to R375: a chain's packet goes to the owner of its pointer, a hop at a time and no more than eight; the owner reads
the next pointer or, after the last step, the bytes; a walk that ends turns back; what it brought is written, then its block,
then its token is met and its write acknowledged, and only a trap waits for a boundary of the copy engine.  A fault that the owner's
supervisor hears of waits for room in the notice queue.
In it the model's own reading: logs 60, 61, 62. -/
def Obligations.ChainedLoads : Prop :=
  ∀ (n : Nat) (s : State) (p : Packet), s.dev.rx[n]? = some p →
    let d := s.dev
    let gone := takenOut d n
    (∀ id c, p.body = .chain id c →
      let back := fun (status cause : Nat) (a : Word) (bs : List Byte) => sends gone c.origin 4 (.chainBack id
        { status := BitVec.ofNat 8 status, cause := BitVec.ofNat 8 cause, addr := a, step := c.step, lastGood := c.pointer
          hops := c.hops, bytes := bs })
      let dev := c.pointer.toNat / 2 ^ 49 % 2 ^ 8
      let owner := if pathOf c.pointer = 5 then BitVec.ofNat 8 dev else c.obtained
      let fails := fun (k : Cause) (a : Word) =>
        (c.origin = d.devid → exec (.chainPacket n) s = .next (onDev s (back 2 k.code a []))) ∧
        (c.origin ≠ d.devid → noticeRoom s = false ∨ d.noticesHeld ≠ [] → exec (.chainPacket n) s = .next s) ∧
        (c.origin ≠ d.devid → noticeRoom s = true → d.noticesHeld = [] → s.held = false → Completes (exec (.chainPacket n) s) fun s' =>
          s'.tasks = s.tasks ∧ s'.dev.rx = gone.rx ∧ s'.dev.netOut = (back 2 k.code a []).netOut ∧
          .chainFault c.tenant a k ∈ s'.dev.notices)
      let row := owner.toNat % 16 ≠ d.devid.toNat % 16
      (pathOf c.pointer ∉ [0, 5, 6] ∨ (pathOf c.pointer = 5 ∧ inDomain d dev = false) → fails .path c.pointer) ∧
      (pathOf c.pointer ∈ [0, 6] ∨ (pathOf c.pointer = 5 ∧ inDomain d dev = true) →
        (owner ≠ d.devid → c.hops = 8 → exec (.chainPacket n) s = .next (onDev s (back 3 0 0 []))) ∧
        (owner ≠ d.devid → c.hops ≠ 8 →
          (∀ x turns, nextHop d owner false c.rowDetour c.colDetour = some (x, turns) →
            let q : Packet := { src := d.devid, dst := x, vc := 3, via := x, body := .chain id { c with
              hops := c.hops + 1, rowDetour := c.rowDetour || (turns && decide row), colDetour := c.colDetour || (turns && decide (¬ row)) } }
            exec (.chainPacket n) s = .next (onDev s { gone with netOut := gone.netOut ++ [q], unsent := gone.unsent ++ [q] })) ∧
          (nextHop d owner false c.rowDetour c.colDetour = none → exec (.chainPacket n) s = .next s)) ∧
        (owner = d.devid →
          (∀ off mask, c.steps[c.step]? = some (off, mask) →
            (positionAdd c.pointer off = none → fails .padd c.pointer) ∧
            (∀ a, positionAdd c.pointer off = some a →
              (chainBehind s id c a 8 = true → exec (.chainPacket n) s = .next s) ∧
              (chainBehind s id c a 8 = false →
                (∀ k, chainRead s c a 8 8 = .error (.cause k) → fails k a) ∧
                (∀ v, chainRead s c a 8 8 = .ok v → exec (.chainPacket n) s = .next (onDev s (sends gone d.devid 3 (.chain id
                  { c with pointer := BitVec.ofNat 64 v &&& mask, obtained := d.devid, step := c.step + 1
                           rowDetour := false, colDetour := false }))))))) ∧
          (c.steps[c.step]? = none → chainBehind s id c c.pointer c.fetch = false →
            (∀ bs, bs.length = c.fetch →
              (∀ (i : Nat) (b : Byte), bs[i]? = some b → ∃ a v, positionAdd c.pointer (i : Int) = some a ∧
                chainRead s c a 1 (if i = 0 then 8 else 1) = .ok v ∧ b = BitVec.ofNat 8 v) →
              exec (.chainPacket n) s = .next (onDev s (back 1 0 0 bs))) ∧
            (∀ k, 0 < c.fetch → chainRead s c c.pointer 1 8 = .error (.cause k) → positionAdd c.pointer 0 = some c.pointer →
              fails k c.pointer))))) ∧
    (∀ id e w l t, p.body = .chainBack id e → (d.chainWaits.find? fun x => x.id == id) = some w → standsAt s l t → w.tid = t.tid →
      (∀ v ∈ d.saved, v.task.tid ≠ t.tid) → s.held = false →
      let targets := if e.status = 1 then chainTargets w.qd e.bytes else []
      let block := [(some (w.block + 8), e.addr.toNat), (some (w.block + 16), e.lastGood.toNat), (some (w.block + 24), e.hops % 256),
        (some w.block, e.status.toNat + e.cause.toNat * 2 ^ 8 + e.step % 256 * 2 ^ 16)]
      (∀ ws bs, (∀ us, chainWrites s (some (coreOf l)) t w.qd.base 1 targets us s = .ok (.ok ws, us)) →
        (∀ us, chainWrites s (some (coreOf l)) t w.block 8 block us s = .ok (.ok bs, us)) →
        Completes (exec (.chainReturn n) s) fun s' =>
          sameMem s'.mem (writtenAt d.migrations (writtenAt d.migrations s.mem ws) bs) ∧ s'.dev.rx = gone.rx ∧
          (∀ x ∈ s'.dev.chainWaits, x.id ≠ w.id) ∧
          ∃ t', s'.tasks = s.tasks.set l (some t') ∧ t'.mode = t.mode ∧ t'.chlOut = t.chlOut - 1 ∧ t'.s = t.s ∧
            t'.k.get w.kv.toFin = tokenMet (t.k.get w.kv.toFin) false ∧ (∀ x : Fin 8, x ≠ w.kv.toFin → t'.k.get x = t.k.get x) ∧
            (w.id ∈ t.uids → t'.unack = t.unack - 1 ∧ t'.uids = t.uids.erase w.id)) ∧
      (∀ k a, (∀ us, chainWrites s (some (coreOf l)) t w.qd.base 1 targets us s = .ok (.error (k, a), us)) →
        (t.takesRefusal .c = false → exec (.chainReturn n) s = .next s) ∧
        (t.mode = .ready → Completes (exec (.chainReturn n) s) fun s' => s'.mem = s.mem ∧ s'.dev.rx = gone.rx ∧
          ∃ t', s'.tasks = s.tasks.set l (some t') ∧ t'.mode = .saving 2 ∧ t'.chlOut = t.chlOut - 1 ∧ t'.s = t.s ∧
            t'.k.get w.kv.toFin = { tokenMet (t.k.get w.kv.toFin) true with err := true } ∧
            (w.kr ≠ w.kv → t'.k.get w.kr.toFin = { t.k.get w.kr.toFin with err := true }) ∧
            t'.trapcause.toNat = k.code + 256 * engNum w.origin.eng + (if t.level then 1024 else 0) ∧ t'.trappc = w.origin.pc ∧
            t'.trapaddr = a)))

/-- R309, R313, R315, R316, R318 to R322: a port sends a new flit under its key and keeps it; one that arrives in sequence,
with its CRC and its tag right, is accepted and its words go up, else it is discarded and a retry asked once; what is asked
again is sent again as stored; the sender turns to its other key, or the link stops, once the notice of that finds room.
In it the model's own reading: logs 14, 62, 86. -/
def Obligations.Links : Prop :=
  ∀ (n : Fin 30) (s : State), (s.dev.ports.get n).up = true →
    let d := s.dev
    let p := d.ports.get n
    let peer := peerOf d.devid n.val
    let salt := fun (k : KeySlot) (from' to' : BitVec 8) => if from'.toNat < to'.toNat then k.salt else k.salt ^^^ 0x80000000
    let iv := fun (x : BitVec 32) (c : BitVec 64) => (bytesOf 4 x.toNat).reverse ++ (bytesOf 8 c.toNat).reverse
    let built := fun (h : Header) (payload : List Byte) =>
      let x := Config.gcmSeal (p.key p.txSlot).key (iv (salt (p.key p.txSlot) d.devid peer) p.counter) (bytesOf 8 h.word) payload
      makeFlit h x.1 x.2
    let header := fun (vc : BitVec 3) (marker compressed : Bool) =>
      ({ seq := p.sendSeq, ackseq := p.recvSeq, vc, slot := p.txSlot, marker, compressed, ackv := true } : Header)
    let sentBy := fun (q : Port) (f : BitVec 2048) => { q with sendSeq := p.sendSeq + 1, counter := p.counter + 1, replay := p.replay ++ [(p.sendSeq, f, 0)] }
    let noRoom := noticeRoom s = false ∨ d.noticesHeld ≠ []
    let maySend := (p.key p.txSlot).loaded = true ∧ p.replay.length < 128 ∧ p.counter.toNat < (s.rekeyat.get n).toNat
    (∀ (vc : BitVec 3) (words : List (BitVec 128)), maySend → vc.toNat ≤ 5 →
      let left := d.unsent.filter fun m => m.vc = vc ∧ m.via = peer
      ∃ k, let ms := left.take k
      let carried := p.carried ++ ms.map fun m => (p.sendSeq, m)
      (words.length = 14 →
        let f := built (header vc false false) (bytesOf 224 (numberOf (words.flatMap fun w => bytesOf 16 w.toNat)))
        let ring := words.foldl ringEnter (p.txRing, p.txPtr)
        exec (.flitTransmit n.val vc words false) s = .next (onDev s
          { putPort d n (sentBy { p with txRing := ring.1, txPtr := ring.2, carried } f) with
            wireOut := d.wireOut ++ [(n.val, f)], unsent := ms.foldl List.erase d.unsent, draws := d.draws + 1 })) ∧
      (1 ≤ words.length → words.length ≤ 64 → (compressedBytes (compressWords words (p.txRing, p.txPtr)).1).length ≤ 224 →
        let f := built (header vc false true) (bytesOf 224 (numberOf (compressedBytes (compressWords words (p.txRing, p.txPtr)).1)))
        let ring := (compressWords words (p.txRing, p.txPtr)).2
        exec (.flitTransmit n.val vc words true) s = .next (onDev s
          { putPort d n (sentBy { p with txRing := ring.1, txPtr := ring.2, carried } f) with
            wireOut := d.wireOut ++ [(n.val, f)], unsent := ms.foldl List.erase d.unsent, draws := d.draws + 1 }))) ∧
    (∀ (flit : BitVec 2048), let h := headerOf (flit.toNat % 2 ^ 64)
      let retry := built { header 7 false false with retry := true } (bytesOf 224 0)
      let asks := fun (q : Port) => { putPort d n { sentBy q retry with asked := true } with wireOut := d.wireOut ++ [(n.val, retry)] }
      (flitCrc flit ≠ crc32c (flitBody flit) ∨ h.seq ≠ p.recvSeq →
        (p.asked = true ∨ ¬ maySend → exec (.flitReceive n.val flit) s = .next s) ∧
        (p.asked = false → maySend → exec (.flitReceive n.val flit) s = .next (onDev s (asks p)))) ∧
      (flitCrc flit = crc32c (flitBody flit) → h.seq = p.recvSeq →
        let opened := if h.slot = p.rxSlot ∧ (p.key p.rxSlot).loaded = true then
          Config.gcmOpen (p.key p.rxSlot).key (iv (salt (p.key p.rxSlot) peer d.devid) p.rxCounter) (bytesOf 8 (flit.toNat % 2 ^ 64))
            (flitPayload flit) (flitTag flit) else none
        let unacked := fun (x : BitVec 16) => !h.ackv || decide (h.ackseq = x ∨ 128 < (h.ackseq - x).toNat)
        let kept := p.replay.filter fun f => unacked f.1
        let p' := { p with
          recvSeq := p.recvSeq + 1, rxCounter := p.rxCounter + 1, asked := false, tagFail := none, replay := kept
          carried := p.carried.filter fun f => unacked f.1 }
        (∀ payload, opened = some payload → h.marker = false → h.retry = false →
          let got := payloadWords h.compressed payload (p.rxRing, p.rxPtr)
          exec (.flitReceive n.val flit) s = .next (onDev s (if h.vc = 7 then putPort d n p' else
            { putPort d n { p' with rxRing := got.2.1, rxPtr := got.2.2 } with passedUp := d.passedUp ++ [(n.val, h.vc, got.1)] }))) ∧
        (∀ payload, opened = some payload → h.marker = false → h.retry = true → h.vc = 7 →
          let again := fun (f : BitVec 16 × BitVec 2048 × Nat) => decide ((f.1 - h.ackseq).toNat < 2 ^ 15)
          (∀ f ∈ kept, again f = true → f.2.2 < 16) → exec (.flitReceive n.val flit) s = .next (onDev s
            { putPort d n { p' with replay := kept.map fun f => if again f then (f.1, f.2.1, f.2.2 + 1) else f } with
              wireOut := d.wireOut ++ (kept.filter again).map fun f => (n.val, f.2.1) })) ∧
        (∀ payload, opened = some payload → h.marker = true → (p.key (~~~p.rxSlot)).loaded = true →
          exec (.flitReceive n.val flit) s = .next (onDev s (putPort d n { p' with rxCounter := 0, rxSlot := ~~~p.rxSlot }.dropIdle))) ∧
        (opened = none → p.tagFail ≠ some h.seq →
          (maySend → exec (.flitReceive n.val flit) s = .next (onDev s (asks { p with tagFail := some h.seq }))) ∧
          (¬ maySend → exec (.flitReceive n.val flit) s = .next (onDev s (putPort d n { p with tagFail := some h.seq })))) ∧
        (opened = none → p.tagFail = some h.seq → noRoom → exec (.flitReceive n.val flit) s = .next s) ∧
        (opened = none → p.tagFail = some h.seq → ¬ noRoom → s.held = false →
          Completes (exec (.flitReceive n.val flit) s) fun s' => s'.tasks = s.tasks ∧ .linkDown n.val 2 ∈ s'.dev.notices ∧
            (s'.dev.ports.get n).up = false ∧ (s'.dev.ports.get n).stopped = true))) ∧
    (∀ seq : BitVec 16, let again := fun (f : BitVec 16 × BitVec 2048 × Nat) => decide ((f.1 - seq).toNat < 2 ^ 15)
      ((∀ f ∈ p.replay, again f = true → f.2.2 < 16) → exec (.retryRequest n.val seq) s = .next (onDev s
        { putPort d n { p with replay := p.replay.map fun f => if again f then (f.1, f.2.1, f.2.2 + 1) else f } with
          wireOut := d.wireOut ++ (p.replay.filter again).map fun f => (n.val, f.2.1) })) ∧
      ((∃ f ∈ p.replay, again f = true ∧ 16 ≤ f.2.2) → noRoom → exec (.retryRequest n.val seq) s = .next s) ∧
      ((∃ f ∈ p.replay, again f = true ∧ 16 ≤ f.2.2) → ¬ noRoom → s.held = false →
        Completes (exec (.retryRequest n.val seq) s) fun s' => s'.tasks = s.tasks ∧ .linkDown n.val 1 ∈ s'.dev.notices ∧
          (s'.dev.ports.get n).up = false ∧ (s'.dev.ports.get n).replay = [])) ∧
    (p.replay.length < 128 → p.switchWanted = true ∨ (s.rekeyat.get n).toNat ≤ p.counter.toNat →
      ((p.key (~~~p.txSlot)).loaded = true → (p.key (~~~p.txSlot)).sent = true → exec (.rekeyat n.val) s = .next s) ∧
      ((p.key (~~~p.txSlot)).loaded = true → (p.key (~~~p.txSlot)).sent = false →
        let f := built (header 5 true false) (bytesOf 224 0)
        exec (.rekeyat n.val) s = .next (onDev s { putPort d n { (sentBy p f).useKey (~~~p.txSlot) with
            txSlot := ~~~p.txSlot, counter := 0, switchWanted := false }.dropIdle
          with wireOut := d.wireOut ++ [(n.val, f)] })) ∧
      ((p.key (~~~p.txSlot)).loaded = false → noRoom → exec (.rekeyat n.val) s = .next s) ∧
      ((p.key (~~~p.txSlot)).loaded = false → ¬ noRoom → s.held = false →
        Completes (exec (.rekeyat n.val) s) fun s' => s'.tasks = s.tasks ∧ .linkDown n.val 3 ∈ s'.dev.notices ∧
          (s'.dev.ports.get n).up = false ∧ (s'.dev.ports.get n).stopped = true))

/-- R318: the receiver of a compressed flit rebuilds its words with the ring that the sender compressed them against, and
both rings stay alike. -/
def Obligations.RingsStayAlike : Prop :=
  ∀ (words : List (BitVec 128)) (ring : Vector (BitVec 128) 256 × BitVec 8),
    words.length ≤ 64 → (compressedBytes (compressWords words ring).1).length ≤ 224 →
    payloadWords true (bytesOf 224 (numberOf (compressedBytes (compressWords words ring).1))) ring = (words, (compressWords words ring).2)

/-- R25, R64, R65, R380, R396: an engine of a core issues from the first slot, in its order, whose instruction is not held: it runs what
the word at that task's program counter decodes to, or takes the trap of a word that is none or of a fetch that failed. What
else comes next on the agenda happens as its row says.
In it the model's own reading: log 1. -/
def Obligations.StepRunsDecoded : Prop :=
  (∀ (s s₀ : State) (c : Fin 256) (e : Engine),
    (s.agenda = [] ∧ s₀ = s ∧ c = coreOf s.cur ∧ e = s.eng) ∨
      (∃ rest, s.agenda = .issue c e :: rest ∧ s₀ = { s with agenda := rest, held := false }) →
    ∀ (pre post : List (Fin 4)) (k : Fin 4), slotOrder s₀ c e = pre ++ k :: post →
    (∀ x ∈ pre, canIssue s₀ (place c x) e = false) → canIssue s₀ (place c k) e = true →
    let runs := fun (o : Host.Outcome State Fault Refusal) =>
      (∀ t, o = .next t → t.held = false → step s = .next (issued (place c k) e t)) ∧
      (∀ t, o = .next t → t.held = true → step s = trySlots c e post t) ∧
      (∀ f, o = .fault f → step s = .fault f) ∧ (∀ r, o = .refused r → step s = .refused r)
    let s₁ := { s₀ with cur := place c k, eng := e, held := false }
    (∀ w i, fetchWord s₀ (place c k) e = .ok w → decode e w = .ok i → runs (exec i s₁)) ∧
    (∀ w, fetchWord s₀ (place c k) e = .ok w → (∀ i, decode e w ≠ .ok i) → runs (exec (.illegalWord e w) s₁)) ∧
    (∀ x, fetchWord s₀ (place c k) e = .error x → runs (exec (.fetchFault e) s₁))) ∧
  (∀ (s : State) (i : Instr) (rest : List Move), s.agenda = .event i :: rest →
    step s = exec i { s with agenda := rest, held := false }) ∧
  (∀ (l : Fin 1024) (e : Engine) (t : State) (x : Task), t.tasks.get l = some x →
    issued l e t = { t with
      cores := t.cores.set (coreOf l) ((t.cores.get (coreOf l)).issuedFrom e (BitVec.ofNat 2 (l.val % 4)))
      tasks := t.tasks.set l (some { x with stall := 0, work := x.work + 1 }) })

/-- R66, R71 to R83: the word of every well-formed instruction decodes, in the engine of its map, to that instruction; and a
word that an engine takes is the word of the well-formed instruction that it takes it for. -/
def Obligations.DecodeEncodeAgree : Prop :=
  (∀ (i : Instr) (e : Engine), i.engine = some e → i.wf = true → decode e (encode i) = .ok i) ∧
  (∀ (e : Engine) (w : BitVec 32) (i : Instr), decode e w = .ok i → i.engine = some e ∧ i.wf = true ∧ encode i = w)

/-- Words of 04, 06, 08, 12 and 17, and what each stands for. -/
def Obligations.DecodedWords : Prop :=
  decode .s 0x04508019 = .ok (.clz 5 2) ∧ decode .s 0x60E06008 = .ok (.ld 14 1 4 8) ∧
  decode .s 0x8CD30024 = .ok (.barSync 13 12 0 4) ∧ decode .s 0x6C320A06 = .ok (.amo 3 8 10 6) ∧
  decode .v 0x78A28B0A = .ok (.vcmp 1 2 10 11 0 0 10) ∧ decode .v 0xDC424008 = .ok (.vtst 4 9 8) ∧
  decode .m 0x0514E850 = .ok (.mma 4 5 3 2 4 1 16) ∧ decode .c 0x0490A820 = .ok (.cp 2 4 1 2 4 0 4) ∧
  decode .s 0 = .illegal ∧ decode .s 0x74000016 = .illegal ∧ decode .s 0x04508119 = .reserved ∧
  decode .s 0xB0000001 = .reserved ∧ decode .c 0x20401000 = .reserved

/-- R28, R321, R395, and the model's own form of memory (log 4): a step keeps memory in its canonical form and LEASEMAX,
RAMPCFG and REKEYAT within their ranges. -/
def Obligations.StepKeepsSound : Prop :=
  ∀ s s' : State, s.Sound → step s = .next s' → s'.Sound

/-- R28, R269, R286, R321, R324, R334, R350, R380, R389, R395: what reset leaves where the spec gives it, and that it is
sound. -/
def Obligations.ResetState : Prop :=
  State.reset.Sound ∧ (∀ l, State.reset.tasks.get l = none) ∧
  (∀ c, State.reset.leasemax.get c = 64 ∧ State.reset.rampcfg.get c = 8 ∧ (State.reset.cores.get c).up = false ∧
    (State.reset.cores.get c).groupsOn = 0 ∧ ∀ e, ((State.reset.cores.get c).epis.get e) = {}) ∧
  (∀ p, (State.reset.rekeyat.get p).toNat = 2 ^ 40 ∧ (State.reset.dev.ports.get p).up = false) ∧
  (∀ n, (State.reset.dev.handlers.get n).owner = none) ∧ (∀ e, State.reset.dev.kernels.get e = none) ∧
  State.reset.dev.windows = [] ∧ State.reset.dev.watchdog = 2 ^ 32 ∧ State.reset.dev.powerLimit = 1600 ∧
  State.reset.dev.poison = [] ∧ (∀ i, State.reset.dev.coll.get i = none) ∧
  (∀ b, State.reset.dev.devBarriers.get b = { owner := none, swap := false, expected := 1, arrivals := 0, phase := 0, gathered := 0, completed := 0 })
end

