-- ==== Sys2Proof/Laws/State.lean ====
section
/-!
SUPPORT. One small lemma for each field of the state under each update, and for reading a place of a vector that was
written.  They are the simp set by which later proofs read states.
-/

namespace Sys2Proof.Machine

theorem vector_get_eq {α : Type} {n : Nat} (v : Vector α n) (i : Fin n) : v.get i = v[i.val] := rfl

@[simp] theorem vector_get_set_self {α : Type} {n : Nat} (v : Vector α n) (i : Fin n) (x : α) (h : i.val < n) :
    (v.set i.val x h).get i = x := by
  rw [vector_get_eq]
  exact Vector.getElem_set_self ..

theorem vector_get_set_ne {α : Type} {n : Nat} (v : Vector α n) {i j : Fin n} (x : α) (h : i.val < n) (ne : i ≠ j) :
    (v.set i.val x h).get j = v.get j := by
  rw [vector_get_eq, vector_get_eq]
  exact Vector.getElem_set_ne h j.isLt fun e => ne (Fin.ext e)

@[simp] theorem vector_set_set {α : Type} {n : Nat} (v : Vector α n) (i : Nat) (x y : α) (h h' : i < n) :
    (v.set i x h).set i y h' = v.set i y h := by
  apply Vector.ext
  intro j hj
  by_cases e : i = j
  · subst e; simp
  · simp [Vector.getElem_set_ne, e]

@[simp] theorem vector_set_get_self {α : Type} {n : Nat} (v : Vector α n) (i : Fin n) (h : i.val < n) :
    v.set i.val (v.get i) h = v := by
  apply Vector.ext
  intro j hj
  by_cases e : i.val = j
  · subst e; simp [vector_get_eq]
  · simp [Vector.getElem_set_ne, e]

@[simp] theorem apply_bytes_mem (s : State) (cs : List Host.Cell) : (Upd.apply s (.bytes cs)).mem = cs.foldl (fun m c => Mem.write m c.1 c.2) s.mem := rfl
@[simp] theorem apply_bytes_tasks (s : State) (cs : List Host.Cell) : (Upd.apply s (.bytes cs)).tasks = s.tasks := rfl
@[simp] theorem apply_bytes_cores (s : State) (cs : List Host.Cell) : (Upd.apply s (.bytes cs)).cores = s.cores := rfl
@[simp] theorem apply_bytes_leasemax (s : State) (cs : List Host.Cell) : (Upd.apply s (.bytes cs)).leasemax = s.leasemax := rfl
@[simp] theorem apply_bytes_rampcfg (s : State) (cs : List Host.Cell) : (Upd.apply s (.bytes cs)).rampcfg = s.rampcfg := rfl
@[simp] theorem apply_bytes_rekeyat (s : State) (cs : List Host.Cell) : (Upd.apply s (.bytes cs)).rekeyat = s.rekeyat := rfl
@[simp] theorem apply_bytes_dev (s : State) (cs : List Host.Cell) : (Upd.apply s (.bytes cs)).dev = s.dev := rfl
@[simp] theorem apply_bytes_agenda (s : State) (cs : List Host.Cell) : (Upd.apply s (.bytes cs)).agenda = s.agenda := rfl
@[simp] theorem apply_bytes_cur (s : State) (cs : List Host.Cell) : (Upd.apply s (.bytes cs)).cur = s.cur := rfl
@[simp] theorem apply_bytes_eng (s : State) (cs : List Host.Cell) : (Upd.apply s (.bytes cs)).eng = s.eng := rfl
@[simp] theorem apply_bytes_held (s : State) (cs : List Host.Cell) : (Upd.apply s (.bytes cs)).held = s.held := rfl
@[simp] theorem apply_clear_mem (s : State) (lo len : Nat) : (Upd.apply s (.clear lo len)).mem = Mem.clear s.mem lo len := rfl
@[simp] theorem apply_clear_tasks (s : State) (lo len : Nat) : (Upd.apply s (.clear lo len)).tasks = s.tasks := rfl
@[simp] theorem apply_clear_cores (s : State) (lo len : Nat) : (Upd.apply s (.clear lo len)).cores = s.cores := rfl
@[simp] theorem apply_clear_leasemax (s : State) (lo len : Nat) : (Upd.apply s (.clear lo len)).leasemax = s.leasemax := rfl
@[simp] theorem apply_clear_rampcfg (s : State) (lo len : Nat) : (Upd.apply s (.clear lo len)).rampcfg = s.rampcfg := rfl
@[simp] theorem apply_clear_rekeyat (s : State) (lo len : Nat) : (Upd.apply s (.clear lo len)).rekeyat = s.rekeyat := rfl
@[simp] theorem apply_clear_dev (s : State) (lo len : Nat) : (Upd.apply s (.clear lo len)).dev = s.dev := rfl
@[simp] theorem apply_clear_agenda (s : State) (lo len : Nat) : (Upd.apply s (.clear lo len)).agenda = s.agenda := rfl
@[simp] theorem apply_clear_cur (s : State) (lo len : Nat) : (Upd.apply s (.clear lo len)).cur = s.cur := rfl
@[simp] theorem apply_clear_eng (s : State) (lo len : Nat) : (Upd.apply s (.clear lo len)).eng = s.eng := rfl
@[simp] theorem apply_clear_held (s : State) (lo len : Nat) : (Upd.apply s (.clear lo len)).held = s.held := rfl
@[simp] theorem apply_task_mem (s : State) (l : Fin 1024) (t : Option Task) : (Upd.apply s (.task l t)).mem = s.mem := rfl
@[simp] theorem apply_task_tasks (s : State) (l : Fin 1024) (t : Option Task) : (Upd.apply s (.task l t)).tasks = s.tasks.set l t := rfl
@[simp] theorem apply_task_cores (s : State) (l : Fin 1024) (t : Option Task) : (Upd.apply s (.task l t)).cores = s.cores := rfl
@[simp] theorem apply_task_leasemax (s : State) (l : Fin 1024) (t : Option Task) : (Upd.apply s (.task l t)).leasemax = s.leasemax := rfl
@[simp] theorem apply_task_rampcfg (s : State) (l : Fin 1024) (t : Option Task) : (Upd.apply s (.task l t)).rampcfg = s.rampcfg := rfl
@[simp] theorem apply_task_rekeyat (s : State) (l : Fin 1024) (t : Option Task) : (Upd.apply s (.task l t)).rekeyat = s.rekeyat := rfl
@[simp] theorem apply_task_dev (s : State) (l : Fin 1024) (t : Option Task) : (Upd.apply s (.task l t)).dev = s.dev := rfl
@[simp] theorem apply_task_agenda (s : State) (l : Fin 1024) (t : Option Task) : (Upd.apply s (.task l t)).agenda = s.agenda := rfl
@[simp] theorem apply_task_cur (s : State) (l : Fin 1024) (t : Option Task) : (Upd.apply s (.task l t)).cur = s.cur := rfl
@[simp] theorem apply_task_eng (s : State) (l : Fin 1024) (t : Option Task) : (Upd.apply s (.task l t)).eng = s.eng := rfl
@[simp] theorem apply_task_held (s : State) (l : Fin 1024) (t : Option Task) : (Upd.apply s (.task l t)).held = s.held := rfl
@[simp] theorem apply_core_mem (s : State) (c : Fin 256) (k : Core) : (Upd.apply s (.core c k)).mem = s.mem := rfl
@[simp] theorem apply_core_tasks (s : State) (c : Fin 256) (k : Core) : (Upd.apply s (.core c k)).tasks = s.tasks := rfl
@[simp] theorem apply_core_cores (s : State) (c : Fin 256) (k : Core) : (Upd.apply s (.core c k)).cores = s.cores.set c k := rfl
@[simp] theorem apply_core_leasemax (s : State) (c : Fin 256) (k : Core) : (Upd.apply s (.core c k)).leasemax = s.leasemax := rfl
@[simp] theorem apply_core_rampcfg (s : State) (c : Fin 256) (k : Core) : (Upd.apply s (.core c k)).rampcfg = s.rampcfg := rfl
@[simp] theorem apply_core_rekeyat (s : State) (c : Fin 256) (k : Core) : (Upd.apply s (.core c k)).rekeyat = s.rekeyat := rfl
@[simp] theorem apply_core_dev (s : State) (c : Fin 256) (k : Core) : (Upd.apply s (.core c k)).dev = s.dev := rfl
@[simp] theorem apply_core_agenda (s : State) (c : Fin 256) (k : Core) : (Upd.apply s (.core c k)).agenda = s.agenda := rfl
@[simp] theorem apply_core_cur (s : State) (c : Fin 256) (k : Core) : (Upd.apply s (.core c k)).cur = s.cur := rfl
@[simp] theorem apply_core_eng (s : State) (c : Fin 256) (k : Core) : (Upd.apply s (.core c k)).eng = s.eng := rfl
@[simp] theorem apply_core_held (s : State) (c : Fin 256) (k : Core) : (Upd.apply s (.core c k)).held = s.held := rfl
@[simp] theorem apply_dev_mem (s : State) (d : Device) : (Upd.apply s (.dev d)).mem = s.mem := rfl
@[simp] theorem apply_dev_tasks (s : State) (d : Device) : (Upd.apply s (.dev d)).tasks = s.tasks := rfl
@[simp] theorem apply_dev_cores (s : State) (d : Device) : (Upd.apply s (.dev d)).cores = s.cores := rfl
@[simp] theorem apply_dev_leasemax (s : State) (d : Device) : (Upd.apply s (.dev d)).leasemax = s.leasemax := rfl
@[simp] theorem apply_dev_rampcfg (s : State) (d : Device) : (Upd.apply s (.dev d)).rampcfg = s.rampcfg := rfl
@[simp] theorem apply_dev_rekeyat (s : State) (d : Device) : (Upd.apply s (.dev d)).rekeyat = s.rekeyat := rfl
@[simp] theorem apply_dev_dev (s : State) (d : Device) : (Upd.apply s (.dev d)).dev = d := rfl
@[simp] theorem apply_dev_agenda (s : State) (d : Device) : (Upd.apply s (.dev d)).agenda = s.agenda := rfl
@[simp] theorem apply_dev_cur (s : State) (d : Device) : (Upd.apply s (.dev d)).cur = s.cur := rfl
@[simp] theorem apply_dev_eng (s : State) (d : Device) : (Upd.apply s (.dev d)).eng = s.eng := rfl
@[simp] theorem apply_dev_held (s : State) (d : Device) : (Upd.apply s (.dev d)).held = s.held := rfl
@[simp] theorem apply_held_mem (s : State) : (Upd.apply s (.held)).mem = s.mem := rfl
@[simp] theorem apply_held_tasks (s : State) : (Upd.apply s (.held)).tasks = s.tasks := rfl
@[simp] theorem apply_held_cores (s : State) : (Upd.apply s (.held)).cores = s.cores := rfl
@[simp] theorem apply_held_leasemax (s : State) : (Upd.apply s (.held)).leasemax = s.leasemax := rfl
@[simp] theorem apply_held_rampcfg (s : State) : (Upd.apply s (.held)).rampcfg = s.rampcfg := rfl
@[simp] theorem apply_held_rekeyat (s : State) : (Upd.apply s (.held)).rekeyat = s.rekeyat := rfl
@[simp] theorem apply_held_dev (s : State) : (Upd.apply s (.held)).dev = s.dev := rfl
@[simp] theorem apply_held_agenda (s : State) : (Upd.apply s (.held)).agenda = s.agenda := rfl
@[simp] theorem apply_held_cur (s : State) : (Upd.apply s (.held)).cur = s.cur := rfl
@[simp] theorem apply_held_eng (s : State) : (Upd.apply s (.held)).eng = s.eng := rfl
@[simp] theorem apply_held_held (s : State) : (Upd.apply s (.held)).held = true := rfl
@[simp] theorem apply_leasemax_mem (s : State) (c : Fin 256) (v : BitVec 64) : (Upd.apply s (.leasemax c v)).mem = s.mem := by
  simp only [Upd.apply]; split <;> rfl
@[simp] theorem apply_leasemax_tasks (s : State) (c : Fin 256) (v : BitVec 64) : (Upd.apply s (.leasemax c v)).tasks = s.tasks := by
  simp only [Upd.apply]; split <;> rfl
@[simp] theorem apply_leasemax_cores (s : State) (c : Fin 256) (v : BitVec 64) : (Upd.apply s (.leasemax c v)).cores = s.cores := by
  simp only [Upd.apply]; split <;> rfl
@[simp] theorem apply_leasemax_rampcfg (s : State) (c : Fin 256) (v : BitVec 64) : (Upd.apply s (.leasemax c v)).rampcfg = s.rampcfg := by
  simp only [Upd.apply]; split <;> rfl
@[simp] theorem apply_leasemax_rekeyat (s : State) (c : Fin 256) (v : BitVec 64) : (Upd.apply s (.leasemax c v)).rekeyat = s.rekeyat := by
  simp only [Upd.apply]; split <;> rfl
@[simp] theorem apply_leasemax_dev (s : State) (c : Fin 256) (v : BitVec 64) : (Upd.apply s (.leasemax c v)).dev = s.dev := by
  simp only [Upd.apply]; split <;> rfl
@[simp] theorem apply_leasemax_agenda (s : State) (c : Fin 256) (v : BitVec 64) : (Upd.apply s (.leasemax c v)).agenda = s.agenda := by
  simp only [Upd.apply]; split <;> rfl
@[simp] theorem apply_leasemax_cur (s : State) (c : Fin 256) (v : BitVec 64) : (Upd.apply s (.leasemax c v)).cur = s.cur := by
  simp only [Upd.apply]; split <;> rfl
@[simp] theorem apply_leasemax_eng (s : State) (c : Fin 256) (v : BitVec 64) : (Upd.apply s (.leasemax c v)).eng = s.eng := by
  simp only [Upd.apply]; split <;> rfl
@[simp] theorem apply_leasemax_held (s : State) (c : Fin 256) (v : BitVec 64) : (Upd.apply s (.leasemax c v)).held = s.held := by
  simp only [Upd.apply]; split <;> rfl
@[simp] theorem apply_rampcfg_mem (s : State) (c : Fin 256) (v : BitVec 64) : (Upd.apply s (.rampcfg c v)).mem = s.mem := by
  simp only [Upd.apply]; split <;> rfl
@[simp] theorem apply_rampcfg_tasks (s : State) (c : Fin 256) (v : BitVec 64) : (Upd.apply s (.rampcfg c v)).tasks = s.tasks := by
  simp only [Upd.apply]; split <;> rfl
@[simp] theorem apply_rampcfg_cores (s : State) (c : Fin 256) (v : BitVec 64) : (Upd.apply s (.rampcfg c v)).cores = s.cores := by
  simp only [Upd.apply]; split <;> rfl
@[simp] theorem apply_rampcfg_leasemax (s : State) (c : Fin 256) (v : BitVec 64) : (Upd.apply s (.rampcfg c v)).leasemax = s.leasemax := by
  simp only [Upd.apply]; split <;> rfl
@[simp] theorem apply_rampcfg_rekeyat (s : State) (c : Fin 256) (v : BitVec 64) : (Upd.apply s (.rampcfg c v)).rekeyat = s.rekeyat := by
  simp only [Upd.apply]; split <;> rfl
@[simp] theorem apply_rampcfg_dev (s : State) (c : Fin 256) (v : BitVec 64) : (Upd.apply s (.rampcfg c v)).dev = s.dev := by
  simp only [Upd.apply]; split <;> rfl
@[simp] theorem apply_rampcfg_agenda (s : State) (c : Fin 256) (v : BitVec 64) : (Upd.apply s (.rampcfg c v)).agenda = s.agenda := by
  simp only [Upd.apply]; split <;> rfl
@[simp] theorem apply_rampcfg_cur (s : State) (c : Fin 256) (v : BitVec 64) : (Upd.apply s (.rampcfg c v)).cur = s.cur := by
  simp only [Upd.apply]; split <;> rfl
@[simp] theorem apply_rampcfg_eng (s : State) (c : Fin 256) (v : BitVec 64) : (Upd.apply s (.rampcfg c v)).eng = s.eng := by
  simp only [Upd.apply]; split <;> rfl
@[simp] theorem apply_rampcfg_held (s : State) (c : Fin 256) (v : BitVec 64) : (Upd.apply s (.rampcfg c v)).held = s.held := by
  simp only [Upd.apply]; split <;> rfl
@[simp] theorem apply_rekeyat_mem (s : State) (p : Fin 30) (v : Nat) : (Upd.apply s (.rekeyat p v)).mem = s.mem := by
  simp only [Upd.apply]; split <;> rfl
@[simp] theorem apply_rekeyat_tasks (s : State) (p : Fin 30) (v : Nat) : (Upd.apply s (.rekeyat p v)).tasks = s.tasks := by
  simp only [Upd.apply]; split <;> rfl
@[simp] theorem apply_rekeyat_cores (s : State) (p : Fin 30) (v : Nat) : (Upd.apply s (.rekeyat p v)).cores = s.cores := by
  simp only [Upd.apply]; split <;> rfl
@[simp] theorem apply_rekeyat_leasemax (s : State) (p : Fin 30) (v : Nat) : (Upd.apply s (.rekeyat p v)).leasemax = s.leasemax := by
  simp only [Upd.apply]; split <;> rfl
@[simp] theorem apply_rekeyat_rampcfg (s : State) (p : Fin 30) (v : Nat) : (Upd.apply s (.rekeyat p v)).rampcfg = s.rampcfg := by
  simp only [Upd.apply]; split <;> rfl
@[simp] theorem apply_rekeyat_dev (s : State) (p : Fin 30) (v : Nat) : (Upd.apply s (.rekeyat p v)).dev = s.dev := by
  simp only [Upd.apply]; split <;> rfl
@[simp] theorem apply_rekeyat_agenda (s : State) (p : Fin 30) (v : Nat) : (Upd.apply s (.rekeyat p v)).agenda = s.agenda := by
  simp only [Upd.apply]; split <;> rfl
@[simp] theorem apply_rekeyat_cur (s : State) (p : Fin 30) (v : Nat) : (Upd.apply s (.rekeyat p v)).cur = s.cur := by
  simp only [Upd.apply]; split <;> rfl
@[simp] theorem apply_rekeyat_eng (s : State) (p : Fin 30) (v : Nat) : (Upd.apply s (.rekeyat p v)).eng = s.eng := by
  simp only [Upd.apply]; split <;> rfl
@[simp] theorem apply_rekeyat_held (s : State) (p : Fin 30) (v : Nat) : (Upd.apply s (.rekeyat p v)).held = s.held := by
  simp only [Upd.apply]; split <;> rfl

end Sys2Proof.Machine
end

