-- ==== Sys2Proof/Laws/Plan.lean ====
section
/-!
SUPPORT. How a meaning runs: what each operation of Plan answers, and what the outcome of a meaning is.
-/

namespace Sys2Proof.Machine

@[simp] theorem applyAll_nil (s : State) : applyAll [] s = s := rfl

@[simp] theorem applyAll_cons (u : Upd) (us : List Upd) (s : State) : applyAll (u :: us) s = applyAll us (u.apply s) := rfl

@[simp] theorem applyAll_append (us vs : List Upd) (s : State) : applyAll (us ++ vs) s = applyAll vs (applyAll us s) := by
  simp [applyAll]

section Run

variable {α β : Type} (us : List Upd) (s : State)

@[simp] theorem run_bind (m : M α) (f : α → M β) :
    (m >>= f) us s = match m us s with
      | .ok (a, vs) => f a vs s
      | .error e => .error e := by
  simp only [bind, StateT.bind, ReaderT.bind, Except.bind]
  cases m us s <;> rfl

@[simp] theorem run_pure (a : α) : (pure a : M α) us s = .ok (a, us) := rfl

@[simp] theorem run_map (m : M α) (f : α → β) :
    (f <$> m) us s = match m us s with
      | .ok (a, vs) => .ok (f a, vs)
      | .error e => .error e := by
  simp only [Functor.map, StateT.map, bind, ReaderT.bind, Except.bind, pure, ReaderT.pure, Except.pure]
  cases m us s <;> rfl

@[simp] theorem run_getState : getState us s = .ok (applyAll us s, us) := rfl

@[simp] theorem run_emit (u : Upd) : emit u us s = .ok ((), us ++ [u]) := rfl

@[simp] theorem run_stop (x : Stop) : (stop x : M α) us s = .error x := rfl

@[simp] theorem run_hold : (hold : M α) us s = .error (.hold []) := rfl

@[simp] theorem run_holdKeeping : (holdKeeping : M α) us s = .error (.hold us) := rfl

@[simp] theorem run_waitFor (b : Bool) : waitFor b us s = if b then .ok ((), us) else .error (.hold []) := by
  cases b <;> rfl

@[simp] theorem run_enabled (b : Bool) :
    enabled b us s = if b then .ok ((), us) else .error .idle := by
  cases b <;> rfl

@[simp] theorem run_getDev : getDev us s = .ok ((applyAll us s).dev, us) := rfl

@[simp] theorem run_setDev (f : Device → Device) : setDev f us s = .ok ((), us ++ [.dev (f (applyAll us s).dev)]) := rfl

@[simp] theorem run_getCore (c : Fin 256) : getCore c us s = .ok ((applyAll us s).cores.get c, us) := rfl

@[simp] theorem run_setCore (c : Fin 256) (f : Core → Core) :
    setCore c f us s = .ok ((), us ++ [.core c (f ((applyAll us s).cores.get c))]) := rfl

@[simp] theorem run_task? (l : Fin 1024) : task? l us s = .ok ((applyAll us s).tasks.get l, us) := rfl

@[simp] theorem run_getTask (l : Fin 1024) :
    getTask l us s = match (applyAll us s).tasks.get l with
      | some t => .ok (t, us)
      | none => .error .idle := by
  simp only [getTask, run_bind, run_getState]
  cases (applyAll us s).tasks.get l <;> rfl

@[simp] theorem run_setTask (l : Fin 1024) (f : Task → Task) :
    setTask l f us s = match (applyAll us s).tasks.get l with
      | some t => .ok ((), us ++ [.task l (some (f t))])
      | none => .ok ((), us) := by
  simp only [setTask, run_bind, run_getState]
  cases (applyAll us s).tasks.get l <;> rfl

@[simp] theorem run_check (c : Ctx) (b : Bool) (k : Cause) (a : Word) (i : BitVec 16) :
    c.check b k a i us s = if b then .ok ((), us) else
      .error (.trap { loc := c.loc, eng := c.eng, pc := c.pc, word := c.word, cause := k, addr := a, index := i, back := c.back }) := by
  cases b <;> rfl

@[simp] theorem run_trap (c : Ctx) (k : Cause) (a : Word) (i : BitVec 16) :
    (c.trap k a i : M α) us s =
      .error (.trap { loc := c.loc, eng := c.eng, pc := c.pc, word := c.word, cause := k, addr := a, index := i, back := c.back }) := rfl

@[simp] theorem run_lift_ok (c : Ctx) (a : Word) (x : α) (i : BitVec 16) : c.lift a (.ok x) i us s = .ok (x, us) := rfl

@[simp] theorem run_lift_cause (c : Ctx) (a : Word) (k : Cause) (i : BitVec 16) :
    (c.lift a (.error (.cause k)) i : M α) us s =
      .error (.trap { loc := c.loc, eng := c.eng, pc := c.pc, word := c.word, cause := k, addr := a, index := i, back := c.back }) := rfl

@[simp] theorem run_ite (c : Prop) [Decidable c] (x y : M α) : (if c then x else y) us s = if c then x us s else y us s := by
  split <;> rfl

/-- A step of a meaning whose answer is known leaves the rest of the meaning. -/
theorem run_step {m : M α} {f : α → M β} {us vs : List Upd} {s : State} {a : α} (h : m us s = .ok (a, vs)) :
    (m >>= f) us s = f a vs s := by
  simp [h]

end Run

/-- A meaning that runs to its end answers the state its updates make. -/
theorem conclude_ok {m : M Unit} {s : State} {us : List Upd} (h : m [] s = .ok ((), us)) :
    conclude m s = .next (applyAll us s) := by
  simp [conclude, h]

theorem conclude_hold {m : M Unit} {s : State} {us : List Upd} (h : m [] s = .error (.hold us)) :
    conclude m s = .next (applyAll (us ++ [.held]) s) := by
  simp [conclude, h]

theorem conclude_trap {m : M Unit} {s : State} {i : TrapInfo} (h : m [] s = .error (.trap i)) :
    conclude m s = .next (applyAll (trapUpds i s) s) := by
  simp [conclude, h]

/-- Whatever a meaning answers as a next state is a list of changes applied to the state it started from. -/
theorem conclude_changes {m : M Unit} {s s' : State} (h : conclude m s = .next s') :
    ∃ us, s' = applyAll us s := by
  unfold conclude at h
  split at h
  all_goals first
    | (cases h; exact ⟨_, rfl⟩)
    | (cases h; exact ⟨[], rfl⟩)
    | cases h

end Sys2Proof.Machine
end

