-- ==== Sys2Proof/Laws/Ops.lean ====
section
/-!
SUPPORT. What the shared operations of the scalar engine answer, each said once: issuing, reading and writing registers,
moving the program counter, and the shapes built from them.
-/

namespace Sys2Proof.Machine

@[simp] theorem headCtx_loc (s : State) (e : Engine) (t : Task) (w : BitVec 32) : (headCtx s e t w).loc = s.cur := rfl
@[simp] theorem headCtx_eng (s : State) (e : Engine) (t : Task) (w : BitVec 32) : (headCtx s e t w).eng = e := rfl
@[simp] theorem headCtx_pc (s : State) (e : Engine) (t : Task) (w : BitVec 32) : (headCtx s e t w).pc = t.pc e := rfl
@[simp] theorem headCtx_word (s : State) (e : Engine) (t : Task) (w : BitVec 32) : (headCtx s e t w).word = w := rfl
@[simp] theorem headCtx_back (s : State) (e : Engine) (t : Task) (w : BitVec 32) : (headCtx s e t w).back = false := rfl
@[simp] theorem headCtx_tag (s : State) (e : Engine) (t : Task) (w : BitVec 32) : (headCtx s e t w).tag = 0 := rfl

/-- An instruction gets its context where its decode tests pass. -/
theorem run_issueAfter {s : State} {e : Engine} {t : Task} (h : s.Issues e t) (w : BitVec 32) {tests : Ctx → M Unit}
    (pass : tests (headCtx s e t w) [] s = .ok ((), [])) : issueAfter e w tests [] s = .ok (headCtx s e t w, []) := by
  have head : atHead e w [] s = .ok (headCtx s e t w, []) := by simp [atHead, h.here, h.may, headCtx]
  simp [issueAfter, headAfter, head, pass, h.here, Task.regionHolds, h.calm]

theorem run_issue {s : State} {e : Engine} {t : Task} (h : s.Issues e t) (w : BitVec 32) :
    issue e w [] s = .ok (headCtx s e t w, []) := run_issueAfter h w rfl

@[simp] theorem run_useS (us : List Upd) (s : State) (c : Ctx) (r : BitVec 6) :
    useS c r us s = match (applyAll us s).tasks.get c.loc with
      | some t => if t.badS r then
          .error (.trap { loc := c.loc, eng := c.eng, pc := c.pc, word := c.word, cause := .mcheck, addr := 0, back := c.back })
        else .ok (t.readS r, us)
      | none => .error .idle := by
  simp only [useS, run_bind, run_getTask, run_check]
  cases (applyAll us s).tasks.get c.loc with
  | none => rfl
  | some t => simp; cases t.badS r <;> rfl

@[simp] theorem run_putS (us : List Upd) (s : State) (c : Ctx) (d : BitVec 6) (v : Word) :
    putS c d v us s = match (applyAll us s).tasks.get c.loc with
      | some t => .ok ((), us ++ [.task c.loc (some (t.writeS d v))])
      | none => .ok ((), us) := by
  exact run_setTask us s c.loc _

@[simp] theorem run_advance (us : List Upd) (s : State) (c : Ctx) :
    advance c us s = match (applyAll us s).tasks.get c.loc with
      | some t => .ok ((), us ++ [.task c.loc (some (t.goto c.eng (c.pc + 4)))])
      | none => .ok ((), us) := by
  exact run_setTask us s c.loc _

/-- Two changes of one task are one. -/
@[simp] theorem apply_task_twice (s : State) (l : Fin 1024) (x y : Option Task) :
    Upd.apply (Upd.apply s (.task l x)) (.task l y) = Upd.apply s (.task l y) := by
  simp [Upd.apply]

theorem apply_task_here (s : State) (t : Task) : Upd.apply s (.task s.cur (some t)) = s.withTask t := rfl

/-- A two-source instruction writes its register and moves on. -/
theorem scalarR_completes {s : State} {t : Task} (h : s.Issues .s t) (w : BitVec 32) (d a b : BitVec 6)
    (f : Word → Word → Word) (ha : t.badS a = false) (hb : t.badS b = false) :
    conclude (scalarR w d a b f) s = .next (s.withTask ((t.writeS d (f (t.readS a) (t.readS b))).goto .s (t.pcS + 4))) := by
  simp [conclude, scalarR, run_issue h, h.here, ha, hb, Task.pc]
  rfl

/-- A one-source instruction writes its register and moves on. -/
theorem scalarI_completes {s : State} {t : Task} (h : s.Issues .s t) (w : BitVec 32) (d a : BitVec 6)
    (f : Word → Word) (ha : t.badS a = false) :
    conclude (scalarI w d a f) s = .next (s.withTask ((t.writeS d (f (t.readS a))).goto .s (t.pcS + 4))) := by
  simp [conclude, scalarI, run_issue h, h.here, ha, Task.pc]
  rfl

/-- A constant goes to its register. -/
theorem scalarU_completes {s : State} {t : Task} (h : s.Issues .s t) (w : BitVec 32) (d : BitVec 6) (f : Word → Word) :
    conclude (scalarU w d f) s = .next (s.withTask ((t.writeS d (f t.pcS)).goto .s (t.pcS + 4))) := by
  simp [conclude, scalarU, run_issue h, h.here, Task.pc]
  rfl

/-- A branch goes where its condition says. -/
theorem branch_completes {s : State} {t : Task} (h : s.Issues .s t) (w : BitVec 32) (a b : BitVec 6) (off : BitVec 14)
    (f : Word → Word → Bool) (ha : t.badS a = false) (hb : t.badS b = false) :
    conclude (branch w a b off f) s = .next (s.withTask (t.goto .s
      (if f (t.readS a) (t.readS b) then t.pcS + (off.signExtend 64 <<< 2) else t.pcS + 4))) := by
  simp [conclude, branch, run_issue h, h.here, ha, hb, Task.pc]
  rfl

/-- A source that holds poisoned data takes MCHECK. -/
theorem scalarR_poisoned {s : State} {t : Task} (h : s.Issues .s t) (w : BitVec 32) (d a b : BitVec 6)
    (f : Word → Word → Word) (hb : (t.badS a || t.badS b) = true) :
    conclude (scalarR w d a b f) s = .next (s.trapped .s t w .mcheck 0) := by
  cases ha : t.badS a <;> simp_all [conclude, scalarR, run_issue h, h.here, trapUpds, State.trapped] <;> rfl

end Sys2Proof.Machine
end

