-- ==== Sys2Proof/Laws/Engines.lean ====
section
/-!
SUPPORT. What the shared operations of the vector, matrix and copy engines and of the events answer, each said once.
-/

namespace Sys2Proof.Machine

variable (us : List Upd) (s : State)

/-- The trap that an instruction raises for what it was not granted. -/
def ungranted (c : Ctx) : Stop :=
  .trap { loc := c.loc, eng := c.eng, pc := c.pc, word := c.word, cause := .illegal, addr := 0, back := c.back }

@[simp] theorem run_needV (c : Ctx) (rs : List (BitVec 6)) :
    needV c rs us s = match (applyAll us s).tasks.get c.loc with
      | some t => if rs.all t.vregOk then .ok ((), us) else .error (ungranted c)
      | none => .error .idle := by
  simp only [needV, run_bind, run_getTask, run_check]
  cases (applyAll us s).tasks.get c.loc <;> rfl

@[simp] theorem run_needQ (c : Ctx) (qs : List (BitVec 4)) :
    needQ c qs us s = match (applyAll us s).tasks.get c.loc with
      | some t => if qs.all fun q => decide (q.toNat < t.grant.streams) then .ok ((), us) else .error (ungranted c)
      | none => .error .idle := by
  simp only [needQ, run_bind, run_getTask, run_check]
  cases (applyAll us s).tasks.get c.loc <;> rfl

@[simp] theorem run_needA (c : Ctx) (a : BitVec 4) :
    needA c a us s = match (applyAll us s).tasks.get c.loc with
      | some t => if a.toNat < t.grant.acc then .ok ((), us) else .error (ungranted c)
      | none => .error .idle := by
  simp only [needA, run_bind, run_getTask, run_check]
  cases (applyAll us s).tasks.get c.loc <;> simp [ungranted]

@[simp] theorem run_waitKeeping (b : Bool) : waitKeeping b us s = if b then .ok ((), us) else .error (.hold us) := by
  cases b <;> rfl

@[simp] theorem run_wantLease (c : Ctx) : wantLease c us s = .ok ((), us ++ [.core (coreOf c.loc)
    (((applyAll us s).cores.get (coreOf c.loc)).askLease (slotOf c.loc) (applyAll us s).dev.clock)]) := rfl

/-- A copy-engine instruction starts where its tokens are there and those it gives have room. -/
theorem run_startC {us : List Upd} {s : State} {c : Ctx} {w g : BitVec 3} {t : Task} (h : (applyAll us s).tasks.get c.loc = some t)
    (alive : t.deadWait .c w = false) (tokens : t.hasTokens .c w = true) (room : t.hasRoom .c g = true) :
    startC c w g us s = .ok ((), us) := by
  simp [startC, h, alive, tokens, room]

/-- A matrix instruction that needs no lease starts on the same terms. -/
theorem run_startM {us : List Upd} {s : State} {c : Ctx} {w g : BitVec 3} {t : Task} (h : (applyAll us s).tasks.get c.loc = some t)
    (calm : t.draining = false) (loaded : t.loading = false) (alive : t.deadWait .m w = false) (tokens : t.hasTokens .m w = true)
    (room : t.hasRoom .m g = true) : startM c false w g us s = .ok ((), us) := by
  simp [startM, h, Task.regionHolds, calm, loaded, alive, tokens, room]

@[simp] theorem run_queueM (c : Ctx) (w g : BitVec 3) (work : MWork) (tile : Option Nat) (flags : BitVec 8) (reads : List Nat)
    (slotA : Option Nat) : queueM c w g work tile flags reads slotA us s = match (applyAll us s).tasks.get c.loc with
      | some t => .ok ((), us ++ [.task c.loc (some
          { ((t.takeTokens .m w).reserveTokens .m g).goto .m (c.pc + 4) with
            mjobs := ((t.takeTokens .m w).reserveTokens .m g).mjobs ++ [{ word := c.word, pc := c.pc, gives := g, work, tile, flags, reads, slotA }] })])
      | none => .ok ((), us) :=
  run_setTask us s c.loc _

@[simp] theorem run_queueC (c : Ctx) (w g : BitVec 3) (work : CWork) :
    queueC c w g work us s = match (applyAll us s).tasks.get c.loc with
      | some t => .ok ((), us ++ [.task c.loc (some
          { ((t.takeTokens .c w).reserveTokens .c g).goto .c (c.pc + 4) with
            cjobs := ((t.takeTokens .c w).reserveTokens .c g).cjobs ++ [{ word := c.word, pc := c.pc, gives := g, work }] })])
      | none => .ok ((), us) :=
  run_setTask us s c.loc _

@[simp] theorem run_newUid : newUid us s =
    .ok ((applyAll us s).dev.nextUid, us ++ [.dev { (applyAll us s).dev with nextUid := (applyAll us s).dev.nextUid + 1 }]) := rfl

@[simp] theorem run_freeValue : freeValue us s = .ok (Config.freeWord (applyAll us s).dev.draws,
    us ++ [.dev { (applyAll us s).dev with draws := (applyAll us s).dev.draws + 1 }]) := rfl

@[simp] theorem run_rxAt (n : Nat) : rxAt n us s = match (applyAll us s).dev.rx[n]? with
    | some p => .ok (p, us)
    | none => .error .idle := by
  simp only [rxAt, run_bind, run_getDev]
  cases (applyAll us s).dev.rx[n]? <;> rfl

@[simp] theorem run_rxDrop (n : Nat) : rxDrop n us s =
    .ok ((), us ++ [.dev ((applyAll us s).dev.taken n)]) := rfl

/-- Two changes of the device are one. -/
@[simp] theorem apply_dev_twice (s : State) (d e : Device) : Upd.apply (Upd.apply s (.dev d)) (.dev e) = Upd.apply s (.dev e) := rfl

/-- A meaning that runs to its end answers the state that its updates make, and no other. -/
theorem conclude_next_iff (m : M Unit) (s s' : State) (us : List Upd) (h : m [] s = .ok ((), us)) :
    conclude m s = .next s' ↔ s' = applyAll us s := by
  rw [conclude_ok h]
  exact ⟨fun e => by cases e; rfl, fun e => by rw [e]⟩

end Sys2Proof.Machine
end

