-- ==== Sys2Proof/Laws/Memory.lean ====
section
/-!
SUPPORT. Memory: every operation keeps the canonical form, a read after a write gives what was written and a write leaves
every other byte alone; and every change of the state keeps what a sound state promises.
-/

namespace Sys2Proof.Machine

/-- Every listed address is at least a bound. -/
def Mem.atLeast (n : Nat) (m : List Host.Cell) : Prop := ∀ c ∈ m, n ≤ c.1

theorem Mem.wf_cons {c : Host.Cell} {m : List Host.Cell} :
    Mem.wf (c :: m) = true ↔ c.2 ≠ emptyByte ∧ Mem.atLeast (c.1 + 1) m ∧ Mem.wf m = true := by
  induction m generalizing c with
  | nil => simp [Mem.wf, Mem.atLeast]
  | cons d m ih =>
    simp only [Mem.wf, Bool.and_eq_true, bne_iff_ne, decide_eq_true_eq]
    constructor
    · rintro ⟨⟨h1, h2⟩, h3⟩
      refine ⟨h1, ?_, h3⟩
      intro x hx
      rcases List.mem_cons.mp hx with rfl | hx
      · omega
      · have := (ih.mp h3).2.1 x hx; omega
    · rintro ⟨h1, h2, h3⟩
      exact ⟨⟨h1, by have := h2 d (by simp); omega⟩, h3⟩

/-- A write lists nothing below what was listed and the address written. -/
theorem Mem.write_atLeast {n a : Nat} {b : Byte} {m : List Host.Cell} (h : Mem.atLeast n m) (ha : n ≤ a) :
    Mem.atLeast n (Mem.write m a b) := by
  induction m with
  | nil => simp only [Mem.write]; split <;> simp_all [Mem.atLeast]
  | cons c m ih =>
    have hc : n ≤ c.1 := h c (by simp)
    have hm : Mem.atLeast n m := fun x hx => h x (by simp [hx])
    simp only [Mem.write]
    split
    · intro x hx
      rcases List.mem_cons.mp hx with rfl | hx
      · exact hc
      · exact ih hm x hx
    · split
      · split
        · exact hm
        · exact h
      · split
        · intro x hx
          rcases List.mem_cons.mp hx with rfl | hx
          · exact ha
          · exact hm x hx
        · intro x hx
          rcases List.mem_cons.mp hx with rfl | hx
          · exact ha
          · exact h x hx

/-- A write keeps the canonical form. -/
theorem Mem.write_wf {m : List Host.Cell} (a : Nat) (b : Byte) (h : Mem.wf m = true) : Mem.wf (Mem.write m a b) = true := by
  induction m with
  | nil => simp only [Mem.write]; split <;> simp_all [Mem.wf]
  | cons c m ih =>
    obtain ⟨h1, h2, h3⟩ := Mem.wf_cons.mp h
    simp only [Mem.write]
    split
    · exact Mem.wf_cons.mpr ⟨h1, Mem.write_atLeast h2 (by omega), ih h3⟩
    · rename_i hlt
      by_cases he : c.1 = a
      · simp only [he, beq_self_eq_true, if_true]
        split
        · exact h3
        · exact Mem.wf_cons.mpr ⟨by simp_all, he ▸ h2, h3⟩
      · simp only [beq_eq_false_iff_ne.mpr he]
        split
        · simpa using h
        · refine Mem.wf_cons.mpr ⟨by simp_all, ?_, by simpa using h⟩
          intro x hx
          simp only [Bool.false_eq_true, if_false] at hx
          rcases List.mem_cons.mp hx with rfl | hx
          · simp only; omega
          · have := h2 x hx; simp only; omega

theorem Mem.writeAll_wf {m : List Host.Cell} (cs : List Host.Cell) (h : Mem.wf m = true) : Mem.wf (Mem.writeAll m cs) = true := by
  induction cs generalizing m with
  | nil => exact h
  | cons c cs ih => exact ih (Mem.write_wf c.1 c.2 h)

theorem Mem.writeBits_wf {m : List Host.Cell} (bit w v : Nat) (h : Mem.wf m = true) : Mem.wf (Mem.writeBits m bit w v) = true :=
  Mem.writeAll_wf _ h

theorem Mem.filter_wf {m : List Host.Cell} (p : Host.Cell → Bool) (h : Mem.wf m = true) : Mem.wf (m.filter p) = true := by
  induction m with
  | nil => rfl
  | cons c m ih =>
    obtain ⟨h1, h2, h3⟩ := Mem.wf_cons.mp h
    simp only [List.filter_cons]
    split
    · exact Mem.wf_cons.mpr ⟨h1, fun x hx => h2 x (List.mem_of_mem_filter hx), ih h3⟩
    · exact ih h3

theorem Mem.clear_wf {m : List Host.Cell} (lo len : Nat) (h : Mem.wf m = true) : Mem.wf (Mem.clear m lo len) = true :=
  Mem.filter_wf _ h

theorem Mem.read_below {n a : Nat} {m : List Host.Cell} (h : Mem.atLeast n m) (ha : a < n) : Mem.read m a = emptyByte := by
  cases m with
  | nil => rfl
  | cons c m =>
    have hc : n ≤ c.1 := h c (by simp)
    simp only [Mem.read]
    rw [if_neg (by simp; omega), if_pos (by omega)]

/-- A read after a write of the same place gives what was written; every other place reads as before. -/
theorem Mem.read_write {m : List Host.Cell} (a x : Nat) (b : Byte) (h : Mem.wf m = true) :
    Mem.read (Mem.write m a b) x = if x = a then b else Mem.read m x := by
  induction m with
  | nil =>
    simp only [Mem.write]
    split
    · rename_i hb; simp only [beq_iff_eq] at hb; simp [Mem.read, hb]
    · by_cases e : x = a
      · simp [Mem.read, e]
      · simp only [Mem.read, beq_eq_false_iff_ne.mpr (Ne.symm e), e]; simp
  | cons c m ih =>
    obtain ⟨h1, h2, h3⟩ := Mem.wf_cons.mp h
    simp only [Mem.write]
    split
    · rename_i hlt
      simp only [Mem.read]
      by_cases e1 : c.1 = x
      · have : x ≠ a := by omega
        simp [e1, this]
      · simp only [beq_eq_false_iff_ne.mpr e1, Bool.false_eq_true, if_false]
        by_cases e2 : x < c.1
        · have : x ≠ a := by omega
          simp [e2, this]
        · simp only [e2, if_false]; exact ih h3
    · rename_i hlt
      by_cases he : c.1 = a
      · simp only [he, beq_self_eq_true, if_true]
        split
        · rename_i hb; simp only [beq_iff_eq] at hb
          by_cases e : x = a
          · subst e; rw [Mem.read_below (n := c.1 + 1) h2 (by omega)]; simp [hb]
          · simp only [Mem.read, he, beq_eq_false_iff_ne.mpr (Ne.symm e), e, Bool.false_eq_true, if_false]
            by_cases e2 : x < a
            · rw [Mem.read_below (n := c.1 + 1) h2 (by omega)]; simp [e2]
            · simp [e2]
        · by_cases e : x = a
          · simp [Mem.read, e]
          · simp only [Mem.read, he, beq_eq_false_iff_ne.mpr (Ne.symm e), e, Bool.false_eq_true, if_false]
      · simp only [beq_eq_false_iff_ne.mpr he, Bool.false_eq_true, if_false]
        split
        · rename_i hb; simp only [beq_iff_eq] at hb
          by_cases e : x = a
          · subst e; simp only [Mem.read, beq_eq_false_iff_ne.mpr he, Bool.false_eq_true, if_false]
            rw [if_pos (by omega)]; simp [hb]
          · simp [e]
        · by_cases e : x = a
          · simp [Mem.read, e]
          · rw [Mem.read]
            simp only [beq_eq_false_iff_ne.mpr (Ne.symm e), e, Bool.false_eq_true, if_false]
            by_cases e2 : x < a
            · simp only [e2, if_true]
              rw [Mem.read, if_neg (by simp; omega), if_pos (by omega)]
            · simp [e2]

/-- A byte that no cell of a list names reads as before the list was written. -/
theorem Mem.read_writeAll_other {m : List Host.Cell} (cs : List Host.Cell) (x : Nat) (h : Mem.wf m = true)
    (hx : ∀ c ∈ cs, c.1 ≠ x) : Mem.read (Mem.writeAll m cs) x = Mem.read m x := by
  induction cs generalizing m with
  | nil => rfl
  | cons c cs ih =>
    rw [Mem.writeAll, List.foldl_cons, ← Mem.writeAll, ih (Mem.write_wf _ _ h) (fun d hd => hx d (by simp [hd])), Mem.read_write _ _ _ h]
    simp [(hx c (by simp)).symm]

theorem reset_mem_wf : Mem.wf State.reset.mem = true := rfl

theorem reset_sound : State.reset.Sound where
  mem := rfl
  leasemax c := by simp [State.reset, Vector.get]
  rampcfg c := by simp [State.reset, Vector.get]
  rekeyat p := by simp [State.reset, Vector.get]

/-- One change keeps a sound state sound. -/
theorem apply_sound {s : State} (h : s.Sound) (u : Upd) : (u.apply s).Sound := by
  obtain ⟨hm, hl, hr, hk⟩ := h
  cases u with
  | bytes cs => exact ⟨Mem.writeAll_wf cs hm, hl, hr, hk⟩
  | clear lo len => exact ⟨Mem.clear_wf lo len hm, hl, hr, hk⟩
  | task l t => exact ⟨hm, hl, hr, hk⟩
  | core c k => exact ⟨hm, hl, hr, hk⟩
  | dev d => exact ⟨hm, hl, hr, hk⟩
  | held => exact ⟨hm, hl, hr, hk⟩
  | restart => exact ⟨rfl, reset_sound.leasemax, reset_sound.rampcfg, reset_sound.rekeyat⟩
  | leasemax c v =>
    simp only [Upd.apply]
    split
    · rename_i ok
      refine ⟨hm, fun d => ?_, hr, hk⟩
      by_cases e : c = d
      · subst e
        simp only [leasemaxOk, Bool.and_eq_true, decide_eq_true_eq] at ok
        simp only [vector_get_set_self, BitVec.toNat_setWidth]
        omega
      · simpa [vector_get_set_ne _ _ _ e] using hl d
    · exact ⟨hm, hl, hr, hk⟩
  | rampcfg c v =>
    simp only [Upd.apply]
    split
    · rename_i ok
      refine ⟨hm, hl, fun d => ?_, hk⟩
      by_cases e : c = d
      · subst e
        simp only [rampcfgOk, Bool.and_eq_true, decide_eq_true_eq] at ok
        simp only [vector_get_set_self, BitVec.toNat_setWidth]
        omega
      · simpa [vector_get_set_ne _ _ _ e] using hr d
    · exact ⟨hm, hl, hr, hk⟩
  | rekeyat p v =>
    simp only [Upd.apply]
    split
    · rename_i ok
      refine ⟨hm, hl, hr, fun q => ?_⟩
      by_cases e : p = q
      · subst e
        simp only [rekeyatOk, Bool.and_eq_true, decide_eq_true_eq] at ok
        simp only [vector_get_set_self, BitVec.toNat_ofNat]
        omega
      · simpa [vector_get_set_ne _ _ _ e] using hk q
    · exact ⟨hm, hl, hr, hk⟩

/-- A list of changes keeps a sound state sound; so whatever a meaning answers from one is sound (`conclude_changes`). -/
theorem applyAll_sound {s : State} (h : s.Sound) (us : List Upd) : (applyAll us s).Sound := by
  induction us generalizing s with
  | nil => exact h
  | cons u us ih => exact ih (apply_sound h u)

end Sys2Proof.Machine
end

