-- ==== Sys2Proof/Laws/Reads.lean ====
section
/-!
SUPPORT. Reads and checks change nothing: what a meaning has read, it answers with the changes named so far.
-/

namespace Sys2Proof.Machine

/-- A part of a meaning that names no change. -/
def Still {α : Type} (m : M α) : Prop := ∀ us s g vs, m us s = .ok (g, vs) → vs = us

section Still

variable {α β : Type}

theorem Still.bind {m : M α} {f : α → M β} (h : Still m) (k : ∀ a, Still (f a)) : Still (m >>= f) := by
  intro us s g vs e
  rw [run_bind] at e
  cases r : m us s with
  | ok x => rw [r] at e; rw [k _ _ _ _ _ e, h _ _ _ _ r]
  | error x => rw [r] at e; cases e

theorem Still.pure (a : α) : Still (pure a : M α) := by
  intro us s g vs e; cases e; rfl

theorem Still.getState : Still getState := by
  intro us s g vs e; cases e; rfl

theorem Still.stop (x : Stop) : Still (stop x : M α) := by
  intro us s g vs e; cases e

theorem Still.getTask (l : Fin 1024) : Still (getTask l) := by
  unfold Machine.getTask
  refine .bind .getState fun s => ?_
  split
  · exact .pure _
  · exact .stop _

theorem Still.waitFor (b : Bool) : Still (waitFor b) := by
  cases b
  · exact .stop _
  · exact .pure _

theorem Still.check (c : Ctx) (b : Bool) (k : Cause) (a : Word) (i : BitVec 16) : Still (c.check b k a i) := by
  cases b
  · exact .stop _
  · exact .pure _

theorem Still.trap (c : Ctx) (k : Cause) (a : Word) (i : BitVec 16) : Still (c.trap k a i : M α) := .stop _

theorem Still.lift (c : Ctx) (a : Word) (x : W α) (i : BitVec 16) : Still (c.lift a x i) := by
  match x with
  | .ok y => exact .pure y
  | .error (.cause k) => exact .stop _
  | .error (.absent n) => exact .stop _

theorem Still.awaitMid (c : Ctx) (b : Bool) : Still (awaitMid c b) := by
  unfold Machine.awaitMid
  refine .bind (.getTask _) fun t => ?_
  split
  · exact .pure _
  · split <;> exact .stop _

theorem Still.askAway (c : Ctx) (t : Task) (a : Word) (want : Want) (dev : BitVec 8) (vc : BitVec 3) (body : Nat → Body) :
    Still (askAway c t a want dev vc body : M α) := by
  unfold Machine.askAway
  refine .bind (fun us s g vs e => by cases e; rfl) fun d => ?_
  split
  · exact .stop _
  · exact .stop _

/-- One read changes nothing (R97). -/
theorem Still.readSpot (c : Ctx) (a : Word) (w : Want) (i : BitVec 16) (sub : Nat) : Still (readSpot c a w i sub) := by
  unfold Machine.readSpot
  refine .bind (.getTask _) fun t => .bind .getState fun s => .bind (.lift _ _ _ _) fun spot => ?_
  split
  · split
    · exact .pure _
    · exact .bind (.awaitMid _ _) fun _ => .bind (.check _ _ _ _ _) fun _ => .pure _
  · exact .bind (.awaitMid _ _) fun _ => .bind (.check _ _ _ _ _) fun _ => .pure _
  · split
    · exact .pure _
    · exact .trap _ _ _ _
    · exact .bind (.awaitMid _ _) fun _ => .askAway _ _ _ _ _ _ _

/-- The checks of one write change nothing (R97). -/
theorem Still.writeSpot (c : Ctx) (a : Word) (w : Want) (v : Nat) (i : BitVec 16) (sub : Nat) :
    Still (writeSpot c a w v i sub) := by
  unfold Machine.writeSpot
  refine .bind (.getTask _) fun t => .bind .getState fun s => .bind (.lift _ _ _ _) fun spot => ?_
  split
  · exact .pure _
  · exact .bind (.check _ _ _ _ _) fun _ => .pure _
  · exact .pure _

/-- The checks of one element of a stream change nothing (R185). -/
theorem Still.checkElement (c : Ctx) (x : Access) (k : Acc) (j : Nat) : Still (checkElement c x k j) := by
  unfold Machine.checkElement
  refine .bind (.getTask _) fun t => .bind .getState fun s => ?_
  dsimp only
  split
  · exact .trap _ _ _ _
  · refine .bind (.check _ _ _ _ _) fun _ => .bind ?_ fun _ => ?_
    · split
      · exact .bind (.lift _ _ _ _) fun _ => .check _ _ _ _ _
      · exact .pure _
    · split
      · exact .trap _ _ _ _
      · exact .bind (.check _ _ _ _ _) fun _ => .bind (.lift _ _ _ _) fun _ => .pure _

end Still

/-- What a part that names no change finds, from its answer alone. -/
theorem Still.finds {α : Type} [DecidableEq α] {m : M α} (q : Still m) {us : List Upd} {s : State} {x : α}
    (h : (match m us s with | .ok y => decide (y.1 = x) | .error _ => false) = true) : m us s = .ok (x, us) := by
  cases e : m us s with
  | ok y => rw [e] at h; rw [← of_decide_eq_true h, ← q us s y.1 y.2 e]
  | error z => rw [e] at h; cases h

end Sys2Proof.Machine
end

