-- ==== Sys2Proof/Laws/Saving.lean ====
section
/-!
SUPPORT. What saving a task keeps of its issued instructions, and when a notice waits, each said once.
-/

namespace Sys2Proof.Machine

/-- What `carryM` keeps and gives: the jobs carried, each with what it does; their tokens are, in order, those of the jobs from the
first of them on, and what is given at once are those of the jobs before it. -/
theorem carryM_spec (js : List MJob) :
    (carryM js).2.map MJob.work = (js.filter MJob.carried).map MJob.work ∧
    (carryM js).2.flatMap MJob.masks = (js.dropWhile fun j => !j.carried).flatMap MJob.masks ∧
    (carryM js).1 = (js.takeWhile fun j => !j.carried).flatMap MJob.masks := by
  induction js with
  | nil => exact ⟨rfl, rfl, rfl⟩
  | cons j js ih =>
    obtain ⟨h1, h2, h3⟩ := ih
    have split : js.flatMap MJob.masks = (carryM js).1 ++ (carryM js).2.flatMap MJob.masks := by
      rw [h2, h3, ← List.flatMap_append, List.takeWhile_append_dropWhile]
    by_cases c : j.carried = true
    · have m : MJob.masks { j with carry := j.carry ++ (carryM js).1 } = j.masks ++ (carryM js).1 := rfl
      simp [carryM, c, h1, m, split]
    · simp [carryM, c, h1, h2, h3]

/-- Likewise `carryC`. -/
theorem carryC_spec (js : List CJob) :
    (carryC js).2.map CJob.work = (js.filter CJob.isCopy).map CJob.work ∧
    (carryC js).2.flatMap CJob.masks = (js.dropWhile fun j => !j.isCopy).flatMap CJob.masks ∧
    (carryC js).1 = (js.takeWhile fun j => !j.isCopy).flatMap CJob.masks := by
  induction js with
  | nil => exact ⟨rfl, rfl, rfl⟩
  | cons j js ih =>
    obtain ⟨h1, h2, h3⟩ := ih
    have split : js.flatMap CJob.masks = (carryC js).1 ++ (carryC js).2.flatMap CJob.masks := by
      rw [h2, h3, ← List.flatMap_append, List.takeWhile_append_dropWhile]
    by_cases c : j.isCopy = true
    · have m : CJob.masks { j with carry := j.carry ++ (carryC js).1 } = j.masks ++ (carryC js).1 := rfl
      simp [carryC, c, h1, m, split]
    · simp [carryC, c, h1, h2, h3]

/-- A notice waits while its queue is full or the controller holds earlier ones, and is posted otherwise. -/
@[simp] theorem run_notify (us : List Upd) (s : State) (n : Notice) : notify n us s =
    if noticeRoom (applyAll us s) && (applyAll us s).dev.noticesHeld.isEmpty then postNotice n us s else .error .idle := by
  simp only [notify, run_bind, run_getState, enabled]
  by_cases h : (noticeRoom (applyAll us s) && (applyAll us s).dev.noticesHeld.isEmpty) = true
  · rw [if_pos h, if_pos h]; rfl
  · rw [if_neg h, if_neg h]; rfl

end Sys2Proof.Machine
end

