-- ==== Sys2Proof/Tests/Slice0.lean ====
section
/-!
SUPPORT. Tests: what the formats refuse, words of the opcode maps, one step of an instruction, and for each statement
something that meets its hypotheses.
-/

namespace Sys2Proof.Tests

open Sys2Proof Sys2Proof.Machine Sys2Proof.Spec
set_option Elab.async false

/-! ## States -/

/-- A task at supervisor level with every resource granted. -/
def tk : Task := { bootTask with tid := 5 }

/-- The machine with one task, in the current place. -/
def alone (t : Task) : State := State.reset.withTask t

theorem alone_issues {t : Task} {e : Engine} (h : t.mayIssue (alone t).dev.clock e = true) (c : t.draining = false) : (alone t).Issues e t :=
  ⟨vector_get_set_self _ _ _ (Fin.isLt _), h, c⟩

/-- The tables of log 3 as cells of memory. -/
def tables : List Host.Cell :=
  [(1099512676354, 17), (1099512676357, 1), (1099512676359, 64), (1099512741890, 18), (1099512741893, 1), (1099512741895, 64),
   (1099512807426, 19), (1099512807429, 1), (1099512807431, 128), (1099512807438, 240), (1099512807439, 255), (1099512872962, 128),
   (1099512872963, 99), (1099512872965, 32), (1099512938499, 4), (1099512938624, 1), (1099512938625, 12), (1099512938626, 31)]

theorem test_tables : (State.reset.withFetchWord 32 0).mem = tables := by decide +kernel

/-- A core that has cached the first page's leaf and frame word. -/
def cachedCore : Core :=
  { posTlb := [{ tenant := 0, page := 0, large := true, record := 1099512872960, perms := 0xFFF, object := 0, first := 0, length := 2 ^ 26 }]
    frames := [{ tenant := 0, page := 0, large := true, record := 1099512872960, plane := 0, word := 0x200063800000 }] }

/-- The same with those tables in memory: page 0 of tenant 0, plane 0, is byte memory at `frame`. -/
def mapped (t : Task) : State :=
  { alone t with
    mem := tables
    cores := State.reset.cores.set 0 cachedCore
    dev := { State.reset.dev with tenants := State.reset.dev.tenants.set 0 #v[1, 0x10000100000, 0x10000140000, 1] } }

def frame : Nat := 2 ^ 40 + bootFrame

theorem mapped_issues {t : Task} {e : Engine} (h : t.mayIssue (mapped t).dev.clock e = true) (c : t.draining = false) : (mapped t).Issues e t :=
  ⟨vector_get_set_self _ _ _ (Fin.isLt _), h, c⟩

/-- The task with a value in s1. -/
def s1 (v : Word) : Task := { tk with s := tk.s.set 1 v }

/-- What a plan answers is as said. -/
theorem runs {α : Type} [DecidableEq α] {m : Except Stop α} {x : α}
    (h : (match m with | .ok y => decide (y = x) | .error _ => false) = true) : m = .ok x := by
  cases m with
  | ok y => simpa using h
  | error e => simp at h

theorem finds {α : Type} [DecidableEq α] {m : W α} {x : α}
    (h : (match m with | .ok y => decide (y = x) | .error _ => false) = true) : m = .ok x := by
  cases m with
  | ok y => simpa using h
  | error e => simp at h

theorem refuses {α : Type} {m : W α} {k : Cause}
    (h : (match m with | .error (.cause j) => decide (j = k) | _ => false) = true) : m = .error (.cause k) := by
  match m, h with
  | .error (.cause j), h => simpa using h
  | .ok _, h => simp at h
  | .error (.absent _), h => simp at h

/-! ## Each statement's hypotheses are met by something -/

theorem witness_TwoSourceArithmetic : ∃ i d a b f s t, twoSource i = some (d, a, b, f) ∧ State.Issues s .s t ∧
    t.badS a = false ∧ t.badS b = false :=
  ⟨.div 3 1 0, 3, 1, 0, _, alone (s1 7), s1 7, rfl, alone_issues rfl rfl, rfl, rfl⟩

theorem witness_OneSourceArithmetic : ∃ i d a f s t, oneSource i = some (d, a, f) ∧ State.Issues s .s t ∧ t.badS a = false :=
  ⟨.addi 3 1 0x2000, 3, 1, _, alone (s1 7), s1 7, rfl, alone_issues rfl rfl, rfl⟩

/-- At the last position an add of 1 traps, an add of 0 does not. -/
theorem witness_PositionAdds : (∃ i d a s t, positionAdds t i = some (d, a, 1) ∧ State.Issues s .s t ∧ t.badS a = false ∧
      (2 ^ addField (t.readS a) : Nat) ≤ (((t.readS a).toNat % 2 ^ addField (t.readS a) : Nat) : Int) + 1) ∧
    ∃ i d a s t, positionAdds t i = some (d, a, 0) ∧ State.Issues s .s t ∧ t.badS a = false ∧
      (((t.readS a).toNat % 2 ^ addField (t.readS a) : Nat) : Int) + 0 < (2 ^ addField (t.readS a) : Nat) :=
  ⟨⟨.paddi 3 1 1, 3, 1, alone (s1 (2 ^ 57 - 1)), s1 (2 ^ 57 - 1), rfl, alone_issues rfl rfl, rfl, by decide +kernel⟩,
   ⟨.padd 3 1 2, 3, 1, alone (s1 (2 ^ 57 - 1)), s1 (2 ^ 57 - 1), rfl, alone_issues rfl rfl, rfl, by decide +kernel⟩⟩

theorem witness_BranchesAndJumps_1 : ∃ i a b off f s t, branches i = some (a, b, off, f) ∧ State.Issues s .s t ∧ t.badS a = false ∧
    t.badS b = false :=
  ⟨.blt 1 0 0x2000, 1, 0, 0x2000, _, alone (s1 7), s1 7, rfl, alone_issues rfl rfl, rfl, rfl⟩

/-- A target of `jalr` that is aligned, and one that is not. -/
theorem witness_BranchesAndJumps_2 : (∃ s t, State.Issues s .s t ∧ t.badS 1 = false ∧ (BitVec.ofInt 64 ((t.readS 1).toInt + 0)).toNat % 4 = 0) ∧
    ∃ s t, State.Issues s .s t ∧ t.badS 1 = false ∧ (BitVec.ofInt 64 ((t.readS 1).toInt + 3)).toNat % 4 ≠ 0 :=
  ⟨⟨_, s1 8, alone_issues rfl rfl, rfl, by decide +kernel⟩, ⟨_, s1 8, alone_issues rfl rfl, rfl, by decide +kernel⟩⟩

/-- The task with a poisoned scalar register, and with a poisoned lane of v1. -/
def spoiltS : Task := { tk with sPoison := 2 }
def spoiltV : Task := { tk with vPoison := tk.vPoison.set 1 1 }

theorem witness_RefusedInstructions_1 : (alone spoiltS).Issues .s spoiltS ∧
    (∃ d a b f, twoSource (.add 3 1 2) = some (d, a, b, f) ∧ (spoiltS.badS a || spoiltS.badS b) = true) ∧
    (∃ d a f, oneSource (.clz 3 1) = some (d, a, f) ∧ spoiltS.badS a = true) ∧
    (∃ a b off f, branches (.beq 1 2 0) = some (a, b, off, f) ∧ (spoiltS.badS a || spoiltS.badS b) = true) :=
  ⟨alone_issues rfl rfl, ⟨3, 1, 2, _, rfl, rfl⟩, ⟨3, 1, _, rfl, rfl⟩, ⟨1, 2, 0, _, rfl, rfl⟩⟩

/-- The same task with two vector banks of four: v63 is its last register; with one, v32 is beyond its grant. -/
def oneBank : Task := { tk with grant := { tk.grant with vbanks := 1 } }

theorem witness_RefusedInstructions_2 :
    ((alone oneBank).Issues .v oneBank ∧ (∃ x ty f, vectorIntegers (.viadd 32 1 2 0 10) = some (x, ty, f) ∧
      (x.d :: x.sources).all oneBank.landDue.vregOk = false)) ∧
    ((alone spoiltV).Issues .v spoiltV ∧ (∃ x ty nf op lat, vectorFloats (.vadd 31 1 2 0 0 0) = some (x, ty, nf, op, lat) ∧
      (x.d :: x.sources).all spoiltV.landDue.vregOk = true ∧ ¬ lanesClean spoiltV.landDue (spoiltV.landDue.readM x.m) x.sources)) :=
  ⟨⟨alone_issues rfl rfl, ⟨_, _, _, rfl, by decide +kernel⟩⟩,
   ⟨alone_issues rfl rfl, ⟨_, _, _, _, _, rfl, by decide +kernel, fun h => absurd (h 1 (by simp) 0 (by decide +kernel)) (by decide +kernel)⟩⟩⟩

theorem witness_RefusedInstructions_3 : ∃ i e s t, supervisorOnly i = some e ∧ State.Issues s e t ∧ t.level = false :=
  ⟨.sget 1 0x050, .s, alone { tk with level := false }, { tk with level := false }, rfl, alone_issues rfl rfl, rfl⟩

/-- The task with streams q0 to q2. -/
def threeStreams : Task := { s1 1 with grant := { tk.grant with streams := 3 } }

/-- A stream that is granted and one that is not; a value that fits its field and one that does not. -/
theorem witness_StreamRegisters :
    (∃ i q a n f s t, streamFields i = some (q, a, n, f) ∧ State.Issues s .s t ∧ t.badS a = false ∧ t.grant.streams ≤ q.toNat) ∧
    (∃ i q a n f s t, streamFields i = some (q, a, n, f) ∧ State.Issues s .s t ∧ t.badS a = false ∧ q.toNat < t.grant.streams ∧
      2 ^ n ≤ (t.readS a).toNat) ∧
    (∃ i q a n f s t, streamFields i = some (q, a, n, f) ∧ State.Issues s .s t ∧ t.badS a = false ∧ q.toNat < t.grant.streams ∧
      (t.readS a).toNat < 2 ^ n) ∧
    (∃ s t, State.Issues s .s t ∧ (15 : BitVec 4).toNat < t.grant.streams ∧ t.badS 1 = false ∧ t.badS 2 = false ∧ (t.readS 1).toNat = 16) :=
  ⟨⟨.stScl 3 1, 3, 1, 16, _, alone threeStreams, threeStreams, rfl, alone_issues rfl rfl, rfl, by decide +kernel⟩,
   ⟨.stScl 15 1, 15, 1, 16, _, alone (s1 65536), s1 65536, rfl, alone_issues rfl rfl, rfl, by decide +kernel, by decide +kernel⟩,
   ⟨.stScl 15 1, 15, 1, 16, _, alone (s1 65535), s1 65535, rfl, alone_issues rfl rfl, rfl, by decide +kernel, by decide +kernel⟩,
   ⟨alone (s1 16), s1 16, alone_issues rfl rfl, by decide +kernel, rfl, rfl, by decide +kernel⟩⟩

/-- System registers of each clause, at user and at supervisor level. -/
theorem witness_SystemRegisters : ∃ u v : Task, (alone u).Issues .s u ∧ (alone v).Issues .s v ∧ u.level = false ∧ v.level = true ∧
    u.badS 1 = false ∧ v.badS 1 = false ∧ 0x055 ∈ supervisorReads ∧ 0x050 ∉ userMayWrite ∧ 0x054 ∈ userMayWrite ∧
    (writeTaskRegister u (u.readS 1) 0x054).isSome = true ∧ 0x053 ∈ readOnlyRegisters ∧ (alone v).core.leaseHolder = none :=
  ⟨{ s1 256 with level := false }, s1 256, alone_issues rfl rfl, alone_issues rfl rfl, rfl, rfl, rfl, rfl, by decide, by decide, by decide,
   by decide +kernel, by decide, by decide +kernel⟩

/-- A task that has not recorded a trap and one that has; words that fail each test; a fetch that fails. -/
theorem witness_Traps : tk.mode ≠ .saving 2 ∧ ({ tk with mode := .saving 2 } : Task).mode = .saving 2 ∧ (alone tk).Issues .s tk ∧
    decode .s 0 = .illegal ∧ decode .s 0x04508119 = .reserved ∧ decode .s 0xB0000000 = .ok .eret ∧ supervisorOnly .eret = some .s ∧
    (∃ u : Task, (alone u).Issues .s u ∧ u.level = false ∧ ∃ k, fetchWord (alone u) (alone u).cur .s = .error (.cause k)) :=
  ⟨by decide, rfl, alone_issues rfl rfl, by decide +kernel, by decide +kernel, by decide +kernel, rfl,
   ⟨{ tk with level := false, pcS := 2 }, alone_issues rfl rfl, rfl, .align, refuses (by decide +kernel)⟩⟩

/-- A GEN address in the first page. -/
def here : Word := 0x1000

theorem witness_ReadsAndLoads_1 : (mapped (s1 here)).tasks.get (mapped (s1 here)).cur = some (s1 here) ∧
    ReadsHere (mapped (s1 here)) (s1 here) .s here (.bytes 8) (8 * (frame + 0x1000)) 64 ∧
    (locate (mapped (s1 here)) (some 0) tk.grant 0 .s .read (.bytes 4) 0x1002 = .error (.cause .align)) :=
  ⟨(mapped_issues (e := .s) rfl rfl).here, ⟨finds (by decide +kernel), by decide +kernel, by decide +kernel⟩, refuses (by decide +kernel)⟩

/-- The same task at user level: no window grants its read. -/
def user : Task := { s1 here with level := false }

theorem witness_ReadsAndLoads_2 : (mapped user).tasks.get (mapped user).cur = some user ∧
    locate (mapped user) (some (coreOf (mapped user).cur)) user.grant user.tenant .s .read (.bytes 8) here =
      .ok (.here (8 * (frame + 0x1000)) 64 false) ∧
    ownAtomic (mapped user).dev user.tid .s (formOf here) (frame + 0x1000) = false ∧
    bitsGranted (mapped user) user.tenant user.level .read (8 * (frame + 0x1000)) 64 = false :=
  ⟨(mapped_issues (e := .s) rfl rfl).here, finds (by decide +kernel), by decide +kernel, by decide +kernel⟩

/-- A load that no line of the cache answers, and one that a line does. -/
theorem witness_ReadsAndLoads_3 : ∃ ea, positionAdd ((s1 here).readS 1) (0 : BitVec 11).toInt = some ea ∧
    (mapped (s1 here)).Issues .s (s1 here) ∧ (s1 here).badS 1 = false ∧
    ReadsHere (mapped (s1 here)) (s1 here) .s ea (sizeWant 5) (8 * (frame + 0x1000)) 64 ∧
    (mapped (s1 here)).core.line 0 (formOf ea) ((frame + 0x1000) * 8 / 512) = none :=
  ⟨here, by decide +kernel, mapped_issues rfl rfl, rfl, ⟨finds (by decide +kernel), by decide +kernel, by decide +kernel⟩, by decide +kernel⟩

/-- The line that the cache holds of that block. -/
def aLine : Line := { pathPlane := BitVec.ofNat 7 (formOf here), tenant := 0, block := (frame + 0x1000) / 64, data := 7 }

def cached (t : Task) : State := (mapped t).withTaskCore t { (mapped t).core with lines := [aLine] }

theorem witness_ReadsAndLoads_4 : (cached (s1 here)).Issues .s (s1 here) ∧
    ReadsHere (cached (s1 here)) (s1 here) .s here (sizeWant 5) (8 * (frame + 0x1000)) 64 ∧
    (cached (s1 here)).core.line 0 (formOf here) ((frame + 0x1000) * 8 / 512) = some aLine :=
  ⟨⟨vector_get_set_self _ _ _ (Fin.isLt _), rfl, rfl⟩, ⟨finds (by decide +kernel), by decide +kernel, by decide +kernel⟩,
   by decide +kernel⟩

/-- A load of a word that another device answers, once its answer is here. -/
def away : Word := 5 * 2 ^ 61 + 3 * 2 ^ 49
def answered (r : Reply) (a : Word) : Task := { s1 a with answers := [{ eng := .s, tag := 0, addr := a, want := .bytes 8, reply := r }] }

theorem witness_ReadsAndLoads_5 :
    let t := answered (.value 9 64 false) away
    let s := (mapped t).withTaskDev t { (mapped t).dev with cols := 4 }
    s.Issues .s t ∧ t.badS 1 = false ∧ positionAdd (t.readS 1) (0 : BitVec 11).toInt = some away ∧
    (∃ spot, locate s (some (coreOf s.cur)) t.grant t.tenant .s .read (sizeWant 5) away = .ok spot ∧ ∀ bit w, spot ≠ .here bit w false) ∧
    Answers s .s t (encode (.ld 2 1 5 0)) away (sizeWant 5) { val := 9, width := 64, poison := false } :=
  ⟨⟨vector_get_set_self _ _ _ (Fin.isLt _), rfl, rfl⟩, rfl, by decide +kernel,
   ⟨.away 3, finds (by decide +kernel), by intro _ _ h; cases h⟩, runs (by decide +kernel)⟩

theorem witness_ScalarStores_1 : ∃ x, (mapped (s1 here)).Issues .s (s1 here) ∧ (s1 here).badS 1 = false ∧ (s1 here).badS 2 = false ∧
    positionAdd ((s1 here).readS 1) (0 : BitVec 11).toInt = some here ∧
    GoesTo (mapped (s1 here)) .s (s1 here) (encode (.st 2 1 5 0)) here (sizeWant 5) ((s1 here).readS 2).toNat x ∧
    (s1 here).unack ≠ BitVec.allOnes 32 :=
  ⟨.here { bit := 8 * (frame + 0x1000), width := 64, value := 0, addr := here, index := 0, span := 8 }, mapped_issues rfl rfl, rfl, rfl,
   by decide +kernel, runs (by decide +kernel), by decide +kernel⟩

/-- A flagged store with no flag, one with a flag word of this device, and one to a path that it may not take. -/
def flagging : Task := { s1 here with s := (s1 here).s.set 2 0x1008 }

theorem witness_ScalarStores_2 : ∃ x fl, (mapped flagging).Issues .s flagging ∧ flagging.badS 1 = false ∧ flagging.badS 3 = false ∧
    flagging.badS 2 = false ∧ flagging.badS 0 = false ∧ pathOf (flagging.readS 1) = 0 ∧
    GoesTo (mapped flagging) .s flagging (encode (.rst 2 1 3 5)) (flagging.readS 1) (sizeWant 5) (flagging.readS 3).toNat x ∧
    GoesTo (mapped flagging) .s flagging (encode (.rst 0 1 3 5)) (flagging.readS 1) (sizeWant 5) (flagging.readS 3).toNat x ∧
    flagSpot (headCtx (mapped flagging) .s flagging (encode (.rst 2 1 3 5))) (flagging.readS 2) [] (mapped flagging) = .ok (fl, []) :=
  ⟨.here { bit := 8 * (frame + 0x1000), width := 64, value := 0, addr := here, index := 0, span := 8 },
   ⟨0x1008, some (frame + 0x1008)⟩, mapped_issues rfl rfl, rfl, rfl, rfl, rfl, by decide +kernel, runs (by decide +kernel),
   runs (by decide +kernel), runs (by decide +kernel)⟩

theorem witness_ScalarStores_3 : (alone (s1 (3 * 2 ^ 61))).Issues .s (s1 (3 * 2 ^ 61)) ∧ pathOf ((s1 (3 * 2 ^ 61)).readS 1) ≠ 0 ∧
    pathOf ((s1 (3 * 2 ^ 61)).readS 1) ≠ 5 :=
  ⟨alone_issues rfl rfl, by decide +kernel, by decide +kernel⟩

theorem witness_ScalarAtomics :
    (∃ t : Task, (alone t).Issues .s t ∧ t.badS 1 = false ∧ t.badS 2 = false ∧ t.badS 3 = false ∧ ∃ v n p, t.answer .s (t.readS 1) (.bytes 8) = some (.value v n p)) ∧
    (∃ t : Task, (alone t).Issues .s t ∧ ∃ k, t.answer .s (t.readS 1) (.bytes 8) = some (.refused k)) ∧
    (∃ t byte, (mapped t).Issues .s t ∧ t.answer .s (t.readS 1) (.bytes 8) = none ∧
      atomicSpot (headCtx (mapped t) .s t (encode (.amo 4 1 2 0))) (t.readS 1) [] (mapped t) = .ok (.inl byte, []) ∧
      (t.asked.any fun q => q.eng == .s && q.tag == 0 && q.addr == t.readS 1 && q.want == .bytes 8) = false ∧
      atomicSpot (headCtx (mapped t) .s t (encode (.amoPosted 1 2 0))) (t.readS 1) [] (mapped t) = .ok (.inl byte, []) ∧
      t.unack ≠ BitVec.allOnes 32) :=
  ⟨⟨answered (.value 9 64 false) here, alone_issues rfl rfl, rfl, rfl, rfl, 9, 64, false, by decide +kernel⟩,
   ⟨answered (.refused .access) here, alone_issues rfl rfl, .access, by decide +kernel⟩,
   ⟨s1 here, frame + 0x1000, mapped_issues rfl rfl, by decide +kernel, runs (by decide +kernel), by decide +kernel,
    runs (by decide +kernel), by decide +kernel⟩⟩

/-- The state once the task has posted one store, and it has still to reach its target. -/
def writing (t : Task) : State :=
  (mapped t).withTaskDev t (leaves (named (mapped t).dev) (originOf (headCtx (mapped t) .s t 0) t (mapped t).dev) 1 none
    (.here { bit := 8 * (frame + 0x1000), width := 64, value := 0, addr := here, index := 0, span := 8 }))

theorem writing_issues {t : Task} {e : Engine} (h : t.mayIssue (writing t).dev.clock e = true) (c : t.draining = false) : (writing t).Issues e t :=
  ⟨vector_get_set_self _ _ _ (Fin.isLt _), h, c⟩

theorem witness_FencesAndSyncWords :
    ((writing tk).Issues .s tk ∧ writesOut (writing tk).dev tk .s = true ∧ writesOut (mapped tk).dev tk .s = false) ∧
    (syncPath false here = true ∧ syncPath true here = true ∧
      Answers (mapped (s1 here)) .s (s1 here) (encode (.acq 3 1 4)) here (.bytes 8) { val := 0, width := 64, poison := false } ∧
      (∃ x, GoesTo (mapped (s1 here)) .s (s1 here) (encode (.rel 1 2 4)) here (.bytes 8) ((s1 here).readS 2).toNat x) ∧
      released (mapped (s1 here)) (s1 here) .s here ∧ ¬ released (writing (s1 here)) (s1 here) .s here ∧
      (∃ x, GoesTo (writing (s1 here)) .s (s1 here) (encode (.rel 1 2 4)) here (.bytes 8) ((s1 here).readS 2).toNat x) ∧
      ∃ target, atomicSpot (headCtx (mapped (s1 here)) .s (s1 here) (encode (.relAdd 1 2 4))) here [] (mapped (s1 here)) = .ok (target, [])) :=
  let x : Dest := .here { bit := 8 * (frame + 0x1000), width := 64, value := 0, addr := here, index := 0, span := 8 }
  ⟨⟨writing_issues rfl rfl, by decide +kernel, by decide +kernel⟩, by decide +kernel, by decide +kernel, runs (by decide +kernel),
   ⟨x, runs (by decide +kernel)⟩, by unfold released; decide +kernel, by unfold released; decide +kernel,
   ⟨x, runs (by decide +kernel)⟩, ⟨.inl (frame + 0x1000), runs (by decide +kernel)⟩⟩

/-- A core with no monitor entry left. -/
def full (t : Task) : State :=
  (mapped t).withTaskCore t { (mapped t).core with monitors := List.replicate 32 { slot := 1, block := 0, sup := true } }

/-- The word is 0: f 0 holds with 0 in s2, f 1 does not; an entry is free, or none is. -/
theorem witness_WaitOnMemory : (mapped (s1 here)).Issues .s (s1 here) ∧ (s1 here).badS 1 = false ∧ (s1 here).badS 2 = false ∧
    (s1 here).badS 3 = false ∧ pathOf ((s1 here).readS 1) = 0 ∧ (s1 here).readS 2 = 0 ∧
    (∃ block, waitRead (headCtx (mapped (s1 here)) .s (s1 here) (encode (.waita 4 1 2 0))) here [] (mapped (s1 here)) = .ok ((0, block), []) ∧
      waitRead (headCtx (mapped (s1 here)) .s (s1 here) (encode (.waita 4 1 2 1))) here [] (mapped (s1 here)) = .ok ((0, block), []) ∧
      waitRead (headCtx (full (s1 here)) .s (s1 here) (encode (.waita 4 1 2 0))) here [] (full (s1 here)) = .ok ((0, block), [])) ∧
    monitorFree (mapped (s1 here)).core 0 true = true ∧ monitorFree (full (s1 here)).core 0 true = false :=
  ⟨mapped_issues rfl rfl, rfl, rfl, rfl, by decide +kernel, by decide +kernel,
   ⟨(frame + 0x1000) / 64, runs (by decide +kernel), runs (by decide +kernel), runs (by decide +kernel)⟩,
   by decide +kernel, by decide +kernel⟩

/-- The machine with `n` bytes of a number at the address in s1 as well. -/
def holding (n v : Nat) (t : Task) : State :=
  { mapped t with mem := Mem.writeAll (mapped t).mem (byteCells (frame + 0x1000) n v) }

theorem holding_issues {n v : Nat} {t : Task} {e : Engine} (h : t.mayIssue (holding n v t).dev.clock e = true) (c : t.draining = false) :
    (holding n v t).Issues e t := ⟨vector_get_set_self _ _ _ (Fin.isLt _), h, c⟩

/-- A descriptor that keeps its layout, of 4 KiB at 0x2000 with plane 0 and its sync word at 0x3000. -/
def descriptor : Nat := 0x2000 + 2 ^ 64 * 0x1000 + 2 ^ 128 + 2 ^ 192 * 0x3000

/-- A descriptor whose binding is taken, and bytes that are none. -/
theorem witness_BindingsAndMarkers : (holding 32 descriptor (s1 here)).Issues .s (s1 here) ∧ (s1 here).badS 1 = false ∧
    readRun (headCtx (holding 32 descriptor (s1 here)) .s (s1 here) (encode (.bind 3 1 2))) here 8 [] (holding 32 descriptor (s1 here)) =
      .ok (descriptor, []) ∧
    bindingOf descriptor = some { base := 0x2000, length := 0x1000, planes := 1, sync := 0x3000 } ∧
    syncOk (headCtx (holding 32 descriptor (s1 here)) .s (s1 here) (encode (.bind 3 1 2))) 0x3000 [] (holding 32 descriptor (s1 here)) =
      .ok (true, []) ∧ ((s1 here).readS 1).toNat % 64 = 0 ∧
    readRun (headCtx (mapped (s1 here)) .s (s1 here) (encode (.bind 3 1 2))) here 8 [] (mapped (s1 here)) = .ok (0, []) ∧
    bindingOf 0 = none :=
  ⟨holding_issues rfl rfl, rfl, runs (by decide +kernel), by decide +kernel, runs (by decide +kernel), by decide +kernel,
   runs (by decide +kernel), by decide +kernel⟩

/-- Tokens that are there, that are not, and that can never come; a scoreboard token in each state. -/
theorem witness_TokensAndScoreboard :
    (∃ t : Task, (alone t).Issues .s t ∧ t.deadWait .s 1 = false ∧ t.hasTokens .s 1 = true ∧ writesOut (alone t).dev t .s = false ∧
      t.hasRoom .s 1 = true) ∧
    (tk.deadWait .s 1 = false ∧ tk.hasTokens .s 1 = false) ∧ ({ tk with endV := true } : Task).deadWait .s 1 = true ∧
    (∃ t : Task, (alone t).Issues .s t ∧ t.endC = true ∧ (t.k.get 0).set = false ∧ (t.k.get 0).pend = 0 ∧ t.copyNames 0 = false) ∧
    (tk.endC = false ∧ (tk.k.get 0).set = false) ∧ ((({ tk with k := tk.k.set 7 ⟨true, true, 0⟩ } : Task).k.get 7).set = true) :=
  ⟨⟨{ tk with tok := .replicate 12 14, endS := false }, alone_issues rfl rfl, by decide +kernel, by decide +kernel, by decide +kernel, by decide +kernel⟩,
   ⟨by decide +kernel, by decide +kernel⟩, by decide +kernel,
   ⟨{ tk with endC := true }, alone_issues rfl rfl, rfl, by decide +kernel, by decide +kernel, by decide +kernel⟩,
   ⟨rfl, by decide +kernel⟩, by decide +kernel⟩

/-- A task whose `bar` has been answered with a phase: the barrier's own, so that it waits, or one that has passed. -/
def barred (phase : BitVec 16) : Task := { s1 0x41F with held := .barAnswer ⟨4, 0, 31⟩ phase 3 true }

theorem witness_BarrierInstructions_1 : (alone (barred 0)).Issues .s (barred 0) ∧ phaseOf (alone (barred 0)) ⟨4, 0, 31⟩ = 0 ∧
    (alone (barred 1)).Issues .s (barred 1) ∧ phaseOf (alone (barred 1)) ⟨4, 0, 31⟩ ≠ 1 ∧ (barred 0).mode = .ready ∧
    (barred 0).badS 2 = false ∧ phaseOf (alone (barred 0)) ⟨4, 0, 31⟩ = BitVec.ofNat 16 ((barred 0).readS 2).toNat ∧
    phaseOf (alone (barred 0)) ⟨4, 0, 31⟩ ≠ BitVec.ofNat 16 ((barred 0).readS 1).toNat :=
  ⟨alone_issues rfl rfl, by decide +kernel, alone_issues rfl rfl, by decide +kernel, rfl, rfl, by decide +kernel, by decide +kernel⟩

/-- The last DEV barrier, 31, and the first number that names none. -/
theorem witness_BarrierInstructions_2 :
    (∃ t : Task, (alone t).Issues .s t ∧ ∃ r phase fl, t.held = .barAnswer r phase fl false) ∧
    ((alone (s1 0x41F)).Issues .s (s1 0x41F) ∧ (s1 0x41F).held = .none ∧ heldHere (alone (s1 0x41F)).dev (barrierRef 0 4 31) = true ∧
      mayUse true 0 (barrierAt (alone (s1 0x41F)) (barrierRef 0 4 31)) = true ∧ writesOut (alone (s1 0x41F)).dev (s1 0x41F) .s = false) ∧
    (∃ t : Task, (alone t).Issues .s t ∧ t.held = .none ∧ t.badS 1 = false ∧ (t.readS 1).toNat = 0x420) :=
  ⟨⟨{ tk with held := .barAnswer ⟨4, 0, 0⟩ 0 0 false }, alone_issues rfl rfl, ⟨4, 0, 0⟩, 0, 0, rfl⟩,
   ⟨alone_issues rfl rfl, rfl, by decide +kernel, by decide +kernel, by decide +kernel⟩,
   ⟨s1 0x420, alone_issues rfl rfl, rfl, rfl, by decide +kernel⟩⟩

theorem tk_land : tk.landDue = tk := rfl

theorem clean_of {t : Task} (h : ∀ r : Fin 64, t.vPoison.get r = 0) (m : Mask) (rs : List (BitVec 6)) : lanesClean t m rs := by
  intro r _ i _
  rw [h]; exact BitVec.getLsbD_zero

theorem tk_vp : ∀ r : Fin 64, tk.vPoison.get r = 0 := by decide +kernel

theorem tk_clean (m : Mask) (rs : List (BitVec 6)) : lanesClean tk.landDue m rs := clean_of (t := tk) tk_vp m rs

theorem witness_VectorIntegers : ∃ x ty f w sg, vectorIntegers (.vimulh 63 62 61 7 10) = some (x, ty, f) ∧ intFmt ty.toNat = some (w, sg) ∧
    (alone tk).Issues .v tk ∧ (x.d :: x.sources).all tk.landDue.vregOk = true ∧ lanesClean tk.landDue (tk.landDue.readM x.m) x.sources :=
  ⟨_, _, _, 32, true, rfl, by decide +kernel, alone_issues rfl rfl, by rw [tk_land]; decide +kernel, tk_clean _ _⟩

/-- The last granted registers; and an operand that is a NaN with a fraction of its own. -/
theorem witness_VectorFloats : (∃ x ty nf op lat fm, vectorFloats (.vfma 63 62 61 7 1 2) = some (x, ty, nf, op, lat) ∧
      floatFmt ty.toNat = some fm ∧ (alone tk).Issues .v tk ∧ (x.d :: x.sources).all tk.landDue.vregOk = true ∧
      lanesClean tk.landDue (tk.landDue.readM x.m) x.sources) ∧
    (FOp.add ≠ .abs ∧ FOp.add ≠ .neg ∧ (decodeFloat fmtF32 0x7FC01234).isNaN = true ∧ FOp.add ≠ .sqrt ∧ FOp.add ≠ .rnd) :=
  ⟨⟨_, _, _, _, _, _, rfl, rfl, alone_issues rfl rfl, by rw [tk_land]; decide +kernel, tk_clean _ _⟩,
   by decide, by decide, by decide +kernel, by decide, by decide⟩

theorem witness_VectorResultsLand : (8 : Nat) ∈ [8, 16, 32] ∧ (32 : Nat) ∈ [8, 16, 32] ∧ (6 : BitVec 6) ≠ 5 ∧ tk.exposed = false ∧
    ({ tk with exposed := true } : Task).exposed = true ∧ ({ tk with exposed := true } : Task).pending = [] :=
  ⟨by decide, by decide, by decide, rfl, rfl, rfl⟩

theorem witness_MaskResults : (alone tk).Issues .v tk ∧ (∃ d v, maskOperations tk.landDue (.mopsFirstn 7 15) = some (d, v)) ∧
    tk.landDue.vregOk 63 = true ∧ lanesClean tk.landDue (tk.landDue.readM 0) [63, 63] ∧
    ({ dest := .mask 0, bits := 0, value := 0 } : VResult).dest = .mask 0 :=
  ⟨alone_issues rfl rfl, ⟨_, _, rfl⟩, by rw [tk_land]; decide +kernel, tk_clean _ _, rfl⟩

theorem witness_ConversionsAndReductions : (alone tk).Issues .v tk ∧ tk.landDue.vregOk 63 = true ∧ tk.landDue.vregOk 0 = true ∧
    lanesClean tk.landDue (tk.landDue.readM 1) [0] ∧ (floatFmt (2 : BitVec 4).toNat).isSome = true :=
  ⟨alone_issues rfl rfl, by rw [tk_land]; decide +kernel, by rw [tk_land]; decide +kernel, tk_clean _ _, rfl⟩

theorem witness_LaneMovesAndConstants : (alone tk).Issues .v tk ∧ (∃ x, laneMoves tk.landDue (.vperm 63 62 61 1 10) = some x ∧
    x.granted.all tk.landDue.vregOk = true ∧ lanesClean tk.landDue x.lanes x.clean) ∧ tk.landDue.vregOk 63 = true :=
  ⟨alone_issues rfl rfl, ⟨_, rfl, by rw [tk_land]; decide +kernel, tk_clean _ _⟩, by rw [tk_land]; decide +kernel⟩

theorem witness_VectorControl_1 : (alone tk).Issues .v tk ∧ writesOut (alone tk).dev tk.landDue .v = false ∧ tk.landDue.hasRoom .v 7 = true ∧
    tk.landDue.mjobs = [] ∧ tk.landDue.cjobs = [] ∧ tk.landDue.midScalar = false :=
  ⟨alone_issues rfl rfl, by rw [tk_land]; decide +kernel, by rw [tk_land]; decide +kernel, by rw [tk_land]; decide +kernel, by rw [tk_land]; decide +kernel, by rw [tk_land]; decide +kernel⟩

/-- The same task with something parked in entry 63, and a core with no bank idle, all whose accumulator tiles are granted. -/
def parking : Task := { tk with spill := tk.spill.set 63 (some ⟨5, 0, 0⟩) }
theorem parking_land : parking.landDue = parking := rfl
def packed (t : Task) : State := (alone t).withTaskCore t { (alone t).core with banks := .replicate 64 .tile }

theorem witness_VectorControl_2 : (alone parking).Issues .v parking ∧ parking.landDue.vregOk 63 = true ∧
    (∃ x, parking.landDue.spill.get (63 : BitVec 6).toFin = some x) ∧ parking.landDue.spill.get (62 : BitVec 6).toFin = none ∧
    (∃ b, b ∈ openBlocks (alone parking) 0 ∧ b ∉ parkedBlocks (alone parking) 0) ∧
    (packed tk).Issues .v tk ∧ openBlocks (packed tk) 0 = [] :=
  ⟨alone_issues rfl rfl, by rw [parking_land]; decide +kernel, ⟨⟨5, 0, 0⟩, by rw [parking_land]; decide +kernel⟩, by rw [parking_land]; decide +kernel,
   ⟨0, by decide +kernel, by decide +kernel⟩, ⟨vector_get_set_self _ _ _ (Fin.isLt _), rfl, rfl⟩, by decide +kernel⟩

/-- A task whose stream q15 is one F32 element of its scratchpad, with a flag word. -/
def streaming : Task :=
  { tk with q := tk.q.set 15 { base := 3 * 2 ^ 61, extent := 1, leader := 15 } }

theorem streaming_land : streaming.landDue = streaming := rfl

theorem streaming_clean (m : Mask) (rs : List (BitVec 6)) : lanesClean streaming.landDue m rs :=
  clean_of (t := streaming) tk_vp m rs

/-- One element is accessed, the first; or all lanes but that one are masked off, and none is. -/
theorem witness_StreamLoads : ∃ u, (alone streaming).Issues .v streaming ∧ streamLoads streaming.landDue (.vld 63 15 1 0 0) = some u ∧
    u.granted.all streaming.landDue.vregOk = true ∧ u.q.toNat < streaming.landDue.grant.streams ∧
    lanesClean streaming.landDue u.mask u.clean ∧ u.access.elements = [0] ∧
    (∃ at_, checkElement (headCtx (alone streaming) .v streaming (encode (.vld 63 15 1 0 0))) u.access .read 0
        [.task (alone streaming).cur (some streaming.landDue)] (alone streaming) =
        .ok (at_, [.task (alone streaming).cur (some streaming.landDue)])) ∧
    ∃ g, readSpot (headCtx (alone streaming) .v streaming (encode (.vld 63 15 1 0 0))) (3 * 2 ^ 61) (.width 32) 0 0
        [.task (alone streaming).cur (some streaming.landDue)] (alone streaming) =
        .ok (g, [.task (alone streaming).cur (some streaming.landDue)]) :=
  ⟨_, alone_issues rfl rfl, rfl, by rw [streaming_land]; decide +kernel, by rw [streaming_land]; decide +kernel, streaming_clean _ _, by rw [streaming_land]; decide +kernel,
   ⟨(3 * 2 ^ 61, 0, .raw), (Still.checkElement _ _ _ _).finds (by simp only [streaming_land]; decide +kernel)⟩, ⟨{ val := 0, width := 32, poison := false }, (Still.readSpot _ _ _ _ _).finds (by simp only [streaming_land]; decide +kernel)⟩⟩

theorem witness_StreamStores : ∃ u, (alone streaming).Issues .v streaming ∧ streamStores streaming.landDue (.vst 63 15 2 0 0) = some u ∧
    u.granted.all streaming.landDue.vregOk = true ∧ u.q.toNat < streaming.landDue.grant.streams ∧
    lanesClean streaming.landDue u.mask u.clean ∧ streaming.landDue.unack ≠ BitVec.allOnes 32 ∧ u.access.elements = [0] ∧ u.flagged = false ∧
    (∃ at_, checkElement (headCtx (alone streaming) .v streaming (encode (.vst 63 15 2 0 0))) u.access .write 0
        [.task (alone streaming).cur (some streaming.landDue)] (alone streaming) =
        .ok (at_, [.task (alone streaming).cur (some streaming.landDue)])) ∧
    ∃ x, writeSpot (headCtx (alone streaming) .v streaming (encode (.vst 63 15 2 0 0))) (3 * 2 ^ 61) (.width 32) 0 0 0
        [.task (alone streaming).cur (some streaming.landDue)] (alone streaming) =
        .ok (x, [.task (alone streaming).cur (some streaming.landDue)]) :=
  ⟨_, alone_issues rfl rfl, rfl, by rw [streaming_land]; decide +kernel, by rw [streaming_land]; decide +kernel, streaming_clean _ _, by rw [streaming_land]; decide +kernel, by rw [streaming_land]; decide +kernel, rfl,
   ⟨(3 * 2 ^ 61, 0, .raw), (Still.checkElement _ _ _ _).finds (by simp only [streaming_land]; decide +kernel)⟩,
   ⟨.here { bit := 8 * 2 ^ 42, width := 32, value := 0, addr := 3 * 2 ^ 61, index := 0 }, (Still.writeSpot _ _ _ _ _ _).finds (by simp only [streaming_land]; decide +kernel)⟩⟩

/-- The last tile of the range; one beyond it; a ready and an empty one. -/
theorem witness_TileRows : (alone tk).Issues .v tk ∧ tk.landDue.vregOk 63 = true ∧ tk.landDue.tileOk 1 = false ∧ tk.landDue.tileOk 63 = true ∧
    (alone tk).core.tileState 63 = 0 ∧ fillsFirst (alone tk) (coreOf (alone tk).cur) .v 63 = false ∧ lanesClean tk.landDue (BitVec.allOnes 256) [63] ∧ (alone tk).dev.migrations = [] ∧
    (alone tk).held = false ∧ Mem.wf (alone tk).mem = true ∧
    (∃ k : Core, ((alone tk).withTaskCore tk k).Issues .v tk ∧ ((alone tk).withTaskCore tk k).core.tileState 63 = 2) :=
  ⟨alone_issues rfl rfl, by rw [tk_land]; decide +kernel, by rw [tk_land]; decide +kernel, by rw [tk_land]; decide +kernel, by decide +kernel, by decide +kernel, tk_clean _ _, rfl, rfl, rfl,
   ⟨(alone tk).core.setTile 63 fun x => { x with state := 2 }, ⟨vector_get_set_self _ _ _ (Fin.isLt _), rfl, rfl⟩, by decide +kernel⟩⟩


/-- A launch record that asks for one of everything, with these resources and this control qword. -/
def record (devices : Nat) (res ctl : Nat) : Nat :=
  2 ^ 256 * (2 ^ 32 * devices + 2 ^ 24 + 2 ^ 16 + 2 ^ 8 + 1) + 2 ^ 320 * res + 2 ^ 384 * ctl

/-- The task with that address in s1, at user level and of priority 0. -/
def launcher : Task := { s1 here with level := false, prio := 0 }

/-- A kernel that waits in an entry. -/
def posted : Kernel := { state := .posted, handle := 0x10000, serial := 1, launch := {} }

/-- Each reason of a refusal at its first value, a record that passes, and an entry that is free only at the end. -/
theorem witness_Launch : (holding 256 (record 1 0 0) (s1 here)).Issues .s (s1 here) ∧ (s1 here).badS 1 = false ∧
    readRun (headCtx (holding 256 (record 1 0 0) (s1 here)) .s (s1 here) (encode (.launch 3 1))) here 32 []
      (holding 256 (record 1 0 0) (s1 here)) = .ok (record 1 0 0, []) ∧
    (launchReserved (record 1 0 0) = false ∧ launchRange (record 1 0 0) = false) ∧ launchReserved (record 1 (2 ^ 2) 0) = true ∧
    launchRange (record 257 0 0) = true ∧ (launchFields (record 1 (64 * 2 ^ 8 + 1) 0)).tiles = 64 ∧
    (launchFields (record 1 (64 * 2 ^ 8 + 1) 0)).vbanks = 1 ∧ launcher.level = false ∧
    launcher.prio.toNat < (launchFields (record 1 0 1)).prio.toNat ∧
    (let s := holding 256 (record 2 0 0) (s1 here)
     readDevices (headCtx s .s (s1 here) (encode (.launch 3 1))) 0x10C0 2 [] s = .ok (some [0, 0], [])) ∧
    ¬ [(0 : BitVec 8), 0].Nodup ∧ writesOut (writing tk).dev tk .s = true ∧ writesOut (mapped tk).dev tk .s = false ∧
    (∀ e : Fin 256, ((mapped tk).dev.kernels.get e).isSome = false) :=
  ⟨holding_issues rfl rfl, rfl, runs (by decide +kernel), by decide +kernel, by decide +kernel, by decide +kernel, by decide +kernel,
   by decide +kernel, rfl, by decide +kernel, runs (by decide +kernel), by decide, by decide +kernel, by decide +kernel, by decide +kernel⟩

/-- A device with a queued kernel that fits no core, for the cores are not up; a task that it makes room for. -/
def crowded : State :=
  let s := alone { tk with prio := 3 }
  { s with dev := { s.dev with kernels := s.dev.kernels.set 0 (some posted), queues := s.dev.queues.set 3 [.kernel 0 0] } }

/-- A saved task of a frame at `here`, which the supervisor holds. -/
def kept : Saved :=
  { slot := 0, task := { tid := 9, gid := 9 }, frame := here, frameTenant := 0, cause := 2, hasGroup := true, withSupervisor := true }

/-- The machine whose slot 0 resumes that frame. -/
def resuming (a : Word) : State :=
  let s := mapped tk
  { s with dev := { s.dev with saved := [kept] }, cores := s.cores.set 0 { cachedCore with resume := .replicate 4 a } }

theorem nothing_queued : headItem (alone tk).dev = none := by decide +kernel

theorem witness_EndsAndReturns_1 : (alone tk).Issues .s tk ∧ (alone tk).Issues .c tk ∧ (alone tk).Issues .m tk ∧ tk.loading = false ∧
    (¬ ∃ q p, headItem (alone tk).dev = some (q, p) ∧ tk.prio.toNat ≤ p ∧
      canPlace ((alone tk).withTask (tk.goto .s (tk.pcS + 4))) [] q = false) ∧
    (∃ t, crowded.Issues .s t ∧ headItem crowded.dev = some (.kernel 0 0, 3) ∧ t.prio.toNat ≤ 3 ∧
      canPlace (crowded.withTask (t.goto .s (t.pcS + 4))) [] (.kernel 0 0) = false) :=
  ⟨alone_issues rfl rfl, alone_issues rfl rfl, alone_issues rfl rfl, by decide +kernel,
   (by rintro ⟨q, p, h, _⟩; rw [nothing_queued] at h; cases h),
   ⟨{ tk with prio := 3 }, ⟨vector_get_set_self _ _ _ (Fin.isLt _), rfl, rfl⟩, by decide +kernel, by decide, by decide +kernel⟩⟩

/-- A frame at the last address that is not aligned, and one that is. -/
theorem witness_EndsAndReturns_2 :
    ((resuming 0x103F).Issues .s tk ∧ tk.level = true ∧ ((resuming 0x103F).core.resume.get (slotOf (resuming 0x103F).cur)).toNat % 64 ≠ 0) ∧
    ((resuming here).Issues .s tk ∧ ((resuming here).core.resume.get (slotOf (resuming here).cur)) = here ∧ here.toNat % 64 = 0 ∧
      readRun (headCtx (resuming here) .s tk (encode .eret)) here 8 [] (resuming here) = .ok (0, []) ∧
      ((resuming here).dev.saved.find? fun x => x.frame == here && x.withSupervisor && !x.queued && !x.ended) = some kept ∧
      groupQueued (resuming here).dev kept.task.gid = false) :=
  ⟨⟨⟨vector_get_set_self _ _ _ (Fin.isLt _), rfl, rfl⟩, rfl, by decide +kernel⟩,
   ⟨⟨vector_get_set_self _ _ _ (Fin.isLt _), rfl, rfl⟩, by decide +kernel, by decide +kernel, runs (by decide +kernel),
    List.find?_cons_of_pos (by decide +kernel), by decide +kernel⟩⟩

/-- A task that waits for cores. -/
def waiting : Task := { s1 0 with held := .invalidate 1 }
def waitingState : State := onDev (alone waiting) { (alone waiting).dev with invals := [⟨1, .all, [255], []⟩] }

/-- The page that holds address 0, and the record of its object. -/
def page0 : Found :=
  { bit := 8796109799424, width := 8, pw := 2034689, fw := 35186041421824, fwByte := 1099512872960, desc := 1099512938496, zero := false
    leaf := { page := 0, large := true, record := 1099512872960, perms := 0xFFF, object := 0, first := 0, length := 67108864 } }

theorem witness_Invalidations_1 : waitsForCores (.seal 1 0) = true ∧ waitsForCores .tlbiAll = true ∧ waitingState.Issues .s waiting ∧
    waiting.level = true ∧ waiting.held = .invalidate 1 ∧ (∃ x ∈ waitingState.dev.invals, x.id = 1) ∧ (alone waiting).Issues .s waiting ∧
    (∀ x ∈ (alone waiting).dev.invals, x.id ≠ 1) ∧ (s1 63).held = .none ∧ invalidates (s1 63) (.tlbiTenant 1) = some (.tenant 63) :=
  ⟨rfl, rfl, ⟨vector_get_set_self _ _ _ (Fin.isLt _), rfl, rfl⟩, rfl, rfl, ⟨_, List.mem_singleton.2 rfl, rfl⟩, alone_issues rfl rfl,
   (by rintro x h; cases h), rfl, by decide +kernel⟩

/-- The first page is sealed in the one record of its object, whose plane words begin there. -/
theorem witness_Invalidations_2 : (mapped (s1 0)).Issues .s (s1 0) ∧ (s1 0).badS 1 = false ∧ (s1 0).badS 0 = false ∧
    ((s1 0).readS 0).toNat < 64 ∧
    walk (mapped (s1 0)) none 0 .s .read .element (planeOf ((s1 0).readS 1)) (posOf ((s1 0).readS 1)) = .ok page0 ∧
    tenantTables (mapped (s1 0)) 0 = .ok (1099512676352, 1099512938496, 1) ∧
    (objectRecords (mapped (s1 0)) 0 0 67108864 4 0 1099512676352 0).map (· + 8 * planeOf ((s1 0).readS 1)) = [1099512872960] ∧
    Mem.wf (mapped (s1 0)).mem = true :=
  ⟨mapped_issues rfl rfl, rfl, rfl, by decide +kernel, finds (by decide +kernel), finds (by decide +kernel), by decide +kernel,
   by decide +kernel⟩

/-- A task with a matrix job of that work; one whose waits of M can never be met. -/
def busy (w : MWork) : Task := { tk with mjobs := [{ word := 0, pc := 0, gives := 0, work := w }] }
def deserted : Task := { tk with endS := true, endV := true, endC := true }

/-- The core whose lease another slot holds. -/
def leased (t : Task) : State := onCore (alone t) 0 { (alone t).core with leaseHolder := some 1 }

/-- A task whose stream q15 names records in its scratchpad; a record whose fifth byte is not as its layout says. -/
def loader : Task := { tk with q := tk.q.set 15 { base := 3 * 2 ^ 61, extent := 32 } }
def badEpi : Task := { s1 here with q := tk.q.set 15 { base := here, extent := 16 } }

theorem witness_MatrixControl_1 : (alone tk).Issues .m tk ∧ MatrixReady tk 0 7 ∧ HasLease (alone tk) tk ∧
    (leased tk).Issues .m tk ∧ ¬ HasLease (leased tk) tk ∧
    ((alone (busy (.book 0 {}))).Issues .m (busy (.book 0 {})) ∧ (busy (.book 0 {})).loading = true) ∧
    ((alone deserted).Issues .m deserted ∧ deserted.loading = false ∧ deserted.deadWait .m 1 = true) ∧
    (tk.loading = false ∧ tk.deadWait .m 7 = false ∧ tk.hasTokens .m 7 = false) :=
  ⟨alone_issues rfl rfl, ⟨rfl, by decide +kernel, by decide +kernel, by decide +kernel⟩, by unfold HasLease; decide +kernel,
   ⟨vector_get_set_self _ _ _ (Fin.isLt _), rfl, rfl⟩, by unfold HasLease; decide +kernel, ⟨alone_issues rfl rfl, rfl⟩,
   ⟨alone_issues rfl rfl, rfl, by decide +kernel⟩, rfl, by decide +kernel, by decide +kernel⟩

theorem witness_MatrixControl_2 : (alone loader).Issues .m loader ∧ (15 : BitVec 4).toNat < loader.grant.streams ∧
    LoadsRecord (alone loader) loader (encode (.mcbl 15 7 0 7)) (loader.q.get 15) 4 0 ∧
    LoadsRecord (alone loader) loader (encode (.mepi 15 15 0 7)) (loader.q.get 15) 2 0 ∧ epiOfBytes 0 = some {} ∧
    (holding 16 (2 ^ 32) badEpi).Issues .m badEpi ∧
    LoadsRecord (holding 16 (2 ^ 32) badEpi) badEpi (encode (.mepi 15 15 0 7)) (badEpi.q.get 15) 2 (2 ^ 32) ∧
    epiOfBytes (2 ^ 32) = none :=
  ⟨alone_issues rfl rfl, by decide +kernel, ⟨by decide +kernel, by decide +kernel, by decide +kernel, by decide +kernel, runs (by decide +kernel)⟩,
   ⟨by decide +kernel, by decide +kernel, by decide +kernel, by decide +kernel, runs (by decide +kernel)⟩, by decide +kernel, holding_issues rfl rfl,
   ⟨by decide +kernel, by decide +kernel, by decide +kernel, by decide +kernel, runs (by decide +kernel)⟩, by decide +kernel⟩

/-- A task whose streams q14 and q15 are tiles 2 and 63, rows of 16 elements in BF16. -/
def tiled (n : Nat) (fmt : BitVec 32) : Stream := { base := BitVec.ofNat 64 (3 * 2 ^ 61 + 2 ^ 56 + n), extent := 2048, layout := 16 * 2 ^ 32, format := fmt }
def multiplier : Task := { tk with q := (tk.q.set 14 (tiled 2 1)).set 15 (tiled 63 1) }

/-- The core of that task, its tiles ready. -/
def readied (t : Task) : State := onCore (alone t) 0 { (alone t).core with tiles := .replicate 64 { state := 2 } }

theorem readied_issues {t : Task} {e : Engine} (h : t.mayIssue (readied t).dev.clock e = true) (c : t.draining = false) : (readied t).Issues e t :=
  ⟨vector_get_set_self _ _ _ (Fin.isLt _), h, c⟩

theorem ready_multiplier : MatrixReady multiplier 0 7 := ⟨rfl, by decide +kernel, by decide +kernel, by decide +kernel⟩

/-- The checks of a tile operand, of its tile, of a drain's tile: each passes. -/
theorem witness_MatrixMultiply :
    let s := readied multiplier
    let c := headCtx s .m multiplier (encode (.mma 14 15 15 2 0 7 63))
    s.Issues .m multiplier ∧ (15 : BitVec 4).toNat < multiplier.grant.acc ∧ (14 : BitVec 4).toNat < multiplier.grant.streams ∧
    (15 : BitVec 4).toNat < multiplier.grant.streams ∧ MatrixReady multiplier 0 7 ∧ HasLease s multiplier ∧
    ((leased tk).Issues .m tk ∧ ¬ HasLease (leased tk) tk) ∧ { tk.grant with acc := 15 }.acc ≤ (15 : BitVec 4).toNat ∧
    checkOperand c mmaFormats (multiplier.q.get 14) (askedUpds s) s = .ok ((), askedUpds s) ∧
    checkOperand c mmaFormats (multiplier.q.get 15) (askedUpds s) s = .ok ((), askedUpds s) ∧
    awaitOperand c (multiplier.q.get 14) (askedUpds s) s = .ok ((), askedUpds s) ∧
    awaitOperand c (multiplier.q.get 15) (askedUpds s) s = .ok ((), askedUpds s) :=
  ⟨readied_issues rfl rfl, by decide, by decide, by decide, ready_multiplier, by unfold HasLease; decide +kernel,
   ⟨⟨vector_get_set_self _ _ _ (Fin.isLt _), rfl, rfl⟩, by unfold HasLease; decide +kernel⟩, by decide,
   runs (by decide +kernel), runs (by decide +kernel), runs (by decide +kernel), runs (by decide +kernel)⟩

/-- An element of a tile is a place in it, or encoded zero. -/
theorem in_tile {q : Stream} (h : (tileHandle q.base).isSome = true) (cur : Int) (w r k : Nat) :
    matrixElem q cur w r k = .zero ∨ ∃ bit, matrixElem q cur w r k = .tile bit := by
  unfold matrixElem tileElem
  rw [if_pos h]
  dsimp only
  split
  · exact .inl rfl
  · exact .inr ⟨_, rfl⟩

/-- Where a drain puts an element of a tile, and what an operand reads of it. -/
def drained (s : State) (q : Stream) (i j : Nat) : Option (Dest × Option Dest) :=
  match matrixElem q q.at' q.width i j with
  | .tile bit => some (.here { bit := 8 * tileByte (coreOf s.cur) ((tileHandle q.base).getD 0) 0 + bit, width := q.width,
                               value := 0, addr := q.base, index := BitVec.ofNat 16 i }, none)
  | _ => none

def fetched (core : Fin 256) (m : List Host.Cell) (q : Stream) (b : Codebook) (i j : Nat) : FVal × Bool :=
  match matrixElem q q.at' q.width i j with
  | .tile bit => elementValue q.fmt (b.entries.toList.map BitVec.toNat)
      (readBits m (8 * tileByte core ((tileHandle q.base).getD 0) 0 + bit) q.width)
  | _ => (.fin false 0 1, false)

theorem drained_tile {s : State} {t : Task} {w : BitVec 32} {us : List Upd} {q : Stream} (h : (tileHandle q.base).isSome = true) (i j : Nat) :
    drainSpot (headCtx s .m t w) q i j us s = .ok (drained s q i j, us) := by
  unfold drainSpot drained
  rcases in_tile h q.at' q.width i j with e | ⟨bit, e⟩ <;> rw [e] <;> rfl

theorem fetched_tile {c : Ctx} {us : List Upd} {s : State} (hp : (applyAll us s).dev.poison = []) {q : Stream}
    (h : (tileHandle q.base).isSome = true) (b : Codebook) (i : BitVec 16) (strict : Bool) (r k : Nat) :
    fetchElement c q b i (matrixElem q q.at' q.width r k) strict us s =
      .ok (fetched (coreOf c.loc) (applyAll us s).mem q b r k, us) := by
  unfold fetchElement fetched
  rcases in_tile h q.at' q.width r k with e | ⟨bit, e⟩ <;> rw [e]
  · rfl
  · simp [hp, rangePoisoned]

theorem mapM_still {α β : Type} {g : α → M β} {f : α → β} {us : List Upd} {s : State} (l : List α)
    (h : ∀ x, g x us s = .ok (f x, us)) : (l.mapM g) us s = .ok (l.map f, us) := by
  induction l with
  | nil => rfl
  | cons x l ih => simp [List.mapM_cons, h, ih]

theorem fetched_slice {c : Ctx} {us : List Upd} {s : State} (hp : (applyAll us s).dev.poison = []) {q : Stream}
    (h : (tileHandle q.base).isSome = true) (b : Codebook) (n : Nat) : ∃ x, fetchSlice c q b n us s = .ok (x, us) := by
  unfold fetchSlice
  rw [run_bind, mapM_still _ fun r => mapM_still _ fun u => fetched_tile hp h b _ _ _ _]
  exact ⟨_, rfl⟩

/-- A task whose stream q15 is tile 63 in F32, empty. -/
def drainer : Task := { tk with q := tk.q.set 15 (tiled 63 0) }

theorem accumulating {t : Task} {w g : BitVec 3} (s : State) (h : MatrixReady t w g) (l : HasLease s t)
    (q : arrayOrders (withCore s (leaseAsked s)) (coreOf s.cur) = []) : CountedReady s t w g :=
  { h with lease := l, turn := q }

theorem witness_AccumulatorInstructions_1 : (readied multiplier).Issues .m multiplier ∧ (15 : BitVec 4).toNat < multiplier.grant.acc ∧
    CountedReady (readied multiplier) multiplier 0 7 ∧ (readied multiplier).held = false ∧ Mem.wf (readied multiplier).mem = true ∧
    (readied multiplier).dev.migrations = [] ∧ (readied multiplier).dev.poison = [] ∧
    (15 : BitVec 4).toNat < multiplier.grant.streams ∧ (multiplier.q.get 15).block = 0 ∧
    (let s := readied multiplier
     let c := headCtx s .m multiplier (encode (.macc 15 15 0 7))
     checkOperand c [0, 1, 2] (multiplier.q.get 15) (askedUpds s) s = .ok ((), askedUpds s) ∧
     awaitOperand c (multiplier.q.get 15) (askedUpds s) s = .ok ((), askedUpds s) ∧
     ∀ j, fetchElement c (multiplier.q.get 15) {} 0 (matrixElem (multiplier.q.get 15) (multiplier.q.get 15).at' (multiplier.q.get 15).width 0 j)
       false (askedUpds s) s = .ok (fetched (coreOf s.cur) (applyAll (askedUpds s) s).mem (multiplier.q.get 15) {} 0 j, askedUpds s)) :=
  ⟨readied_issues rfl rfl, by decide, accumulating _ ready_multiplier (by unfold HasLease; decide +kernel) (by decide +kernel), rfl, rfl, rfl, rfl,
   by decide, by decide +kernel, runs (by decide +kernel), runs (by decide +kernel), fun j => fetched_tile rfl rfl _ _ _ _ _⟩

theorem witness_AccumulatorInstructions_2 :
    let s := alone drainer
    let c := headCtx s .m drainer (encode (.mdrain 15 15 15 0 7))
    s.Issues .m drainer ∧ CountedReady s drainer 0 7 ∧ drainer.unack ≠ BitVec.allOnes 32 ∧
    checkDrain c (s.core.epis.get (15 : BitVec 4).toFin) (drainer.q.get 15) (askedUpds s) s = .ok ((), askedUpds s) ∧
    (∀ n, tileHandle (drainer.q.get 15).base = some n →
      s.core.tileState n = 0 ∧ fillsFirst (withCore s (leaseAsked s)) (coreOf s.cur) .m n = false) ∧
    ∀ i j, drainSpot c (drainer.q.get 15) i j (askedUpds s) s = .ok (drained s (drainer.q.get 15) i j, askedUpds s) :=
  ⟨alone_issues rfl rfl, accumulating _ ⟨rfl, by decide +kernel, by decide +kernel, by decide +kernel⟩ (by unfold HasLease; decide +kernel)
     (by decide +kernel), by decide +kernel, runs (by decide +kernel),
   fun n e => by have : tileHandle (drainer.q.get 15).base = some 63 := by decide +kernel
                 rw [this] at e; cases e; decide +kernel,
   fun i j => drained_tile rfl i j⟩

/-- The record of a collective of two devices that send one tile each to the other, and an entry of it. -/
def exchange : CollRec :=
  { group := 1, op := 0, walker := false, fmt := 0, sequence := 0, rank := 0, levels := [⟨1, 0, 0, 0, 1, 1⟩], acc := 0, vault := 0, done := 0
    source := 0, dest := 0, length := 0, members := [0, 1], digest := 0 }
def entry (st : CState) (n : Nat) : CEntry :=
  { state := st, name := ⟨0, 1, 0⟩, info := exchange, record := 0, tid := 5, loc := 0, level := true, next := n }
def routing (x : CEntry) : State := onDev (alone tk) { (alone tk).dev with coll := (alone tk).dev.coll.set 0 (some x) }

theorem routed (x : CEntry) (h : x = entry .posted 0 ∨ x = entry .running 0 ∨ x = entry .running 1 ∨ x = entry .done 1) :
    routedEntry (headCtx (routing x) .m tk (encode (.mdrr 15 3 15 1 0 7))) (tk.rt.get 3) ((routing x).core.epis.get 15)
      (askedUpds (routing x)) (routing x) = .ok (x, askedUpds (routing x)) := by
  rcases h with rfl | rfl | rfl | rfl <;> exact runs (by decide +kernel)

/-- An entry that waits, one that still sends, and one that has sent its last tile. -/
theorem witness_AccumulatorInstructions_3 : (routing (entry .running 0)).Issues .m tk ∧
    CountedReady (routing (entry .running 0)) tk 0 7 ∧ (entry .posted 0).state = .posted ∧
    ((entry .running 0).state = .running ∧ (entry .running 0).next < (entry .running 0).info.iterations) ∧
    collEntry (routing (entry .running 0)).dev (entry .running 0).name = some (entry .running 0) ∧ tk.unack ≠ BitVec.allOnes 32 ∧
    (entry .running 1).info.iterations ≤ (entry .running 1).next ∧
    routedEntry (headCtx (routing (entry .running 0)) .m tk (encode (.mdrr 15 3 15 1 0 7))) (tk.rt.get 3)
      ((routing (entry .running 0)).core.epis.get 15) (askedUpds (routing (entry .running 0))) (routing (entry .running 0)) =
      .ok (entry .running 0, askedUpds (routing (entry .running 0))) :=
  ⟨⟨vector_get_set_self _ _ _ (Fin.isLt _), rfl, rfl⟩,
   accumulating _ ⟨rfl, by decide +kernel, by decide +kernel, by decide +kernel⟩ (by unfold HasLease; decide +kernel) (by decide +kernel),
   rfl, by decide +kernel, by decide +kernel, by decide +kernel, by decide +kernel, routed _ (.inr (.inl rfl))⟩

/-- An `mma` at its last slice, of two ready tiles; restored, it has not the lease. -/
def last (parked : Bool) : Mma :=
  { qa := tiled 2 1, qb := tiled 63 1, acc := 15, mode := 2, slices := 63, next := 62, bookA := {}, bookB := {}, order := 1, parked }

theorem slicing_slice {s : State} (h : s.dev.poison = []) (c : Ctx) (n : Nat) (b : Codebook) (q : Stream)
    (hq : q = tiled 2 1 ∨ q = tiled 63 1) : ∃ x, fetchSlice c q b n [] s = .ok (x, []) :=
  fetched_slice (us := []) h (by rcases hq with rfl | rfl <;> rfl) b n

theorem witness_MatrixSlices : ∃ j : MJob, j.work = .mma (last false) ∧ (last false).next < (last false).slices ∧
    (alone (busy (.mma (last false)))).tasks.get (place 0 0) = some (busy (.mma (last false))) ∧ (busy (.mma (last false))).mjobs = [] ++ j :: [] ∧
    (∀ n, (busy (.mma (last false))).mode ≠ .saving n) ∧ (last false).parked = false ∧
    (∀ o ∈ arrayOrders (alone (busy (.mma (last false)))) 0, (last false).order ≤ o) ∧
    Mem.wf (alone (busy (.mma (last false)))).mem = true ∧ (alone (busy (.mma (last false)))).dev.migrations = [] ∧
    (alone (busy (.mma (last false)))).dev.poison = [] ∧ (alone (busy (.mma (last false)))).held = false ∧
    (last true).parked = true ∧ ((alone (busy (.mma (last true)))).cores.get 0).leaseHolder ≠ some 0 ∧
    ((onCore (alone (busy (.mma (last true)))) 0 { leaseHolder := some 0 }).cores.get 0).leaseHolder = some 0 ∧
    (onCore (alone (busy (.mma (last true)))) 0 { leaseHolder := some 0 }).tasks.get (place 0 0) = some (busy (.mma (last true))) :=
  ⟨_, rfl, by decide, vector_get_set_self _ _ _ (Fin.isLt _), rfl, (by intro n h; cases h), rfl, by decide +kernel, rfl, rfl, rfl, rfl,
   rfl, by decide +kernel, by decide +kernel, vector_get_set_self _ _ _ (Fin.isLt _)⟩

/-- A task that copies one element of its scratchpad to another place there, or to memory with a flag word, or by an index. -/
def one (base : Word) (fmt : BitVec 32) (flag : Word) : Stream := { base, extent := 1, layout := 2 ^ 32 + 1, format := fmt, flag }
def copier : Task := { tk with q := (((tk.q.set 12 (one (3 * 2 ^ 61) 0 0)).set 13 (one (3 * 2 ^ 61 + 64) 10 0)).set 14
  (one (3 * 2 ^ 61 + 128) 0 0)).set 15 (one 0x2000 7 0x1008) }
def flagger : Task := { copier with q := copier.q.set 12 (one (3 * 2 ^ 61) 7 0) }

theorem witness_Copies_1 : (mapped copier).Issues .c copier ∧ ∃ f, copies (.cp 12 14 0 7 0 7 4) = some f ∧
    CopyPasses (mapped copier) copier (encode (.cp 12 14 0 7 0 7 4)) f ∧ ¬ (f.kind = .flagged ∧ (f.dst copier).flag ≠ 0) :=
  ⟨mapped_issues rfl rfl, _, rfl, ⟨by decide +kernel, by decide +kernel, by decide +kernel, by decide +kernel, by decide +kernel,
    by decide +kernel, fun _ => runs (by decide +kernel), runs (by decide +kernel), runs (by decide +kernel), (by intro x h; cases h),
    fun _ => ⟨runs (by decide +kernel), runs (by decide +kernel), runs (by decide +kernel)⟩,
    ⟨runs (by decide +kernel), runs (by decide +kernel), runs (by decide +kernel)⟩, (by intro h; cases h), runs (by decide +kernel)⟩,
    (by intro h; cases h.1)⟩

theorem witness_Copies_2 : (mapped flagger).Issues .c flagger ∧ ∃ f, copies (.cpf 12 15 7 7 0 7 4) = some f ∧
    CopyPasses (mapped flagger) flagger (encode (.cpf 12 15 7 7 0 7 4)) f ∧ (f.kind = .flagged ∧ (f.dst flagger).flag ≠ 0) ∧
    flagSpot (headCtx (mapped flagger) .c flagger (encode (.cpf 12 15 7 7 0 7 4))) (f.dst flagger).flag [] (mapped flagger) =
      .ok (⟨0x1008, some (frame + 0x1008)⟩, []) :=
  ⟨mapped_issues rfl rfl, _, rfl, ⟨by decide +kernel, by decide +kernel, by decide +kernel, by decide +kernel, by decide +kernel,
    by decide +kernel, fun _ => runs (by decide +kernel), runs (by decide +kernel), runs (by decide +kernel), (by intro x h; cases h),
    fun _ => ⟨runs (by decide +kernel), runs (by decide +kernel), runs (by decide +kernel)⟩,
    ⟨runs (by decide +kernel), runs (by decide +kernel), runs (by decide +kernel)⟩, (by intro h; cases h), runs (by decide +kernel)⟩,
    (by decide +kernel), runs (by decide +kernel)⟩

theorem witness_Copies_3 : (mapped copier).Issues .c copier ∧ ∃ f, copies (.cpg 12 14 0 7 0 7 4) = some f ∧
    CopyPasses (mapped copier) copier (encode (.cpg 12 14 0 7 0 7 4)) f ∧ f.idx copier = some (one (3 * 2 ^ 61 + 64) 10 0) :=
  ⟨mapped_issues rfl rfl, _, rfl, ⟨by decide +kernel, by decide +kernel, by decide +kernel, by decide +kernel, by decide +kernel,
    by decide +kernel, fun _ => runs (by decide +kernel), runs (by decide +kernel), runs (by decide +kernel),
    (by intro x h; obtain rfl : one (3 * 2 ^ 61 + 64) 10 0 = x := Option.some.inj h
        exact ⟨by decide +kernel, by decide +kernel, runs (by decide +kernel), runs (by decide +kernel), runs (by decide +kernel), runs (by decide +kernel)⟩),
    fun _ => ⟨runs (by decide +kernel), runs (by decide +kernel), runs (by decide +kernel)⟩,
    ⟨runs (by decide +kernel), runs (by decide +kernel), runs (by decide +kernel)⟩, (by intro h; cases h), runs (by decide +kernel)⟩,
    rfl⟩

/-- A task whose stream q14 names a record at `here` and whose stream q15 has that base. -/
def handing (other : Word) : Task :=
  { tk with q := (tk.q.set 14 { base := here, extent := 63 }).set 15 { base := other, extent := 1, format := 12 } }

theorem onDev_issues {s : State} {e : Engine} {t : Task} (h : s.Issues e t) (d : Device) (hc : d.clock = s.dev.clock) :
    (onDev s d).Issues e t := ⟨h.here, by rw [show (onDev s d).dev.clock = s.dev.clock from hc]; exact h.may, h.calm⟩

theorem witness_CopyEngineRecords_1 : (alone tk).Issues .c tk ∧ CopyReady tk 0 7 ∧ tk.tileOk 1 = false ∧ tk.tileOk 63 = true ∧
    tileWritten (alone tk) 0 63 = false ∧ tileRead (alone tk) 0 63 0 = false :=
  ⟨alone_issues rfl rfl, ⟨by decide +kernel, by decide +kernel, by decide +kernel⟩, by decide +kernel, by decide +kernel, by decide +kernel,
   by decide +kernel⟩

/-- A chain of six steps that fetches 256 bytes. -/
def chainRecord : Nat := 2 ^ 64 * 0x2000 + 2 ^ 128 * 6 + 2 ^ 144 * 256

theorem witness_CopyEngineRecords_2 :
    let t := handing (3 * 2 ^ 61)
    let s := holding 128 chainRecord t
    let c := headCtx s .c t (encode (.chl 14 15 6 7 0 7))
    s.Issues .c t ∧ CopyReady t 0 7 ∧ ReadsRecord s t (encode (.chl 14 15 6 7 0 7)) here 16 chainRecord ∧
    chainRecordOk chainRecord = true ∧ BitVec.ofNat 64 (field chainRecord 8 8) = 0x2000 ∧ checkBlock c 0x2000 [] s = .ok ((), []) ∧
    checkChainDest c (t.q.get 15) [] s = .ok ((), []) ∧
    awaitCopies c [] (⟨formOf 0x2000, posOf 0x2000, posOf 0x2000 + 64⟩ :: (t.q.get 15).regions false) [] s = .ok ((), []) ∧ t.chlOut < 8 ∧ t.unack ≠ BitVec.allOnes 32 :=
  ⟨holding_issues rfl rfl, ⟨by decide +kernel, by decide +kernel, by decide +kernel⟩,
   ⟨by decide +kernel, by decide +kernel, runs (by decide +kernel), runs (by decide +kernel)⟩, by decide +kernel, by decide +kernel, runs (by decide +kernel),
   runs (by decide +kernel), runs (by decide +kernel), by decide, by decide +kernel⟩

/-- A task whose stream q14 names a frame of tenant 0 and whose stream q15 names a place in a vault. -/
def migrating : Task := { tk with q := (tk.q.set 14 { base := here, extent := 0 }).set 15 { base := 0x100 } }

/-- The frame of the first page moves to one of the vaults. -/
theorem witness_CopyEngineRecords_3 :
    let t := migrating
    let s := mapped t
    s.Issues .c t ∧ CopyReady t 0 7 ∧ t.level = true ∧ pathOf (t.q.get 14).base = 0 ∧ (tileHandle (t.q.get 14).base).isNone = true ∧
    (t.q.get 14).extent.toNat < 64 ∧ cmigDest (t.q.get 15).base = some 0x100 ∧
    walk s none (BitVec.ofNat 6 (t.q.get 14).extent.toNat) .c .read .element (planeOf (t.q.get 14).base) (posOf (t.q.get 14).base) =
      .ok { page0 with bit := 8 * (frame + 0x1000) } ∧ page0.zero = false ∧ bits page0.fw 27 26 = 0 :=
  ⟨mapped_issues rfl rfl, ⟨by decide +kernel, by decide +kernel, by decide +kernel⟩, rfl, by decide +kernel, by decide +kernel, by decide +kernel, by decide +kernel, finds (by decide +kernel), rfl,
   by decide +kernel⟩

theorem witness_CopyEngineRecords_4 :
    let t := handing 29
    let s := mapped t
    s.Issues .c t ∧ CopyReady t 0 7 ∧ t.level = true ∧ ReadsRecord s t (encode (.ckey 14 15 6 7 0 7)) here 8 0 ∧ field 0 36 28 = 0 ∧
    (t.q.get 15).base.toNat = (29 : Fin 30).val ∧ (s.dev.ports.get 29).txSlot = (s.dev.ports.get 29).rxSlot ∧
    (handing 32).q.get 15 = { base := 32, extent := 1, format := 12 } ∧ (handing 31).q.get 15 = { base := 31, extent := 1, format := 12 } ∧
    (let d := onDev s { s.dev with ports := s.dev.ports.set 29 { s.dev.ports.get 29 with txSlot := 1 } }
     d.Issues .c t ∧ (d.dev.ports.get 29).txSlot ≠ (d.dev.ports.get 29).rxSlot) :=
  ⟨mapped_issues rfl rfl, ⟨by decide +kernel, by decide +kernel, by decide +kernel⟩, rfl, ⟨by decide +kernel, by decide +kernel, runs (by decide +kernel), runs (by decide +kernel)⟩, by decide +kernel, by decide +kernel,
   by decide +kernel, by decide +kernel, by decide +kernel, onDev_issues (mapped_issues rfl rfl) _ rfl, by decide +kernel⟩

/-- A collective of devices 0 and 1 with one level. -/
def collRecord : Nat := 1 + 2 ^ 72 + 2 ^ 512 * 3 + 2 ^ 768

theorem witness_CopyEngineRecords_5 :
    let t := handing 0
    let s := holding 256 collRecord t
    let table := s.dev.coll.map fun e? => e?.bind fun e => if e.tid = t.tid ∧ e.record = here ∧ e.active = false then none else some e
    s.Issues .c t ∧ CopyReady t 0 7 ∧ ReadsRecord s t (encode (.cpost 14 6 7 0 7)) here 32 collRecord ∧
    (collLayoutOk collRecord = true ∧ s.dev.devid ∈ (collFields collRecord).members ∧
      (collFields collRecord).rank = (collFields collRecord).rankOf s.dev.devid) ∧
    (∀ i, table.get i = none) ∧ (collFields collRecord).done = 0 ∧
    (∀ c us s, checkDone c 0 us s = .ok ((), us)) ∧ collLayoutOk 0 = false :=
  ⟨holding_issues rfl rfl, ⟨by decide +kernel, by decide +kernel, by decide +kernel⟩, ⟨by decide +kernel, by decide +kernel, runs (by decide +kernel), runs (by decide +kernel)⟩, by decide +kernel, by decide +kernel,
   by decide +kernel, fun _ _ _ => rfl, by decide +kernel⟩

/-- A message of this device to itself. -/
abbrev packet (b : Body) : Packet := { src := 0, dst := 0, vc := 0, body := b }

/-- The machine of a task to which one message has come. -/
def hears (t : Task) (p : Body) : State := onDev (mapped t) { (mapped t).dev with rx := [packet p] }

theorem hears_it (t : Task) (b : Body) : (hears t b).dev.rx[0]? = some (packet b) ∧ behind (hears t b).dev 0 b = false ∧
    (hears t b).held = false ∧ inOrder (hears t b).dev 0 (packet b) ∧ takenOut (hears t b).dev 0 = (mapped t).dev := by
  refine ⟨rfl, ?_, rfl, fun h => ?_, rfl⟩
  · have f : ∀ o, flagBehind (hears t b).dev o b = false := fun o => by
      show (_ && ([] : List RemotePart).any _) = false
      simp
    simp only [behind, List.take_zero, List.any_nil, f]; split <;> rfl
  · cases h

theorem mapped_wf (t : Task) (b : Body) : Mem.wf (hears t b).mem = true := by
  show Mem.wf tables = true
  decide +kernel

/-- Who asks, at a level; one doubleword of the first page; a block there. -/
def asker (level : Bool) : Origin := { dev := 0, tid := 5, core := 0, eng := .s, pc := 0, word := 0, tenant := 0, level }
def aWrite : Wr := { bit := 8 * (frame + 0x1000), width := 64, value := 7, addr := here, span := 8 }
def aBlock : BlockRef :=
  { bit := 8 * (frame + 0x1000), width := 4, fmt := 5, block := 32, scaleBit := 8 * (frame + 0x1010), scaleWidth := 8, scaleFmt := 12
    book := .replicate 16 0, ascale := 0x3F80 }

theorem witness_MemoryTargets_1 : ∃ s : State, (∀ w ∈ [aWrite], bitsGranted s (asker true).tenant (asker true).level .write w.bit w.width = true) ∧
    bitsGranted s (asker false).tenant (asker false).level .write aWrite.bit aWrite.width = false ∧
    atomicRefused s (asker false) (frame + 0x1008) 0 = some .access ∧ atomicRefused s (asker true) (frame + 0x1008) 0 = none ∧
    (frame + 0x1008) % 8 = 0 ∧ s.dev.migrations = [] ∧ blockRefused s (asker false) aBlock = some .access ∧
    blockRefused s (asker true) aBlock = none ∧ ingressGrants s 0 false .read 0 = false ∧ ingressGrants s 0 true .read 0 = true ∧
    locateFor s (asker true) .read (.bytes 8) 0x1004 = .error (.cause .align) ∧
    locateFor s (asker true) .read (.bytes 8) here = .ok (8 * (frame + 0x1000), 64, false) ∧
    locateFor s (asker true) .atomic (.bytes 8) here = .ok (8 * (frame + 0x1000), 64, false) ∧
    ingressGrants s 0 true .atomic 0 = true ∧ ingressGrants s 0 false .write 0 = false ∧ ingressGrants s 0 true .write 0 = true ∧
    translateAll s (asker true) [(0x1004, .bytes 8, 7, 0)] [] s = .ok (.error (.align, 0x1004, 0), []) ∧
    translateAll s (asker true) [(here, .bytes 8, 7, 0)] [] s = .ok (.ok [aWrite], []) :=
  ⟨mapped tk, by decide +kernel, by decide +kernel, by decide +kernel, by decide +kernel, by decide, rfl, by decide +kernel, by decide +kernel,
   by decide +kernel, by decide +kernel, refuses (by decide +kernel), finds (by decide +kernel), finds (by decide +kernel), by decide +kernel,
   by decide +kernel, by decide +kernel, runs (by decide +kernel), runs (by decide +kernel)⟩

/-- Every message above can have come. -/
theorem witness_MemoryTargets_2 (b : Body) : ∃ s : State, s.dev.rx[0]? = some (packet b) ∧ behind s.dev 0 b = false ∧ s.held = false ∧
    Mem.wf s.mem = true :=
  ⟨hears tk b, (hears_it tk b).1, (hears_it tk b).2.1, rfl, mapped_wf tk b⟩

/-- The same, the clock after one in which that message reached its handler engine. -/
def reached (t : Task) (b : Body) : State :=
  onDev (mapped t) { (mapped t).dev with clock := 1, rx := [{ packet b with reached := some 0 }] }

theorem reached_comes (t : Task) (b : Body) (o : Origin) (byte : Nat) :
    atomComes (reached t b).dev 0 { packet b with reached := some 0 } o byte :=
  ⟨0, rfl, Nat.one_pos, fun m q uid o' byte' slot h4 h5 posted granted a c' h n _ _ _ => by
    cases m with
    | zero => exact absurd rfl n
    | succ m => cases h⟩

/-- An empty tenant slot refuses, a standard one runs; the shortest program, and none; a slot of another tenant. -/
theorem witness_Atomics : (∃ s p, s.dev.rx[0]? = some p ∧ p.body = .atomic 1 (asker true) (frame + 0x1000) 0 1 0 false false here ∧
      behind s.dev 0 p.body = false ∧ atomComes s.dev 0 p (asker true) (frame + 0x1000) ∧ s.held = false ∧ atomicRefused s (asker true) (frame + 0x1000) 24 = some .handler ∧
      atomicRefused s (asker true) (frame + 0x1000) 0 = none ∧ s.dev.migrations = [] ∧ Mem.wf s.mem = true) ∧
    handlerOk [0] = true ∧ handlerOk [] = false ∧ (tenantSlot (alone tk).dev 31).owner = none ∧
    (tenantSlot { (alone tk).dev with handlers := .replicate 8 { owner := some 1 } } 31).owner = some 1 :=
  ⟨⟨reached tk (.atomic 1 (asker true) (frame + 0x1000) 0 1 0 false false here), _, rfl, rfl, by decide +kernel, reached_comes _ _ _ _, rfl,
    by decide +kernel, by decide +kernel, rfl, mapped_wf tk (.ack 0 0)⟩, by decide +kernel, by decide +kernel, by decide +kernel, by decide +kernel⟩

theorem only_task {l : Fin 1024} {t t' : Task} (b : Body) (h : (hears t b).tasks.get l = some t') : l = (hears t b).cur := by
  by_contra n
  have e : (hears t b).tasks.get l = State.reset.tasks.get l := vector_get_set_ne _ _ (Fin.isLt _) fun x => n x.symm
  rw [e] at h
  have r : State.reset.tasks.get l = none := by show (Vector.replicate 1024 none).get l = none; simp [vector_get_eq]
  rw [r] at h; cases h

theorem hears_stands (t : Task) (b : Body) : standsAt (hears t b) (hears t b).cur t :=
  ⟨vector_get_set_self _ _ _ (Fin.isLt _), fun _ _ h _ => only_task b h⟩

/-- A task that has asked, that waits for a barrier's answer, and that has a write out; the same being saved. -/
def asking : Task := { tk with asked := [{ eng := .s, tag := 0, uid := 3, addr := here }] }
def storing : Task := { tk with uids := [3], unack := 1 }

theorem witness_AnswersAndRefusals :
    (∀ t b, ∃ s p, s.dev.rx[0]? = some p ∧ p.body = b ∧ inOrder s.dev 0 p ∧ p.src = s.dev.devid ∧ standsAt s s.cur t ∧
      takenOut s.dev 0 = (mapped t).dev) ∧
    (∃ q, (asking.asked.find? fun x => x.uid == 3) = some q) ∧ ({ tk with held := .barAsked ⟨4, 0, 31⟩ } : Task).held = .barAsked ⟨4, 0, 31⟩ ∧
    partsLeft (mapped storing).dev 3 = false ∧
    partsLeft { (mapped storing).dev with rx := [packet (.store 3 (asker true) [aWrite] none)] } 3 = true ∧ storing.isCopy 3 = false ∧
    3 ∈ storing.uids ∧ storing.mode = .ready ∧ storing.takesRefusal .s = true ∧
    ({ storing with mode := .asleep } : Task).takesRefusal .s = false ∧ ({ storing with mode := .saving 1 } : Task).mode = .saving 1 :=
  ⟨fun t b => ⟨hears t b, _, rfl, rfl, (hears_it t b).2.2.2.1, rfl, hears_stands t b, rfl⟩, ⟨_, rfl⟩, rfl, by decide +kernel, by decide +kernel,
   by decide +kernel, by decide, rfl, by decide +kernel, by decide +kernel, rfl⟩

/-- One job of each kind that is at its end: an `mma`, a codebook load, a drain into tile 63 in whose writes nothing is left. -/
theorem witness_FinishLeaseAndRamp_1 :
    (alone (busy (.mma { last false with next := 63 }))).tasks.get (place 0 0) = some (busy (.mma { last false with next := 63 })) ∧
    (∀ m, (MWork.mma { last false with next := 63 }) = .mma m → m.slices ≤ m.next) ∧
    (alone (busy (.book 7 {}))).tasks.get (place 0 0) = some (busy (.book 7 {})) ∧
    performed (alone (busy (.done (some 3)))).dev 3 = true :=
  ⟨vector_get_set_self _ _ _ (Fin.isLt _), (by intro m h; cases h; decide), vector_get_set_self _ _ _ (Fin.isLt _), by decide +kernel⟩

/-- A copy that both conditions have come to hold for, into tile 63; a short job. -/
def aCopy (kind : CopyKind) (next : Nat) : Copy :=
  { kind, qs := one (3 * 2 ^ 61) 0 0, qd := one (3 * 2 ^ 61 + 128) 0 0, idx := {}, srcBook := {}, dstBook := {}, exposed := false, count := 1
    next, sc := 4, kr := some 0, kv := some 7, uid := 3, flag := none }
def ending : Copy := { aCopy .plain 1 with readSet := true, writeSet := true, dstTile := some 63 }
def copyingW (w : CWork) : Task := { tk with cjobs := [{ word := 0, pc := 0, gives := 0, work := w }], uids := [3], unack := 1 }
def copying (x : Copy) : Task := copyingW (.copy x)

/-- A task with a result that is due and one that is not. -/
def landing : Task :=
  { tk with vcount := 6, pending := [{ result := { dest := .mask 7, bits := 0, value := 0 }, due := 6 },
                                     { result := { dest := .mask 6, bits := 0, value := 0 }, due := 7 }] }

theorem witness_FinishLeaseAndRamp_2 :
    (alone (copyingW .short)).tasks.get (place 0 0) = some (copyingW .short) ∧
    (∀ j ∈ (copyingW .short).cjobs, copyOf j = none) ∧ (∀ j ∈ (copying ending).cjobs, copyOf j = some ending) ∧
    ending.readSet = true ∧ ending.writeSet = true ∧ ending.dead = false ∧ ending.srcTiles = [] ∧
    (alone landing).tasks.get (place 0 0) = some landing ∧ (∃ x ∈ landing.pending, x.due ≤ landing.vcount) :=
  ⟨vector_get_set_self _ _ _ (Fin.isLt _), by decide +kernel, (by intro j h; rw [List.mem_singleton.1 h]; rfl), rfl, rfl, rfl, rfl,
   vector_get_set_self _ _ _ (Fin.isLt _), ⟨_, List.mem_cons_self, by decide⟩⟩

/-- A core whose lease has been idle for just as long as R28 says, with slots 1 and 3 waiting; ramps at their ends. -/
def idleCore : Core := { leaseHolder := some 0, leaseWaiting := 10, leaseClock := 0 }
theorem witness_FinishLeaseAndRamp_3 : ∃ s : State, s.tasks.get (place 0 0) = some tk ∧ (s.cores.get 0).leaseHolder = some 0 ∧
    (s.cores.get 0).leaseWaiting ≠ 0 ∧ (s.cores.get 0).leaseClock + 4096 ≤ s.dev.clock ∧
    ({ idleCore with ramp := .up, groupsOn := 15 } : Core).ramp = .up ∧ ({ idleCore with ramp := .down, groupsOn := 1 } : Core).ramp = .down :=
  ⟨onCore (onDev (alone tk) { (alone tk).dev with clock := 4096 }) 0 idleCore, vector_get_set_self _ _ _ (Fin.isLt _), by decide +kernel,
   by decide +kernel, by decide +kernel, rfl, rfl⟩

def copyCtx : Ctx := { loc := place 0 0, eng := .c, pc := 0, word := 0, tag := 3, back := true }

theorem posts {x : Except Stop (Except TrapInfo ChunkOut × List Upd)}
    (h : (match x with | .ok (.ok (.post _ _), us) => us.isEmpty | _ => false) = true) : ∃ ds fl, x = .ok (.ok (.post ds fl), []) := by
  match x, h with
  | .ok (.ok (.post ds fl), us), h => exact ⟨ds, fl, by rw [List.isEmpty_iff.1 h]⟩
  | .error _, h => cases h
  | .ok (.error _, _), h => cases h
  | .ok (.ok (.add _), _), h => cases h

theorem adds {x : Except Stop (Except TrapInfo ChunkOut × List Upd)}
    (h : (match x with | .ok (.ok _, us) => us.isEmpty | _ => false) = true) : ∃ o, x = .ok (.ok o, []) := by
  match x, h with
  | .ok (.ok o, us), h => exact ⟨o, by rw [List.isEmpty_iff.1 h]⟩
  | .error _, h => cases h
  | .ok (.error _, _), h => cases h

/-- A copy of one chunk that has still to leave; every read done and none; one that adds to the accumulator, exposed. -/
theorem witness_CopyProgress_1 : (alone (copying (aCopy .plain 0))).tasks.get (place 0 0) = some (copying (aCopy .plain 0)) ∧
    (∃ j, (copying (aCopy .plain 0)).cjobs[0]? = some j ∧ copyOf j = some (aCopy .plain 0)) ∧
    (∀ m y, m ≠ 0 → ((copying (aCopy .plain 0)).cjobs[m]?).bind copyOf = some y → y.uid ≠ 3) ∧ (aCopy .plain 0).dead = false ∧
    (aCopy .plain 0).next * (aCopy .plain 0).perChunk < (aCopy .plain 0).count ∧ performed (alone (copying (aCopy .plain 0))).dev 3 = true ∧
    (copying (aCopy .plain 0)).copyBehind (alone (copying (aCopy .plain 0))).dev 0 (aCopy .plain 0) = false ∧
    (∀ m, (copying (aCopy .plain 0)).mode ≠ .saving m) ∧
    ∃ ds fl, chunkWork copyCtx (aCopy .plain 0) true [] (alone (copying (aCopy .plain 0))) = .ok (.ok (.post ds fl), []) :=
  ⟨vector_get_set_self _ _ _ (Fin.isLt _), ⟨_, rfl, rfl⟩, (by intro m y h e; cases m with | zero => cases h rfl | succ m => cases e), rfl,
   by decide +kernel, by decide +kernel, by decide +kernel, (by intro m h; cases h),
   posts (by decide +kernel)⟩

def clashing (exposed : Bool) : Copy := { aCopy (.add true) 0 with exposed, qd := one (4 * 2 ^ 61) 10 0 }
def clashTask (exposed : Bool) : Task :=
  { copying (clashing exposed) with mjobs := [{ word := 0, pc := 0, gives := 0, work := .mma (last false), slotA := some 0 }] }

theorem witness_CopyProgress_2 (x : Bool) : (alone (clashTask x)).tasks.get (place 0 0) = some (clashTask x) ∧
    (∃ j, (clashTask x).cjobs[0]? = some j ∧ copyOf j = some (clashing x)) ∧
    (∀ m y, m ≠ 0 → ((clashTask x).cjobs[m]?).bind copyOf = some y → y.uid ≠ 3) ∧ (clashing x).dead = false ∧
    (clashing x).next * (clashing x).perChunk < (clashing x).count ∧ performed (alone (clashTask x)).dev 3 = true ∧
    (clashTask x).copyBehind (alone (clashTask x)).dev 0 (clashing x) = false ∧ (∀ m, (clashTask x).mode ≠ .saving m) ∧
    (clashing x).exposed = x ∧ (clashing x).clashAt (alone (clashTask x)) (place 0 0) (clashTask x) = some (4 * 2 ^ 61) ∧
    ∃ o, chunkWork copyCtx (clashing x) false [] (alone (clashTask x)) = .ok (.ok o, []) :=
  ⟨vector_get_set_self _ _ _ (Fin.isLt _), ⟨_, rfl, rfl⟩, (by intro m y h e; cases m with | zero => cases h rfl | succ m => cases e), rfl,
   by revert x; decide +kernel, by revert x; decide +kernel, by revert x; decide +kernel, (by intro m h; cases h), rfl,
   by revert x; decide +kernel, adds (by revert x; decide +kernel)⟩

/-- Copies with every chunk read: a tile still to be emptied, everything written, a flag still to be counted. -/
theorem witness_CopyProgress_3 : (alone (copying (aCopy .plain 1))).tasks.get (place 0 0) = some (copying (aCopy .plain 1)) ∧
    ((aCopy .plain 1).count ≤ (aCopy .plain 1).next * (aCopy .plain 1).perChunk ∧ (aCopy .plain 1).readSet = false ∧
      tileRead (alone (copying { aCopy .plain 1 with readSet := true, srcTiles := [63] })) 0 63 3 = false ∧ (aCopy .plain 1).writeSet = false ∧ (aCopy .plain 1).flag = none ∧
      performed (alone (copying (aCopy .plain 1))).dev 3 = true ∧ 3 ∈ (copying (aCopy .plain 1)).uids) ∧
    (let x : Copy := { aCopy .flagged 1 with flag := some here }
     x.flagSent = false ∧
       flagSpot copyCtx here [] (mapped (copying x)) = .ok ({ addr := here, byte := some (frame + 0x1000) }, [])) :=
  ⟨vector_get_set_self _ _ _ (Fin.isLt _), by decide +kernel, rfl, runs (by decide +kernel)⟩

/-- A sleeper at `here` whose word is 0: f 0 compares it with 0, f 1 does not hold; its monitor, woken; the clock at 10. -/
def sleeper (f : BitVec 2) (ends : Nat) : Task :=
  { s1 here with mode := .asleep, held := .waita (encode (.waita 4 1 2 0)) 4 here 0 f ((frame + 0x1000) / 64) ends }
def monitored (t : Task) (woken : Bool) : State :=
  onCore (onDev (mapped t) { (mapped t).dev with clock := 10 }) 0
    { cachedCore with monitors := [{ slot := 0, block := (frame + 0x1000) / 64, sup := true, woken }] }

theorem witness_WaitingEnds_1 : (∀ t w, (monitored t w).tasks.get (place 0 0) = some t) ∧
    ((monitored (sleeper 0 0) true).cores.get 0).monitors[0]? = some { slot := 0, block := (frame + 0x1000) / 64, sup := true, woken := true } ∧
    (sleeper 0 0).mode = .asleep ∧ (sleeper 0 10).held = .waita (encode (.waita 4 1 2 0)) 4 here 0 0 ((frame + 0x1000) / 64) 10 ∧
    waitRead { loc := place 0 0, eng := .s, pc := (sleeper 0 0).pcS, word := encode (.waita 4 1 2 0) } here [] (monitored (sleeper 0 0) true) =
      .ok ((0, (frame + 0x1000) / 64), []) ∧
    ({ slot := 0, block := 0, sup := true, woken := true, reclaimed := true } : Monitor).reclaimed = true ∧
    waitHolds 0 0 0 = true ∧ waitHolds 1 0 0 = false ∧ (10 : Nat) ≠ 0 ∧ 10 ≤ (monitored (sleeper 0 10) false).dev.clock :=
  ⟨fun _ _ => vector_get_set_self _ _ _ (Fin.isLt _), by decide +kernel, rfl, rfl, runs (by decide +kernel), rfl, by decide, by decide, by decide,
   by decide⟩

/-- A post with nothing left to wait for; a wait at a barrier that swaps, of just so long; a stall at the least limit. -/
def dev31 : BarRef := ⟨4, 0, 31⟩
def swapping : State :=
  let t := { tk with mode := .atBarrier, held := .barrier dev31 0 true 0 }
  onDev (alone t) { (alone t).dev with nanos := 50000, devBarriers := (alone t).dev.devBarriers.set 31 { swap := true } }
def stalled : Task := { tk with stall := 2 ^ 20 }

theorem witness_WaitingEnds_2 :
    (({ tk with posted := true } : Task).posted = true ∧ tk.markM = 0 ∧ tk.markC = 0 ∧ tk.postUids = []) ∧
    (swapping.tasks.get (place 0 0) = some { tk with mode := .atBarrier, held := .barrier dev31 0 true 0 } ∧
      swapOf swapping dev31 = true ∧ phaseOf swapping dev31 = 0 ∧
      0 + 50000 ≤ swapping.dev.nanos) ∧
    (let s := onDev (mapped stalled) { (mapped stalled).dev with watchdog := 2 ^ 20 }
     s.tasks.get (place 0 0) = some stalled ∧ stalled.mode = .ready ∧ s.dev.watchdog ≠ 0 ∧ s.dev.watchdog ≤ stalled.stall ∧
       firstHead s (place 0 0) stalled = some (.s, 0)) :=
  ⟨⟨rfl, rfl, rfl, rfl⟩, ⟨vector_get_set_self _ _ _ (Fin.isLt _), by decide +kernel, by decide +kernel, by decide⟩,
   ⟨vector_get_set_self _ _ _ (Fin.isLt _), rfl, by decide, by decide, by decide +kernel⟩⟩

/-- The last DEV barrier, owned by no tenant: a user may not use it; its expected arrivals are 1, or 2. -/
def atBarrier (b : Body) (n : BitVec 19) : State :=
  onDev (hears tk b) { (hears tk b).dev with clock := 1, devBarriers := (hears tk b).dev.devBarriers.set 31 { expected := n } }

theorem comes_alone (b : Body) (n : BitVec 19) (op : BarOp) : barComes (atBarrier b n).dev 0 dev31 op {} 0 :=
  ⟨Nat.zero_lt_one, fun m q _ _ _ _ _ _ h c _ => by
    cases m with
    | zero => exact absurd rfl c
    | succ m => cases h⟩

theorem witness_BarrierArrivals (op : BarOp) : ∃ s p, s.dev.rx[0]? = some p ∧ barComes s.dev 0 dev31 op {} p.src ∧
    p.body = .barrier dev31 op 5 0 0 true {} ∧ heldHere s.dev dev31 = true ∧ barrierExists 4 0 31 = true ∧ s.held = false ∧
    mayUse true 0 (barrierAt s dev31) = true ∧ mayUse false 0 (barrierAt s dev31) = false ∧
    (barrierAt s dev31).arrivals.toNat + 1 < (barrierAt s dev31).expected.toNat ∧
    (barrierAt (atBarrier (.barrier dev31 op 5 0 0 true {}) 1) dev31).expected.toNat ≤
      (barrierAt (atBarrier (.barrier dev31 op 5 0 0 true {}) 1) dev31).arrivals.toNat + 1 := by
  refine ⟨atBarrier (.barrier dev31 op 5 0 0 true {}) 2, _, rfl, comes_alone _ _ _, rfl, ?_, by decide, rfl, ?_, ?_, ?_, ?_⟩
  all_goals exact of_decide_eq_true rfl

/-- A kernel at each point of its way, alone in entry 63 of die 0. -/
def stepping (k : Kernel) (b : Body) : State :=
  onDev (hears tk b) { (hears tk b).dev with kernels := (hears tk b).dev.kernels.set 63 (some k) }
def kernelOf (st : KState) : Kernel :=
  { state := st, handle := 2 ^ 16 + 63 * 2 ^ 10, serial := 1
    launch := { deps := [0x10000, 0x10001], residents := [(here, 2 * 2 ^ 61 + 256, 1)], level := true } }

theorem in_entry (k : Kernel) (b : Body) : kernelIn (stepping k b) 63 k := by
  exact vector_get_set_self (hears tk b).dev.kernels (63 : Fin 256) (some k) (by decide)

theorem alone_in (k : Kernel) (b : Body) (e : Fin 256) (k' : Kernel) (h : kernelIn (stepping k b) e k') : e = 63 := by
  by_contra n
  have r : (stepping k b).dev.kernels.get e = State.reset.dev.kernels.get e := vector_get_set_ne _ (i := (63 : Fin 256)) _ (by decide) fun x => n x.symm
  have z : State.reset.dev.kernels.get e = none := by show (Vector.replicate 256 none).get e = none; simp [vector_get_eq]
  have : (stepping k b).dev.kernels.get e = some k' := h
  rw [r, z] at this; cases this

theorem witness_KernelScoreboard_1 (k : Kernel) : (∃ (s : State) (p : Packet), s.dev.rx[0]? = some p ∧ inOrder s.dev 0 p ∧ p.body = .handover {} 0x10000 ∧
      s.dev.kernels.get 0 = none ∧ (∀ e' < (0 : Fin 256), s.dev.kernels.get e' ≠ none)) ∧
    ∃ s : State, kernelIn s 63 k ∧
      (∀ e' k', kernelIn s e' k' → e'.val / 64 = 63 / 64 → k'.state = .posted → e' ≠ 63 → k.order < k'.order) ∧
      (∀ h, h ≠ k.handle → ∀ e' k', kernelIn s e' k' → k'.shadow = false → k'.handle ≠ h) ∧
      (∃ p, s.dev.rx[0]? = some p ∧ inOrder s.dev 0 p ∧ p.body = .shadowDone k.handle true) ∧
      (∀ e' k', kernelIn s e' k' → k'.shadow = false → k'.handle = k.handle → e' = 63) := by
  refine ⟨⟨hears tk (.handover {} 0x10000), _, rfl, (hears_it tk _).2.2.2.1, rfl, ?_, fun e h => by exact absurd h (by omega)⟩,
    stepping k (.shadowDone k.handle true), in_entry _ _, ?_, ?_, ⟨_, rfl, (hears_it tk _).2.2.2.1, rfl⟩, ?_⟩
  · show (Vector.replicate 256 none).get 0 = none
    simp [vector_get_eq]
  · exact fun e k' h _ _ n => absurd (alone_in _ _ e k' h) n
  · intro h n e k' i _ c
    obtain rfl := alone_in _ _ e k' i
    exact n (c.symm.trans (by rw [Option.some.inj ((show (stepping k _).dev.kernels.get 63 = some k' from i).symm.trans (in_entry k _))]))
  · exact fun e k' h _ _ => alone_in _ _ e k' h

theorem witness_KernelScoreboard_2 : ∃ s, kernelIn s 63 (kernelOf .staging) ∧ (kernelOf .waiting).state = .waiting ∧
    (kernelOf .waiting).localDone = false ∧ vaultWanted s.dev = 0 ∧ overHere s.dev 0x10000 = some false ∧
    overHere { s.dev with failed := [0x10000] } 0x10000 = some true ∧ overHere s.dev 0x10001 = none ∧
    overHere { s.dev with depAnswers := [(0x10001, true)] } 0x10001 = some true ∧ (kernelOf .waiting).shadow = false ∧
    (∃ h ∈ (kernelOf .posted).launch.deps, h.toNat % 256 ≠ s.dev.devid.toNat) ∧
    (kernelOf .staging).launch.residents[(kernelOf .staging).staged]? = some (here, 2 * 2 ^ 61 + 256, 1) ∧
    stageRead s (kernelOf .staging) here 1 0 [] s = .ok (.ok 0, []) ∧
    stageRead s (kernelOf .staging) away 1 0 [] s = .ok (.error away, []) ∧
    stageTarget s (kernelOf .staging) (2 * 2 ^ 61 + 256) 0 1 = .ok 2199023255808 ∧
    stageTarget s (kernelOf .staging) (2 * 2 ^ 61 + 1) 0 1 = .error (2 * 2 ^ 61 + 1) ∧ s.held = false ∧ Mem.wf s.mem = true ∧
    ({ kernelOf .running with localDone := true, shadowsOut := 1 } : Kernel).shadowsOut ≤ 1 :=
  ⟨stepping (kernelOf .staging) (.commit ⟨0, 0, 0⟩), in_entry _ _, rfl, rfl, by decide +kernel, by decide +kernel,
   by decide +kernel, by decide +kernel, by decide +kernel, rfl, ⟨0x10001, by decide, by decide +kernel⟩, rfl, runs (by decide +kernel),
   runs (by decide +kernel), by decide +kernel, by decide +kernel, rfl, mapped_wf tk (.commit ⟨0, 0, 0⟩),
   by decide⟩

/-- The machine in full service with core 0 up and this at the head of the highest queue: a kernel in entry 255. -/
def ready (k : Kernel) (t : Option Task) : State :=
  let s := State.reset
  { s with
    tasks := s.tasks.set 0 t
    cores := s.cores.set 0 { up := true }
    dev := { s.dev with fullService := true, kernels := s.dev.kernels.set 255 (some k), queues := s.dev.queues.set 3 [.kernel 255 0] } }
def readyKernel : Kernel := { state := .ready, handle := 0x10000, serial := 1, launch := { vbanks := 1, prio := 3 } }

theorem ready_in (k : Kernel) (t : Option Task) : kernelIn (ready k t) 255 k := vector_get_set_self State.reset.dev.kernels (255 : Fin 256) (some k) (by decide)

/-- An item of the highest queue that ages, waiting for just so long. -/
theorem witness_Placement_1 : ∃ s : State, (s.dev.queues.toList.getD 2 [])[0]? = some (.kernel 255 0) ∧ (QItem.kernel 255 0).since + 2000000 ≤ s.dev.nanos :=
  ⟨onDev State.reset { State.reset.dev with nanos := 2000000, queues := State.reset.dev.queues.set 2 [.kernel 255 0] }, by decide +kernel, by decide⟩

theorem witness_Placement_2 : ∃ s : State, headItem s.dev = some (.kernel 255 0, 3) ∧ kernelIn s 255 readyKernel ∧ s.held = false ∧
    ∃ fs, fitKernel s [] readyKernel.launch = some fs :=
  ⟨ready readyKernel none, by decide +kernel, ready_in _ _, rfl, Option.isSome_iff_exists.1 (by decide +kernel)⟩

/-- A task of priority 2 holds every bank that there is. -/
def victim : Task := { tk with prio := 2, gid := 7, handle := 0x20000 }

theorem victim_full : canPlace (ready readyKernel (some victim)) [] (.kernel 255 0) = false := by decide +kernel
theorem victim_gone : canPlace (ready readyKernel (some victim)) [7] (.kernel 255 0) = true := by decide +kernel
theorem ready_first (k : Kernel) (t : Option Task) : (ready k t).tasks.get 0 = t := vector_get_set_self State.reset.tasks (0 : Fin 1024) t (by decide)
theorem ready_rest (k : Kernel) (t : Option Task) (l : Fin 1024) (h : l ≠ 0) : (ready k t).tasks.get l = none := by
  have r : (ready k t).tasks.get l = State.reset.tasks.get l := vector_get_set_ne _ (i := (0 : Fin 1024)) _ (by decide) fun x => h x.symm
  rw [r]; show (Vector.replicate 1024 none).get l = none; simp [vector_get_eq]

/-- Only the first place counts. -/
theorem ready_only {β : Type} (k : Kernel) (t : Option Task) (F : Fin 1024 → Option β)
    (h : ∀ l, (ready k t).tasks.get l = none → F l = none) : (List.finRange 1024).filterMap F = (F 0).toList := by
  have e : ((List.finRange 1023).map Fin.succ).filterMap F = [] := by
    rw [List.filterMap_eq_nil_iff]
    intro l m
    obtain ⟨n, _, rfl⟩ := List.mem_map.1 m
    exact h _ (ready_rest _ _ _ (Fin.succ_ne_zero n))
  rw [List.finRange_succ, List.filterMap_cons, e]
  cases F 0 <;> rfl

theorem victim_stays : leaving (ready readyKernel (some victim)) = [] := by
  unfold leaving
  rw [ready_only readyKernel (some victim) _ (by intro l h; simp only [h])]
  rfl

theorem victims_are : victims (ready readyKernel (some victim)) 3 (some 0x10000) = [⟨7, 2, 0, 0⟩] := by
  unfold victims
  rw [victim_stays]
  dsimp only
  rw [ready_only readyKernel (some victim) _ (by intro l h; simp only [h])]
  decide +kernel

theorem witness_Placement_3 : ∃ s q p vs, headItem s.dev = some (q, p) ∧ canPlace s [] q = false ∧ canPlace s (leaving s) q = false ∧
    choose s q p = some vs := by
  refine ⟨ready readyKernel (some victim), .kernel 255 0, 3, [⟨7, 2, 0, 0⟩], by decide +kernel, victim_full, by rw [victim_stays]; exact victim_full, ?_⟩
  have h : (kernelAt (ready readyKernel (some victim)).dev 255).map Kernel.handle = some 0x10000 := by decide +kernel
  simp only [choose, h, victims_are, enough, victim_stays, victim_gone, if_true, Option.map_some, prune, List.append_nil,
    List.map_nil, victim_full, Bool.false_eq_true, if_false]

/-- A task that has ended, of a kernel with that many tasks left, which arrives at a barrier. -/
def over_ : Task := { tk with endS := true, endV := true, endM := true, endC := true, handle := 0x10000 }
def finishing (live : Nat) : Kernel :=
  { state := .running, handle := 0x10000, serial := 1, launch := { doneOn := true, doneLevel := 4, doneNumber := 31 }, live }
def retiring (live : Nat) : State :=
  onDev (alone over_) { (alone over_).dev with kernels := (alone over_).dev.kernels.set 255 (some (finishing live)) }

theorem retiring_in (n : Nat) : kernelIn (retiring n) 255 (finishing n) :=
  vector_get_set_self (alone over_).dev.kernels (255 : Fin 256) (some (finishing n)) (by decide)

theorem retiring_only (n : Nat) (e : Fin 256) (k : Kernel) (h : kernelIn (retiring n) e k) : e = 255 := by
  by_contra c
  have r : (retiring n).dev.kernels.get e = State.reset.dev.kernels.get e := vector_get_set_ne _ (i := (255 : Fin 256)) _ (by decide) fun x => c x.symm
  have z : State.reset.dev.kernels.get e = none := by show (Vector.replicate 256 none).get e = none; simp [vector_get_eq]
  have : (retiring n).dev.kernels.get e = some k := h
  rw [r, z] at this; cases this

theorem witness_Retirement_1 (n : Nat) : ∃ s, s.tasks.get (place 0 0) = some over_ ∧ over_.canRetire = true ∧ over_.mode = .ready ∧
    s.held = false ∧ (∀ y, s.dev.coll.get y = none) ∧ kernelIn s 255 (finishing n) ∧ (finishing n).handle = over_.handle ∧
    (∀ e' x', kernelIn s e' x' → x'.handle = over_.handle → e' = 255) ∧ (finishing n).live = n ∧ (finishing n).shadowsOut = 0 ∧
    (finishing n).launch.doneOn = true :=
  ⟨retiring n, vector_get_set_self _ _ _ (Fin.isLt _), rfl, rfl, rfl, (by intro y; show (Vector.replicate 64 none).get y = none; simp [vector_get_eq]), retiring_in n, rfl,
   fun e x h _ => retiring_only n e x h, rfl, rfl, rfl⟩

/-- One that the supervisor ends, and has ended: with others of its core to come, and the last that issued counted instructions. -/
theorem witness_Retirement_2 (v : Saved) : ∃ s : State, s.dev.saved[0]? = some v ∧ kept.withSupervisor = true ∧
    kept.queued = false ∧ (∀ y, s.dev.coll.get y = none) ∧ kept.ended = false ∧ ({ kept with ended := true } : Saved).task.uids = [] ∧
    kept.task.unack = BitVec.ofNat 32 (kept.acks + kept.task.uids.length) ∧ (∀ e x, kernelIn s e x → x.handle ≠ v.task.handle) ∧
    ({ kept.task with counted := true } : Task).counted = true ∧ (∀ l, s.tasks.get l = none) ∧ (s.cores.get kept.core).leaseWaiting = 0 ∧
    0 < (s.cores.get kept.core).groupsOn :=
  ⟨onCore (onDev State.reset { State.reset.dev with saved := [v] }) 0 { groupsOn := 1 }, rfl, rfl, rfl,
   (by intro y; show (Vector.replicate 64 none).get y = none; simp [vector_get_eq]), rfl, rfl, rfl,
   (fun e x k => by
     have z : State.reset.dev.kernels.get e = none := by show (Vector.replicate 256 none).get e = none; simp [vector_get_eq]
     exact absurd ((show State.reset.dev.kernels.get e = some x from k).symm.trans z) (by simp)),
   rfl, (by intro l; show (Vector.replicate 1024 none).get l = none; simp [vector_get_eq]), rfl, Nat.zero_lt_one⟩

/-- Invalidations that two cores and the last core have to acknowledge; a frame of two chunks that moves, at its first. -/
def moving : Migration :=
  { tenant := 0, word := 1099512872960, addr := here, source := frame, dest := 2 ^ 40 + 2 ^ 30, destLoc := 0, length := 8192, next := 0, tid := 5, kr := 6, kv := 7 }

theorem witness_InvalidationAndMigration : ∃ s : State, s.dev.invals[0]? = some ⟨1, .all, [254, 255], []⟩ ∧ s.dev.invals[1]? = some ⟨2, .all, [255], [1099512872960]⟩ ∧
    guestWrites s.dev = false ∧ guestWrites { s.dev with rx := [{ packet (.store 3 { asker true with dev := 1 } [aWrite] none) with src := 1 }] } = true ∧
    coreWrites s.dev 255 = false ∧ [254, 255].erase 255 ≠ [] ∧ [255].erase 255 = [] ∧ s.dev.migrations[0]? = some moving ∧
    (∀ m ∈ s.dev.migrations, m.inval ≠ some 2) ∧ Mem.wf s.mem = true ∧
    moving.forwarding = false ∧ 4096 * moving.next < moving.length ∧ 4096 * moving.next + min 4096 (moving.length - 4096 * moving.next) < moving.length ∧
    (let m := { moving with next := 1 }; 4096 * m.next < m.length ∧ m.length ≤ 4096 * m.next + min 4096 (m.length - 4096 * m.next)) ∧ s.dev.poison = [] ∧ byteExists (moving.dest + 0) = true ∧
    byteExists (moving.dest + 0 + 4096 - 1) = true ∧ moving.word + 8 ≤ moving.dest + 0 ∧
    ({ moving with forwarding := true } : Migration).inval = none ∧ touchesSource s.dev { moving with forwarding := true } = false ∧
    standsAt s s.cur tk ∧ moving.tid = tk.tid :=
  ⟨onDev (hears tk (.commit ⟨0, 0, 0⟩)) { (hears tk (.commit ⟨0, 0, 0⟩)).dev with invals := [⟨1, .all, [254, 255], []⟩, ⟨2, .all, [255], [1099512872960]⟩], migrations := [moving] },
   rfl, rfl, by decide +kernel, by decide +kernel, by decide +kernel, by decide, by decide, rfl, (by intro m h; rw [List.mem_singleton.1 h]; decide), mapped_wf tk (.commit ⟨0, 0, 0⟩), rfl,
   by decide, by decide, by decide, rfl, by decide +kernel, by decide +kernel, by decide, rfl, by decide +kernel, hears_stands tk (.commit ⟨0, 0, 0⟩), rfl⟩

theorem witness_OutsideRegisterWrites : (alone tk).tasks.get (place 0 0) = some tk ∧ (0 : BitVec 64).toNat % 2 ^ 9 < 1 ∧
    (256 : BitVec 64).toNat % 2 ^ 9 ≤ 256 ∧ ¬ (257 : BitVec 64).toNat % 2 ^ 16 ≤ 256 :=
  ⟨vector_get_set_self _ _ _ (Fin.isLt _), by decide, by decide, by decide⟩

/-- The queues of both sources, with a record of an opcode for tenant 63 posted at slot 0. -/
def posting (opcode : Nat) : State :=
  let s := State.reset
  { s with
    mem := Mem.writeAll [] [(2 ^ 40 + 4096, 1), (2 ^ 40 + 4160, BitVec.ofNat 8 opcode), (2 ^ 40 + 4162, 63)]
    dev := { s.dev with boot := .verified, hostQueue := BitVec.ofNat 64 (2 ^ 40 + 4096), superQueue := BitVec.ofNat 64 (2 ^ 40 + 4096) } }

theorem witness_ManagementCommands_1 : ∀ n ∈ [1, 2, 3, 4, 5, 6, 7, 8, 9, 10, 11, 12], (posting n).held = false ∧ Mem.wf (posting n).mem = true ∧
    postedRecord (posting n) .host = some (2 ^ 40 + 4160) ∧ postedRecord (posting n) .supervisor = some (2 ^ 40 + 4160) ∧
    recordIs (posting n) n (some 63) (2 ^ 40 + 4160) = true ∧ recordIs (posting n) n none (2 ^ 40 + 4160) = true := by
  decide +kernel

/-- Values at the ends of the ranges of commands, and just beyond them. -/
theorem witness_ManagementCommands_2 : (∃ c, commands (.power .host 900) = some c ∧ c.ok State.reset.dev) ∧
    (∃ c, commands (.power .host 899) = some c ∧ ¬ c.ok State.reset.dev) ∧
    (∃ c, commands (.watchdogLimit .host (2 ^ 40)) = some c ∧ c.ok State.reset.dev) ∧
    (∃ c, commands (.watchdogLimit .host (2 ^ 40 + 1)) = some c ∧ ¬ c.ok State.reset.dev) ∧
    (∃ c, commands (.monitors .host 28) = some c ∧ c.ok State.reset.dev) ∧ (∃ c, commands (.monitors .host 29) = some c ∧ ¬ c.ok State.reset.dev) ∧
    (∃ p : Port, p.up = true ∧ p.replay.length < 128 ∧ (p.key (~~~p.txSlot)).loaded = true ∧ (p.key (~~~p.txSlot)).sent = false) ∧
    (∃ p : Port, p.up = true ∧ (p.key (~~~p.txSlot)).loaded = true ∧ (p.key (~~~p.txSlot)).sent = true) ∧
    (∃ p : Port, p.up = true ∧ 128 ≤ p.replay.length) ∧ (State.reset.dev.ports.get 29).up = false :=
  ⟨⟨_, rfl, by decide⟩, ⟨_, rfl, by decide⟩, ⟨_, rfl, by decide⟩, ⟨_, rfl, by decide⟩, ⟨_, rfl, by decide⟩, ⟨_, rfl, by decide⟩,
   ⟨{ up := true, keyA := { loaded := true }, keyB := { loaded := true } }, rfl, by decide, by decide, by decide⟩,
   ⟨{ up := true, keyB := { loaded := true, sent := true } }, rfl, by decide, by decide⟩,
   ⟨{ up := true, replay := .replicate 128 (0, 0, 0) }, rfl, by decide +kernel⟩, by decide +kernel⟩

/-- The points of start-up; an image that is not well formed. -/
theorem witness_StartUp : State.reset.dev.boot = .reset ∧ verifyImage State.reset = .inl 1 ∧
    (∃ s : State, s.dev.boot = .verified ∧ s.dev.coresUp < 256 ∧ s.dev.gddrReady = false ∧ s.dev.error ≠ 5) ∧
    (∃ s : State, s.dev.boot = .verifying ∧ verifyImage s = .inl 1) :=
  ⟨rfl, by decide +kernel, ⟨posting 1, rfl, by decide, rfl, by decide⟩,
   ⟨onDev State.reset { State.reset.dev with boot := .verifying }, rfl, by decide +kernel⟩⟩

/-- The last byte that the host may ask for before the firmware is verified, and a request that is not served. -/
theorem witness_HostPowerAndScrub : ∃ s : State, hostServed s .read 0 0 0 8 = false ∧ hostServed s .write 0 1 0 8 = true ∧
    hostServed s .read 0 1 0 8 = true ∧ (1 : Nat) < 3 ∧ (∀ i < 8, byteExists (2 ^ 40 + i) = true) ∧
    s.dev.migrations = [] ∧
    s.held = false ∧ Mem.wf s.mem = true :=
  ⟨onDev State.reset { State.reset.dev with lpddrReady := true, boot := .ready }, by decide +kernel, by decide +kernel, by decide +kernel,
   by decide, by decide +kernel, rfl, rfl, rfl⟩

/-- The device in service with one window at its host port, of tenant 0 on the first 16 MiB, and an interval that is over. -/
def hosting : State := onDev State.reset { State.reset.dev with
  lpddrReady := true, boot := .verified, fullService := true, nanos := 1000
  windows := [(.hostPort, 0, 0, BitVec.ofNat 64 (2 ^ 63 + 2 ^ 62 + 2 ^ 61), 0x1000000)] }

/-- An atomic of the host in the first and the last slot that it may name, and what is refused; the charges of an interval. -/
theorem witness_HostPowerAndScrub_2 : hostServed hosting (.atomic 23 1 0) 0 1 0 8 = true ∧ (23 : BitVec 5).toNat < 24 ∧ 24 ≤ (24 : BitVec 5).toNat ∧
    (2 ^ 40) % 8 = 0 ∧ (2 ^ 40 + 4) % 8 ≠ 0 ∧ (∀ i < 8, byteExists (2 ^ 40 + i) = true) ∧
    atomicRefused hosting { asker true with core := 256, tid := 0 } (2 ^ 40) 23 = none ∧ engineTurn hosting.dev (2 ^ 40) hostKey = true ∧
    hosting.dev.migrations = [] ∧ hosting.held = false ∧ Mem.wf hosting.mem = true ∧ hosting.dev.powered + 1000 ≤ hosting.dev.nanos ∧
    hostServed hosting .read 0 2 (12 * 2 ^ 20 - 8) 16 = true ∧ byteExists (2 ^ 41 + (12 * 2 ^ 20 - 8) + 8) = false ∧
    ([7, 3] : List Nat).sum ≤ 10 ∧ State.reset.dev.nanos < State.reset.dev.powered + 1000 :=
  ⟨by decide +kernel, by decide, by decide, by decide, by decide, by decide +kernel, by decide +kernel, by decide +kernel, rfl, rfl, rfl, by decide +kernel,
   by decide +kernel, by decide +kernel, by decide, by decide +kernel⟩

/-! A frame of ten pages is written from 0x3000 on: what translates it lies below, and stays. -/

/-- A trapped task with no grants, on a core whose FRAME names 0x3000. -/
def trapped : Task := { level := true, tid := 9, gid := 9, mode := .saving 2, saveStep := 2 }
def savingState : State := onCore (mapped trapped) 0 { cachedCore with frame := 0x3000 }

/-- A state that reads as that one below the frame. -/
structure Near (s : State) : Prop where
  tenants : s.dev.tenants = savingState.dev.tenants
  clean : s.dev.poison = []
  still : s.dev.migrations = []
  quiet : ∀ c, (s.cores.get c).monitors = []
  early : s.dev.boot = .reset
  wf : Mem.wf s.mem = true
  mem : ∀ x, x < frame + 0x3000 → Mem.read s.mem x = Mem.read tables x

theorem readBytes_near {m m' : List Host.Cell} {hi : Nat} (h : ∀ x, x < hi → Mem.read m x = Mem.read m' x) :
    ∀ (n a : Nat), a + n ≤ hi → readBytes m a n = readBytes m' a n
  | 0, _, _ => rfl
  | n + 1, a, le => by
    show (Mem.read m a).toNat + _ = (Mem.read m' a).toNat + _
    rw [h a (by omega), readBytes_near h n (a + 1) (by omega)]

theorem readTable_near {s : State} (h : Near s) (a n : Nat) (ge : 2 ^ 40 ≤ a) (le : a + n ≤ frame + 0x3000) :
    readTable s a n = readTable (mapped trapped) a n := by
  unfold readTable
  rw [h.clean, readBytes_near h.mem n a le, decide_eq_true ge]
  rfl

theorem t0 : readTable (mapped trapped) 1099512676352 16 = .ok 4611687117940129792 := finds (by decide +kernel)
theorem t1 : readTable (mapped trapped) 1099512741888 16 = .ok 4611687117940195328 := finds (by decide +kernel)
theorem t2 : readTable (mapped trapped) 1099512807424 16 = .ok 340199290171201906230541492626868338688 := finds (by decide +kernel)
theorem t3 : readTable (mapped trapped) 1099512938624 8 = .ok 2034689 := finds (by decide +kernel)
theorem t4 : readTable (mapped trapped) 1099512872960 8 = .ok 35186041421824 := finds (by decide +kernel)
theorem t5 : readDescriptor (mapped trapped) 1099512938496 = .ok (0, 67108864) := finds (by decide +kernel)

theorem levels_near {s : State} (h : Near s) {pos : Nat} (b : pos < 65536) :
    walkLevels s pos 4 0 1099512676352 = .ok (1099512872960, 0xFFF, 0, true) := by
  have b0 : bits pos 56 46 = 0 := by unfold bits; omega
  have b1 : bits pos 45 36 = 0 := by unfold bits; omega
  have b2 : bits pos 35 26 = 0 := by unfold bits; omega
  have e0 : tableEntry 4611687117940129792 = some 1099512741888 := by decide +kernel
  have e1 : tableEntry 4611687117940195328 = some 1099512807424 := by decide +kernel
  have e2 : tableEntry 340199290171201906230541492626868338688 = none := by decide +kernel
  have e3 : leafEntry 340199290171201906230541492626868338688 = some (1099512872960, 0xFFF, 0) := by decide +kernel
  have r0 : readTable s 1099512676352 16 = _ := (readTable_near h _ _ (by decide) (by decide)).trans t0
  have r1 : readTable s 1099512741888 16 = _ := (readTable_near h _ _ (by decide) (by decide)).trans t1
  have r2 : readTable s 1099512807424 16 = _ := (readTable_near h _ _ (by decide) (by decide)).trans t2
  simp only [walkLevels, b0, b1, b2, Nat.mul_zero, Nat.add_zero, Nat.zero_add, r0, bind, Except.bind, e0, Nat.zero_le, if_true, r1, e1,
    Nat.one_le_ofNat, Nat.reduceAdd, Nat.le_refl, r2, e2, e3, Nat.reduceBEq]
  rfl

theorem tables_near {s : State} (h : Near s) : tenantTables s 0 = .ok (1099512676352, 1099512938496, 1) := by
  have e : tenantTables s 0 = tenantTables (mapped trapped) 0 := by unfold tenantTables; rw [h.tenants]; rfl
  rw [e]; exact finds (by decide +kernel)

theorem leaf_near {s : State} (h : Near s) {pos : Nat} (b : pos < 65536) (grants : BitVec 12 → Bool) (g : grants 0xFFF = true) :
    walkLeaf s 0 pos grants = .ok page0.leaf := by
  have d : readDescriptor s 1099512938496 = .ok (0, 67108864) := by
    have e : readDescriptor s 1099512938496 = readDescriptor (mapped trapped) 1099512938496 := by
      unfold readDescriptor; rw [readTable_near h _ _ (by decide) (by decide)]
    rw [e, t5]
  have z : pos / 67108864 = 0 := by omega
  simp only [walkLeaf, tables_near h, levels_near h b, bind, Except.bind, Nat.mul_zero, Nat.add_zero, d, g, require, Nat.zero_lt_one, decide_true, if_true,
    pure, Except.pure, Nat.reducePow, z]
  rfl

theorem byte_near {pos : Nat} (b : pos < 65536) : byteExists (frame + pos) = true := by
  rw [show frame = 1099513724928 from rfl]
  unfold byteExists Config.lpddrBytes
  rw [if_neg (by omega), if_pos (by omega)]
  exact decide_eq_true (by omega)

theorem eight_times (x y : Nat) : x * 8 + y * 8 = 8 * (x + y) ∧ 8 * (x + y) / 8 = x + y := by omega

theorem walk_near {s : State} (h : Near s) {pos : Nat} (b : pos < 65536) (al : pos % 8 = 0) (k : Acc) (kk : k = .write ∨ k = .read) :
    walk s none 0 .s k (.bytes 8) 0 pos = .ok { page0 with bit := 8 * (frame + pos) } := by
  have p : readTable s 1099512938624 8 = _ := (readTable_near h _ _ (by decide) (by decide)).trans t3
  have f : readTable s 1099512872960 8 = _ := (readTable_near h _ _ (by decide) (by decide)).trans t4
  have w1 : permOk page0.leaf.perms .s k = true := by rcases kk with rfl | rfl <;> decide +kernel
  have w2 : framePermOk 35186041421824 k = true := by rcases kk with rfl | rfl <;> decide +kernel
  have w3 : (k != .fetch) = true := by rcases kk with rfl | rfl <;> rfl
  have w4 : planeWordOk 2034689 = true := by decide +kernel
  have w5 : (bits 2034689 0 0 == 1) = true := by decide +kernel
  have w6 : planeWidth 2034689 = 8 := by decide +kernel
  have w7 : planeRatio 2034689 = 1 := by decide +kernel
  have w8 : frameWordOk 35186041421824 = true := by decide +kernel
  have w9 : bits 35186041421824 31 30 = 1 := by decide +kernel
  have w10 : 2 ^ 40 + bits 35186041421824 63 32 * 256 = frame := by decide +kernel
  have w11 : (bits 35186041421824 29 29 == 1) = true := by decide +kernel
  have w12 : (bits 35186041421824 28 28 == 0) = true := by decide +kernel
  have w13 : (decide (page0.leaf.first ≤ pos) && decide (pos - page0.leaf.first + (Want.bytes 8).span ≤ page0.leaf.length)) = true := by
    exact Bool.and_eq_true_iff.2 ⟨decide_eq_true (Nat.zero_le _), decide_eq_true (by show pos - 0 + 8 ≤ 67108864; omega)⟩
  have w14 : frameWord s none 0 page0.leaf 0 = .ok 35186041421824 := f
  have w15 : frame * 8 + pos * 8 = 8 * (frame + pos) := (eight_times _ _).1
  have w16 := byte_near b
  have w17 : pos % 2 ^ 26 / 1 = pos := by rw [Nat.div_one, Nat.mod_eq_of_lt (Nat.lt_trans b (by decide))]
  have w18 : 8 * (frame + pos) / 8 = frame + pos := (eight_times _ _).2
  unfold walk
  rw [tables_near h]
  simp only [bind, Except.bind, cachedLeaf, leaf_near h b (fun perms => permOk perms .s k) w1, w1, require, if_true, w13, show page0.leaf.object = 0 from rfl, Nat.mul_zero, Nat.add_zero,
    Nat.reduceAdd, p, w4, w5, w3, Bool.true_or, w6, w14, w8, w9, w11, w2, w12, w7, w10, show page0.leaf.large = true from rfl, w17, Nat.one_mul, w15, w18,
    w16, show page0.leaf.record = 1099512872960 from rfl, al, sizeOk, Nat.zero_lt_one, decide_true, pure, Except.pure, beq_self_eq_true,
    show ((1 : Nat) == 3) = false from rfl, show ((1 : Nat) != 0) = true from rfl, Bool.false_eq_true, if_false, Bool.not_true]
  rfl

theorem page_near {s : State} (h : Near s) {i : Nat} (b : i < 10) (k : Acc) (kk : k = .write ∨ k = .read) :
    framePage s 0 k (0x3000 + BitVec.ofNat 64 (4096 * i)) = .ok (frame + 0x3000 + 4096 * i) := by
  have at_ : ∀ a : Word, a.toNat < 65536 → a.toNat % 8 = 0 → locate s none {} 0 .s k (.bytes 8) a = .ok (.here (8 * (frame + a.toNat)) 64 false) := by
    intro a lt al
    have p : pathOf a = 0 := by unfold pathOf bits; omega
    have q : planeOf a = 0 := by unfold planeOf bits; omega
    have r : posOf a = a.toNat := by unfold posOf bits; omega
    unfold locate
    rw [p]
    simp only [q, r, bind, Except.bind, walk_near h lt al k kk]
    rfl
  have n : (0x3000 + BitVec.ofNat 64 (4096 * i) : Word).toNat = 0x3000 + 4096 * i := by
    rw [BitVec.toNat_add, BitVec.toNat_ofNat]; simp; omega
  have m : (0x3000 + BitVec.ofNat 64 (4096 * i) + 4088 : Word).toNat = 0x3000 + 4096 * i + 4088 := by
    rw [BitVec.toNat_add, n]; simp; omega
  have p : pathOf (0x3000 + BitVec.ofNat 64 (4096 * i)) = 0 := by unfold pathOf bits; rw [n]; omega
  have x : 8 * (frame + (0x3000 + 4096 * i + 4088)) = 8 * (frame + (0x3000 + 4096 * i)) + 8 * 4088 := by omega
  unfold framePage
  simp only [p, at_ _ (by rw [n]; omega) (by rw [n]; omega), at_ _ (by rw [m]; omega) (by rw [m]; omega), bind, Except.bind, require, n, m, x,
    beq_self_eq_true, if_true, pure, Except.pure]
  rw [(eight_times _ _).2, ← Nat.add_assoc]

theorem cells_from {a : Nat} : ∀ (n v x : Nat), x < a → ∀ c ∈ byteCells a n v, c.1 ≠ x
  | 0, _, _, _, _, h => by cases h
  | n + 1, v, x, lt, c, h => by
    rcases List.mem_cons.1 h with rfl | h
    · exact Nat.ne_of_gt lt
    · exact cells_from n (v / 256) x (Nat.lt_succ_of_lt lt) c h

theorem write_near {us : List Upd} (h : Near (applyAll us savingState)) {b : Nat} (le : frame + 0x3000 ≤ b) (n v : Nat) (a : Word) :
    ∃ us', applyWrites [] [{ bit := 8 * b, width := n, value := v, addr := a }] us savingState = .ok ((), us') ∧
      Near (applyAll us' savingState) := by
  have ms : (applyAll us savingState).dev.migrations = [] := h.still
  have ps : (applyAll us savingState).dev.poison = [] := h.clean
  refine ⟨us ++ [.bytes (byteCells (8 * b / 8) ((8 * b % 8 + n + 7) / 8) (readBytes (Mem.writeBits (applyAll us savingState).mem (8 * b) n v)
    (8 * b / 8) ((8 * b % 8 + n + 7) / 8)))], ?_, ?_⟩
  · unfold applyWrites
    simp [ms, ps, partsOf, writePlaces, wakeMonitors, h.quiet]
  · rw [applyAll_append]
    exact ⟨h.tenants, h.clean, h.still, h.quiet, h.early, Mem.writeAll_wf _ h.wf, fun x lt => by
      rw [← h.mem x lt]
      exact Mem.read_writeAll_other _ x h.wf (cells_from _ _ x (by omega))⟩

theorem room_near {s : State} (h : Near s) : noticeRoom s = true := by
  have q : noticeQueueAt s.dev = none := by unfold noticeQueueAt; rw [h.early]; rfl
  unfold noticeRoom; rw [q]

/-- The body of the loop that writes a frame, none of whose fields is poisoned. -/
theorem frame_near (v : Nat) : ∀ (l : List Nat) (us : List Upd), (∀ i ∈ l, i < 10) → Near (applyAll us savingState) →
    ∃ us', (l.foldlM (fun (ok : Bool) i => do
      let s ← getState
      let at_ := (0x3000 : Word) + BitVec.ofNat 64 (4096 * i)
      match framePage s 0 .write at_ with
      | .error (.absent b) => stop (.fault (.absentStorage b))
      | .error (.cause _) => pure false
      | .ok b => do
        applyWrites [] [{ bit := 8 * b, width := 32768, value := v / 2 ^ (32768 * i) % 2 ^ 32768, addr := at_ }]
        let units := ((writePlaces s.dev.migrations (8 * b)).flatMap fun p => pageUnits [] i (p / 8)).dedup
        (if units.isEmpty then pure () else setDev fun d => { d with poison := d.poison.filter (fun u => !units.contains u) ++ units })
        pure ok) true : M Bool) us savingState = .ok (true, us') ∧ Near (applyAll us' savingState) := by
  intro l
  induction l with
  | nil => exact fun us _ h => ⟨us, rfl, h⟩
  | cons i l ih =>
    intro us hl h
    obtain ⟨us', e, n⟩ := write_near h (b := frame + 0x3000 + 4096 * i) (Nat.le_add_right _ _) 32768 (v / 2 ^ (32768 * i) % 2 ^ 32768)
      ((0x3000 : Word) + BitVec.ofNat 64 (4096 * i))
    obtain ⟨us'', f, g⟩ := ih us' (fun j m => hl j (List.mem_cons_of_mem _ m)) n
    refine ⟨us'', ?_, g⟩
    have none_ : ∀ ps : List Nat, ps.flatMap (fun p => pageUnits [] i (p / 8)) = [] := fun ps => by simp [pageUnits]
    rw [List.foldlM_cons]
    simp only [run_bind, run_getState, page_near h (hl i List.mem_cons_self) .write (.inl rfl), e, none_, List.dedup_nil, List.isEmpty_nil,
      if_true, run_pure]
    exact f

theorem saving_quiet : ∀ c, (savingState.cores.get c).monitors = [] := by decide +kernel
theorem saving_wf : Mem.wf savingState.mem = true := by decide +kernel

theorem saved_near : Near (applyAll [] savingState) :=
  ⟨rfl, rfl, rfl, saving_quiet, rfl, saving_wf, fun _ _ => rfl⟩

def heldNote : SaveNote := { cause := 2, count := 1, group := true, lease := false, leaseCount := 0 }

theorem only_task_saving {l : Fin 1024} (n : l ≠ place 0 0) : savingState.tasks.get l = none := by
  have e : savingState.tasks.get l = State.reset.tasks.get l := vector_get_set_ne _ _ (Fin.isLt _) fun x => n (x.symm.trans rfl)
  rw [e]; show (Vector.replicate 1024 none).get l = none; simp [vector_get_eq]

/-- Its first step, its second, with a write to its own core still on the way and without, its third without a FRAME and with. -/
theorem witness_SaveAndRestore_1 : savingState.tasks.get (place 0 0) = some trapped ∧ trapped.mode = .saving 2 ∧ trapped.saveStep = 2 ∧
    (∀ n, (onTask savingState (place 0 0) { trapped with saveStep := n }).tasks.get (place 0 0) = some { trapped with saveStep := n }) ∧
    ({ trapped with saveStep := 1 }.mjobs = [] ∧ { trapped with saveStep := 1 }.cjobs = [] ∧ trapped.markM ≤ 0 ∧ trapped.markC ≤ 0) ∧
    { trapped with saveStep := 1 }.drained savingState.dev = true ∧
    { trapped with saveStep := 1, asked := [{ eng := .s, tag := 0, uid := 3, addr := here }] }.drained savingState.dev = false ∧
    (∀ x, savingState.dev.coll.get x = none) ∧ savingState.held = false ∧ (savingState.cores.get 1).frame = 0 ∧
    (∀ l, l ≠ place 0 0 → coreOf l = 0 → savingState.tasks.get l = none) ∧ (savingState.cores.get 0).frame ≠ 0 ∧
    BitVec.ofNat 64 (((savingState.cores.get 0).frame.toNat + 4095) / 4096 * 4096) = 0x3000 ∧
    (savingState.cores.get 0).frameTenant = 0 ∧ frameLength trapped.grant trapped.parked.length true = 40960 ∧
    poisonFields savingState 0 trapped.forSave true = [] ∧ savingState.dev.noticesHeld = [] ∧
    ∀ v, ∃ us, writeFrame 0 0x3000 40960 v [] [] savingState = .ok (true, us) ∧ noticeRoom (applyAll us savingState) = true :=
  ⟨vector_get_set_self _ _ _ (Fin.isLt _), rfl, rfl, fun _ => vector_get_set_self _ _ _ (Fin.isLt _), ⟨rfl, rfl, Nat.le_refl 0, Nat.le_refl 0⟩, by decide +kernel, by decide +kernel,
   by decide +kernel, rfl, by decide +kernel, fun l n c => only_task_saving n, by decide +kernel, by decide +kernel, rfl, by decide +kernel,
   by decide +kernel, rfl,
   fun v => by
     obtain ⟨us, e, n⟩ := frame_near v (List.range 10) _ (fun i h => List.mem_range.1 h) saved_near
     exact ⟨us, e, room_near n⟩⟩

/-- A saved task without grants whose frame of nine pages stands at 0x3000, at the head of the queues. -/
def sleeping : Saved :=
  { slot := 0, task := { level := true, tid := 9, gid := 9 }, frame := 0x3000, frameTenant := 0, cause := 1, hasGroup := false, queued := true }
def restoring : State :=
  let s := State.reset
  { s with
    mem := tables ++ [(frame + 0x3000, 0x4B), (frame + 0x3001, 0x43), (frame + 0x3002, 0x54), (frame + 0x3003, 0x58), (frame + 0x3004, 1),
                      (frame + 0x3009, 0x90)]
    cores := s.cores.set 0 { up := true }
    dev := { s.dev with fullService := true, saved := [sleeping], queues := s.dev.queues.set 3 [.group 9 0]
                        tenants := s.dev.tenants.set 0 #v[1, 0x10000100000, 0x10000140000, 1] } }

/-- The first bytes of a frame's first page (R361). -/
def headPage : Nat := 0x5854434B + 2 ^ 32 + 2 ^ 64 * 0x9000

theorem read_past {a : Nat} : ∀ (m : List Host.Cell), (∀ c ∈ m, c.1 < a) → Mem.read m a = 0
  | [], _ => rfl
  | c :: m, h => by
    have lt := h c List.mem_cons_self
    unfold Mem.read
    rw [if_neg (by simp; omega), if_neg (by omega)]
    exact read_past m fun d hd => h d (List.mem_cons_of_mem _ hd)

theorem readBytes_past {m : List Host.Cell} : ∀ (n a : Nat), (∀ c ∈ m, c.1 < a) → readBytes m a n = 0
  | 0, _, _ => rfl
  | n + 1, a, h => by
    show (Mem.read m a).toNat + 256 * readBytes m (a + 1) n = 0
    rw [read_past m h, readBytes_past n (a + 1) fun c hc => Nat.lt_succ_of_lt (h c hc)]
    rfl

theorem readBytes_split (m : List Host.Cell) (k : Nat) : ∀ (n a : Nat), readBytes m a (n + k) = readBytes m a n + 256 ^ n * readBytes m (a + n) k
  | 0, a => by simp [readBytes]
  | n + 1, a => by
    rw [show n + 1 + k = n + k + 1 by omega]
    show (Mem.read m a).toNat + 256 * readBytes m (a + 1) (n + k) = (Mem.read m a).toNat + 256 * readBytes m (a + 1) n + 256 ^ (n + 1) * readBytes m (a + (n + 1)) k
    rw [readBytes_split m k n (a + 1), show a + 1 + n = a + (n + 1) by omega, Nat.pow_succ]
    ring

theorem head_page : readBytes restoring.mem (frame + 0x3000) 4096 = headPage := by
  have a : readBytes restoring.mem (frame + 0x3000) 16 = headPage := by decide +kernel
  have b : readBytes restoring.mem (frame + 0x3000 + 16) 4080 = 0 := readBytes_past _ _ (by decide +kernel)
  rw [show 4096 = 16 + 4080 from rfl, readBytes_split, a, b]
  rfl

theorem read_append {x : Nat} (r : List Host.Cell) (h : ∀ c ∈ r, x < c.1) : ∀ (m : List Host.Cell), Mem.read (m ++ r) x = Mem.read m x
  | [] => by
    match r, h with
    | [], _ => rfl
    | c :: r, h =>
      have lt := h c List.mem_cons_self
      show Mem.read (c :: r) x = Mem.read [] x
      unfold Mem.read
      rw [if_neg (by simp; omega), if_pos lt]
  | c :: m => by
    show Mem.read (c :: (m ++ r)) x = Mem.read (c :: m) x
    unfold Mem.read
    rw [read_append r h m]

theorem restoring_near : Near restoring :=
  ⟨rfl, rfl, rfl, by
    intro c
    by_cases e : c = 0
    · rw [e]; rfl
    · have r : restoring.cores.get c = State.reset.cores.get c := vector_get_set_ne _ (i := (0 : Fin 256)) _ (by decide) fun x => e x.symm
      rw [r]; show ((Vector.replicate 256 ({} : Core)).get c).monitors = []; simp [vector_get_eq], rfl, by decide +kernel,
   fun x lt => read_append _ (by
     intro c hc
     have : ∀ c ∈ [(frame + 0x3000, (0x4B : Byte)), (frame + 0x3001, 0x43), (frame + 0x3002, 0x54), (frame + 0x3003, 0x58), (frame + 0x3004, 1), (frame + 0x3009, 0x90)], frame + 0x3000 ≤ c.1 := by
       decide +kernel
     exact Nat.lt_of_lt_of_le lt (this c hc)) tables⟩

theorem foldlM_ok {α : Type} (f : Nat × List α → Nat → W (Nat × List α)) (b : Nat) :
    ∀ (l : List Nat), (∀ i ∈ l, ∀ n, ∃ w, f (n, []) i = .ok (w, []) ∧ w % b = n % b) →
    ∀ v, ∃ w, l.foldlM f (v, []) = .ok (w, []) ∧ w % b = v % b
  | [], _, v => ⟨v, rfl, rfl⟩
  | i :: l, h, v => by
    obtain ⟨w, e, m⟩ := h i List.mem_cons_self v
    obtain ⟨x, y, z⟩ := foldlM_ok f b l (fun j m => h j (List.mem_cons_of_mem _ m)) w
    rw [List.foldlM_cons, e]
    exact ⟨x, y, z.trans m⟩

theorem field_low (w k o n : Nat) (h : 8 * o + 8 * n ≤ k) : field w o n = field (w % 2 ^ k) o n := by
  unfold field
  apply Nat.eq_of_testBit_eq
  intro i
  simp only [Nat.testBit_mod_two_pow, Nat.testBit_div_two_pow]
  by_cases c : i < 8 * n
  · have : 8 * o + i < k := by omega
    simp [c, Nat.add_comm i, this]
  · simp [c]

theorem frame_reads {s : State} {x : Saved} {v b : Nat} (ms : s.dev.migrations = []) (ps : s.dev.poison = []) (xs : x.poisoned = [])
    (page : ∀ i, i < 10 → framePage s x.frameTenant .read (x.frame + BitVec.ofNat 64 (4096 * i)) = .ok (b + 4096 * i))
    (hd : readBytes s.mem b 4096 = v) (good : frameGood x.task.grant x.hasGroup v = true) (len : (field v 8 8 + 4095) / 4096 - 1 = 8) :
    ∃ w, readFrame s x = .ok (w, []) ∧ w % 2 ^ 32768 = v % 2 ^ 32768 := by
  have place : ∀ b, readPlace [] (8 * b) / 8 = b := fun b => by show 8 * b / 8 = b; omega
  have z := page 0 (by decide)
  rw [Nat.mul_zero, Nat.add_zero] at z
  unfold readFrame readFramePage
  simp only [ms, ps, xs, pageUnits, List.filter_nil, List.map_nil, place, Nat.mul_zero, z, bind, Except.bind, rangePoisoned, List.any_nil, Bool.not_false, require, if_true, pure, Except.pure, hd,
    good, len]
  refine foldlM_ok _ _ _ (fun i h n => ?_) v
  rw [page (i + 1) (by have := List.mem_range.1 h; omega)]
  refine ⟨_, rfl, ?_⟩
  have p : (2 : Nat) ^ (32768 * (i + 1)) = 2 ^ (32768 * i) * 2 ^ 32768 := by rw [Nat.mul_add, Nat.mul_one, Nat.pow_add]
  rw [p, ← Nat.mul_assoc, Nat.add_mul_mod_self_right]

theorem restoring_frame : ∃ w bad, readFrame restoring sleeping = .ok (w, bad) ∧ frameUsed w = [] := by
  obtain ⟨w, h, e⟩ := frame_reads (x := sleeping) (b := frame + 0x3000) (v := headPage) rfl rfl rfl
    (fun _ h => page_near restoring_near h .read (.inr rfl)) head_page (by decide +kernel) (by decide +kernel)
  refine ⟨w, [], h, ?_⟩
  have f : ∀ i ∈ List.range 64, (field w (0xD40 + 8 * i) 8 / 2 ^ 63 == 1) = (field headPage (0xD40 + 8 * i) 8 / 2 ^ 63 == 1) := fun i m => by
    have := List.mem_range.1 m
    rw [field_low w 32768 _ _ (by omega), field_low headPage 32768 _ _ (by omega), e]
  unfold frameUsed
  rw [List.filter_congr f]
  decide +kernel

theorem no_task (l : Fin 1024) : restoring.tasks.get l = none := by
  show (Vector.replicate 1024 none).get l = none; simp [vector_get_eq]

theorem no_home {s : State} {gid : Nat} {vs : List Saved} (e : ∀ l, s.tasks.get l = none) (g : s.dev.saved = vs)
    (n : (vs.find? fun v => v.task.gid == gid && v.resident && !v.ended) = none) : groupCore s gid = none := by
  have e : ((List.finRange 256).find? fun c => !(groupPlaces s gid c).isEmpty) = none := by
    rw [List.find?_eq_none]
    intro c _
    simp [groupPlaces, e]
  unfold groupCore
  rw [e, g]
  dsimp only
  rw [n]
  rfl

theorem homeless : groupCore restoring 9 = none := no_home (vs := [sleeping]) no_task rfl rfl

theorem fits_first {s : State} {gid : Nat} {v : Saved} {f : Fit} (q : queuedOf s.dev gid = [v]) (h : groupCore s gid = none)
    (fit : fitCore s [] { tasks := 1, vbanks := v.task.grant.vbanks, acc := v.task.grant.acc, tiles := v.task.grant.tiles, spad := v.task.grant.spad
                          tenant := v.task.tenant, level := v.task.level, fixed := some (v.task.grant.tileBase, v.task.grant.spadBase) } 0 = some f) :
    fitGroup s [] gid = some f := by
  unfold fitGroup
  rw [q, h]
  simp only [List.contains_nil, Bool.false_eq_true, if_false, Option.map_none, List.length_nil, Nat.zero_add]
  rw [List.finRange_succ, List.findSome?_cons, fit]

theorem restoring_fits : fitGroup restoring [] 9 = some { core := 0, slots := [0], tileBase := 0, spadBase := 0, banks := [[]], accs := [[]] } :=
  fits_first (v := sleeping) rfl homeless (by decide +kernel)

/-- The same task with a frame that no path of memory leads to. -/
def astray : Saved := { sleeping with frame := 7 * 2 ^ 61 }

theorem cause_of {α : Type} {m : W α} (h : (match m with | .error (.cause _) => true | _ => false) = true) : ∃ k, m = .error (.cause k) := by
  match m, h with
  | .error (.cause k), _ => exact ⟨k, rfl⟩
  | .error (.absent _), h => cases h
  | .ok _, h => cases h

theorem witness_SaveAndRestore_2 : restoring.dev.saved[0]? = some sleeping ∧ headItem restoring.dev = some (.group sleeping.task.gid 0, 3) ∧
    sleeping.queued = true ∧ restoring.held = false ∧ (∀ w ∈ restoring.dev.saved, w.task.gid = sleeping.task.gid → w = sleeping) ∧
    restoring.dev.saved.count sleeping = 1 ∧ (∀ l t, restoring.tasks.get l = some t → t.gid ≠ sleeping.task.gid) ∧
    (∃ f, fitGroup restoring [] sleeping.task.gid = some f ∧ f.slots = [0]) ∧ sleeping.task.refusals = [] ∧ sleeping.task.mjobs = [] ∧
    (∃ w bad, readFrame restoring sleeping = .ok (w, bad) ∧ frameUsed w = []) ∧ sleeping.resident = false ∧
    (∀ l, coreOf l = 0 → restoring.tasks.get l = none) ∧ noticeRoom restoring = true ∧ restoring.dev.noticesHeld = [] ∧ ∃ k, readFrame restoring astray = .error (.cause k) :=
  ⟨rfl, by decide +kernel, rfl, rfl, fun w h _ => List.mem_singleton.1 h, List.count_singleton_self, (fun l t h => by rw [no_task] at h; cases h),
   ⟨_, restoring_fits, rfl⟩, rfl, rfl, restoring_frame, rfl, (fun l _ => no_task l), room_near restoring_near, rfl, cause_of (by decide +kernel)⟩

/-- A task with all tiles but the last. -/
def modest : Task := { tk with grant := { tk.grant with acc := 15, accTiles := List.range 15 } }

/-- The machine of a task that takes part in a collective, in the last entry, and to which a message has come. -/
def partaking (x : CEntry) (b : Body) : State :=
  onDev (hears modest b) { (hears modest b).dev with
    coll := (hears modest b).dev.coll.set 63 (some x)
    tickets := [(x.name, 0)]
    nanos := 1000 }
/-- A walker's part: one element of the first page, summed into the next. -/
def walking (st : CState) (op : BitVec 2) : CEntry :=
  { entry st 0 with info := { exchange with op, walker := true, fmt := 3, source := here, dest := here, length := 1, done := here, acc := 1, vault := 1 } }
def named : CName := ⟨0, 1, 0⟩
theorem in_last (x : CEntry) (b : Body) : collIn (partaking x b) 63 x := by
  refine ⟨vector_get_set_self (hears modest b).dev.coll (63 : Fin 64) (some x) (by decide), fun j y h _ => ?_⟩
  by_contra n
  have r : (partaking x b).dev.coll.get j = State.reset.dev.coll.get j := vector_get_set_ne _ (i := (63 : Fin 64)) _ (by decide) fun x => n x.symm
  have z : State.reset.dev.coll.get j = none := by show (Vector.replicate 64 none).get j = none; simp [vector_get_eq]
  rw [r, z] at h; cases h

theorem in_none (b : Body) (n : CName) : noEntry (hears tk b) n := by
  intro j x h
  have z : State.reset.dev.coll.get j = none := by show (Vector.replicate 64 none).get j = none; simp [vector_get_eq]
  rw [show (hears tk b).dev.coll.get j = none from z] at h; cases h

theorem witness_Collectives_1 : ∃ s : State, s.dev.tickets = [(named, 0)] ∧
    collIn s 63 (walking .ticketed 0) ∧ (walking .ticketed 0).name = named ∧ (walking .ticketed 0).state = .ticketed ∧
    (walking .posted 0).state ≠ .ticketed ∧
    (walking .ticketed 0).info.acc ≤ (accFree s (coreOf 0) (tasksOf s (coreOf 0) []) (parkedOf (tasksOf s (coreOf 0) []))).length ∧
    (walking .ticketed 0).info.vault ≠ 0 ∧ vaultRoom s.dev (walking .ticketed 0).info.vault ≠ none ∧ noEntry (hears tk (.commit named)) named :=
  ⟨partaking (walking .ticketed 0) (.commit named), rfl, in_last _ _, rfl, rfl, by decide, by decide +kernel, by decide, by decide +kernel,
   in_none _ _⟩

/-- An element that a walker reads, and one that it cannot. -/
theorem witness_Collectives_2 : ∃ s : State, collIn s 63 (walking .running 0) ∧ (walking .running 0).state = .running ∧
    (walking .running 0).info.walker = true ∧ (walking .running 0).faulted = false ∧ (walking .running 0).next < (walking .running 0).info.iterations ∧ s.held = false ∧
    walkerReads (walking .running 0) here ((walking .running 0).info.offset 0 Level.src) 1 [] s = .ok (.ok [0], []) ∧
    positionAdd here ((walking .running 0).info.offset 0 Level.dst) = some here ∧
    walkerReads (walking .running 0) away ((walking .running 0).info.offset 0 Level.src) 1 [] s = .ok (.error away, []) :=
  ⟨partaking (walking .running 0) (.commit named), in_last _ _, rfl, rfl, rfl, by decide +kernel, rfl, runs (by decide +kernel), by decide +kernel,
   runs (by decide +kernel)⟩

/-- Gatherings: one device has posted and the other posts now, with the same digest or not; a coordinator that knows the name
as over, or that is full. -/
def gathering (posts : List (BitVec 8 × Word)) (reports : List (BitVec 8)) : Gather := { name := named, members := [0, 1], posts, reports }
theorem witness_Collectives_3 (b : Body) (x : CEntry) : ∃ s : State, s.dev.rx[0]? = some (packet b) ∧ inOrder s.dev 0 (packet b) ∧ s = partaking x b ∧
    s.dev.devid = 0 ∧ s.held = false ∧ s.dev.sequencer = s.dev.devid ∧ named ∉ s.dev.committed ∧
    (∀ y ∈ s.dev.abortedNames, y.1 ≠ named) ∧ (∀ h ∈ s.dev.gathers, h.name ≠ named) ∧ s.dev.gathers.length < 256 ∧ s.dev.nanos = 1000 :=
  ⟨partaking x b, rfl, (hears_it modest b).2.2.2.1, rfl, rfl, rfl, rfl, List.not_mem_nil, fun _ h => absurd h List.not_mem_nil,
   fun _ h => absurd h List.not_mem_nil, Nat.zero_lt_succ 255, rfl⟩

theorem witness_Collectives_4 (b : Body) (x : CEntry) (gs : List Gather) (names : List CName) (ended : List (CName × BitVec 8)) :
    ∃ s : State, s.dev.rx[0]? = some (packet b) ∧ inOrder s.dev 0 (packet b) ∧ s.dev.gathers = gs ∧ s.dev.committed = names ∧
    s.dev.abortedNames = ended :=
  ⟨onDev (partaking x b) { (partaking x b).dev with gathers := gs, committed := names, abortedNames := ended }, rfl,
   (hears_it modest b).2.2.2.1, rfl, rfl, rfl⟩

theorem witness_Collectives_5 : (∃ m ∈ (gathering [] []).members, ∀ y ∈ [((0 : BitVec 8), (0 : Word))], y.1 ≠ m) ∧
    (∀ m ∈ (gathering [] []).members, ∃ y ∈ [((1 : BitVec 8), (0 : Word)), (0, 0)], y.1 = m) ∧
    (∃ y ∈ [((1 : BitVec 8), (3 : Word)), (0, 0)], y.2 ≠ 0) ∧ (∀ m ∈ (gathering [] [1]).members, m ∈ [(1 : BitVec 8), 0]) ∧
    (∃ m ∈ (gathering [] []).members, m ∉ [(0 : BitVec 8)]) ∧ (gathering [(1, 0)] []).posts ≠ [] ∧
    ([gathering [] []].find? fun h => h.name == named) = some (gathering [] []) ∧
    (∃ gs : List Gather, 256 ≤ gs.length ∧ ∀ h ∈ gs, h.name ≠ named) := by
  refine ⟨?_, ?_, ?_, ?_, ?_, ?_, rfl, List.replicate 256 { gathering [] [] with name := ⟨1, 1, 0⟩ }, by rw [List.length_replicate],
    fun h m => by rw [List.eq_of_mem_replicate m]; decide⟩ <;> simp [gathering]

theorem partaking_stands (x : CEntry) (b : Body) : standsAt (partaking x b) (hears modest b).cur modest :=
  ⟨(hears_stands modest b).1, fun l t h => (hears_stands modest b).2 l t h⟩

theorem still_walkerRead (e : CEntry) (a : Word) : Still (walkerRead e a) := by
  unfold walkerRead walkerSpot atTarget
  refine .bind .getState fun s => .bind (.bind ?_ fun r => ?_) fun r => ?_
  all_goals repeat' (first | exact .pure _ | exact .stop _ | split | dsimp only)

theorem findTask_hears {t : Task} {b : Body} {n : Nat} (h : t.tid ≠ n) : findTask (hears t b) n = none := by
  unfold findTask
  rw [List.find?_eq_none]
  intro l _
  match e : (hears t b).tasks.get l with
  | none => simp
  | some u =>
    obtain rfl := only_task b e
    have := (hears_stands t b).1.symm.trans e
    cases this
    simpa using h

/-- A chunk of one element: for the tiles of a task, for a walker's copy and its sum, from here and from a device that no
window of the tenant's grants; a second one of the same, and one whose task is nowhere. -/
def aChunk : Body := .collChunk named 1 0 0 1 14 here 3 0 [0] true
theorem witness_Collectives_6 : ∃ s : State, collIn s 63 (walking .running 3) ∧ (walking .running 3).info.op = 3 ∧
    (walking .running 0).info.op ≠ 3 ∧ (entry .running 0).info.walker = false ∧ standsAt s s.cur modest ∧ modest.tid = (walking .running 3).tid ∧
    modest.grant.acc ≤ (15 : BitVec 4).toNat ∧ (14 : BitVec 4).toNat < modest.grant.acc ∧ (floatFmt (0 : BitVec 4).toNat).isSome = true ∧
    chunkFirst s 0 named = true ∧ chunkFirst (hears tk aChunk) 0 named = true ∧ ingressGrants s 0 false .write 1 = false ∧
    ingressGrants s 0 true .write 1 = true ∧ (1, 0, 0) ∉ (walking .running 3).arrived ∧
    (1, 0, 0) ∈ ({ walking .running 3 with arrived := [(1, 0, 0)] } : CEntry).arrived ∧ findTask (hears tk aChunk) 6 = none ∧
    positionAdd here ((0 + 0 : Nat) : Int) = some here ∧
    locate s none {} 0 .c .write (.width (fmtWidth 3)) here = .ok (.here (8 * (frame + 0x1000)) (fmtWidth 3) false) ∧ pathOf here = 0 ∧
    bitsGranted s 0 true .write (8 * (frame + 0x1000)) (fmtWidth 3) = true :=
  ⟨partaking (walking .running 3) aChunk, in_last _ _, rfl, by decide, rfl, partaking_stands _ _, rfl, by decide +kernel, by decide +kernel,
   by decide +kernel, by decide +kernel, by decide +kernel, by decide +kernel, by decide +kernel, List.not_mem_nil, List.mem_cons_self,
   findTask_hears (by decide), by decide +kernel, finds (by decide +kernel), by decide +kernel, by decide +kernel⟩

/-- A commit and an abort: with a completion word in the first page, and the one staged element of a sum, with its own. -/
theorem witness_Collectives_7 : ∃ s : State, collIn s 63 (walking .running 0) ∧ (walking .running 0).info.walker = true ∧
    (walking .running 0).info.done ≠ 0 ∧ (entry .running 0).info.done = 0 ∧
    (∀ x, locate (onDev s (putColl (takenOut s.dev 0) 63 (overNow s (walking .running 0) x))) none {} 0 .c .write (.bytes 8) here =
        .ok (.here (8 * (frame + 0x1000)) 64 false) ∧
      bitsGranted (onDev s (putColl (takenOut s.dev 0) 63 (overNow s (walking .running 0) x))) 0 true .write (8 * (frame + 0x1000)) 64 = true) ∧
    ((stagedElems (walking .running 0)).map Prod.fst).dedup = [0] ∧
    (∀ x ∈ stagedElems (walking .running 0), rangePoisoned s.dev.poison (x.2 / 8) ((x.2 % 8 + fmtWidth 3 + 7) / 8) = false) ∧
    positionAdd (walking .running 0).info.dest 0 = some here ∧
    walkerRead (walking .running 0) here [.dev (takenOut s.dev 0)] s = .ok (.ok 0, [.dev (takenOut s.dev 0)]) ∧
    locate (onDev s (takenOut s.dev 0)) none {} 0 .c .write (.width (fmtWidth 3)) here = .ok (.here (8 * (frame + 0x1000)) (fmtWidth 3) false) ∧
    bitsGranted (onDev s (takenOut s.dev 0)) 0 true .write (8 * (frame + 0x1000)) (fmtWidth 3) = true :=
  ⟨partaking (walking .running 0) (.commit named), in_last _ _, rfl, by decide, rfl,
   (fun x => ⟨finds (by cases x <;> decide +kernel), by cases x <;> decide +kernel⟩), by decide +kernel, by decide +kernel, by decide +kernel,
   (still_walkerRead _ _).finds (by decide +kernel), finds (by decide +kernel), by decide +kernel⟩

/-! A chain's packet at each kind of pointer; its return, with a byte to write. -/

def aChain (pointer : Word) (obtained : BitVec 8) (hops step : Nat) : Chain :=
  { origin := 1, tid := 5, tenant := 0, level := true, steps := [(0, 0)], fetch := 1, pointer, obtained, step, hops }

/-- Device 0 of a domain of four, all its ports up, to which a message has come. -/
def joined (t : Task) (b : Body) : State := onDev (hears t b) { (hears t b).dev with cols := 4, ports := .replicate 30 { up := true } }

theorem hop_rx (d : Device) (r : List Packet) (x : BitVec 8) : nextHop { d with rx := r } x false false false = nextHop d x false false false := rfl

theorem witness_ChainedLoads_1 (c : Chain) : ∃ s : State, s.dev.rx[0]? = some (packet (.chain 3 c)) ∧ s.dev.devid = 0 ∧ s.held = false ∧
    ({ aChain here 0 0 0 with origin := 0 } : Chain).origin = 0 ∧ (aChain here 0 0 0).origin ≠ 0 ∧ pathOf (7 * 2 ^ 61) ∉ [0, 5, 6] ∧
    pathOf away = 5 ∧ inDomain s.dev 3 = false ∧
    away.toNat / 2 ^ 49 % 2 ^ 8 = 3 ∧ inDomain s.dev 0 = true ∧ pathOf (5 * 2 ^ 61) = 5 ∧ pathOf here ∈ [0, 6] ∧
    (aChain here 1 8 0).obtained ≠ 0 ∧ (aChain here 1 8 0).hops = 8 ∧ (aChain here 1 7 0).hops ≠ 8 ∧
    nextHop s.dev 1 false false false = none ∧ nextHop (joined tk (.chain 3 c)).dev 1 false false false = some (1, false) ∧
    (aChain here 0 0 0).steps[(aChain here 0 0 0).step]? = some (0, 0) ∧ (aChain here 0 0 1).steps[(aChain here 0 0 1).step]? = none ∧
    positionAdd (0x01FFFFFFFFFFFFFF : Word) 1 = none ∧ positionAdd here 0 = some here :=
  ⟨hears tk (.chain 3 c), rfl, rfl, rfl, rfl, by decide, by decide +kernel, by decide +kernel, rfl, by decide +kernel, rfl, by decide +kernel,
   by decide +kernel, by decide +kernel, rfl, by decide +kernel, (hop_rx (mapped tk).dev _ 1).trans (by decide +kernel),
   (hop_rx { (mapped tk).dev with cols := 4, ports := .replicate 30 { up := true } } _ 1).trans (by decide +kernel), rfl, rfl, by decide +kernel,
   by decide +kernel⟩

theorem witness_ChainedLoads_2 : ∃ s : State, s.dev.rx[0]? = some (packet (.chain 3 (aChain here 0 0 0))) ∧
    chainBehind s 3 (aChain here 0 0 0) here 8 = false ∧ chainBehind s 3 (aChain here 0 0 1) here 1 = false ∧ 0 < (aChain here 0 0 1).fetch ∧
    chainRead s (aChain here 0 0 0) here 8 8 = .ok 0 ∧ chainRead s (aChain here 0 0 1) here 1 8 = .ok 0 ∧
    chainRead s (aChain 0x1004 0 0 0) 0x1004 8 8 = .error (.cause .align) ∧ chainRead s (aChain 0x1004 0 0 1) 0x1004 1 8 = .error (.cause .align) :=
  ⟨hears tk (.chain 3 (aChain here 0 0 0)), rfl, rfl, rfl, by decide, finds (by decide +kernel), finds (by decide +kernel),
   refuses (by decide +kernel), refuses (by decide +kernel)⟩

theorem known_hears (t : Task) (b : Body) : knownTask (hears t b) t.tid = some t := by
  have at_ := (hears_stands t b).1
  unfold knownTask
  match e : findTask (hears t b) t.tid with
  | none =>
    unfold findTask at e
    rw [List.find?_eq_none] at e
    have := e (hears t b).cur (List.mem_finRange _)
    rw [at_] at this
    simp at this
  | some l =>
    unfold findTask at e
    have m := List.find?_some e
    match u : (hears t b).tasks.get l with
    | none => rw [u] at m; cases m
    | some x =>
      obtain rfl := only_task b u
      exact at_

/-- A chain of a task whose earlier copy writes where the chain would read. -/
theorem witness_ChainedLoads_4 : chainBehind (hears (copying { aCopy .plain 0 with qd := one here 0 0 }) (.chain 4 { aChain here 0 0 0 with origin := 0 }))
    4 { aChain here 0 0 0 with origin := 0 } here 8 = true := by
  have k := known_hears (copying { aCopy .plain 0 with qd := one here 0 0 }) (.chain 4 { aChain here 0 0 0 with origin := 0 })
  unfold chainBehind
  rw [show ({ aChain here 0 0 0 with origin := 0 } : Chain).tid = (copying { aCopy .plain 0 with qd := one here 0 0 }).tid from rfl, k]
  decide +kernel

theorem chainWrites_same {s : State} {core : Option (Fin 256)} {t : Task} {b : Word} {n : Nat} : ∀ l : List (Option Word × Nat),
    (∃ x, ∀ us st, chainWrites s core t b n l us st = .ok (x, us)) ∨ ∃ e, ∀ us st, chainWrites s core t b n l us st = .error e
  | [] => .inl ⟨_, fun _ _ => rfl⟩
  | (none, _) :: _ => .inl ⟨_, fun _ _ => rfl⟩
  | (some a, v) :: rest => by
    unfold chainWrites
    match chainWrite s core t a n v with
    | .error (.absent _) => exact .inr ⟨_, fun _ _ => rfl⟩
    | .error (.cause _) => exact .inl ⟨_, fun _ _ => rfl⟩
    | .ok w =>
      rcases chainWrites_same (s := s) (core := core) (t := t) (b := b) (n := n) rest with ⟨x, h⟩ | ⟨e, h⟩
      · exact .inl ⟨x.map (w :: ·), fun us st => by simp only [atTarget, run_bind, run_pure, h]⟩
      · exact .inr ⟨e, fun us st => by simp only [atTarget, run_bind, run_pure, h]⟩

theorem chainWrites_any {s st : State} {core : Option (Fin 256)} {t : Task} {b : Word} {n : Nat} {l : List (Option Word × Nat)}
    {x : Except (Cause × Word) (List Wr)} (h : chainWrites s core t b n l [] st = .ok (x, [])) (us : List Upd) :
    chainWrites s core t b n l us st = .ok (x, us) := by
  rcases chainWrites_same (s := s) (core := core) (t := t) (b := b) (n := n) l with ⟨y, e⟩ | ⟨y, e⟩
  · rw [e] at h; cases h; exact e us st
  · rw [e] at h; cases h

def awaiting (base : Word) : ChainWait :=
  { id := 3, tid := 5, qd := { base, extent := 63, format := 12 }, block := here, kr := 0, kv := 7, origin := asker true }
def brought : ChainEnd := { status := 1, cause := 0, addr := 0, step := 1, lastGood := here, hops := 8, bytes := [7] }
def returning (base : Word) : State :=
  onDev (hears storing (.chainBack 3 brought)) { (hears storing (.chainBack 3 brought)).dev with chainWaits := [awaiting base] }

theorem writes {x : Except Stop (Except (Cause × Word) (List Wr) × List Upd)}
    (h : (match x with | .ok (.ok _, us) => us.isEmpty | _ => false) = true) : ∃ ws, x = .ok (.ok ws, []) := by
  match x, h with
  | .ok (.ok ws, us), h => exact ⟨ws, by rw [List.isEmpty_iff.1 h]⟩
  | .error _, h => cases h
  | .ok (.error _, _), h => cases h

theorem witness_ChainedLoads_3 : ∃ s : State, s = returning (here + 32) ∧ s.dev.rx[0]? = some (packet (.chainBack 3 brought)) ∧
    (s.dev.chainWaits.find? fun x => x.id == 3) = some (awaiting (here + 32)) ∧ standsAt s s.cur storing ∧
    (awaiting (here + 32)).tid = storing.tid ∧ (∀ v ∈ s.dev.saved, v.task.tid ≠ storing.tid) ∧ storing.mode = .ready ∧ s.held = false ∧
    ({ storing with mode := .asleep } : Task).takesRefusal .c = false ∧
    (∃ ws, ∀ us, chainWrites s (some (coreOf s.cur)) storing (awaiting (here + 32)).qd.base 1 (chainTargets (awaiting (here + 32)).qd brought.bytes) us s = .ok (.ok ws, us)) ∧
    (∃ ws, ∀ us, chainWrites s (some (coreOf s.cur)) storing (awaiting (here + 32)).block 8 [(some (here + 8), 0), (some (here + 16), here.toNat), (some (here + 24), 8),
      (some here, 1 + 2 ^ 16)] us s = .ok (.ok ws, us)) ∧
    (∃ k a, ∀ us, chainWrites (returning away) (some (coreOf s.cur)) storing (awaiting away).qd.base 1 (chainTargets (awaiting away).qd brought.bytes) us
      (returning away) = .ok (.error (k, a), us)) := by
  refine ⟨_, rfl, rfl, rfl, ⟨(hears_stands storing (.chainBack 3 brought)).1, fun l t h => (hears_stands storing (.chainBack 3 brought)).2 l t h⟩, rfl,
    fun _ h => absurd h List.not_mem_nil, rfl, rfl, by decide, ?_, ?_,
    ⟨.path, away, chainWrites_any (runs (by decide +kernel))⟩⟩
  · obtain ⟨ws, h⟩ := writes (x := chainWrites (returning (here + 32)) (some (coreOf (returning (here + 32)).cur)) storing (awaiting (here + 32)).qd.base 1
      (chainTargets (awaiting (here + 32)).qd brought.bytes) [] (returning (here + 32))) (by decide +kernel)
    exact ⟨ws, chainWrites_any h⟩
  · obtain ⟨ws, h⟩ := writes (x := chainWrites (returning (here + 32)) (some (coreOf (returning (here + 32)).cur)) storing (awaiting (here + 32)).block 8
      [(some (here + 8), 0), (some (here + 16), here.toNat), (some (here + 24), 8), (some here, 1 + 2 ^ 16)] [] (returning (here + 32))) (by decide +kernel)
    exact ⟨ws, chainWrites_any h⟩

/-- A notice queue that holds 64 notices, none of them served; one that has not come with any firmware. -/
def fullQueue : State :=
  { onDev (alone tk) { (alone tk).dev with boot := .verified, noticeQueue := 2 ^ 40 + 0x100000 } with mem := [(2 ^ 40 + 0x100000, 64)] }
theorem witness_Notices : noticeRoom fullQueue = false ∧ noticeRoom (alone tk) = true ∧ (alone tk).dev.noticesHeld = [] ∧ Mem.wf fullQueue.mem = true :=
  ⟨by decide +kernel, by decide +kernel, rfl, by decide +kernel⟩

/-! A port with its last key loaded, at each limit; a flit in sequence, and one whose CRC is wrong. -/

def linked (p : Port) : State := onDev (alone tk) { (alone tk).dev with ports := (alone tk).dev.ports.set 29 p }
def readyPort : Port := { up := true, keyA := { loaded := true }, keyB := { loaded := true }, counter := 2 ^ 40 - 1 }
theorem linked_port (p : Port) : (linked p).dev.ports.get 29 = p := vector_get_set_self (alone tk).dev.ports (29 : Fin 30) p (by decide)

theorem witness_Links_1 : ((linked readyPort).dev.ports.get 29).up = true ∧ (readyPort.key readyPort.txSlot).loaded = true ∧
    (5 : BitVec 3).toNat ≤ 5 ∧ readyPort.replay.length < 128 ∧ readyPort.counter.toNat < ((linked readyPort).rekeyat.get 29).toNat ∧
    (List.replicate 14 (3 : BitVec 128)).length = 14 ∧ 1 ≤ (List.replicate 64 (0 : BitVec 128)).length ∧
    (List.replicate 64 (0 : BitVec 128)).length ≤ 64 ∧
    (compressedBytes (compressWords (List.replicate 64 0) (readyPort.txRing, readyPort.txPtr)).1).length ≤ 224 ∧
    (readyPort.key (~~~readyPort.rxSlot)).loaded = true ∧ (readyPort.key (~~~readyPort.txSlot)).loaded = true ∧
    (({ up := true } : Port).key (~~~(0 : BitVec 1))).loaded = false ∧
    ((linked readyPort).rekeyat.get 29).toNat ≤ ({ readyPort with counter := 2 ^ 40 } : Port).counter.toNat ∧
    ({ up := true, switchWanted := true } : Port).switchWanted = true ∧ (linked readyPort).held = false ∧
    (readyPort.key (~~~readyPort.txSlot)).sent = false ∧
    (({ readyPort with keyB := { loaded := true, sent := true } } : Port).key (~~~readyPort.txSlot)).sent = true ∧ readyPort.asked = false ∧
    ({ readyPort with asked := true } : Port).asked = true :=
  ⟨by rw [linked_port]; rfl, rfl, by decide, by decide, by decide +kernel, rfl, by decide, by decide, by decide +kernel, rfl, rfl, rfl,
   by decide +kernel, rfl, rfl, rfl, rfl, rfl, rfl⟩

theorem numberOf_cons (b : Byte) (bs : List Byte) : numberOf (b :: bs) = b.toNat + 256 * numberOf bs := rfl

theorem numberOf_split : ∀ (bs rest : List Byte), bytesOf bs.length (numberOf (bs ++ rest)) = bs ∧
    numberOf (bs ++ rest) = numberOf bs + 256 ^ bs.length * numberOf rest ∧ numberOf bs < 256 ^ bs.length
  | [], rest => by simp [bytesOf, numberOf]
  | b :: bs, rest => by
    obtain ⟨h1, h2, h3⟩ := numberOf_split bs rest
    have lt := b.isLt
    refine ⟨?_, ?_, ?_⟩
    · simp only [List.length_cons, List.cons_append, bytesOf, numberOf_cons, List.cons.injEq]
      exact ⟨BitVec.eq_of_toNat_eq (by simp; omega), by rw [Nat.add_mul_div_left _ _ (by decide), Nat.div_eq_of_lt (by omega), Nat.zero_add, h1]⟩
    · simp only [List.length_cons, List.cons_append, numberOf_cons, h2, Nat.pow_succ, Nat.mul_add, Nat.add_assoc]
      congr 2; rw [← Nat.mul_assoc]; congr 1; exact Nat.mul_comm _ _
    · simp only [List.length_cons, numberOf_cons, Nat.pow_succ]; omega

theorem numberOf_bytesOf : ∀ (n v : Nat), v < 256 ^ n → numberOf (bytesOf n v) = v
  | 0, v, h => by simp at h; subst h; rfl
  | n + 1, v, h => by
    rw [bytesOf, numberOf_cons, numberOf_bytesOf n (v / 256) (by rw [Nat.pow_succ] at h; omega)]; simp; omega

theorem bytesOf_length : ∀ (n v : Nat), (bytesOf n v).length = n
  | 0, _ => rfl
  | n + 1, v => by simp [bytesOf, bytesOf_length n]

/-- The flit of 8 bytes of header, 240 that follow and a CRC. -/
def aFlit (head tail : List Byte) (x : BitVec 32) : BitVec 2048 := BitVec.ofNat 2048 (numberOf (head ++ tail ++ bytesOf 4 x.toNat))

theorem aFlit_parts {head tail : List Byte} (hh : head.length = 8) (ht : tail.length = 240) (x : BitVec 32) :
    flitBody (aFlit head tail x) = head ++ tail ∧ flitCrc (aFlit head tail x) = x ∧ (aFlit head tail x).toNat % 2 ^ 64 = numberOf head := by
  have len : (head ++ tail).length = 248 := by simp [hh, ht]
  obtain ⟨h1, h2, h3⟩ := numberOf_split (head ++ tail) (bytesOf 4 x.toNat)
  obtain ⟨g1, g2, g3⟩ := numberOf_split head tail
  rw [len] at h1 h2 h3; rw [hh] at g2 g3
  rw [numberOf_bytesOf 4 x.toNat x.isLt] at h2
  have lt := x.isLt
  have e : (aFlit head tail x).toNat = numberOf (head ++ tail ++ bytesOf 4 x.toNat) := by
    unfold aFlit
    rw [BitVec.toNat_ofNat]
    refine Nat.mod_eq_of_lt ?_
    rw [h2, show (2 : Nat) ^ 2048 = 256 ^ 248 * 2 ^ 64 from by decide +kernel]
    exact Nat.lt_of_lt_of_le (show _ < 256 ^ 248 * (x.toNat + 1) by rw [Nat.mul_add, Nat.mul_one]; exact Nat.add_comm _ _ ▸ Nat.add_lt_add_left h3 _)
      (Nat.mul_le_mul_left _ (Nat.le_trans lt (by decide)))
  refine ⟨by unfold flitBody; rw [e, h1], ?_, ?_⟩
  · unfold flitCrc
    rw [e, h2, show 2 ^ (8 * 248) = 256 ^ 248 from by decide +kernel]
    apply BitVec.eq_of_toNat_eq
    rw [BitVec.toNat_ofNat, Nat.add_mul_div_left _ _ (Nat.lt_of_le_of_lt (Nat.zero_le _) h3), Nat.div_eq_of_lt h3, Nat.zero_add, Nat.mod_eq_of_lt lt]
  · rw [e, h2, g2, show (256 : Nat) ^ 248 = 2 ^ 64 * 256 ^ 240 from by decide +kernel, show (256 : Nat) ^ 8 = 2 ^ 64 from rfl, Nat.mul_assoc,
      Nat.add_assoc, ← Nat.mul_add, Nat.add_mul_mod_self_left, Nat.mod_eq_of_lt (by rw [show (2 : Nat) ^ 64 = 256 ^ 8 from rfl]; exact g3)]

/-- A flit in sequence, whose key its port has not; one with a wrong CRC; one out of sequence. -/
theorem witness_Links_2 : ∃ head tail : List Byte, head.length = 8 ∧ tail.length = 240 ∧
    (let f := aFlit head tail (crc32c (head ++ tail))
     let h := headerOf (f.toNat % 2 ^ 64)
     let p : Port := { up := true, recvSeq := 1 }
     flitCrc f = crc32c (flitBody f) ∧ h.vc ≠ 7 ∧ h.seq = p.recvSeq ∧ ¬ (h.slot = p.rxSlot ∧ (p.key p.rxSlot).loaded = true) ∧
     p.tagFail ≠ some h.seq ∧ ({ p with tagFail := some 1 } : Port).tagFail = some h.seq ∧ h.seq ≠ ({ up := true } : Port).recvSeq) ∧
    (let f := aFlit head tail (~~~(crc32c (head ++ tail))); flitCrc f ≠ crc32c (flitBody f)) := by
  have hh : (bytesOf 8 (2 ^ 48)).length = 8 := rfl
  have ht : (bytesOf 240 0).length = 240 := rfl
  refine ⟨bytesOf 8 (2 ^ 48), bytesOf 240 0, hh, ht, ?_, ?_⟩
  · obtain ⟨b, c, h⟩ := aFlit_parts hh ht (crc32c (bytesOf 8 (2 ^ 48) ++ bytesOf 240 0))
    dsimp only
    rw [b, c, h]
    exact ⟨rfl, by decide +kernel, by decide +kernel, by decide +kernel, by decide +kernel, by decide +kernel, by decide +kernel⟩
  · obtain ⟨b, c, _⟩ := aFlit_parts hh ht (~~~(crc32c (bytesOf 8 (2 ^ 48) ++ bytesOf 240 0)))
    dsimp only
    rw [b, c]
    generalize crc32c _ = x
    intro e
    have := congrArg (·.getLsbD 0) e
    simp at this

/-- A flit in sequence under a loaded key, of a message, of a new key, of a retry: what it holds is for the cipher to say. -/
theorem witness_Links_4 : ∀ h ∈ [({ seq := 1, vc := 0 } : Header), { seq := 1, vc := 5, marker := true }, { seq := 1, vc := 7, retry := true }],
    ∃ f : BitVec 2048, flitCrc f = crc32c (flitBody f) ∧ headerOf (f.toNat % 2 ^ 64) = h ∧ h.seq = ({ readyPort with recvSeq := 1 } : Port).recvSeq ∧
      h.slot = readyPort.rxSlot ∧ (readyPort.key readyPort.rxSlot).loaded = true := by
  intro h m
  have hh : (bytesOf 8 h.word).length = 8 := bytesOf_length _ _
  have ht : (bytesOf 240 0).length = 240 := rfl
  obtain ⟨b, c, e⟩ := aFlit_parts hh ht (crc32c (bytesOf 8 h.word ++ bytesOf 240 0))
  have w : h.word < 256 ^ 8 ∧ headerOf h.word = h ∧ h.seq = 1 ∧ h.slot = 0 := by
    simp only [List.mem_cons, List.not_mem_nil, or_false] at m
    rcases m with rfl | rfl | rfl <;> decide +kernel
  rw [numberOf_bytesOf 8 _ w.1] at e
  exact ⟨_, by rw [b, c], by rw [e]; exact w.2.1, w.2.2.1, w.2.2.2, rfl⟩

/-- A stored flit that may still be sent once more, and one that may not. -/
theorem witness_Links_3 : (∀ f ∈ ({ replay := [(7, 0, 15)] } : Port).replay, decide ((f.1 - (7 : BitVec 16)).toNat < 2 ^ 15) = true → f.2.2 < 16) ∧
    (∃ f ∈ ({ replay := [(7, 0, 16)] } : Port).replay, decide ((f.1 - (7 : BitVec 16)).toNat < 2 ^ 15) = true ∧ 16 ≤ f.2.2) := by
  constructor <;> simp

theorem witness_RingsStayAlike : ∃ (words : List (BitVec 128)) (ring : Vector (BitVec 128) 256 × BitVec 8), words.length ≤ 64 ∧
    (compressedBytes (compressWords words ring).1).length ≤ 224 ∧ words.length = 64 :=
  ⟨List.replicate 64 0, (.replicate 256 0, 0), by decide, by decide +kernel, by decide⟩

/-! ## A step -/

/-- From reset, with `add s3 s1 s2` where the current slot fetches: its word is fetched, decoded and run. -/
theorem witness_StepRunsDecoded_1 : ∃ s : State, s = State.reset.withFetchWord 32 (encode (.add 3 1 2)).toNat ∧ s.agenda = [] ∧
    slotOrder s (coreOf s.cur) s.eng = [] ++ (0 : Fin 4) :: [1, 2, 3] ∧ canIssue s (place (coreOf s.cur) 0) s.eng = true ∧
    fetchWord s (place (coreOf s.cur) 0) s.eng = .ok (encode (.add 3 1 2)) ∧ decode s.eng (encode (.add 3 1 2)) = .ok (.add 3 1 2) :=
  ⟨_, rfl, rfl, by decide +kernel, by decide +kernel, finds (by decide +kernel), by decide +kernel⟩

theorem witness_StepRunsDecoded_2 : ∃ s : State, s.agenda = [.issue 0 .v, .event (.copyChunk 0 0 0 false)] ∧ (∀ i, decode .s 0 ≠ .ok i) :=
  ⟨{ alone tk with agenda := [.issue 0 .v, .event (.copyChunk 0 0 0 false)] }, rfl, fun i h => by cases h⟩

/-- A step of reset's machine with an instruction placed at its program counter goes on, and the two agree to the state. -/
theorem witness_StepKeepsSound : (State.reset.withFetchWord 32 (encode (.addi 3 1 5)).toNat).Sound ∧
    ∃ s', step (State.reset.withFetchWord 32 (encode (.addi 3 1 5)).toNat) = .next s' := by
  refine ⟨⟨by decide +kernel, reset_sound.leasemax, reset_sound.rampcfg, reset_sound.rekeyat⟩, ?_⟩
  have h : (match step (State.reset.withFetchWord 32 (encode (.addi 3 1 5)).toNat) with | .next _ => true | _ => false) = true := by decide +kernel
  revert h
  cases step (State.reset.withFetchWord 32 (encode (.addi 3 1 5)).toNat) with
  | next s => exact fun _ => ⟨s, rfl⟩
  | fault f => exact fun h => by cases h
  | refused r => exact fun h => by cases h

theorem witness_DecodeEncodeAgree : (∃ (i : Instr) (e : Engine), i.engine = some e ∧ i.wf = true) ∧ ∃ e w i, decode e w = .ok i :=
  ⟨⟨.mma 4 5 3 2 4 1 16, .m, rfl, by decide⟩, .s, 0x06296800, .add 34 37 40, by decide +kernel⟩

/-! ## What the formats refuse: one ill-formed instruction for each test of the maps. -/

def illFormed : List Instr :=
  [.ld 1 2 6 0, .st 1 2 7 0, .rst 1 2 3 6, .amo 1 2 63 0, .amoPosted 2 63 0, .waita 1 2 63 0, .waita 1 2 3 3, .fence 4 0, .fence 0 6,
   .acq 1 2 6, .rel 1 2 6, .relAdd 1 2 7, .barArrive 1 2 3 6, .barWait 1 2 3 6, .barSync 1 2 3 7, .sget 1 7, .sset 1 0x56, .vadd 1 2 3 0 0 3,
   .vdiv 1 2 3 0 0 10, .viadd 1 2 3 0 5, .vabs 1 2 0 0 4, .vcmp 1 7 2 3 0 0 0, .vcmp 1 6 2 3 0 0 10, .vcmp 1 0 2 3 0 0 4,
   .vcvt 1 2 5 0 0 0 0, .vcvt 1 2 1 0 0 0 12, .vcbe 1 2 3 0 0 3, .vcbd 1 2 3 0 2, .vmov 1 2 0 5, .vperm 1 2 3 0 1, .vred 1 2 3 0 0 0,
   .vred 1 2 0 0 0 3, .vidx 1 0 0, .vimm 1 5 0, .vimm 1 3 256, .mopsAnd 8 0 0, .mopsAnd 0 8 0, .mopsAnd 0 0 8, .mopsNot 8 0, .mopsNot 0 8,
   .mopsFirstn 8 0, .mopsFirstn 0 16, .mopsOnes 8, .vld 1 2 3 0 0, .vld 1 2 0 0 5, .vgth 1 2 0 3 0 1, .vsct 1 2 3 3 0 0, .mma 1 2 3 3 0 0 1,
   .mma 1 2 3 0 0 0 0, .mcbl 1 8 0 0, .cp 1 2 0 0 0 0 6, .cpConvert 1 2 0 0 0 0 6, .cpadd 1 2 0 0 0 0 6 0, .cpg 1 2 0 0 0 0 6,
   .cps 1 2 0 0 0 0 6, .cpz 1 0 0 0 6 0, .cpf 1 2 0 0 0 0 7, .cpre 1 2 0 0 0 0 6]

theorem test_illFormed : illFormed.all (fun i => !i.wf) = true := by decide +kernel

/-- The boundary on the other side. -/
theorem test_wellFormed : ([.ld 1 2 5 0, .waita 1 2 62 2, .fence 3 5, .sget 1 6, .sset 1 0x55, .vcmp 1 6 2 3 0 0 2, .vimm 1 3 255, .mopsFirstn 7 15,
    .vred 1 2 2 0 0 0, .mma 1 2 3 2 0 0 1, .mcbl 1 7 0 0, .cp 1 2 0 0 0 0 5] : List Instr).all (fun i => i.wf) = true := by decide +kernel

/-! ## Values that the spec works out -/

/-- What one instruction leaves in a scalar register of the task. -/
def leaves (i : Instr) (t : Task) (r : Fin 64) : Option Word :=
  match exec i (alone t) with
  | .next s => (s.tasks.get s.cur).map fun t => t.s.get r
  | _ => none

/-- The table under R116. -/
def plane3 : Task := { tk with s := (tk.s.set 5 0x07FFFFFFFFFFFFFE).set 7 6 }
theorem test_paddi : leaves (.paddi 6 5 1) plane3 6 = some 0x07FFFFFFFFFFFFFF := by decide +kernel
theorem test_paddi_traps : (match exec (.paddi 6 5 2) (alone plane3) with
    | .next s => (s.tasks.get s.cur).map fun t => (t.s.get 6, t.mode, t.trapcause.toNat % 256)
    | _ => none) = some (0, .saving 2, Cause.padd.code) := by decide +kernel
theorem test_planei : leaves (.planei 6 5 0) plane3 6 = some 0x01FFFFFFFFFFFFFE := by decide +kernel
theorem test_path : leaves (.pathOf 6 5 7) plane3 6 = some 0xC7FFFFFFFFFFFFFE := by decide +kernel
theorem test_add_wraps : leaves (.add 5 5 5) { tk with s := tk.s.set 5 (2 ^ 63 + 1) } 5 = some 2 := by decide +kernel

/-- R114: division by zero gives all ones, and the remainder a. -/
theorem test_div_zero : leaves (.div 6 5 4) plane3 6 = some 0xFFFFFFFFFFFFFFFF ∧ leaves (.rem 6 5 4) plane3 6 = some 0x07FFFFFFFFFFFFFE := by
  decide +kernel

/-- The last paragraph of 08: with saturation and without it. -/
theorem test_vcvt : (convert 0 1 true .rne 0x7F7FFFFF).1 = 0x7F7F ∧ (convert 0 1 false .rne 0x7F7FFFFF).1 = 0x7F80 := by decide +kernel

/-- The drain of 10: 10, -3, 0.75, +0, 7.5, -12, 1.3, -0.2, each divided by the scale 2, against the entries of E2M1. -/
def e2m1 : List Nat := [0x0000, 0x3F00, 0x3F80, 0x3FC0, 0x4000, 0x4040, 0x4080, 0x40C0, 0x8000, 0xBF00, 0xBF80, 0xBFC0, 0xC000, 0xC040, 0xC080, 0xC0C0]
theorem test_codes : ([.fin false 5 1, .fin true 3 2, .fin false 3 8, .fin false 0 1, .fin false 15 4, .fin true 6 1, .fin false 13 20,
    .fin true 1 10] : List FVal).map (fun x => (encodeBook e2m1 x).code) = [0x6, 0xB, 0x1, 0x0, 0x6, 0xF, 0x1, 0x0] := by decide +kernel

/-- One step runs the instruction that is placed; the table's word of one instruction of each engine. -/
theorem test_step : (match step (State.reset.withFetchWord 32 (encode (.addi 3 1 5)).toNat) with
    | .next s => (s.tasks.get (place 0 0)).map fun t => (t.s.get 3, t.pcS - bootTask.pcS)
    | _ => none) = some (5, 4) := by decide +kernel
theorem test_decodeTableWord : decodeTableWord 32 0x06296800 = some (.add 34 37 40) ∧ decodeTableWord 32 0xDC424008 = some (.vtst 4 9 8) := by
  decide +kernel

/-- The program that 16 gives for the standard handler of slot 15, with its two contributions in either order. -/
def ones : Word := BitVec.allOnes 64
theorem test_handler : handlerOk add192Words = true ∧ (standardSlots[15]?.map Handler.program) = some add192Words ∧
    (let p := tenantHandler add192Words (.replicate 4 0) ones 0
     let q := tenantHandler add192Words p.1 ones ones
     p.1.toList = [ones, 0, 0, 0] ∧ p.2 = 0 ∧ q.1.toList = [ones - 1, 0, 0, 0] ∧ q.2 = ones) ∧
    (let q := standardHandler 15 (.replicate 4 0) ones ones
     let p := standardHandler 15 q.1 ones 0
     q.1.toList = [ones, ones, ones, 0] ∧ p.1.toList = [ones - 1, 0, 0, 0] ∧ p.2 = ones) := by decide +kernel

/-- Words of engine S: the fixed bits of the opcode maps (R71 to R83) with values in every field. -/
def wordsS1 : List (BitVec 32 × Instr) :=
  [(0x06296800, .add 34 37 40), (0x06296801, .sub 34 37 40), (0x06296802, .and 34 37 40), (0x06296803, .or 34 37 40),
   (0x06296804, .xor 34 37 40), (0x06296805, .andn 34 37 40), (0x06296806, .orn 34 37 40), (0x06296807, .shl 34 37 40),
   (0x06296808, .shr 34 37 40), (0x06296809, .sra 34 37 40), (0x0629680A, .slt 34 37 40), (0x0629680B, .sltn 34 37 40),
   (0x0629680C, .seq 34 37 40), (0x0629680D, .sne 34 37 40), (0x0629680E, .min 34 37 40), (0x0629680F, .max 34 37 40),
   (0x06296810, .minn 34 37 40), (0x06296811, .maxn 34 37 40), (0x06296812, .mul 34 37 40), (0x06296813, .mulh 34 37 40),
   (0x06296814, .mulhn 34 37 40), (0x06296815, .div 34 37 40), (0x06296816, .divn 34 37 40), (0x06296817, .rem 34 37 40),
   (0x06296818, .remn 34 37 40), (0x06294019, .clz 34 37), (0x0629401A, .ctz 34 37), (0x0629401B, .pop 34 37),
   (0x0629681C, .padd 34 37 40), (0x0629681D, .planeOf 34 37 40), (0x0629681E, .pathOf 34 37 40),
   (0x0A296008, .addi 34 37 8200), (0x0E296008, .andi 34 37 8200)]

theorem test_wordsS1 : wordsS1.all (fun r => decide (decode .s r.1 = .ok r.2)) = true := by decide +kernel

/-- Words of engine S: the fixed bits of the opcode maps (R71 to R83) with values in every field. -/
def wordsS2 : List (BitVec 32 × Instr) :=
  [(0x12296008, .ori 34 37 8200), (0x16296008, .xori 34 37 8200), (0x1A294028, .shli 34 37 40), (0x1E294028, .shri 34 37 40),
   (0x22294028, .srai 34 37 40), (0x26296008, .slti 34 37 8200), (0x2A296008, .sltni 34 37 8200),
   (0x2E296008, .paddi 34 37 8200), (0x32294000, .planei 34 37 0), (0x36280005, .hi 34 524293), (0x3A280005, .top 34 524293),
   (0x3E280005, .pcrel 34 524293), (0x42296008, .beq 34 37 8200), (0x46296008, .bne 34 37 8200),
   (0x4A296008, .blt 34 37 8200), (0x4E296008, .bge 34 37 8200), (0x52296008, .bltn 34 37 8200),
   (0x56296008, .bgen 34 37 8200), (0x5A280005, .jal 34 524293), (0x5E296008, .jalr 34 37 8200),
   (0x62296C0B, .ld 34 37 5 1035), (0x66296C0B, .st 34 37 5 1035), (0x6A296804, .rst 34 37 40 4),
   (0x6E29641B, .amo 34 37 36 27), (0x6C08A438, .amoPosted 34 36 24), (0x72296402, .waita 34 37 36 2),
   (0x74000024, .fence 2 4), (0x7A294004, .acq 34 37 4), (0x7C08A504, .rel 34 37 4), (0x7C08A514, .relAdd 34 37 4),
   (0x82294000, .bind 34 37 0), (0x82294010, .unbind 34 37 0), (0x84000006, .tkWait 6)]

theorem test_wordsS2 : wordsS2.all (fun r => decide (decode .s r.1 = .ok r.2)) = true := by decide +kernel

/-- Words of engine S: the fixed bits of the opcode maps (R71 to R83) with values in every field. -/
def wordsS3 : List (BitVec 32 × Instr) :=
  [(0x84000016, .tkGive 6), (0x8A200188, .kw 34 1 136), (0x8E296804, .barArrive 34 37 40 4),
   (0x8E296814, .barWait 34 37 40 4), (0x8E296824, .barSync 34 37 40 4), (0x8E296834, .barInit 34 37 40 4),
   (0x8E296844, .barFlags 34 37 40 4), (0x8E296854, .barTest1 34 37 40 4), (0x90000006, .qmPost 6), (0x90000010, .qmWait),
   (0x96294000, .launch 34 37), (0x98A96800, .stBase 10 37 40), (0x98A94001, .stLay 10 37), (0x98A94002, .stFmt 10 37),
   (0x98A94003, .stScl 10 37), (0x98A94004, .stFlag 10 37), (0x98A02505, .stLink 10 37), (0x98A94006, .stPos 10 37),
   (0x98A94007, .stFill 10 37), (0x9C394000, .rtset 3 37), (0xA0A94000, .xset 10 37), (0xA6200150, .sget 34 84),
   (0xA8088150, .sset 34 84), (0xAC002002, .trap 8194), (0xB0000000, .eret), (0xB408A500, .seal 34 37),
   (0xB408A501, .unseal 34 37), (0xB8000000, .tlbiAll), (0xB8024001, .tlbiTenant 9), (0xB8088002, .tlbiPositionPage 34),
   (0xB8088003, .tlbiPlaneFrame 34), (0xBC000000, .yield), (0xC0000000, .endS)]

theorem test_wordsS3 : wordsS3.all (fun r => decide (decode .s r.1 = .ok r.2)) = true := by decide +kernel

/-- Words of engine V: the fixed bits of the opcode maps (R71 to R83) with values in every field. -/
def wordsV1 : List (BitVec 32 × Instr) :=
  [(0x062968F1, .vadd 34 37 40 7 1 1), (0x0A2968F1, .vsub 34 37 40 7 1 1), (0x0E2968F1, .vmul 34 37 40 7 1 1),
   (0x122968F1, .vfma 34 37 40 7 1 1), (0x162968F1, .vfms 34 37 40 7 1 1), (0x1A2968F1, .vnfma 34 37 40 7 1 1),
   (0x1E2968F1, .vmin 34 37 40 7 1 1), (0x222968F1, .vmax 34 37 40 7 1 1), (0x262968F1, .vdiv 34 37 40 7 1 1),
   (0x2A294091, .vsqrt 34 37 4 1 1), (0x2E294091, .vabs 34 37 4 1 1), (0x32294091, .vneg 34 37 4 1 1),
   (0x36294091, .vrnd 34 37 4 1 1), (0x422968E9, .viadd 34 37 40 7 9), (0x462968E9, .visub 34 37 40 7 9),
   (0x4A2968E9, .vimul 34 37 40 7 9), (0x4E2968E9, .vimulh 34 37 40 7 9), (0x522968E9, .vand 34 37 40 7 9),
   (0x562968E9, .vor 34 37 40 7 9), (0x5A2968E9, .vxor 34 37 40 7 9), (0x5E2968E9, .vshl 34 37 40 7 9),
   (0x622968E9, .vshr 34 37 40 7 9), (0x662968E9, .vsra 34 37 40 7 9), (0x6A2968E9, .vimin 34 37 40 7 9),
   (0x6E2968E9, .vimax 34 37 40 7 9), (0x72294089, .viabs 34 37 4 9), (0x7B5A2B5A, .vcmp 6 5 40 43 2 1 10),
   (0x7E294A5A, .vcvt 34 37 2 1 2 1 10), (0x822960F1, .vcbe 34 37 4 7 1 1), (0x862960E1, .vcbd 34 37 4 7 1),
   (0x9229408A, .vmov 34 37 4 10)]

theorem test_wordsV1 : wordsV1.all (fun r => decide (decode .v r.1 = .ok r.2)) = true := by decide +kernel

/-- Words of engine V: the fixed bits of the opcode maps (R71 to R83) with values in every field. -/
def wordsV2 : List (BitVec 32 × Instr) :=
  [(0x962968EA, .vsel 34 37 40 7 10), (0x9A2968EA, .vperm 34 37 40 7 10), (0x9E294088, .vrot 34 37 136),
   (0xA2294088, .vbcl 34 37 136), (0xA620000D, .vbcx 34 13), (0xAA2941FA, .vred 34 37 1 7 1 10), (0xAE20002A, .vidx 34 1 10),
   (0xB2202955, .vimm 34 10 341), (0xB8614300, .mopsAnd 6 5 3), (0xB8614301, .mopsOr 6 5 3), (0xB8614302, .mopsXor 6 5 3),
   (0xB8614303, .mopsAndn 6 5 3), (0xB8614004, .mopsNot 6 5), (0xB8634005, .mopsFirstn 6 13), (0xB8600006, .mopsOnes 6),
   (0xC22D80EA, .vld 34 13 2 7 10), (0xC62D80EA, .vst 34 13 2 7 10), (0xCA2DAB4A, .vgth 34 13 2 43 2 10),
   (0xCE2DAB4A, .vsct 34 13 2 43 2 10), (0xD22D80EA, .vrst 34 13 2 7 10), (0xDA29404D, .vtld 34 37 77),
   (0xDE29404D, .vtst 34 37 77), (0xE2200020, .vflGet 34 1), (0xE00000C1, .vflClear 6), (0xE00000C2, .vflCollect 6),
   (0xE4000006, .vtkWait 6), (0xE4000016, .vtkGive 6), (0xE8000001, .vrgn 1), (0xEE200025, .vpark 34 37),
   (0xF2200025, .vunpark 34 37), (0xF4000000, .vend)]

theorem test_wordsV2 : wordsV2.all (fun r => decide (decode .v r.1 = .ok r.2)) = true := by decide +kernel

/-- Words of engine M: the fixed bits of the opcode maps (R71 to R83) with values in every field. -/
def wordsM1 : List (BitVec 32 × Instr) :=
  [(0x06B41561, .mma 10 13 0 1 2 5 33), (0x08280300, .mzero 10 1 4), (0x0EB40E80, .mdrain 10 13 0 7 2),
   (0x128C1540, .mdrr 10 3 0 1 2 5), (0x14000C40, .mleaseGet 6 1), (0x14400C40, .mleaseRelease 6 1),
   (0x14800C40, .mleaseRenew 6 1), (0x182949C0, .mcbl 10 5 4 7), (0x1C2B49C0, .mepi 10 13 4 7),
   (0x202B49C0, .macc 10 13 4 7), (0x24000C40, .mtk 6 1), (0x28000000, .mend)]

theorem test_wordsM1 : wordsM1.all (fun r => decide (decode .m r.1 = .ok r.2)) = true := by decide +kernel

/-- Words of engine C: the fixed bits of the opcode maps (R71 to R83) with values in every field. -/
def wordsC1 : List (BitVec 32 × Instr) :=
  [(0x06B67560, .cp 10 13 4 7 2 5 4), (0x06B67561, .cpConvert 10 13 4 7 2 5 4), (0x0AB67561, .cpadd 10 13 4 7 2 5 4 1),
   (0x0EB67560, .cpg 10 13 4 7 2 5 4), (0x12B67560, .cps 10 13 4 7 2 5 4), (0x142819E1, .cpz 10 1 4 7 4 1),
   (0x1AB67560, .cpf 10 13 4 7 2 5 4), (0x1EB67560, .cpre 10 13 4 7 2 5 4), (0x222809C0, .ctile 34 2 4 7),
   (0x26B67540, .chl 10 13 4 7 2 5), (0x2A80CE80, .cpost 10 1 4 7 2), (0x2E8019C0, .cabort 10 1 4 7),
   (0x32B67540, .cmig 10 13 4 7 2 5), (0x36B67540, .ckey 10 13 4 7 2 5), (0x38000C40, .ctk 6 1), (0x3C000000, .cend)]

theorem test_wordsC1 : wordsC1.all (fun r => decide (decode .c r.1 = .ok r.2)) = true := by decide +kernel

end Sys2Proof.Tests
end

namespace Sys2Proof.Machine

open Sys2Proof.Spec

/-! ## One read, and `ld` (R97, R111, R120 to R122) -/

section OneRead

variable {s : State} {e : Engine} {t : Task} {w : BitVec 32} {a : Word} {want : Want} {bit n : Nat}

/-- What holds already is not waited for. -/
theorem run_awaitMid_true (c : Ctx) {us : List Upd} {s : State} {t : Task} (here : (applyAll us s).tasks.get c.loc = some t) :
    awaitMid c true us s = .ok ((), us) := by
  simp [awaitMid, here]

/-- A read that leads to granted storage of this device answers what stands there. -/
theorem readSpot_here (here : s.tasks.get s.cur = some t) (r : ReadsHere s t e a want bit n) :
    readSpot (headCtx s e t w) a want 0 0 [] s = .ok ({ val := valueAt s t e a bit n, width := n, poison := spoilt s bit n }, []) := by
  obtain ⟨found, calm, granted⟩ := r
  simp [readSpot, here, found, calm, granted, run_awaitMid_true, valueAt, spoilt]

/-- A read of storage that the tables do not grant traps with ACCESS. -/
theorem readSpot_ungranted (here : s.tasks.get s.cur = some t)
    (found : locate s (some (coreOf s.cur)) t.grant t.tenant e .read want a = .ok (.here bit n false))
    (calm : ownAtomic s.dev t.tid e (formOf a) (bit / 8) = false)
    (ungranted : bitsGranted s t.tenant t.level .read bit n = false) :
    readSpot (headCtx s e t w) a want 0 0 [] s =
      .error (.trap { loc := s.cur, eng := e, pc := t.pc e, word := w, cause := .access, addr := a, index := 0 }) := by
  simp [readSpot, here, found, calm, ungranted, run_awaitMid_true]

/-- A read whose address leads nowhere traps with the cause of the check that fails. -/
theorem readSpot_nowhere {k : Cause} (here : s.tasks.get s.cur = some t)
    (fails : locate s (some (coreOf s.cur)) t.grant t.tenant e .read want a = .error (.cause k)) :
    readSpot (headCtx s e t w) a want 0 0 [] s =
      .error (.trap { loc := s.cur, eng := e, pc := t.pc e, word := w, cause := k, addr := a, index := 0 }) := by
  simp [readSpot, here, fails]

end OneRead

section Load

variable {s : State} {t : Task} {w : BitVec 32} {a : Word} {want : Want} {bit n : Nat}

/-- The line that a load of a place fills where the scalar data cache holds none. -/
def filledLine (s : State) (t : Task) (a : Word) (real : Nat) : Line :=
  { pathPlane := BitVec.ofNat 7 (formOf a), tenant := t.tenant, block := real / 512
    data := BitVec.ofNat 512 (readBytes s.mem (real / 512 * 64) 64) }

/-- A load that a line of the scalar data cache answers changes no core. -/
theorem loadScalar_hit {ln : Line} (here : s.tasks.get s.cur = some t) (r : ReadsHere s t .s a want bit n)
    (hit : s.core.line t.tenant (formOf a) (readPlace s.dev.migrations bit / 512) = some ln) :
    loadScalar (headCtx s .s t w) a want [] s = .ok (⟨readBits (overlay s.dev.migrations
      (ownWrites s.dev t.tid .s (formOf a)) (Mem.writeAll s.mem (byteCells (64 * ln.block) 64 ln.data.toNat)))
      (readPlace s.dev.migrations bit) n, n, false⟩, []) := by
  obtain ⟨found, calm, -⟩ := r
  simp only [State.core] at hit
  simp [loadScalar, here, found, calm, run_awaitMid_true, hit]

/-- A load that no line answers reads memory, and fills a line unless that is poisoned. -/
theorem loadScalar_miss (here : s.tasks.get s.cur = some t) (r : ReadsHere s t .s a want bit n)
    (miss : s.core.line t.tenant (formOf a) (readPlace s.dev.migrations bit / 512) = none) :
    loadScalar (headCtx s .s t w) a want [] s = .ok (⟨valueAt s t .s a bit n, n, spoilt s bit n⟩,
      if rangePoisoned s.dev.poison (readPlace s.dev.migrations bit / 512 * 64) 64 then []
      else [.core (coreOf s.cur) (s.core.fill (filledLine s t a (readPlace s.dev.migrations bit)))]) := by
  obtain ⟨found, calm, granted⟩ := r
  simp only [State.core] at miss
  have reads : memRead s (coreOf s.cur) t .s (formOf a) (readPlace s.dev.migrations bit / 512) = memSeen s t.tid .s (formOf a) := rfl
  by_cases bad : rangePoisoned s.dev.poison (readPlace s.dev.migrations bit / 512 * 64) 64 = true <;>
    simp [loadScalar, here, found, calm, granted, run_awaitMid_true, miss, bad, valueAt, spoilt, reads, State.core, filledLine]

/-- A load from anywhere but storage of this device is one read past the cache. -/
theorem loadScalar_elsewhere {spot : Spot} (here : s.tasks.get s.cur = some t)
    (leads : locate s (some (coreOf s.cur)) t.grant t.tenant .s .read want a = .ok spot) (other : ∀ bit w, spot ≠ .here bit w false) :
    loadScalar (headCtx s .s t w) a want [] s = readSpot (headCtx s .s t w) a want 0 0 [] s := by
  simp only [loadScalar, run_bind, run_getTask, run_getState, applyAll_nil, headCtx_loc, headCtx_eng, here, leads, run_lift_ok]

/-- `ld` puts into d what it has read, extended as its size code says, and moves on; what the load has made of the core stays. -/
theorem ld_completes {d r : BitVec 6} {sz : BitVec 3} {off : BitVec 11} {ea : Word} {g : Got} {us : List Upd}
    (issues : s.Issues .s t) (clean : t.badS r = false) (adds : positionAdd (t.readS r) off.toInt = some ea)
    (loads : loadScalar (headCtx s .s t (encode (.ld d r sz off))) ea (sizeWant sz) [] s = .ok (g, us))
    (stays : (applyAll us s).tasks = s.tasks) :
    exec (.ld d r sz off) s = .next (Upd.apply (applyAll us s) (.task s.cur (some
      ((receives t d (if sz.toNat = 1 then BitVec.ofInt 64 (readInt g.width true g.val) else BitVec.ofNat 64 g.val) g).goto .s (t.pcS + 4))))) := by
  have code : sz = 1#3 ↔ sz.toNat = 1 := by simp [BitVec.toNat_eq]
  show execLd d r sz off s = _
  simp [execLd, conclude, run_issue issues, issues.here, clean, effective, adds, loads, putGot, stays, Task.pc, receives, loadValue, code]

end Load

end Sys2Proof.Machine

section

open Sys2Proof Sys2Proof.Machine Sys2Proof.Spec

/-- Settles O9: one read by its three outcomes, and `ld` by where its load finds the datum: in a line of the scalar data cache, in
memory, or elsewhere. -/
theorem readsAndLoads : Obligations.ReadsAndLoads := by
  unfold Obligations.ReadsAndLoads
  refine ⟨fun s e t w a want bit n here => ⟨readSpot_here here, readSpot_ungranted here, fun k => readSpot_nowhere here⟩, ?_⟩
  intro d a sz off s t ea issues clean adds
  refine ⟨fun bit w reads => ⟨fun miss => ?_, fun ln hit => ?_⟩, fun g spot leads other answers => ?_⟩
  · rw [ld_completes issues clean adds (loadScalar_miss issues.here reads miss) (by split <;> rfl)]
    by_cases bad : rangePoisoned s.dev.poison (readPlace s.dev.migrations bit / 512 * 64) 64 = true <;>
      simp [bad, Upd.apply, State.withTaskCore, State.core, Core.fill, filledLine]
  · rw [ld_completes issues clean adds (loadScalar_hit issues.here reads hit) rfl]
    rfl
  · rw [ld_completes issues clean adds ((loadScalar_elsewhere issues.here leads other).trans answers) rfl]
    rfl

end


namespace Sys2Proof.Machine

/-! ## Bytes and bits of memory after writes (R2, R102) -/

section Bytes

variable {m m' : List Host.Cell} {a n v x : Nat}

/-- A number that memory holds depends on its own bytes alone. -/
theorem readBytes_congr (h : ∀ i < n, Mem.read m (a + i) = Mem.read m' (a + i)) : readBytes m a n = readBytes m' a n := by
  induction n generalizing a with
  | zero => rfl
  | succ n ih =>
    have rest : readBytes m (a + 1) n = readBytes m' (a + 1) n := ih fun i hi => by
      have := h (i + 1) (by omega)
      rwa [← Nat.add_assoc, Nat.add_right_comm] at this
    simp only [readBytes, rest, show Mem.read m a = Mem.read m' a from h 0 (by omega)]

theorem readBytes_lt (m : List Host.Cell) (a n : Nat) : readBytes m a n < 256 ^ n := by
  induction n generalizing a with
  | zero => simp [readBytes]
  | succ n ih =>
    have := ih (a + 1)
    have := (Mem.read m a).isLt
    simp only [readBytes, Nat.pow_succ]
    omega

/-- The i-th byte of the number that memory holds is the byte at the i-th address. -/
theorem readBytes_byte (m : List Host.Cell) (a : Nat) {n i : Nat} (h : i < n) :
    BitVec.ofNat 8 (readBytes m a n / 256 ^ i) = Mem.read m (a + i) := by
  induction n generalizing a i with
  | zero => omega
  | succ n ih =>
    have := (Mem.read m a).isLt
    cases i with
    | zero =>
      apply BitVec.eq_of_toNat_eq
      simp only [readBytes, BitVec.toNat_ofNat, Nat.pow_zero, Nat.add_zero]
      omega
    | succ i =>
      have tail : readBytes m a (n + 1) / 256 = readBytes m (a + 1) n := by simp only [readBytes]; omega
      rw [Nat.pow_succ', ← Nat.div_div_eq_div_mul, tail, ih (a + 1) (by omega)]
      congr 1
      omega

/-- A number whose bytes stand in memory, one after another, is what is read there. -/
theorem readBytes_of_bytes (h : ∀ i < n, Mem.read m (a + i) = BitVec.ofNat 8 (v / 256 ^ i)) (fits : v < 256 ^ n) :
    readBytes m a n = v := by
  induction n generalizing a v with
  | zero => simp only [readBytes]; omega
  | succ n ih =>
    have first : (Mem.read m a).toNat = v % 256 := by have := h 0 (by omega); simp_all
    have rest : readBytes m (a + 1) n = v / 256 := ih (fun i hi => by
      have := h (i + 1) (by omega)
      rwa [Nat.pow_succ', ← Nat.div_div_eq_div_mul, show a + (i + 1) = a + 1 + i by omega] at this)
      (by rw [Nat.pow_succ] at fits; omega)
    simp only [readBytes, first, rest]
    omega

/-- After the bytes of a number have been written, they stand there, and every other byte is as before. -/
theorem Mem.read_writeAll_byteCells (a n v x : Nat) (wf : Mem.wf m = true) :
    Mem.read (Mem.writeAll m (byteCells a n v)) x = if a ≤ x ∧ x < a + n then BitVec.ofNat 8 (v / 256 ^ (x - a)) else Mem.read m x := by
  induction n generalizing m a v with
  | zero => rw [if_neg (by omega)]; rfl
  | succ n ih =>
    show Mem.read (Mem.writeAll (Mem.write m a (BitVec.ofNat 8 v)) (byteCells (a + 1) n (v / 256))) x = _
    rw [ih _ _ (Mem.write_wf _ _ wf), Mem.read_write _ _ _ wf]
    by_cases first : x = a
    · subst first
      rw [if_neg (by omega), if_pos rfl, if_pos (by omega), Nat.sub_self, Nat.pow_zero, Nat.div_one]
    · rw [if_neg first]
      by_cases inside : a + 1 ≤ x ∧ x < a + 1 + n
      · rw [if_pos inside, if_pos (by omega), show x - a = x - (a + 1) + 1 by omega, Nat.pow_succ', Nat.div_div_eq_div_mul]
      · rw [if_neg inside, if_neg (by omega)]

/-- A number reads back from where its bytes have been written. -/
theorem readBytes_writeAll_byteCells (wf : Mem.wf m = true) (fits : v < 256 ^ n) :
    readBytes (Mem.writeAll m (byteCells a n v)) a n = v :=
  readBytes_of_bytes (fun i hi => by
    rw [Mem.read_writeAll_byteCells _ _ _ _ wf, if_pos (by omega), Nat.add_sub_cancel_left]) fits

/-- A number elsewhere reads as before. -/
theorem readBytes_writeAll_other {b k : Nat} (wf : Mem.wf m = true) (apart : b + k ≤ a ∨ a + n ≤ b) :
    readBytes (Mem.writeAll m (byteCells a n v)) b k = readBytes m b k :=
  readBytes_congr fun i hi => by rw [Mem.read_writeAll_byteCells _ _ _ _ wf, if_neg (by omega)]

end Bytes

/-! ## Meanings as transformers of states

A meaning reads the state only as its earlier changes leave it, so a run of it says: from this state it answers this, and leads to
that state. -/

/-- From the state `s` a meaning answers `a` and leads to `s'`. -/
def Leads {α : Type} (m : M α) (s : State) (a : α) (s' : State) : Prop :=
  ∀ us s₀, applyAll us s₀ = s → ∃ vs, m us s₀ = .ok (a, vs) ∧ applyAll vs s₀ = s'

/-- What a meaning leads to is its outcome. -/
theorem Leads.conclude {m : M Unit} {s s' : State} (h : Leads m s () s') : conclude m s = .next s' := by
  obtain ⟨vs, run, rfl⟩ := h [] s rfl
  exact conclude_ok run

namespace Leads

section

variable {α β : Type} {s s₁ s₂ : State} {a : α} {b : β}

theorem bind {m : M α} {f : α → M β} (h : Leads m s a s₁) (k : Leads (f a) s₁ b s₂) : Leads (m >>= f) s b s₂ := by
  intro us s₀ e
  obtain ⟨vs, run, e₁⟩ := h us s₀ e
  obtain ⟨ws, run', e₂⟩ := k vs s₀ e₁
  exact ⟨ws, by rw [run_bind, run]; exact run', e₂⟩

theorem pure (a : α) (s : State) : Leads (pure a) s a s := fun us _ e => ⟨us, rfl, e⟩

theorem map {m : M α} (f : α → β) (h : Leads m s a s₁) : Leads (f <$> m) s (f a) s₁ := by
  intro us s₀ e
  obtain ⟨vs, run, e₁⟩ := h us s₀ e
  exact ⟨vs, by rw [run_map, run], e₁⟩

/-- The state it leads to, written in another way. -/
theorem becomes {m : M α} {s' : State} (h : Leads m s a s₁) (e : s₁ = s') : Leads m s a s' := e ▸ h

/-- Of two branches the one that is taken counts. -/
theorem ite {c : Prop} [Decidable c] {m k : M α} (t : c → Leads m s a s₁) (e : ¬ c → Leads k s a s₁) :
    Leads (if c then m else k) s a s₁ := by
  split
  · exact t ‹_›
  · exact e ‹_›

/-- An update is applied. -/
theorem emit (u : Upd) (s : State) : Leads (emit u) s () (u.apply s) := by
  rintro us s₀ rfl
  exact ⟨us ++ [u], rfl, by simp⟩

theorem getState (s : State) : Leads getState s s s := by rintro us s₀ rfl; exact ⟨us, rfl, rfl⟩

theorem getDev (s : State) : Leads getDev s s.dev s := by rintro us s₀ rfl; exact ⟨us, rfl, rfl⟩

theorem setDev (f : Device → Device) (s : State) : Leads (setDev f) s () { s with dev := f s.dev } :=
  (getState s).bind (emit _ s)

theorem getCore (c : Fin 256) (s : State) : Leads (getCore c) s (s.cores.get c) s := by rintro us s₀ rfl; exact ⟨us, rfl, rfl⟩

theorem setCore (c : Fin 256) (f : Core → Core) (s : State) :
    Leads (setCore c f) s () { s with cores := s.cores.set c (f (s.cores.get c)) } := (getState s).bind (emit _ s)

theorem getTask {l : Fin 1024} {t : Task} (h : s.tasks.get l = some t) : Leads (getTask l) s t s := by
  rintro us s₀ rfl; exact ⟨us, by simp [h], rfl⟩

theorem setTask {l : Fin 1024} {t : Task} (f : Task → Task) (h : s.tasks.get l = some t) :
    Leads (setTask l f) s () { s with tasks := s.tasks.set l (some (f t)) } := by
  rintro us s₀ rfl; exact ⟨us ++ [.task l (some (f t))], by simp [h], by rw [applyAll_append]; rfl⟩

theorem enabled {c : Bool} (h : c = true) (s : State) : Leads (enabled c) s () s := by subst h; exact pure () s

theorem waitFor {c : Bool} (h : c = true) (s : State) : Leads (waitFor c) s () s := by subst h; exact pure () s

end

end Leads

/-! ## Monitors that wake (R275, R276) -/

/-- The core with its monitors on some blocks woken. -/
def Core.wokenOn (k : Core) (blocks : List Nat) : Core :=
  { k with monitors := k.monitors.map fun m => if blocks.contains m.block then { m with woken := true } else m }

/-- A core none of whose monitors stands on the blocks stays as it is. -/
theorem Core.wokenOn_of_none {k : Core} {blocks : List Nat} (h : (k.monitors.any fun m => blocks.contains m.block) = false) :
    k.wokenOn blocks = k := by
  have same : k.monitors.map (fun m => if blocks.contains m.block then { m with woken := true } else m) = k.monitors :=
    (List.map_congr_left fun m hm => if_neg (List.any_eq_false.mp h m hm)).trans (List.map_id' _)
  simp only [Core.wokenOn, same]

/-- Each core of a list changes by the same function. -/
theorem Leads.forCores (f : Core → Core) (cs : List (Fin 256)) (once : cs.Nodup) (s : State) :
    Leads (cs.forM fun c => Machine.setCore c f) s ()
      { s with cores := .ofFn fun c => if c ∈ cs then f (s.cores.get c) else s.cores.get c } := by
  induction cs generalizing s with
  | nil =>
    have : (Vector.ofFn fun c => s.cores.get c) = s.cores := by ext; simp [vector_get_eq]
    simpa [this] using Leads.pure () s
  | cons c cs ih =>
    obtain ⟨new, once⟩ := List.nodup_cons.mp once
    refine (Leads.setCore c f s).bind ?_
    have rest := ih once { s with cores := s.cores.set c (f (s.cores.get c)) }
    convert rest using 3
    funext d
    by_cases e : d = c
    · subst e; simp [new]
    · simp [e, vector_get_set_ne _ _ _ (Ne.symm e)]

/-- Where the cores that are left out would not change, each core of the list changing is every core changing. -/
theorem Leads.forCoresAll (f : Core → Core) (p : Core → Bool) (s : State) (same : ∀ k, p k = false → f k = k) :
    Leads (((List.finRange 256).filter fun c => p (s.cores.get c)).forM fun c => Machine.setCore c f) s () { s with cores := s.cores.map f } := by
  have all := Leads.forCores f ((List.finRange 256).filter fun c => p (s.cores.get c)) ((List.nodup_finRange 256).filter _) s
  convert all using 2
  refine Vector.ext fun i hi => ?_
  simp only [Vector.getElem_map, Vector.getElem_ofFn, List.mem_filter, List.mem_finRange, true_and]
  split
  · rfl
  · next out => exact same _ (by simpa [vector_get_eq] using out)

theorem Leads.wakeMonitors (blocks : List Nat) (s : State) :
    Leads (wakeMonitors blocks) s () { s with cores := s.cores.map fun k => k.wokenOn blocks } :=
  (Leads.getState s).bind (Leads.forCoresAll (fun k => k.wokenOn blocks) _ s fun _ => Core.wokenOn_of_none)

theorem Leads.wakeAll (s : State) : Leads wakeAll s () { s with cores := Spec.allWoken s.cores } :=
  (Leads.getState s).bind (Leads.forCoresAll _ (fun k => !k.monitors.isEmpty) s fun k none => by
    have nothing : k.monitors = [] := by simpa using none
    rw [nothing, List.map_nil, ← nothing])

/-- Bytes that the device itself writes. -/
theorem Leads.writeBytes (a n v : Nat) (s : State) : Leads (writeBytes a n v) s ()
    { s with mem := Mem.writeAll s.mem (byteCells a n v), cores := s.cores.map fun k => k.wokenOn ((unitsOf 6 a n).map (· / 64)) } :=
  (Leads.emit _ s).bind (Leads.wakeMonitors _ _)

end Sys2Proof.Machine


namespace Sys2Proof.Machine

open Sys2Proof.Spec

/-! ## Frame words whose sealed bit changes (R105, R106) -/

/-- What `seal` or `unseal` makes of a frame word. -/
def sealedWord (on : Bool) (w : Nat) : Nat := if on then w ||| 2 ^ 28 else w - w / 2 ^ 28 % 2 * 2 ^ 28

/-- Bit 28 is taken away, and put in again by a `seal`. -/
theorem sealedWord_eq (on : Bool) (w : Nat) :
    sealedWord on w = w - w / 2 ^ 28 % 2 * 2 ^ 28 + (if on then 2 ^ 28 else 0) := by
  cases on with
  | false => simp [sealedWord]
  | true =>
    have low : (w ||| 2 ^ 28) % 2 ^ 28 = w % 2 ^ 28 := by rw [Nat.or_mod_two_pow, Nat.mod_self, Nat.or_zero]
    have high : (w ||| 2 ^ 28) / 2 ^ 28 = w / 2 ^ 28 ||| 1 := by rw [Nat.or_div_two_pow, Nat.div_self (by decide)]
    have bit : (w / 2 ^ 28 ||| 1) % 2 = 1 := Nat.or_mod_two_eq_one.mpr (.inr rfl)
    have above : (w / 2 ^ 28 ||| 1) / 2 = w / 2 ^ 28 / 2 := by rw [Nat.or_div_two, show 1 / 2 = 0 from rfl, Nat.or_zero]
    simp only [sealedWord, if_true]
    omega

theorem sealedWord_lt (on : Bool) {w : Nat} (h : w < 256 ^ 8) : sealedWord on w < 256 ^ 8 := by
  have whole : (256 : Nat) ^ 8 = 2 ^ 64 := by norm_num
  rw [whole] at *
  unfold sealedWord
  split
  · exact Nat.or_lt_two_pow h (by norm_num)
  · exact Nat.lt_of_le_of_lt (Nat.sub_le _ _) h

/-- Memory with a new value in each of some qwords. -/
def rewritten (m : List Host.Cell) (f : Nat → Nat) (words : List Nat) : List Host.Cell :=
  words.foldl (fun m u => Mem.writeAll m (byteCells u 8 (f u))) m

/-- No byte outside the qwords changes. -/
theorem read_rewritten_other {m : List Host.Cell} {f : Nat → Nat} {words : List Nat} {y : Nat} (wf : Mem.wf m = true)
    (apart : ∀ u ∈ words, y < u ∨ u + 8 ≤ y) : Mem.read (rewritten m f words) y = Mem.read m y := by
  induction words generalizing m with
  | nil => rfl
  | cons u words ih =>
    have hu := apart u (by simp)
    show Mem.read (rewritten (Mem.writeAll m (byteCells u 8 (f u))) f words) y = _
    rw [ih (Mem.writeAll_wf _ wf) fun v hv => apart v (by simp [hv]), Mem.read_writeAll_byteCells _ _ _ _ wf, if_neg (by omega)]

/-- Where no two of the qwords overlap, each holds its new value. -/
theorem readBytes_rewritten {m : List Host.Cell} {f : Nat → Nat} {words : List Nat} {u : Nat} (wf : Mem.wf m = true)
    (apart : words.Pairwise fun u v => u + 8 ≤ v ∨ v + 8 ≤ u) (fits : f u < 256 ^ 8) (hu : u ∈ words) :
    readBytes (rewritten m f words) u 8 = f u := by
  induction words generalizing m with
  | nil => cases hu
  | cons v words ih =>
    obtain ⟨first, rest⟩ := List.pairwise_cons.mp apart
    have wf' : Mem.wf (Mem.writeAll m (byteCells v 8 (f v))) = true := Mem.writeAll_wf _ wf
    show readBytes (rewritten (Mem.writeAll m (byteCells v 8 (f v))) f words) u 8 = _
    rcases List.mem_cons.mp hu with rfl | hu
    · have untouched : readBytes (rewritten (Mem.writeAll m (byteCells u 8 (f u))) f words) u 8 =
          readBytes (Mem.writeAll m (byteCells u 8 (f u))) u 8 :=
        readBytes_congr fun i hi => read_rewritten_other wf' fun v hv => by have := first v hv; omega
      rw [untouched, readBytes_writeAll_byteCells wf fits]
    · exact ih wf' rest hu

/-- A monitor that has woken on some blocks wakes no further. -/
theorem allWoken_wokenOn (ks : Vector Core 256) (blocks : List Nat) : allWoken (ks.map fun k => k.wokenOn blocks) = allWoken ks := by
  refine Vector.ext fun i hi => ?_
  simp only [allWoken, Vector.getElem_map, Core.wokenOn, List.map_map]
  congr 1
  refine List.map_congr_left fun m _ => ?_
  simp only [Function.comp]
  split <;> rfl

/-- The device rewrites some qwords, one after another. -/
theorem Leads.rewriteWords (f : Nat → Nat) (words : List Nat) (s : State) : ∃ ks, allWoken ks = allWoken s.cores ∧
    Leads (words.forM fun u => Machine.writeBytes u 8 (f u)) s () { s with mem := rewritten s.mem f words, cores := ks } := by
  induction words generalizing s with
  | nil => exact ⟨s.cores, rfl, Leads.pure () s⟩
  | cons u words ih =>
    obtain ⟨ks, woken, rest⟩ := ih { s with
      mem := Mem.writeAll s.mem (byteCells u 8 (f u)), cores := s.cores.map fun k => k.wokenOn ((unitsOf 6 u 8).map (· / 64)) }
    exact ⟨ks, woken.trans (allWoken_wokenOn _ _), (Leads.writeBytes u 8 (f u) s).bind rest⟩

/-! ## Invalidations that start and are waited for (R99, R149) -/

/-- The state once an invalidation has started, which every core is to acknowledge. -/
def invalStarted (s : State) (kind : InvalKind) (words : List Nat) : State :=
  { s with cores := allWoken s.cores
           dev := { named s.dev with invals := s.dev.invals ++ [{ id := s.dev.nextUid, kind, waiting := List.range 256, words }] } }

theorem Leads.startInval (kind : InvalKind) (words : List Nat) (s : State) :
    Leads (startInval kind words) s s.dev.nextUid (invalStarted s kind words) :=
  (Leads.getDev s).bind ((Leads.setDev _ s).bind ((Leads.wakeAll _).bind (Leads.pure _ _)))

/-- The state in which a task is held until its invalidation is over. -/
def invalHeld (s : State) (l : Fin 1024) (t : Task) (kind : InvalKind) (words : List Nat) : State :=
  { invalStarted s kind words with tasks := s.tasks.set l (some { t with held := .invalidate s.dev.nextUid }), held := true }

theorem Leads.invalidate {c : Ctx} {s : State} {t : Task} (here : s.tasks.get c.loc = some t) (kind : InvalKind) (words : List Nat) :
    Leads (invalidate c kind words) s () (invalHeld s c.loc t kind words) :=
  (Leads.startInval kind words s).bind ((Leads.setTask (s := invalStarted s kind words) _ here).bind (Leads.emit _ _))

/-- A first part of a meaning that changes nothing leaves the rest of it. -/
theorem conclude_bind {α : Type} {m : M α} {f : α → M Unit} {s : State} {a : α} (h : m [] s = .ok (a, [])) :
    conclude (m >>= f) s = conclude (f a) s := by
  simp only [conclude, run_step h]

section Privileged

variable {i : Instr} {s : State} {t : Task} {w : BitVec 32}

/-- A privileged instruction at supervisor level gets its context. -/
theorem run_issue_privileged (issues : s.Issues .s t) (sup : t.level = true) (w : BitVec 32) :
    issueAfter .s w privileged [] s = .ok (headCtx s .s t w, []) :=
  run_issueAfter issues w (by simp [privileged, issues.here, sup])

/-- A `tlbi` that has started its invalidation goes on waiting for it. -/
theorem tlbi_waits {kind : Ctx → M InvalKind} {id : Nat} (issues : s.Issues .s t) (sup : t.level = true)
    (held : t.held = .invalidate id) : conclude (tlbi w kind) s = conclude (awaitInval (headCtx s .s t w) id) s := by
  simp [conclude, tlbi, run_issue_privileged issues sup, issues.here, held]

/-- So does a `seal` or `unseal`. -/
theorem sealing_waits {a b : BitVec 6} {on : Bool} {id : Nat} (issues : s.Issues .s t) (sup : t.level = true)
    (held : t.held = .invalidate id) : conclude (sealing w a b on) s = conclude (awaitInval (headCtx s .s t w) id) s := by
  simp [conclude, sealing, run_issue_privileged issues sup, issues.here, held]

/-- Each instruction that starts an invalidation waits for it in the same way. -/
theorem exec_awaitInval {id : Nat} (issues : s.Issues .s t) (sup : t.level = true) (waiter : waitsForCores i = true)
    (held : t.held = .invalidate id) : exec i s = conclude (awaitInval (headCtx s .s t (encode i)) id) s := by
  unfold waitsForCores at waiter
  split at waiter
  · exact tlbi_waits issues sup held
  · exact tlbi_waits issues sup held
  · exact tlbi_waits issues sup held
  · exact tlbi_waits issues sup held
  · exact sealing_waits issues sup held
  · exact sealing_waits issues sup held
  · cases waiter

/-- While its invalidation is not over the instruction is held. -/
theorem awaitInval_holds {c : Ctx} {id : Nat} (standing : ∃ x ∈ s.dev.invals, x.id = id) :
    conclude (awaitInval c id) s = .next (waits s) := by
  have found : (s.dev.invals.any fun v => v.id == id) = true := by simpa using standing
  simp [conclude, awaitInval, found]
  rfl

/-- Once it is over the instruction completes. -/
theorem awaitInval_completes {id : Nat} (here : s.tasks.get s.cur = some t) (done : ∀ x ∈ s.dev.invals, x.id ≠ id) :
    conclude (awaitInval (headCtx s .s t w) id) s = .next (s.withTask ({ t with held := .none }.goto .s (t.pcS + 4))) := by
  have none : (s.dev.invals.any fun v => v.id == id) = false := by simpa using done
  simp [conclude, awaitInval, none, here]
  rfl

/-- A `tlbi` whose kind is known starts its invalidation. -/
theorem tlbi_starts {kind : Ctx → M InvalKind} {k : InvalKind} (issues : s.Issues .s t) (sup : t.level = true) (held : t.held = .none)
    (known : kind (headCtx s .s t w) [] s = .ok (k, [])) :
    conclude (tlbi w kind) s = .next (invalHeld s s.cur t k []) := by
  have starts : conclude (tlbi w kind) s = conclude (invalidate (headCtx s .s t w) k) s := by
    simp [conclude, tlbi, run_issue_privileged issues sup, issues.here, held, known]
  exact starts.trans (Leads.invalidate issues.here k []).conclude

/-- The bits of an address above its 57 positions, as a plane number. -/
theorem ofNat_planeOf (x : Word) : BitVec.ofNat 4 (planeOf x) = BitVec.ofNat 4 (x.toNat / 2 ^ 57) := by
  apply BitVec.eq_of_toNat_eq
  simp only [planeOf, bits, BitVec.toNat_ofNat]
  omega

theorem posOf_eq (x : Word) : posOf x = x.toNat % 2 ^ 57 := by simp [posOf, bits]

/-- Each form of `tlbi` starts the invalidation that its register says (R149). -/
theorem exec_invalidates {k : InvalKind} (issues : s.Issues .s t) (sup : t.level = true) (held : t.held = .none)
    (covers : invalidates t i = some k) : exec i s = .next (invalHeld s s.cur t k []) := by
  unfold invalidates at covers
  split at covers
  · cases covers
    exact tlbi_starts issues sup held rfl
  · split at covers
    · cases covers
    next ok =>
      cases covers
      simp only [Bool.or_eq_true, decide_eq_true_eq, not_or, Bool.not_eq_true, Nat.not_le] at ok
      obtain ⟨clean, low⟩ := ok
      refine tlbi_starts issues sup held ?_
      simp [issues.here, clean, low]
  · split at covers
    · cases covers
    next clean =>
      cases covers
      exact tlbi_starts issues sup held (by simp [issues.here, clean, posOf_eq])
  · split at covers
    · cases covers
    next clean =>
      cases covers
      exact tlbi_starts issues sup held (by simp [issues.here, clean, posOf_eq, ofNat_planeOf])
  · cases covers

/-- The frame words of one plane in the pages of an object (R105). -/
def objectWords (s : State) (leaf : Leaf) (l3 plane : Nat) : List Nat :=
  (objectRecords s leaf.object leaf.first (leaf.first + leaf.length) 4 0 l3 0).map (· + 8 * plane)

/-- Memory once the sealed bit has changed in some frame words. -/
def sealedMem (s : State) (on : Bool) (words : List Nat) : List Host.Cell :=
  rewritten s.mem (fun u => sealedWord on (readBytes s.mem u 8)) words

/-- Each of the words then has the sealed bit as it is to be, and its other bits as before. -/
theorem readBytes_sealedMem {words : List Nat} {u : Nat} (on : Bool) (wf : Mem.wf s.mem = true)
    (apart : words.Pairwise fun u v => u + 8 ≤ v ∨ v + 8 ≤ u) (hu : u ∈ words) :
    readBytes (sealedMem s on words) u 8 =
      readBytes s.mem u 8 - readBytes s.mem u 8 / 2 ^ 28 % 2 * 2 ^ 28 + (if on then 2 ^ 28 else 0) := by
  rw [← sealedWord_eq]
  exact readBytes_rewritten (f := fun u => sealedWord on (readBytes s.mem u 8)) wf apart (sealedWord_lt on (readBytes_lt _ _ _)) hu

theorem read_sealedMem_other {words : List Nat} {y : Nat} (on : Bool) (wf : Mem.wf s.mem = true)
    (apart : ∀ u ∈ words, y < u ∨ u + 8 ≤ y) : Mem.read (sealedMem s on words) y = Mem.read s.mem y :=
  read_rewritten_other wf apart

/-- The sealed bit of a plane changes in each frame word of an object, and the words are those changed. -/
theorem Leads.sealPlane {tenant : BitVec 6} {leaf : Leaf} {l3 ot n : Nat} (tables : tenantTables s tenant = .ok (l3, ot, n))
    (plane : Nat) (on : Bool) : ∃ ks, allWoken ks = allWoken s.cores ∧
      Leads (sealPlane tenant plane leaf on) s (objectWords s leaf l3 plane)
        { s with mem := sealedMem s on (objectWords s leaf l3 plane), cores := ks } := by
  obtain ⟨ks, woken, run⟩ := Leads.rewriteWords (fun u => sealedWord on (readBytes s.mem u 8)) (objectWords s leaf l3 plane) s
  refine ⟨ks, woken, (Leads.getState s).bind ?_⟩
  rw [tables]
  exact run.bind (Leads.pure _ _)

/-- A `seal` or `unseal` that its walk lets pass changes the frame words of the object and starts its invalidation. -/
theorem sealing_starts {a b : BitVec 6} {on : Bool} {tenant : BitVec 6} {f : Found} {l3 ot n : Nat} {words : List Nat}
    (issues : s.Issues .s t) (sup : t.level = true) (held : t.held = .none) (cleanA : t.badS a = false) (cleanB : t.badS b = false)
    (low : (t.readS b).toNat < 64) (named : (t.readS b).setWidth 6 = tenant)
    (found : walk s none tenant .s .read .element (planeOf (t.readS a)) (posOf (t.readS a)) = .ok f)
    (tables : tenantTables s tenant = .ok (l3, ot, n)) (listed : words = objectWords s f.leaf l3 (planeOf (t.readS a))) :
    conclude (sealing w a b on) s = .next (invalHeld { s with mem := sealedMem s on words } s.cur t (.tenant tenant)
      (if on then words else [])) := by
  obtain ⟨ks, woken, run⟩ := Leads.sealPlane (leaf := f.leaf) tables (planeOf (t.readS a)) on
  rw [← listed] at run
  have starts : conclude (sealing w a b on) s = conclude (do
      let words ← sealPlane tenant (planeOf (t.readS a)) f.leaf on
      invalidate (headCtx s .s t w) (.tenant tenant) (if on then words else [])) s := by
    simp [conclude, sealing, run_issue_privileged issues sup, issues.here, held, cleanA, cleanB, low, named, found]
  have same : invalHeld { s with mem := sealedMem s on words, cores := ks } s.cur t (.tenant tenant) (if on then words else []) =
      invalHeld { s with mem := sealedMem s on words } s.cur t (.tenant tenant) (if on then words else []) := by
    simp only [invalHeld, invalStarted, woken]
  rw [starts, ← same]
  exact Leads.conclude (run.bind (Leads.invalidate issues.here _ _))

end Privileged

end Sys2Proof.Machine

section

open Sys2Proof Sys2Proof.Machine Sys2Proof.Spec

/-- Settles O29: the instruction waits while its invalidation stands and completes without it; one that is not held yet starts
it, a `tlbi` at once, a `seal` or `unseal` once it has rewritten the frame words of the object. -/
theorem invalidations : Obligations.Invalidations := by
  unfold Obligations.Invalidations
  intro i s t issues sup waiter
  refine ⟨fun id held standing => ?_, fun id held done => ?_, fun held => ⟨fun kind covers => ?_, ?_⟩⟩
  · rw [exec_awaitInval issues sup waiter held, awaitInval_holds standing]
  · rw [exec_awaitInval issues sup waiter held, awaitInval_completes issues.here done]
  · rw [exec_invalidates issues sup held covers]
    rfl
  · intro a b on f l3 ot n which cleanA cleanB low x tenant found tables words apart wf
    have named : (t.readS b).setWidth 6 = tenant := (BitVec.ofNat_toNat 6 _).symm
    have starts : exec i s = conclude (sealing (encode i) a b on) s := by
      rcases which with ⟨rfl, rfl⟩ | ⟨rfl, rfl⟩ <;> rfl
    have listed : words = objectWords s f.leaf l3 (planeOf x) := rfl
    refine ⟨sealedMem s on words, ?_, fun u hu => readBytes_sealedMem on wf apart hu, fun y => read_sealedMem_other on wf⟩
    rw [starts, sealing_starts issues sup held cleanA cleanB low named found tables listed]
    simp only [invalHeld, invalStarted]

end


namespace Sys2Proof.Machine

open Sys2Proof.Spec

/-! ## Cores acknowledge invalidations (R99, R105, R106, R149) -/

/-- A core drops what R149 says an invalidation covers. -/
theorem invalidate_eq_dropped (k : Core) (kind : InvalKind) : k.invalidate kind = dropped k kind := by
  cases kind <;> simp [Core.invalidate, dropped, bne, Bool.beq_eq_decide_eq]

section Acknowledge

variable {n : Nat} {s : State} {c : Fin 256} {v : Inval}

/-- The cores once one has made an invalidation; for that of a `seal` its scalar data cache is empty (R268). -/
def acknowledged (s : State) (c : Fin 256) (v : Inval) : Vector Core 256 :=
  s.cores.set c (if v.words = [] then dropped (s.cores.get c) v.kind else { dropped (s.cores.get c) v.kind with lines := [] })

/-- An acknowledgement that is not the last leaves the invalidation with the other cores. -/
theorem coreAcknowledge_more (found : s.dev.invals[n]? = some v) (mine : c.val ∈ v.waiting) (calm : coreWrites s.dev c = false)
    (more : v.waiting.erase c.val ≠ []) : exec (.coreAcknowledge c.val n) s = .next { s with
      cores := acknowledged s c v, dev := { s.dev with invals := s.dev.invals.set n { v with waiting := v.waiting.erase c.val } } } := by
  show execCoreAcknowledge c.val n s = _
  simp [execCoreAcknowledge, conclude, coreAt, found, mine, calm, more, invalidate_eq_dropped, Upd.apply, acknowledged, -List.erase_eq_nil_iff]

/-- The last acknowledgement of a `seal` waits for what other devices have sent. -/
theorem coreAcknowledge_waits (found : s.dev.invals[n]? = some v) (last : v.waiting.erase c.val = []) (sealing : v.words ≠ [])
    (guests : guestWrites s.dev = true) : exec (.coreAcknowledge c.val n) s = .next s := by
  show execCoreAcknowledge c.val n s = _
  by_cases acts : c.val ∈ v.waiting ∧ coreWrites s.dev c = false <;>
    simp [execCoreAcknowledge, conclude, coreAt, found, acts, last, sealing, guests, -List.erase_eq_nil_iff]

/-- The last acknowledgement ends the invalidation. -/
theorem coreAcknowledge_last (found : s.dev.invals[n]? = some v) (mine : c.val ∈ v.waiting) (calm : coreWrites s.dev c = false)
    (last : v.waiting.erase c.val = []) (free : v.words = [] ∨ guestWrites s.dev = false)
    (alone : ∀ m ∈ s.dev.migrations, m.inval ≠ some v.id) : exec (.coreAcknowledge c.val n) s = .next { s with
      cores := acknowledged s c v, dev := { s.dev with invals := s.dev.invals.eraseIdx n } } := by
  show execCoreAcknowledge c.val n s = _
  have nobody : s.dev.migrations.filter (fun m => m.inval == some v.id) = [] := by simpa using alone
  have same : s.dev.migrations.map (fun m => if m.inval = some v.id then { m with inval := none } else m) = s.dev.migrations :=
    (List.map_congr_left fun m hm => if_neg (alone m hm)).trans (List.map_id' _)
  simp [execCoreAcknowledge, conclude, coreAt, found, mine, calm, last, free, nobody, same, invalidate_eq_dropped, Upd.apply,
    acknowledged, -List.erase_eq_nil_iff]

end Acknowledge

/-! ## Frames migrate (R103, R104, R304) -/

/-- The blocks that some bytes lie in are those from the first to the last. -/
theorem wokenOn_units (ks : Vector Core 256) (lo : Nat) {n : Nat} (some : 0 < n) :
    (ks.map fun k => k.wokenOn ((unitsOf 6 lo n).map (· / 64))) = wokenIn ks lo n := by
  have blocks : ∀ b, (((unitsOf 6 lo n).map (· / 64)).contains b = true) ↔ lo / 64 ≤ b ∧ b ≤ (lo + n - 1) / 64 := by
    intro b
    simp only [unitsOf, List.contains_iff_mem, List.mem_map, List.mem_range]
    constructor
    · rintro ⟨u, ⟨i, hi, rfl⟩, rfl⟩
      omega
    · rintro ⟨low, high⟩
      exact ⟨b * 64, ⟨b - lo / 64, by omega, by omega⟩, by omega⟩
  simp only [wokenIn, Core.wokenOn, blocks]

/-- A monitor that has woken on some bytes wakes no further. -/
theorem allWoken_wokenIn (ks : Vector Core 256) (lo n : Nat) : allWoken (wokenIn ks lo n) = allWoken ks := by
  refine Vector.ext fun i hi => ?_
  simp only [allWoken, wokenIn, Vector.getElem_map, List.map_map]
  congr 1
  refine List.map_congr_left fun m _ => ?_
  simp only [Function.comp]
  split <;> rfl

theorem frameMoving_lt {fw state : Nat} (cursor : Nat) (h : fw < 256 ^ 8) (hs : state < 4) : frameMoving fw state cursor < 256 ^ 8 := by
  simp only [frameMoving, bits]
  omega

/-- A frame word that names a frame of a tier fits in its eight bytes. -/
theorem frameNaming_lt (fw : Nat) {dest : Nat} (tier : dest < 2 ^ 42) : frameNaming fw dest < 256 ^ 8 := by
  simp only [frameNaming]
  omega

section Migrate

variable {n : Nat} {s : State} {m : Migration}

/-- The bytes that the next chunk of a migration moves. -/
def chunkAt (m : Migration) : Nat := 4096 * m.next
def chunkLen (m : Migration) : Nat := min 4096 (m.length - chunkAt m)

/-- Whether the chunk is the last. -/
def chunkLast (m : Migration) : Bool := decide (m.length ≤ chunkAt m + chunkLen m)

/-- The frame word after the chunk: its cursor has moved, or with the last it names the destination. -/
def chunkWord (s : State) (m : Migration) : Nat :=
  if chunkLast m then frameMoving (frameNaming (readBytes s.mem m.word 8) m.dest) 2 0
  else frameMoving (readBytes s.mem m.word 8) 1 (m.next + 1)

/-- Memory after the chunk. -/
def chunkMem (s : State) (m : Migration) : List Host.Cell :=
  Mem.writeAll (Mem.writeAll s.mem (byteCells (m.dest + chunkAt m) (chunkLen m) (readBytes s.mem (m.source + chunkAt m) (chunkLen m))))
    (byteCells m.word 8 (chunkWord s m))

/-- Memory and monitors after the chunk; the monitors on what it has written have woken. -/
def chunkMoved (s : State) (m : Migration) : State :=
  { s with mem := chunkMem s m, cores := wokenIn (wokenIn s.cores (m.dest + chunkAt m) (chunkLen m)) m.word 8 }

theorem Leads.writeBytesIn {k : Nat} (some : 0 < k) (a v : Nat) (s : State) : Leads (Machine.writeBytes a k v) s ()
    { s with mem := Mem.writeAll s.mem (byteCells a k v), cores := wokenIn s.cores a k } := by
  rw [← wokenOn_units _ _ some]
  exact Leads.writeBytes a k v s

/-- Where migrations meet no poison there is none to move. -/
theorem movePoison_nil (src dst k : Nat) : movePoison [] src dst k = [] := rfl

section Chunk

/-- With the last chunk every core is to drop the old frame. -/
def chunkInval (m : Migration) : M (Option Nat) :=
  if chunkLast m then do
    let id ← startInval (.plane (posOf m.addr) (BitVec.ofNat 4 (planeOf m.addr)))
    pure (some id)
  else pure none

variable (found : s.dev.migrations[n]? = some m) (copying : m.forwarding = false) (left : chunkAt m < m.length) (clean : s.dev.poison = [])
  (first : byteExists (m.dest + chunkAt m) = true) (final : byteExists (m.dest + chunkAt m + chunkLen m - 1) = true)

include found copying left first final

/-- A chunk writes its bytes and the word, and then notes how far the migration has come. -/
theorem migrationChunk_notes {id : Option Nat} {s' : State} (h : Leads (chunkInval m) (chunkMoved s m) id s') :
    exec (.migrationChunk n) s = .next { s' with dev := { s'.dev with
      poison := movePoison s'.dev.poison (m.source + chunkAt m) (m.dest + chunkAt m) (chunkLen m)
      migrations := s'.dev.migrations.set n { m with next := m.next + 1, forwarding := chunkLast m, inval := id } } } := by
  have some : 0 < chunkLen m := by simp only [chunkLen]; omega
  refine Leads.conclude ((Leads.getState s).bind ?_)
  rw [found]
  refine (Leads.enabled (by simp [copying]) _).bind ?_
  refine (Leads.ite (fun _ => Leads.pure _ _) (fun no => absurd (Bool.and_eq_true_iff.mpr ⟨first, final⟩) no)).bind ?_
  exact (Leads.writeBytesIn some _ _ _).bind ((Leads.writeBytesIn (by decide) _ (chunkWord s m) _).bind (h.bind (Leads.setDev _ _)))

include clean

/-- A chunk but the last moves the word's cursor. -/
theorem migrationChunk_more (more : chunkAt m + chunkLen m < m.length) : exec (.migrationChunk n) s = .next { chunkMoved s m with
    dev := { s.dev with migrations := s.dev.migrations.set n { m with next := m.next + 1, inval := none } } } := by
  have goesOn : chunkLast m = false := decide_eq_false (Nat.not_le.mpr more)
  rw [migrationChunk_notes found copying left first final (id := none) (s' := chunkMoved s m)
    (Leads.ite (fun yes => absurd (goesOn.symm.trans yes) (by decide)) fun _ => Leads.pure _ _)]
  simp only [chunkMoved, clean, movePoison_nil, goesOn, copying]

/-- With the last chunk the word names the destination, and every core is to drop the old frame. -/
theorem migrationChunk_last (last : m.length ≤ chunkAt m + chunkLen m) : exec (.migrationChunk n) s = .next { chunkMoved s m with
    cores := allWoken s.cores
    dev := { named s.dev with
      invals := s.dev.invals ++ [{ id := s.dev.nextUid, kind := .plane (posOf m.addr) (BitVec.ofNat 4 (planeOf m.addr))
                                   waiting := List.range 256, words := [] }]
      migrations := s.dev.migrations.set n { m with next := m.next + 1, forwarding := true, inval := some s.dev.nextUid } } } := by
  have ends : chunkLast m = true := decide_eq_true last
  rw [migrationChunk_notes found copying left first final (id := some s.dev.nextUid)
    (Leads.ite (fun _ => (Leads.startInval _ _ _).bind (Leads.pure _ _)) fun no => absurd ends no)]
  simp only [invalStarted, chunkMoved, named, clean, movePoison_nil, ends, allWoken_wokenIn]

end Chunk

/-- The chunk's bytes have moved. -/
theorem read_chunkMem_moved {i : Nat} (wf : Mem.wf s.mem = true) (hi : i < chunkLen m)
    (apart : m.word + 8 ≤ m.dest + chunkAt m ∨ m.dest + chunkAt m + chunkLen m ≤ m.word) :
    Mem.read (chunkMem s m) (m.dest + chunkAt m + i) = Mem.read s.mem (m.source + chunkAt m + i) := by
  rw [chunkMem, Mem.read_writeAll_byteCells _ _ _ _ (Mem.writeAll_wf _ wf), if_neg (by omega), Mem.read_writeAll_byteCells _ _ _ _ wf,
    if_pos (by omega), Nat.add_sub_cancel_left, readBytes_byte _ _ hi]

/-- What neither the chunk nor the word covers is as before. -/
theorem read_chunkMem_other {x : Nat} (wf : Mem.wf s.mem = true) (word : x < m.word ∨ m.word + 8 ≤ x)
    (frame : x < m.dest + chunkAt m ∨ m.dest + chunkAt m + chunkLen m ≤ x) : Mem.read (chunkMem s m) x = Mem.read s.mem x := by
  rw [chunkMem, Mem.read_writeAll_byteCells _ _ _ _ (Mem.writeAll_wf _ wf), if_neg (by omega), Mem.read_writeAll_byteCells _ _ _ _ wf,
    if_neg (by omega)]

/-- The word is as R103 says, where the destination lies in a tier. -/
theorem readBytes_chunkMem_word (wf : Mem.wf s.mem = true) (tier : m.dest < 2 ^ 42) : readBytes (chunkMem s m) m.word 8 = chunkWord s m := by
  refine readBytes_writeAll_byteCells (Mem.writeAll_wf _ wf) ?_
  unfold chunkWord
  split
  · exact frameMoving_lt _ (frameNaming_lt _ tier) (by decide)
  · exact frameMoving_lt _ (readBytes_lt _ _ _) (by decide)

/-- What O47 says of a chunk holds where the destination lies in a tier, which `cmig` sees to (`cmigDest`, R304). -/
theorem migrationChunk_of_tier (tier : m.dest < 2 ^ 42) (wf : Mem.wf s.mem = true) (found : s.dev.migrations[n]? = some m)
    (copying : m.forwarding = false) (left : chunkAt m < m.length) (clean : s.dev.poison = [])
    (first : byteExists (m.dest + chunkAt m) = true) (final : byteExists (m.dest + chunkAt m + chunkLen m - 1) = true)
    (apart : m.word + 8 ≤ m.dest + chunkAt m ∨ m.dest + chunkAt m + chunkLen m ≤ m.word) :
    ∃ mem, (chunkAt m + chunkLen m < m.length → exec (.migrationChunk n) s = .next { s with
        mem, cores := wokenIn (wokenIn s.cores (m.dest + chunkAt m) (chunkLen m)) m.word 8
        dev := { s.dev with migrations := s.dev.migrations.set n { m with next := m.next + 1, inval := none } } }) ∧
      (m.length ≤ chunkAt m + chunkLen m → exec (.migrationChunk n) s = .next { s with
        mem, cores := allWoken s.cores
        dev := { named s.dev with
          invals := s.dev.invals ++ [{ id := s.dev.nextUid, kind := .plane (posOf m.addr) (BitVec.ofNat 4 (planeOf m.addr))
                                       waiting := List.range 256, words := [] }]
          migrations := s.dev.migrations.set n { m with next := m.next + 1, forwarding := true, inval := some s.dev.nextUid } } }) ∧
      (∀ i, i < chunkLen m → Mem.read mem (m.dest + chunkAt m + i) = Mem.read s.mem (m.source + chunkAt m + i)) ∧
      readBytes mem m.word 8 = chunkWord s m ∧
      ∀ x, (x < m.word ∨ m.word + 8 ≤ x) → (x < m.dest + chunkAt m ∨ m.dest + chunkAt m + chunkLen m ≤ x) →
        Mem.read mem x = Mem.read s.mem x := by
  refine ⟨chunkMem s m, fun more => ?_, fun last => ?_, fun _ hi => read_chunkMem_moved wf hi apart, readBytes_chunkMem_word wf tier,
    fun _ => read_chunkMem_other wf⟩
  · rw [migrationChunk_more found copying left clean first final more]
    simp only [chunkMoved]
  · rw [migrationChunk_last found copying left clean first final last]
    simp only [chunkMoved]

/-- A task that no other shares its identifier with is found where it stands. -/
theorem findTask_of_standsAt {l : Fin 1024} {t : Task} (stands : standsAt s l t) : findTask s t.tid = some l := by
  obtain ⟨here, only⟩ := stands
  cases h : findTask s t.tid with
  | none =>
    have := List.find?_eq_none.mp h l (List.mem_finRange l)
    simp [here] at this
  | some l' =>
    have hit := List.find?_some h
    split at hit
    next t' there => rw [only l' t' there (by simpa using hit)]
    next => cases hit

/-- A token of a task in a slot is met there. -/
theorem Leads.markTokenOf {l : Fin 1024} {t : Task} {tid : Nat} (placed : findTask s tid = some l) (here : s.tasks.get l = some t)
    (k : BitVec 3) : Leads (markTokenOf tid k true false) s () { s with tasks := s.tasks.set l (some (t.meetToken k false)) } := by
  refine (Leads.getState s).bind ?_
  rw [placed]
  exact Leads.setTask _ here

/-- So is that of a migration, whose task is not saved. -/
theorem Leads.migrationToken {l : Fin 1024} {t : Task} {tid : Nat} (placed : findTask s tid = some l) (here : s.tasks.get l = some t)
    (k : BitVec 3) : Leads (migrationToken tid k) s () { s with tasks := s.tasks.set l (some (t.meetToken k false)) } := by
  refine (Leads.getState s).bind ?_
  rw [placed]
  exact Leads.markTokenOf placed here k

/-- Once every core has dropped the old frame the word is stable, and kr is set. -/
theorem migrationStable_completes {l : Fin 1024} {t : Task} (found : s.dev.migrations[n]? = some m) (moved : m.forwarding = true)
    (dropped : m.inval = none) (quiet : touchesSource s.dev m = false) (stands : standsAt s l t) (mine : m.tid = t.tid) :
    exec (.migrationStable n) s = .next { s with
      mem := Mem.writeAll s.mem (byteCells m.word 8 (frameMoving (readBytes s.mem m.word 8) 0 0)), cores := allWoken s.cores
      dev := { s.dev with migrations := s.dev.migrations.eraseIdx n }
      tasks := s.tasks.set l (some (t.meetToken m.kr false)) } := by
  have placed : findTask s m.tid = some l := mine ▸ findTask_of_standsAt stands
  rw [← allWoken_wokenIn s.cores m.word 8]
  refine Leads.conclude ((Leads.getState s).bind ?_)
  rw [found]
  refine (Leads.enabled (by simp [moved, dropped, quiet]) _).bind ?_
  refine (Leads.writeBytesIn (by decide) _ _ _).bind ((Leads.wakeAll _).bind ((Leads.setDev _ _).bind ?_))
  refine Leads.migrationToken ?_ ?_ m.kr
  · exact placed
  · exact stands.1

end Migrate

/-- A migration whose last chunk is next, to a place whose number no tier has. -/
def beyondTiers : Migration :=
  { tenant := 0, word := 0, addr := 0, source := 0, dest := 2 ^ 74, destLoc := 0, length := 1, next := 0, tid := 0, kr := 0, kv := 0 }

/-- Reset, with that migration under way. -/
def migratingBeyond : State := { State.reset with dev := { State.reset.dev with migrations := [beyondTiers] } }

end Sys2Proof.Machine

section

open Sys2Proof Sys2Proof.Machine Sys2Proof.Spec

/-- Refutes O47: its clause on a chunk holds of destinations in the tiers (`migrationChunk_of_tier`), and its other clauses hold as they
stand, but it speaks of every destination.  With one at byte 2^74, which `byteExists` takes for a core's own memory, the frame word is to
become 2^64 + 2^27, which its eight bytes cannot hold. -/
theorem not_invalidationAndMigration : ¬ Obligations.InvalidationAndMigration := by
  unfold Obligations.InvalidationAndMigration
  intro h
  obtain ⟨-, migrates⟩ := h 0 migratingBeyond
  obtain ⟨mem, -, -, -, word, -⟩ := (migrates beyondTiers rfl rfl).1 rfl (by decide) rfl (by decide) (by decide) (.inl (by decide))
  have held : readBytes mem 0 8 < 2 ^ 64 := readBytes_lt mem 0 8
  have asked : readBytes mem 0 8 = 2 ^ 64 + 2 ^ 27 := word.trans (by decide +kernel)
  omega

end


namespace Sys2Proof.Machine

open Sys2Proof.Spec

/-! ## Messages that are taken and sent leave the rest of the device as it is (R310 to R313) -/

/-- The device without its messages. -/
def Device.still (d : Device) : Device := { d with rx := [], netOut := [], unsent := [], netHeld := [], outstanding := [] }

/-- The device with other notes of poison, of writes seen at TSK scope, of commands that have arrived and of atomics served: nothing
that a message's way depends on. -/
def Device.noted (d : Device) (poison tskSeen : List Nat) (arrivals : List MgmtSource)
    (inPlace : List (Option Target × Nat × Nat)) : Device := { d with poison, tskSeen, arrivals, inPlace }

section Messages

variable (d : Device) (p : Packet) (n : Nat)

theorem post_still : (d.post p).still = d.still := by
  unfold Device.post
  split
  · rfl
  · split <;> rfl

theorem foldl_post_still (ps : List Packet) : (ps.foldl Device.post d).still = d.still := by
  induction ps generalizing d with
  | nil => rfl
  | cons p ps ih => exact (ih (d.post p)).trans (post_still d p)

/-- The requests that are not answered yet once the n-th waiting message has been taken. -/
def Device.leftOver (d : Device) (n : Nat) : List Packet :=
  match d.rx[n]? with
  | some p => d.outstanding.filter fun q => !q.answeredBy p
  | none => d.outstanding

/-- Whether the message taken answers none of them. -/
def Device.answersNone (d : Device) (n : Nat) : Bool := (d.leftOver n).length == d.outstanding.length

/-- The device without the message. -/
def Device.without (d : Device) (n : Nat) : Device := { d with rx := d.rx.eraseIdx n, outstanding := d.leftOver n }

theorem taken_eq : d.taken n = if d.answersNone n then d.without n else (d.without n).release := rfl

/-- Taking a message changes nothing but messages. -/
theorem taken_still : (d.taken n).still = d.still := by
  rw [taken_eq]
  split
  · rfl
  · exact foldl_post_still _ _

variable (po ts : List Nat) (ar : List MgmtSource) (ip : List (Option Target × Nat × Nat))

theorem post_noted : (d.noted po ts ar ip).post p = (d.post p).noted po ts ar ip := by
  have way : p.route (d.noted po ts ar ip) = p.route d := rfl
  have own : (d.noted po ts ar ip).devid = d.devid := rfl
  simp only [Device.post, way, own]
  by_cases here : (p.dst == d.devid) = true
  · simp only [here, if_true]
    rfl
  · simp only [here]
    cases p.route d <;> rfl

theorem foldl_post_noted (ps : List Packet) : ps.foldl Device.post (d.noted po ts ar ip) = (ps.foldl Device.post d).noted po ts ar ip := by
  induction ps generalizing d with
  | nil => rfl
  | cons p ps ih => rw [List.foldl_cons, post_noted, ih, List.foldl_cons]

/-- Taking a message does not depend on the notes, nor change them. -/
theorem taken_noted : (d.noted po ts ar ip).taken n = (d.taken n).noted po ts ar ip := by
  have same : (d.noted po ts ar ip).answersNone n = d.answersNone n := rfl
  rw [taken_eq, taken_eq, same]
  split
  · rfl
  · exact foldl_post_noted { d.without n with netHeld := [] } po ts ar ip d.netHeld

theorem sends_noted (dst : BitVec 8) (vc : BitVec 3) (b : Body) :
    sends (d.noted po ts ar ip) dst vc b = (sends d dst vc b).noted po ts ar ip := post_noted _ _ _ _ _ _

end Messages

end Sys2Proof.Machine


namespace Sys2Proof.Machine

open Sys2Proof.Spec

/-! ## Writes at storage (R102, R103) -/

section Parts

variable {m m' : List Host.Cell} {x : Nat}

/-- The bytes that some bits of storage touch. -/
def Covers (bit w x : Nat) : Prop := bit / 8 ≤ x ∧ x < bit / 8 + (bit % 8 + w + 7) / 8

/-- Writing bits changes no byte that they do not touch. -/
theorem read_writeBits_other {bit w v : Nat} (wf : Mem.wf m = true) (out : ¬ Covers bit w x) :
    Mem.read (Mem.writeBits m bit w v) x = Mem.read m x := by
  exact (Mem.read_writeAll_byteCells _ _ _ _ wf).trans (if_neg out)

/-- Memory after writes of bits, one after another. -/
def partsMem (m : List Host.Cell) (ps : Parts) : List Host.Cell := ps.foldl (fun m p => Mem.writeBits m p.1 p.2.1 p.2.2.1) m

/-- The bytes that they touch, as a memory holds them. -/
def partsCells (m : List Host.Cell) (ps : Parts) : List Host.Cell :=
  ps.flatMap fun p => byteCells (p.1 / 8) ((p.1 % 8 + p.2.1 + 7) / 8) (readBytes m (p.1 / 8) ((p.1 % 8 + p.2.1 + 7) / 8))

theorem read_partsMem_other {ps : Parts} (wf : Mem.wf m = true) (out : ∀ p ∈ ps, ¬ Covers p.1 p.2.1 x) :
    Mem.read (partsMem m ps) x = Mem.read m x := by
  induction ps generalizing m with
  | nil => rfl
  | cons p ps ih =>
    refine (ih (Mem.writeBits_wf _ _ _ wf) fun q hq => out q (by simp [hq])).trans ?_
    exact read_writeBits_other wf (out p (by simp))

/-- Where a memory's own bytes have been laid over another, that memory is read. -/
theorem read_writeAll_partsCells {ps : Parts} (wf : Mem.wf m = true) (agree : (∀ p ∈ ps, ¬ Covers p.1 p.2.1 x) → Mem.read m x = Mem.read m' x) :
    Mem.read (Mem.writeAll m (partsCells m' ps)) x = Mem.read m' x := by
  induction ps generalizing m with
  | nil => exact agree (by simp)
  | cons p ps ih =>
    have laid := Mem.read_writeAll_byteCells (m := m) (p.1 / 8) ((p.1 % 8 + p.2.1 + 7) / 8)
      (readBytes m' (p.1 / 8) ((p.1 % 8 + p.2.1 + 7) / 8)) x wf
    have split : Mem.writeAll m (partsCells m' (p :: ps)) =
        Mem.writeAll (Mem.writeAll m (byteCells (p.1 / 8) ((p.1 % 8 + p.2.1 + 7) / 8)
          (readBytes m' (p.1 / 8) ((p.1 % 8 + p.2.1 + 7) / 8)))) (partsCells m' ps) := by
      simp [Mem.writeAll, partsCells]
    rw [split]
    refine ih (Mem.writeAll_wf _ wf) fun out => ?_
    by_cases inside : Covers p.1 p.2.1 x
    · rw [laid.trans (if_pos inside), readBytes_byte _ _ (by unfold Covers at inside; omega), Nat.add_sub_cancel' inside.1]
    · rw [laid.trans (if_neg inside)]
      exact agree fun q hq => by
        rcases List.mem_cons.mp hq with rfl | hq
        · exact inside
        · exact out q hq

/-- The cells that a target puts into storage make the memory that the writes make. -/
theorem sameMem_partsCells (ps : Parts) (wf : Mem.wf m = true) : sameMem (Mem.writeAll m (partsCells (partsMem m ps) ps)) (partsMem m ps) :=
  fun _ => read_writeAll_partsCells wf fun out => (read_partsMem_other wf out).symm

theorem writtenAt_eq_partsMem (ms : List Migration) (m : List Host.Cell) (ws : List Wr) :
    writtenAt ms m ws = partsMem m (partsOf ms ws) := by
  have parts : partsOf ms ws = (ws.flatMap fun w => (writePlaces ms w.bit).map fun b => (b, w)).map
      fun x => (x.1, x.2.width, x.2.value, x.2.addr) := by
    simp [partsOf, List.map_flatMap, Function.comp_def]
  rw [parts, partsMem, List.foldl_map]
  rfl

/-- With no frame on its way each write goes where it says. -/
theorem writtenAt_nil (m : List Host.Cell) (ws : List Wr) :
    writtenAt [] m ws = ws.foldl (fun m w => Mem.writeBits m w.bit w.width w.value) m := by
  simp [writtenAt, writePlaces, List.foldl_flatMap]

theorem writtenAt_wf (ms : List Migration) (ws : List Wr) (wf : Mem.wf m = true) : Mem.wf (writtenAt ms m ws) = true := by
  rw [writtenAt_eq_partsMem]
  generalize partsOf ms ws = ps
  induction ps generalizing m with
  | nil => exact wf
  | cons p ps ih => exact ih (Mem.writeBits_wf _ _ _ wf)

end Parts

/-! ## What a write at storage makes of the state -/

/-- One state comes from another by a change of memory to one that reads as `m`, of cores, and of poison that is taken away. -/
structure Wrote (s s' : State) (m : List Host.Cell) : Prop where
  mem : sameMem s'.mem m
  wf : Mem.wf s'.mem = true
  tasks : s'.tasks = s.tasks
  held : s'.held = s.held
  dev : s'.dev = { s.dev with poison := s'.dev.poison }
  poison : ∀ u ∈ s'.dev.poison, u ∈ s.dev.poison

namespace Wrote

variable {s s₁ s₂ : State} {m m' : List Host.Cell}

theorem refl (wf : Mem.wf s.mem = true) : Wrote s s s.mem :=
  ⟨fun _ => rfl, wf, rfl, rfl, rfl, fun _ => id⟩

theorem trans (a : Wrote s s₁ m) (b : Wrote s₁ s₂ m') : Wrote s s₂ m' where
  mem := b.mem
  wf := b.wf
  tasks := b.tasks.trans a.tasks
  held := b.held.trans a.held
  dev := by rw [b.dev, a.dev]
  poison u hu := a.poison u (b.poison u hu)

/-- Cores may change besides. -/
theorem cores (a : Wrote s s₁ m) (ks : Vector Core 256) : Wrote s { s₁ with cores := ks } m :=
  ⟨a.mem, a.wf, a.tasks, a.held, a.dev, a.poison⟩

end Wrote

/-- A part of a meaning that changes at most cores, for each core of a list, changes at most cores. -/
theorem Leads.forEach {g : Fin 256 → M Unit} (each : ∀ c s, ∃ ks, Leads (g c) s () { s with cores := ks }) (cs : List (Fin 256)) (s : State) :
    ∃ ks, Leads (cs.forM g) s () { s with cores := ks } := by
  induction cs generalizing s with
  | nil => exact ⟨s.cores, Leads.pure () s⟩
  | cons c cs ih =>
    obtain ⟨ks, one⟩ := each c s
    obtain ⟨ks', rest⟩ := ih { s with cores := ks }
    exact ⟨ks', one.bind rest⟩

theorem Leads.dropMatching (ps : Parts) (c : Fin 256) (s : State) : ∃ ks, Leads (dropMatching ps c) s () { s with cores := ks } := by
  by_cases none : (s.cores.get c).lines.isEmpty = true
  · exact ⟨s.cores, (Leads.getCore c s).bind (Leads.ite (fun _ => Leads.pure () s) fun no => absurd none no)⟩
  · exact ⟨_, (Leads.getCore c s).bind (Leads.ite (fun yes => absurd yes none) fun _ => Leads.setCore c _ s)⟩

theorem Leads.dropBlocks (ps : Parts) (c : Fin 256) (s : State) : ∃ ks, Leads (dropBlocks ps c) s () { s with cores := ks } := by
  by_cases none : (s.cores.get c).lines.isEmpty = true
  · exact ⟨s.cores, (Leads.getCore c s).bind (Leads.ite (fun _ => Leads.pure () s) fun no => absurd none no)⟩
  · exact ⟨_, (Leads.getCore c s).bind (Leads.ite (fun yes => absurd yes none) fun _ => Leads.setCore c _ s)⟩

/-- Writes at storage make the memory that R102 and R103 say, and change nothing else but cores and poison. -/
theorem Leads.applyWrites (cs : List (Fin 256)) (ws : List Wr) {s : State} (wf : Mem.wf s.mem = true) :
    ∃ s', Leads (applyWrites cs ws) s () s' ∧ Wrote s s' (writtenAt s.dev.migrations s.mem ws) := by
  rw [writtenAt_eq_partsMem]
  let ps := partsOf s.dev.migrations ws
  let s₁ : State := { s with mem := Mem.writeAll s.mem (partsCells (partsMem s.mem ps) ps) }
  have wrote₁ : Wrote s s₁ (partsMem s.mem ps) := ⟨sameMem_partsCells ps wf, Mem.writeAll_wf _ wf, rfl, rfl, rfl, fun _ => id⟩
  obtain ⟨s₂, cleans, wrote₂⟩ : ∃ s₂, Leads (if s.dev.poison.isEmpty then Pure.pure ()
      else Machine.setDev fun d => { d with poison := d.poison.filter fun u => !unitReplaced (ps.map fun p => (p.1, p.2.1)) u }) s₁ () s₂ ∧
      Wrote s s₂ (partsMem s.mem ps) := by
    by_cases none : s.dev.poison.isEmpty = true
    · exact ⟨s₁, Leads.ite (fun _ => Leads.pure () s₁) fun no => absurd none no, wrote₁⟩
    · refine ⟨_, Leads.ite (fun yes => absurd yes none) fun _ => Leads.setDev _ s₁, wrote₁.mem, wrote₁.wf, rfl, rfl, rfl, ?_⟩
      exact fun u hu => List.mem_of_mem_filter hu
  obtain ⟨ks, drops⟩ := Leads.forEach (Leads.dropMatching ps) cs
    { s₂ with cores := s₂.cores.map fun k => k.wokenOn (partBlocks ps) }
  exact ⟨_, (Leads.getState s).bind ((Leads.emit _ s).bind (cleans.bind ((Leads.wakeMonitors _ s₂).bind drops))), wrote₂.cores ks⟩

end Sys2Proof.Machine


namespace Sys2Proof.Machine

open Sys2Proof.Spec

/-! ## What a target answers (R111, R376) -/

section Answers

variable (n uid : Nat) (o : Origin) (s : State)

theorem Leads.refusePosted (k : Cause) (a : Word) (x : BitVec 16) : Leads (refusePosted n uid o k a x) s ()
    (onDev s (sends (takenOut s.dev n) o.dev 4 (.refuse uid o.tid (noteOf o k a x)))) :=
  (Leads.setDev _ s).bind (Leads.setDev _ _)

theorem Leads.ackPosted : Leads (ackPosted n uid o) s () (onDev s (sends (takenOut s.dev n) o.dev 4 (.ack uid o.tid))) :=
  (Leads.setDev _ s).bind (Leads.setDev _ _)

theorem Leads.answerWaiting (a : Word) (r : Reply) : Leads (answerWaiting n uid o a r) s ()
    (onDev s (sends (takenOut s.dev n) o.dev 4 (.reply uid o.tid o.eng a r))) :=
  (Leads.setDev _ s).bind (Leads.setDev _ _)

/-- What depends on no message is the same once one has been taken. -/
theorem takenOut_field {α : Type} (f : Device → α) (stays : ∀ d, f d.still = f d) (d : Device) (n : Nat) : f (takenOut d n) = f d := by
  rw [← stays, takenOut, taken_still, stays]

/-- A message sent after notes have been made leaves them as they are, and poison is one of them. -/
theorem sends_taken_noted {d : Device} {po ts : List Nat} {ar : List MgmtSource} {ip : List (Option Target × Nat × Nat)}
    {dst : BitVec 8} {vc : BitVec 3} {b : Body} : sends (takenOut (d.noted po ts ar ip) n) dst vc b =
      { sends ((takenOut d n).noted (takenOut d n).poison ts ar ip) dst vc b with poison := po } := by
  simp only [takenOut, taken_noted, sends_noted]
  rfl

theorem sends_taken_wrote {s s₁ : State} {m : List Host.Cell} (w : Wrote s s₁ m) {dst : BitVec 8} {vc : BitVec 3} {b : Body} :
    sends (takenOut s₁.dev n) dst vc b = { sends (takenOut s.dev n) dst vc b with poison := s₁.dev.poison } := by
  have tskSeen : (takenOut s.dev n).tskSeen = s.dev.tskSeen := takenOut_field Device.tskSeen (fun _ => rfl) _ _
  have arrivals : (takenOut s.dev n).arrivals = s.dev.arrivals := takenOut_field Device.arrivals (fun _ => rfl) _ _
  have inPlace : (takenOut s.dev n).inPlace = s.dev.inPlace := takenOut_field Device.inPlace (fun _ => rfl) _ _
  have dev : s₁.dev = s.dev.noted s₁.dev.poison s.dev.tskSeen s.dev.arrivals s.dev.inPlace := w.dev
  rw [dev, sends_taken_noted, ← tskSeen, ← arrivals, ← inPlace]
  rfl

/-- An event that has written at storage, and whose device differs in poison alone from what is said, serves. -/
theorem serves_of_wrote {i : Instr} {s s₁ : State} {m : List Host.Cell} {d : Device} (held : s.held = false) (w : Wrote s s₁ m)
    (ends : exec i s = .next { s₁ with dev := { d with poison := s₁.dev.poison } }) : Serves i s m d :=
  ⟨_, ends, w.held.trans held, w.tasks, w.mem, rfl, w.poison⟩

end Answers

/-! ## Posted writes (R102, R123, R185) -/

section Stores

variable {n uid : Nat} {o : Origin} {ws : List Wr} {s : State}

/-- Whether a posted write has been checked already (R327), or is performed at TSK scope and cannot be refused any more. -/
def wasChecked (d : Device) (o : Origin) (uid : Nat) : Bool :=
  d.granted.contains (o.dev, uid) || (o.dev == d.devid && d.tskSeen.contains uid)

/-- The first element that the tables do not grant. -/
def firstRefused (s : State) (uid : Nat) (o : Origin) (ws : List Wr) : Option Wr :=
  ws.find? fun w => !wasChecked s.dev o uid && !bitsGranted s o.tenant o.level .write w.bit w.width

theorem firstRefused_none (pass : wasChecked s.dev o uid = true ∨ ∀ w ∈ ws, bitsGranted s o.tenant o.level .write w.bit w.width = true) :
    firstRefused s uid o ws = none := by
  refine List.find?_eq_none.mpr fun w hw => ?_
  rcases pass with checked | granted
  · simp [checked]
  · simp [granted w hw]

theorem firstRefused_some {pre post : List Wr} {w : Wr} (unchecked : wasChecked s.dev o uid = false)
    (before : ∀ x ∈ pre, bitsGranted s o.tenant o.level .write x.bit x.width = true)
    (fails : bitsGranted s o.tenant o.level .write w.bit w.width = false) : firstRefused s uid o (pre ++ w :: post) = some w := by
  have passes : pre.find? (fun x => !wasChecked s.dev o uid && !bitsGranted s o.tenant o.level .write x.bit x.width) = none :=
    List.find?_eq_none.mpr fun x hx => by simp [before x hx]
  rw [firstRefused, List.find?_append, passes]
  simp [unchecked, fails]

/-- A posted write with an element that is not granted is refused whole. -/
theorem serveStore_refused {flag : Option FlagRef} {w : Wr} (asked : s.dev.flagsAsked.contains (o.dev, uid) = false)
    (fails : firstRefused s uid o ws = some w) : conclude (serveStore n uid o ws flag) s =
      .next (onDev s (sends (takenOut s.dev n) o.dev 4 (.refuse uid o.tid (noteOf o .access w.addr w.index)))) := by
  simp only [firstRefused, wasChecked] at fails
  refine Leads.conclude ((Leads.getState s).bind ((Leads.enabled (by rw [asked]; rfl) s).bind ?_))
  simp only [fails]
  exact Leads.refusePosted n uid o s _ _ _

/-- The writes noted as performed at TSK scope once one has been performed at its target. -/
def unseenBy (d : Device) (o : Origin) (uid : Nat) : List Nat := if o.dev = d.devid then d.tskSeen.erase uid else d.tskSeen

theorem Leads.unsee (o : Origin) (uid : Nat) (s : State) :
    Leads (unsee o uid) s () { s with dev := { s.dev with tskSeen := unseenBy s.dev o uid } } := by
  refine (Leads.getDev s).bind (Leads.ite (fun seen => ?_) fun no => ?_)
  · obtain ⟨own, -⟩ := Bool.and_eq_true_iff.mp seen
    refine (Leads.setDev _ s).becomes ?_
    rw [unseenBy, if_pos (by simpa using own)]
  · refine (Leads.pure () s).becomes ?_
    have same : unseenBy s.dev o uid = s.dev.tskSeen := by
      unfold unseenBy
      split
      next own => exact List.erase_of_not_mem (by simpa [own] using no)
      next => rfl
    rw [same]

/-- The elements of a posted write are written, if it has any. -/
theorem Leads.storeWrites (o : Origin) (ws : List Wr) {s : State} (wf : Mem.wf s.mem = true) : ∃ s',
    Leads (if ws.isEmpty then Pure.pure () else Machine.applyWrites (originCores s o) ws) s () s' ∧
      Wrote s s' (writtenAt s.dev.migrations s.mem ws) := by
  cases ws with
  | nil => exact ⟨s, Leads.pure () s, Wrote.refl wf⟩
  | cons w ws => exact Leads.applyWrites _ (w :: ws) wf

/-- A posted write that passes is made and acknowledged. -/
theorem serveStore_made (asked : s.dev.flagsAsked.contains (o.dev, uid) = false) (passes : firstRefused s uid o ws = none)
    (wf : Mem.wf s.mem = true) : ∃ s₁, Wrote s s₁ (writtenAt s.dev.migrations s.mem ws) ∧
      conclude (serveStore n uid o ws none) s = .next { s₁ with dev := { sends { takenOut s.dev n with tskSeen := unseenBy s.dev o uid }
        o.dev 4 (.ack uid o.tid) with poison := s₁.dev.poison } } := by
  obtain ⟨s₁, writes, wrote⟩ := Leads.storeWrites o ws wf
  obtain ⟨ks, drops⟩ : ∃ ks, Leads (if o.dev == s.dev.devid && s.dev.tskSeen.contains uid then
      (originCores s o).forM (dropBlocks (partsOf s.dev.migrations ws)) else pure ()) s₁ () { s₁ with cores := ks } := by
    by_cases seen : (o.dev == s.dev.devid && s.dev.tskSeen.contains uid) = true
    · obtain ⟨ks, run⟩ := Leads.forEach (Leads.dropBlocks (partsOf s.dev.migrations ws)) (originCores s o) s₁
      exact ⟨ks, Leads.ite (fun _ => run) fun no => absurd seen no⟩
    · exact ⟨s₁.cores, Leads.ite (fun yes => absurd yes seen) fun _ => Leads.pure () s₁⟩
  refine ⟨{ s₁ with cores := ks }, wrote.cores ks, Leads.conclude ((Leads.getState s).bind ((Leads.enabled (by rw [asked]; rfl) s).bind ?_))⟩
  simp only [firstRefused, wasChecked] at passes
  simp only [passes]
  refine writes.bind (drops.bind ((Leads.unsee o uid _).bind ((Leads.ackPosted n uid o _).becomes ?_)))
  have dev : { s₁.dev with tskSeen := unseenBy s₁.dev o uid } =
      s.dev.noted s₁.dev.poison (unseenBy s.dev o uid) s.dev.arrivals s.dev.inPlace := by rw [wrote.dev]; rfl
  have arrivals : (takenOut s.dev n).arrivals = s.dev.arrivals := takenOut_field Device.arrivals (fun _ => rfl) _ _
  have inPlace : (takenOut s.dev n).inPlace = s.dev.inPlace := takenOut_field Device.inPlace (fun _ => rfl) _ _
  simp only [onDev, dev, sends_taken_noted, ← arrivals, ← inPlace]
  rfl

end Stores

end Sys2Proof.Machine


namespace Sys2Proof.Machine

open Sys2Proof.Spec

/-! ## Flags and atomics at their handler engine (R123, R279) -/

section Granule

variable {m m' : List Host.Cell} {b : Nat}

/-- Bits read alike in memories that read alike. -/
theorem readBytes_sameMem (h : sameMem m m') (a n : Nat) : readBytes m a n = readBytes m' a n := readBytes_congr fun _ _ => h _

theorem readBits_sameMem (h : sameMem m m') (bit w : Nat) : readBits m bit w = readBits m' bit w := by
  rw [readBits, readBits, readBytes_sameMem h]

/-- Writes of bits keep memories alike. -/
theorem writeBits_sameMem (h : sameMem m m') (wf : Mem.wf m = true) (wf' : Mem.wf m' = true) (bit w v : Nat) :
    sameMem (Mem.writeBits m bit w v) (Mem.writeBits m' bit w v) := fun x => by
  rw [Mem.writeBits, Mem.writeBits, bitCells, bitCells, Mem.read_writeAll_byteCells _ _ _ _ wf, Mem.read_writeAll_byteCells _ _ _ _ wf',
    readBytes_sameMem h, h x]

theorem readBits_qword (m : List Host.Cell) (a : Nat) : readBits m (8 * a) 64 = readBytes m a 8 := by
  have := readBytes_lt m a 8
  simp only [readBits, Nat.mul_div_cancel_left a (show 0 < 8 by decide), Nat.mul_mod_right, Nat.pow_zero, Nat.div_one]
  exact Nat.mod_eq_of_lt this

theorem writeBits_qword (m : List Host.Cell) (a v : Nat) : Mem.writeBits m (8 * a) 64 v = Mem.writeAll m (byteCells a 8 (v % 2 ^ 64)) := by
  have above : readBytes m a 8 / 2 ^ 64 = 0 := Nat.div_eq_of_lt (readBytes_lt m a 8)
  have value : readBytes m a 8 % 2 ^ 0 + v % 2 ^ 64 * 2 ^ 0 + readBytes m a 8 / 2 ^ (0 + 64) * 2 ^ (0 + 64) = v % 2 ^ 64 := by
    rw [Nat.zero_add, above]
    simp [Nat.mod_one]
  simp only [Mem.writeBits, bitCells, Nat.mul_div_cancel_left a (show 0 < 8 by decide), Nat.mul_mod_right]
  rw [show (0 + 64 + 7) / 8 = 8 from rfl, value]

/-- A qword that is written with what stands there leaves memory as it reads. -/
theorem sameMem_writeBits_held {a v : Nat} (h : sameMem m m') (wf : Mem.wf m = true) (holds : readBytes m' a 8 = v) :
    sameMem (Mem.writeBits m (8 * a) 64 v) m' := fun x => by
  have small : v % 2 ^ 64 = v := Nat.mod_eq_of_lt (holds ▸ readBytes_lt m' a 8)
  rw [writeBits_qword, small, Mem.read_writeAll_byteCells _ _ _ _ wf]
  split
  next inside => rw [← holds, readBytes_byte _ _ (by omega), Nat.add_sub_cancel' inside.1]
  next => exact h x

/-- So do several such qwords. -/
theorem sameMem_foldl_held {at_ : Nat → Nat} {is : List Nat} (h : sameMem m m') (wf : Mem.wf m = true) :
    sameMem (is.foldl (fun m i => Mem.writeBits m (8 * at_ i) 64 (readBytes m' (at_ i) 8)) m) m' := by
  induction is generalizing m with
  | nil => exact h
  | cons i is ih => exact ih (sameMem_writeBits_held h wf rfl) (Mem.writeBits_wf _ _ _ wf)

/-- The words of the granule of a byte, from the one at the byte on (R124). -/
def granuleWords (s : State) (b : Nat) : Vector Word 4 :=
  .ofFn fun i => BitVec.ofNat 64 (readBits s.mem (readPlace s.dev.migrations (8 * granuleByte b i.val)) 64)

/-- The writes of a granule's words. -/
def granuleWrites (b : Nat) (out : Vector Word 4) (addr : Word) : List Wr :=
  (List.finRange 4).map fun i => { bit := 8 * granuleByte b i.val, width := 64, value := (out.get i).toNat, addr }

/-- The other words of a granule lie beside the first. -/
theorem granuleByte_apart {i : Nat} (low : 0 < i) (high : i < 4) :
    b + 8 ≤ granuleByte b i ∨ granuleByte b i + 8 ≤ b := by
  simp only [granuleByte]
  omega

theorem granuleByte_zero (b : Nat) : granuleByte b 0 = b := by
  simp only [granuleByte]
  omega

/-- The standard handler of slot 0 adds, in the first word alone (R285). -/
theorem handle_add64 (d : Device) (ws : Vector Word 4) (h4 h5 : Word) : handle d 0 ws h4 h5 = (ws.set 0 (ws[0] + h4), ws[0]) := rfl

/-- Memory with one more in the word at a byte. -/
def incremented (m : List Host.Cell) (b : Nat) : List Host.Cell := Mem.writeBits m (8 * b) 64 ((readBits m (8 * b) 64 + 1) % 2 ^ 64)

/-- An increment of a flag is one of its word alone. -/
theorem sameMem_increment {s : State} (still : s.dev.migrations = []) (wf : Mem.wf s.mem = true) (addr : Word) :
    sameMem (writtenAt [] s.mem (granuleWrites b ((granuleWords s b).set 0 ((granuleWords s b)[0] + 1)) addr))
      (incremented s.mem b) := by
  have word : ∀ i : Fin 4, ((granuleWords s b).get i).toNat = readBytes s.mem (granuleByte b i.val) 8 := fun i => by
    have small := readBytes_lt s.mem (granuleByte b i.val) 8
    simp only [granuleWords, vector_get_eq, Vector.getElem_ofFn, still, readPlace, List.find?_nil, readBits_qword, BitVec.toNat_ofNat]
    exact Nat.mod_eq_of_lt small
  have first : ((granuleWords s b)[0] + 1).toNat = (readBits s.mem (8 * b) 64 + 1) % 2 ^ 64 := by
    have := word 0
    rw [show (0 : Fin 4).val = 0 from rfl, granuleByte_zero, ← readBits_qword] at this
    rw [BitVec.toNat_add, show (granuleWords s b)[0].toNat = _ from this]
    rfl
  have rest : ∀ i : Fin 4, 0 < i.val →
      (((granuleWords s b).set 0 ((granuleWords s b)[0] + 1)).get i).toNat = readBytes (incremented s.mem b) (granuleByte b i.val) 8 :=
    fun i low => by
      rw [show ((granuleWords s b).set 0 ((granuleWords s b)[0] + 1)).get i = (granuleWords s b).get i from
        vector_get_set_ne _ (i := 0) _ (by decide) (fun e => by rw [← e] at low; exact absurd low (by decide)), word,
        incremented, writeBits_qword, readBytes_writeAll_other wf (by have := granuleByte_apart (b := b) low i.isLt; omega)]
  have writes : writtenAt [] s.mem (granuleWrites b ((granuleWords s b).set 0 ((granuleWords s b)[0] + 1)) addr) =
      [1, 2, 3].foldl (fun m i => Mem.writeBits m (8 * granuleByte b i) 64 (readBytes (incremented s.mem b) (granuleByte b i) 8))
        (incremented s.mem b) := by
    have four : List.finRange 4 = [0, 1, 2, 3] := rfl
    have one := rest 1 (by decide)
    have two := rest 2 (by decide)
    have three := rest 3 (by decide)
    have zero : (((granuleWords s b).set 0 ((granuleWords s b)[0] + 1)).get 0).toNat = (readBits s.mem (8 * b) 64 + 1) % 2 ^ 64 := first
    simp only [writtenAt_nil, granuleWrites, four, List.map_cons, List.map_nil, List.foldl_cons, List.foldl_nil, zero, one, two, three]
    rw [show (0 : Fin 4).val = 0 from rfl, granuleByte_zero]
    rfl
  rw [writes]
  exact sameMem_foldl_held (fun _ => rfl) (Mem.writeBits_wf _ _ _ wf)

end Granule

/-- The commands that have arrived depend on what the two memories read alone. -/
theorem postedIn_sameMem {a a' c c' : List Host.Cell} (d : Device) (before : sameMem a a') (after : sameMem c c') :
    postedIn d a c = postedIn d a' c' := by
  simp only [postedIn, readBytes_sameMem before, readBytes_sameMem after]

/-- A handler engine writes the granule as the handler of the slot leaves it, and has commands arrive (R279, R397). -/
theorem Leads.serveAtomic (o : Origin) (b slot : Nat) (h4 h5 addr : Word) {s : State} (wf : Mem.wf s.mem = true) :
    ∃ s', Wrote s s' (writtenAt s.dev.migrations s.mem (granuleWrites b (handle s.dev slot (granuleWords s b) h4 h5).1 addr)) ∧
      Leads (serveAtomic o b slot h4 h5 addr) s (handle s.dev slot (granuleWords s b) h4 h5).2
        { s' with dev := { s'.dev with arrivals := s'.dev.arrivals ++ postedIn s.dev s.mem s'.mem } } := by
  obtain ⟨s', writes, wrote⟩ := Leads.applyWrites (originCores s o)
    (granuleWrites b (handle s.dev slot (granuleWords s b) h4 h5).1 addr) wf
  refine ⟨s', wrote, (Leads.getState s).bind (writes.bind ((Leads.getState s').bind (Leads.bind (a := ())
    (Leads.ite (fun none => ?_) fun _ => ?_) (Leads.pure _ _))))⟩
  · refine (Leads.pure () s').becomes ?_
    rw [List.isEmpty_iff.mp none, List.append_nil]
  · exact Leads.setDev _ s'

section Flags

variable {n uid b : Nat} {o : Origin} {ws : List Wr} {s : State} {a : Word}

/-- A flag that its handler engine refuses refuses the write. -/
theorem serveStore_flagRefused {k : Cause} (asked : s.dev.flagsAsked.contains (o.dev, uid) = false) (passes : firstRefused s uid o ws = none)
    (turn : engineTurn s.dev b (atomKey s.dev o b) = true) (refused : atomicRefused s o b 0 = some k) :
    conclude (serveStore n uid o ws (some ⟨a, some b⟩)) s =
      .next (onDev s (sends (takenOut s.dev n) o.dev 4 (.refuse uid o.tid (noteOf o k a 0)))) := by
  simp only [firstRefused, wasChecked] at passes
  refine Leads.conclude ((Leads.getState s).bind ((Leads.enabled (by rw [asked]; rfl) s).bind ?_))
  simp only [passes]
  refine (Leads.enabled turn s).bind ?_
  rw [refused]
  exact Leads.refusePosted n uid o s _ _ _

/-- The place that an atomic takes among those that handler engines have served where they stood (R280). -/
def placesWith (d : Device) (b key : Nat) : List (Option Target × Nat × Nat) :=
  (d.inPlace.filter fun x => x.2.1 == d.clock) ++ [(handlerEngine d b, d.clock, key)]

/-- The device once a flag has been counted, its data in memory `m`. -/
theorem arrived_servedAt_taken (d : Device) (n b key : Nat) (m m' : List Host.Cell) :
    (arrived (takenOut d n) m m').servedAt b key = (takenOut d n).noted (takenOut d n).poison d.tskSeen
      (d.arrivals ++ postedIn d m m') (placesWith d b key) := by
  have seen : (takenOut d n).tskSeen = d.tskSeen := takenOut_field Device.tskSeen (fun _ => rfl) d n
  have arrivals : (takenOut d n).arrivals ++ postedIn (takenOut d n) m m' = d.arrivals ++ postedIn d m m' :=
    takenOut_field (fun d => d.arrivals ++ postedIn d m m') (fun _ => rfl) d n
  have places : placesWith (takenOut d n) b key = placesWith d b key := takenOut_field (fun d => placesWith d b key) (fun _ => rfl) d n
  rw [← seen, ← arrivals, ← places]
  rfl

/-- A flag is counted with its data, in its turn at the handler engine. -/
theorem serveStore_counted (asked : s.dev.flagsAsked.contains (o.dev, uid) = false) (passes : firstRefused s uid o ws = none)
    (turn : engineTurn s.dev b (atomKey s.dev o b) = true) (taken : atomicRefused s o b 0 = none) (still : s.dev.migrations = [])
    (wf : Mem.wf s.mem = true) :
    let m := writtenAt [] s.mem ws
    ∃ s₁, Wrote s s₁ (incremented m b) ∧ conclude (serveStore n uid o ws (some ⟨a, some b⟩)) s = .next { s₁ with
      dev := { sends ((arrived (takenOut s.dev n) m (incremented m b)).servedAt b (atomKey s.dev o b)) o.dev 4 (.ack uid o.tid) with
        poison := s₁.dev.poison } } := by
  intro m
  obtain ⟨s₁, writes, wrote₁⟩ := Leads.storeWrites o ws wf
  rw [still] at wrote₁
  obtain ⟨s₂, wrote₂, counts⟩ := Leads.serveAtomic o b 0 1 0 a wrote₁.wf
  have still₁ : s₁.dev.migrations = [] := by rw [wrote₁.dev]; exact still
  rw [handle_add64, still₁] at wrote₂
  have wfm : Mem.wf m = true := writtenAt_wf _ _ wf
  have read₂ : sameMem s₂.mem (incremented m b) := fun x => by
    rw [wrote₂.mem x, sameMem_increment still₁ wrote₁.wf a x, incremented, incremented, readBits_sameMem wrote₁.mem]
    exact writeBits_sameMem wrote₁.mem wrote₁.wf wfm _ _ _ x
  have wrote : Wrote s s₂ (incremented m b) :=
    have both := wrote₁.trans wrote₂
    ⟨read₂, both.wf, both.tasks, both.held, both.dev, both.poison⟩
  refine ⟨s₂, wrote, Leads.conclude ((Leads.getState s).bind ((Leads.enabled (by rw [asked]; rfl) s).bind ?_))⟩
  simp only [firstRefused, wasChecked] at passes
  simp only [passes]
  refine (Leads.enabled turn s).bind ?_
  rw [taken]
  refine writes.bind (counts.bind ((Leads.setDev _ _).bind ((Leads.ackPosted n uid o _).becomes ?_)))
  have came : postedIn s₁.dev s₁.mem s₂.mem = postedIn s.dev m (incremented m b) := by
    rw [postedIn_sameMem _ wrote₁.mem read₂, wrote₁.dev]
    rfl
  have dev : ({ s₂.dev with arrivals := s₂.dev.arrivals ++ postedIn s₁.dev s₁.mem s₂.mem }).servedAt b (atomKey s.dev o b) =
      s.dev.noted s₂.dev.poison s.dev.tskSeen (s.dev.arrivals ++ postedIn s.dev m (incremented m b)) (placesWith s.dev b (atomKey s.dev o b)) := by
    rw [came, wrote.dev]
    rfl
  simp only [onDev, dev, sends_taken_noted, arrived_servedAt_taken]

end Flags

end Sys2Proof.Machine


namespace Sys2Proof.Machine

open Sys2Proof.Spec

/-! ## Requests at a target, by what they ask (R102, R111, R213, R325) -/

section Requests

variable {n uid : Nat} {o : Origin} {s : State} {p : Packet}

/-- A write through ALIAS whose first block is refused is refused (R108, R326). -/
theorem serveAlias_refused {w : BlockWr} {rest : List BlockWr} {k : Cause} (refused : blockRefused s o w.ref = some k) :
    conclude (serveAlias n uid o (w :: rest)) s =
      .next (onDev s (sends (takenOut s.dev n) o.dev 4 (.refuse uid o.tid (noteOf o k w.addr w.index)))) := by
  have first : ((w :: rest).findSome? fun w => (blockRefused s o w.ref).map fun k => (k, w)) = some (k, w) := by simp [refused]
  refine Leads.conclude ((Leads.getState s).bind ?_)
  rw [first]
  exact Leads.refusePosted n uid o s _ _ _

/-- The codes and the scale of a block once an element of it has been written (R213). -/
def aliasOut (m : List Host.Cell) (w : BlockWr) : List Nat × Nat :=
  aliasWriteBlock w.ref.fmt.toNat w.ref.scaleFmt.toNat (w.ref.book.toList.map BitVec.toNat) w.ref.ascale.toNat
    ((List.range w.ref.block).map fun i => readBits m (w.ref.bit + i * w.ref.width) w.ref.width)
    (readBits m w.ref.scaleBit w.ref.scaleWidth) w.inBlock w.value.toNat

/-- Memory once the block has been written: its codes, and then its scale. -/
def aliasMem (m : List Host.Cell) (w : BlockWr) : List Host.Cell :=
  Mem.writeBits ((List.range w.ref.block).foldl (fun m' i => Mem.writeBits m' (w.ref.bit + i * w.ref.width) w.ref.width
    ((aliasOut m w).1.getD i 0)) m) w.ref.scaleBit w.ref.scaleWidth (aliasOut m w).2

/-- The writes of a block. -/
def aliasWrites (m : List Host.Cell) (w : BlockWr) : List Wr :=
  (List.range w.ref.block).map (fun i =>
    { bit := w.ref.bit + i * w.ref.width, width := w.ref.width, value := (aliasOut m w).1.getD i 0, addr := w.addr }) ++
  [{ bit := w.ref.scaleBit, width := w.ref.scaleWidth, value := (aliasOut m w).2, addr := w.addr }]

theorem writtenAt_aliasWrites (m : List Host.Cell) (w : BlockWr) : writtenAt [] m (aliasWrites m w) = aliasMem m w := by
  rw [writtenAt_nil, aliasWrites, List.foldl_append, List.foldl_map]
  rfl

/-- One write through ALIAS makes its block whole. -/
theorem Leads.serveBlock (o : Origin) (w : BlockWr) {s : State} (still : s.dev.migrations = []) (wf : Mem.wf s.mem = true) :
    ∃ s', Leads (serveBlock o w) s () s' ∧ Wrote s s' (aliasMem s.mem w) := by
  obtain ⟨s', writes, wrote⟩ := Leads.applyWrites (originCores s o) (aliasWrites s.mem w) wf
  rw [still, writtenAt_aliasWrites] at wrote
  refine ⟨s', (Leads.getState s).bind ?_, wrote⟩
  simp only [still, readPlace, List.find?_nil]
  exact writes

theorem serveAlias_made {w : BlockWr} (passes : blockRefused s o w.ref = none) (still : s.dev.migrations = []) (wf : Mem.wf s.mem = true) :
    ∃ s₁, Wrote s s₁ (aliasMem s.mem w) ∧ conclude (serveAlias n uid o [w]) s = .next { s₁ with
      dev := { sends (takenOut s.dev n) o.dev 4 (.ack uid o.tid) with poison := s₁.dev.poison } } := by
  obtain ⟨s₁, writes, wrote⟩ := Leads.serveBlock o w still wf
  have none : (([w] : List BlockWr).findSome? fun w => (blockRefused s o w.ref).map fun k => (k, w)) = none := by simp [passes]
  refine ⟨s₁, wrote, Leads.conclude ((Leads.getState s).bind ?_)⟩
  rw [none]
  refine (writes.bind (Leads.pure () s₁)).bind ((Leads.ackPosted n uid o s₁).becomes ?_)
  rw [onDev, sends_taken_wrote n wrote]

/-- A question for a plane is answered whatever the ingress grants (R204). -/
theorem serveRead_plane {src : BitVec 8} {a : Word} {w r : Nat} : conclude (serveRead n uid src o a (.plane w r)) s =
    .next (onDev s (sends (takenOut s.dev n) o.dev 4
      (.reply uid o.tid o.eng a (.value (if planeThere s o.tenant a w r then 1 else 0) 1 false)))) :=
  Leads.conclude ((Leads.getState s).bind (Leads.answerWaiting n uid o s _ _))

/-- What another device's read is answered where the ingress lets it in and it leads to storage here. -/
def readReply (s : State) (o : Origin) (bit w : Nat) : Reply :=
  let b := readPlace s.dev.migrations bit
  if bitsGranted s o.tenant o.level .read bit w then
    .value (BitVec.ofNat 64 (readBits s.mem b w)) w (rangePoisoned s.dev.poison (b / 8) ((b % 8 + w + 7) / 8))
  else .refused .access

section Reads

variable {src : BitVec 8} {a : Word} {want : Want} (data : ∀ w r, want ≠ .plane w r)

include data

/-- A read that the ingress does not let in is refused. -/
theorem serveRead_shut (shut : ingressGrants s o.tenant o.level .read src = false) : conclude (serveRead n uid src o a want) s =
    .next (onDev s (sends (takenOut s.dev n) o.dev 4 (.reply uid o.tid o.eng a (.refused .access)))) := by
  refine Leads.conclude ((Leads.getState s).bind ?_)
  split
  next w r => exact absurd rfl (data w r)
  next => exact Leads.ite (fun _ => Leads.answerWaiting n uid o s _ _) fun no => absurd (by rw [shut]; rfl) no

theorem serveRead_fails {k : Cause} (opens : ingressGrants s o.tenant o.level .read src = true)
    (fails : locateFor s o .read want a = .error (.cause k)) : conclude (serveRead n uid src o a want) s =
    .next (onDev s (sends (takenOut s.dev n) o.dev 4 (.reply uid o.tid o.eng a (.refused k)))) := by
  refine Leads.conclude ((Leads.getState s).bind ?_)
  split
  next w r => exact absurd rfl (data w r)
  next =>
    refine Leads.ite (fun yes => absurd yes (by rw [opens]; decide)) fun _ => ?_
    rw [fails]
    exact (Leads.pure _ s).bind (Leads.answerWaiting n uid o s _ _)

theorem serveRead_answers {bit w : Nat} (opens : ingressGrants s o.tenant o.level .read src = true)
    (leads : locateFor s o .read want a = .ok (bit, w, false)) : conclude (serveRead n uid src o a want) s =
    .next (onDev s (sends (takenOut s.dev n) o.dev 4 (.reply uid o.tid o.eng a (readReply s o bit w)))) := by
  refine Leads.conclude ((Leads.getState s).bind ?_)
  split
  next w r => exact absurd rfl (data w r)
  next =>
    refine Leads.ite (fun yes => absurd yes (by rw [opens]; decide)) fun _ => ?_
    rw [leads]
    refine (Leads.pure _ s).bind (Leads.ite (fun yes => absurd yes (by decide)) fun _ => Leads.ite (fun no => ?_) fun yes => ?_)
    · refine (Leads.answerWaiting n uid o s _ _).becomes ?_
      simp only [readReply]
      rw [if_neg (by simpa using no)]
    · refine (Leads.answerWaiting n uid o s _ _).becomes ?_
      simp only [readReply]
      rw [if_pos (by simpa using yes)]

end Reads

/-- Writes to another device's memory that this one's ingress does not let in are refused (R325). -/
theorem serveWrite_shut {a : Word} {want : Want} {v : Nat} {x : BitVec 16} {ws : List (Word × Want × Nat × BitVec 16)}
    (shut : ingressGrants s o.tenant o.level .write p.src = false) : conclude (serveWrite n p uid o ((a, want, v, x) :: ws) none) s =
      .next (onDev s (sends (takenOut s.dev n) o.dev 4 (.refuse uid o.tid (noteOf o .access a x)))) :=
  Leads.conclude ((Leads.getState s).bind (Leads.ite (fun _ => Leads.refusePosted n uid o s _ _ _)
    fun no => absurd (by rw [shut]; rfl) no))

section Writes

variable {ws : List (Word × Want × Nat × BitVec 16)} (opens : ingressGrants s o.tenant o.level .write p.src = true)

include opens

/-- A write with an element that leads to no storage here is refused whole. -/
theorem serveWrite_fails {k : Cause} {a : Word} {x : BitVec 16} (fails : translateAll s o ws [] s = .ok (.error (k, a, x), [])) :
    conclude (serveWrite n p uid o ws none) s =
      .next (onDev s (sends (takenOut s.dev n) o.dev 4 (.refuse uid o.tid (noteOf o k a x)))) := by
  refine (conclude_bind (a := s) rfl).trans ?_
  rw [if_neg (by rw [opens]; decide)]
  exact (conclude_bind fails).trans (Leads.conclude (Leads.refusePosted n uid o s k a x))

/-- A write all of whose elements lead to storage here is one to that storage. -/
theorem serveWrite_leads {here : List Wr} (leads : translateAll s o ws [] s = .ok (.ok here, [])) :
    conclude (serveWrite n p uid o ws none) s = conclude (serveStore n uid o here none) s := by
  refine (conclude_bind (a := s) rfl).trans ?_
  rw [if_neg (by rw [opens]; decide)]
  exact conclude_bind leads

end Writes

/-! ## Atomics and flags from other devices (R123, R257, R280) -/

/-- An atomic that has been granted already goes on to its handler engine. -/
theorem serveRemoteAtomic_granted {slot : BitVec 5} {h4 h5 a : Word} {posted : Bool} {byte : Nat}
    (granted : flagGranted s.dev o uid = some byte) : conclude (serveRemoteAtomic n p uid o slot h4 h5 posted a) s =
      .next (onDev s { s.dev with
        flagsGranted := s.dev.flagsGranted.filter fun x => ¬ (x.1 = o.dev ∧ x.2.1 = uid)
        remoteParts := if o.dev = s.dev.devid then s.dev.remoteParts.eraseP fun x => x.uid == uid else s.dev.remoteParts
        rx := s.dev.rx.set n { p with body := .atomic uid o byte slot h4 h5 posted true a } }) := by
  refine Leads.conclude ((Leads.getState s).bind ?_)
  rw [granted]
  refine (Leads.setDev _ s).bind ((Leads.setDev _ _).becomes ?_)
  simp only [onDev, beq_eq_decide, Bool.decide_and, decide_eq_true_eq, decide_not]

section Atomic

variable {a : Word} (opens : ingressGrants s o.tenant o.level .atomic p.src = true) {bit w : Nat} {z : Bool}
  (leads : locateFor s o .atomic (.bytes 8) a = .ok (bit, w, z))

include opens leads

/-- An atomic of another device that leads to storage here goes on to its handler engine. -/
theorem serveRemoteAtomic_leads {slot : BitVec 5} {h4 h5 : Word} {posted : Bool} (new : flagGranted s.dev o uid = none) :
    conclude (serveRemoteAtomic n p uid o slot h4 h5 posted a) s =
      .next (onDev s { s.dev with rx := s.dev.rx.set n { p with body := .atomic uid o (bit / 8) slot h4 h5 posted false a } }) := by
  refine Leads.conclude ((Leads.getState s).bind ?_)
  rw [new]
  refine Leads.ite (fun yes => absurd yes (by rw [opens]; decide)) fun _ => ?_
  rw [leads]
  exact (Leads.pure _ s).bind (Leads.setDev _ s)

/-- Another device that asks for a flag is told whether its handler engine takes it. -/
theorem serveFlagAsk_told : conclude (serveFlagAsk n uid p.src o a) s = .next (onDev s (match atomicRefused s o (bit / 8) 0 with
    | some k => sends (takenOut s.dev n) p.src 4 (.flagRefuse uid o.dev (noteOf o k a 0))
    | none => sends { takenOut s.dev n with flagsGranted := s.dev.flagsGranted ++ [(o.dev, uid, bit / 8)] } p.src 4
        (.flagGrant uid o.dev))) := by
  refine Leads.conclude ((Leads.getState s).bind (Leads.ite (fun yes => absurd yes (by rw [opens]; decide)) fun _ => ?_))
  rw [leads]
  refine (Leads.pure _ s).bind ?_
  cases refused : atomicRefused s o (bit / 8) 0 with
  | some k =>
    simp only [refused]
    exact (Leads.setDev _ s).bind (Leads.setDev _ _)
  | none =>
    have granted : (takenOut s.dev n).flagsGranted = s.dev.flagsGranted := takenOut_field Device.flagsGranted (fun _ => rfl) _ _
    simp only [refused]
    rw [← granted]
    exact (Leads.setDev _ s).bind ((Leads.setDev _ _).bind (Leads.setDev _ _))

end Atomic

/-! ## The event of a request at its target (R102, R280) -/

/-- What a target does with a request once nothing stands before it. -/
def serveBody (n : Nat) (p : Packet) (d : Device) (b : Body) : M Unit :=
  match b with
  | .atomic _ o byte _ _ _ _ _ _ => do
    enabled (p.reached.isNone && mayReach d byte (atomKey d o byte))
    setDev fun d => { d with rx := d.rx.set n { p with reached := some d.clock } }
  | .store uid o ws flag => serveStore n uid o ws flag
  | .aliasStore uid o ws => serveAlias n uid o ws
  | .read uid o addr want => serveRead n uid p.src o addr want
  | .write uid o ws flag => serveWrite n p uid o ws flag
  | .remoteAtomic uid o slot h4 h5 posted addr => serveRemoteAtomic n p uid o slot h4 h5 posted addr
  | .flagAsk uid o addr => serveFlagAsk n uid p.src o addr
  | _ => notNow

section Event

variable (rx : s.dev.rx[n]? = some p) (calm : behind s.dev n p.body = false)

include rx calm

theorem memoryRequest_serves {b : Body} (body : p.body = b) : exec (.memoryRequest n) s = conclude (serveBody n p s.dev b) s := by
  subst body
  have takes : rxAt n [] s = .ok (p, []) := by
    show (match s.dev.rx[n]? with | some p => pure p | none => notNow : M Packet) [] s = _
    rw [rx]
    rfl
  have passes : enabled (!behind s.dev n p.body) [] s = .ok ((), []) := by rw [calm]; rfl
  exact (conclude_bind takes).trans ((conclude_bind (a := s.dev) rfl).trans (conclude_bind passes))

/-- An atomic reaches its handler engine, where no later one has been served (R280). -/
theorem memoryRequest_reaches {byte : Nat} {slot : BitVec 5} {h4 h5 a : Word} {posted fl : Bool}
    (body : p.body = .atomic uid o byte slot h4 h5 posted fl a) (new : p.reached = none) :
    exec (.memoryRequest n) s = .next (if mayReach s.dev byte (atomKey s.dev o byte) then
      onDev s { s.dev with rx := s.dev.rx.set n { p with reached := some s.dev.clock } } else s) := by
  rw [memoryRequest_serves rx calm body, serveBody]
  by_cases may : mayReach s.dev byte (atomKey s.dev o byte) = true
  · rw [if_pos may]
    exact Leads.conclude ((Leads.enabled (by rw [new, may]; rfl) s).bind (Leads.setDev _ s))
  · simp [conclude, may]

end Event

end Requests

end Sys2Proof.Machine

section

open Sys2Proof Sys2Proof.Machine Sys2Proof.Spec

/-- Settles O36: what each kind of request leads to at its target, one lemma for each outcome above. -/
theorem memoryTargets : Obligations.MemoryTargets := by
  unfold Obligations.MemoryTargets
  intro n s p rx calm held wf
  have serves {b : Body} (body : p.body = b) := memoryRequest_serves rx calm body
  refine ⟨?store, ?flagged, ?aliased, ?atomic, ?read, ?write, ?remote, ?ask⟩
  case store =>
    refine fun uid o ws body asked => ⟨fun passes => ?_, fun pre w post unchecked split before fails => ?_⟩
    · obtain ⟨s₁, wrote, ends⟩ := serveStore_made (n := n) asked (firstRefused_none passes) wf
      exact serves_of_wrote held wrote ((serves body).trans ends)
    · subst split
      exact (serves body).trans (serveStore_refused (flag := none) asked (firstRefused_some unchecked before fails))
  case flagged =>
    refine fun uid o ws a b body asked granted turn => ⟨fun k refused => ?_, fun taken _ still => ?_⟩
    · exact (serves body).trans (serveStore_flagRefused asked (firstRefused_none (.inr granted)) turn refused)
    · obtain ⟨s₁, wrote, ends⟩ := serveStore_counted (n := n) (a := a) asked (firstRefused_none (.inr granted)) turn taken still wf
      exact serves_of_wrote held wrote ((serves body).trans ends)
  case aliased =>
    refine fun uid o w rest body => ⟨fun k refused => (serves body).trans (serveAlias_refused refused), fun alone passes still => ?_⟩
    subst alone
    obtain ⟨s₁, wrote, ends⟩ := serveAlias_made (n := n) (uid := uid) passes still wf
    exact serves_of_wrote held wrote ((serves body).trans ends)
  case atomic => exact fun uid o byte slot h4 h5 posted fl a body new => memoryRequest_reaches rx calm body new
  case read =>
    refine fun uid o a want body => ⟨fun w r plane => ?_, fun shut data => (serves body).trans (serveRead_shut data shut),
      fun opens => ⟨fun k data fails => (serves body).trans (serveRead_fails data opens fails),
        fun bit w data leads => (serves body).trans (serveRead_answers data opens leads)⟩⟩
    subst plane
    exact (serves body).trans (serveRead_plane (src := p.src))
  case write =>
    intro uid o a want v x ws body
    have served := serves body
    rw [serveBody] at served
    refine ⟨fun shut => served.trans (serveWrite_shut shut),
      fun opens => ⟨fun k a' x' fails => served.trans (serveWrite_fails opens fails), fun here leads granted asked => ?_⟩⟩
    obtain ⟨s₁, wrote, ends⟩ := serveStore_made (n := n) asked (firstRefused_none (.inr granted)) wf
    exact serves_of_wrote held wrote (served.trans ((serveWrite_leads opens leads).trans ends))
  case remote =>
    refine fun uid o slot h4 h5 posted a body => ⟨fun byte granted => ?_, fun new opens bit w z leads => ?_⟩
    · exact (serves body).trans (serveRemoteAtomic_granted granted)
    · exact (serves body).trans (serveRemoteAtomic_leads opens leads new)
  case ask => exact fun uid o a body opens bit w z leads =>
    (serves body).trans (serveFlagAsk_told opens leads)

end
